-- ==== Sys2Proof/Word.lean ====
section
/-! DEFINITION. The word types of the block: the 32-bit register word of the bus (spec/20_memory.md R56), the 64-bit
command word of the command port (spec/30_encoding.md R70, R71), and a byte. -/

namespace Sys2Proof

/-- One register of the bus: every access is one 32-bit word (R56). -/
abbrev Word := BitVec 32

/-- One command word (R71: "Every command word has one length, 64 bits"). -/
abbrev Cmd := BitVec 64

/-- An 8-bit value: opcodes, status, fault and refusal codes (R28 to R31). -/
abbrev Byte := BitVec 8

/-- The register word with exactly bit `n` set: the spec's `1 << n` (R20). -/
def bit (n : Nat) : Word := BitVec.ofNat 32 (2 ^ n)

end Sys2Proof
end

