-- ==== Sys2Proof/Machine/Codec.lean ====
section
/-! DEFINITION. The pure functions of the codec (spec/42_calendar.md R115 to R121, R133) and of the wakeup encoder
(spec/43_wakeup.md R140), on exact natural numbers. -/

namespace Sys2Proof.Machine

/-- `ENC_OK(v, tw, uw)` (R115). -/
def encOk (v tw uw : Nat) : Bool := decide (v ≤ 99) && decide (v / 10 < 2 ^ tw) && decide (v % 10 < 2 ^ uw)

/-- `BCDPAIR(v)` (R116): tens in bits [7:4], units in bits [3:0]. -/
def bcdPair (v : Nat) : Nat := (v / 10) * 16 + v % 10

/-- `DEC(t, u)` (R117): no failure. -/
def dec (t u : Nat) : Nat := t * 10 + u

/-- `TW(f)` (R84, R118): the tens width of field select `f`; none is defined for 7 (R76). -/
def tensWidth (f : Nat) : Option Nat :=
  match f with
  | 0 => some 3
  | 1 => some 3
  | 2 => some 2
  | 3 => some 0
  | 4 => some 2
  | 5 => some 1
  | 6 => some 4
  | _ => none

/-- `UW(f)` (R84, R118). -/
def unitsWidth (f : Nat) : Option Nat :=
  match f with
  | 0 => some 4
  | 1 => some 4
  | 2 => some 4
  | 3 => some 3
  | 4 => some 4
  | 5 => some 4
  | 6 => some 4
  | _ => none

/-- `LEAP(y)` (R121). -/
def leap (y : Nat) : Bool := (y % 4 == 0 && y % 100 != 0) || y % 400 == 0

/-- `DAYS_IN(y, m)` (R121), for months 1 to 12. -/
def daysIn (y m : Nat) : Nat :=
  match m with
  | 2 => if leap y then 29 else 28
  | 4 => 30
  | 6 => 30
  | 9 => 30
  | 11 => 30
  | _ => 31

/-- `SNAP_OK(y, mo, d, h, mi, s)` (R133). -/
def snapOk (y mo d h mi s : Nat) : Bool :=
  decide (1 ≤ mo) && decide (mo ≤ 12) && decide (1 ≤ d) && decide (d ≤ daysIn y mo)
    && decide (h ≤ 23) && decide (mi ≤ 59) && decide (s ≤ 59)

/-- `EPOCH` (spec/00_scope.md R14): the stored year field holds `year - 1970`. -/
def epoch : Nat := 1970

/-- The year domain, YEAR_MIN to YEAR_MAX (R14, R120). -/
def yearOk (y : Nat) : Bool := decide (1970 ≤ y) && decide (y ≤ 2069)
/-- The month domain (R120). -/
def monthOk (m : Nat) : Bool := decide (1 ≤ m) && decide (m ≤ 12)
/-- The day domain (R120). -/
def dayOk (d : Nat) : Bool := decide (1 ≤ d) && decide (d ≤ 31)
/-- The weekday domain (R120). -/
def weekdayOk (v : Nat) : Bool := decide (1 ≤ v) && decide (v ≤ 7)
/-- The hour domain (R120). -/
def hourOk (v : Nat) : Bool := decide (v ≤ 23)
/-- The minute and second domain (R120). -/
def sixtyOk (v : Nat) : Bool := decide (v ≤ 59)

/-- `DRWORD` of a date with weekday 1 (R86, R130): year, month, day. -/
def dateWord (y m d : Nat) : Nat := bcdPair (y - epoch) * 2 ^ 16 + 2 ^ 13 + bcdPair m * 2 ^ 8 + bcdPair d

/-- `TRWORD` with PM = 0 (R85, R131): hour, minute, second. -/
def timeWord (h mi s : Nat) : Nat := bcdPair h * 2 ^ 16 + bcdPair mi * 2 ^ 8 + bcdPair s

/-- `WK_ENC(n)` (R140): the clock-select code and the register value, or UNREPRESENTABLE. -/
def wkEnc (n : Nat) : Option (Nat × Nat) :=
  if 65536 < n then
    if n - 65537 ≤ 65535 then some (0b110, n - 65537) else none
  else if n = 0 then none
  else some (0b100, n - 1)

/-- `WK_SEL(n)` (R140). -/
def wkSel (n : Nat) : Nat := if 65536 < n then 0b110 else 0b100

/-- `WK_VAL(n)` (R140). -/
def wkVal (n : Nat) : Nat :=
  match wkEnc n with
  | some (_, v) => v
  | none => 0

/-- `WK_OK(n)` (R140). -/
def wkOk (n : Nat) : Bool := (wkEnc n).isSome

/-- The wakeup period in ck_spre ticks of a clock-select code and a reload value (R82, R142); the spec gives none for the
other codes. -/
def wakeupPeriod (code wut : Nat) : Option Nat :=
  match code with
  | 0b100 => some (wut + 1)
  | 0b110 => some (wut + 65537)
  | _ => none

end Sys2Proof.Machine
end

