-- ==== Sys2Proof/Config.lean ====
section
/-! DEFINITION. What an implementation fixes. The parameters of spec/00_scope.md R15, R16 and R18 are one record of plain
data, `Params`: State carries it as a launch input that no step writes, so that every statement about a state holds for
every value of every parameter ("A model takes each as an argument", R15, R19). CAL_TICK, which the spec leaves open, is an
uninterpreted constant. -/

namespace Sys2Proof

/-- The parameters of R15, R16 and R18. -/
structure Params where
  /-- RTC_BASE (R15) -/
  rtcBase : Word
  /-- EXTI_BASE (R15) -/
  extiBase : Word
  /-- PWR_BASE (R15) -/
  pwrBase : Word
  /-- RCC_BASE (R15) -/
  rccBase : Word
  /-- N_LINES: lines 0..N_LINES-1 exist (R15) -/
  nLines : Nat
  /-- PREDIV_S_WIDTH (R15) -/
  predivSWidth : Nat
  /-- PREDIV_A_WIDTH (R15) -/
  predivAWidth : Nat
  /-- RSF_PROTECTED: whether RTC_ISR.RSF is write-protected (R16, R42) -/
  rsfProtected : Bool
  /-- SWIER_NEEDS_IMR: whether a SWIER write pends only an unmasked line (R16, R182) -/
  swierNeedsImr : Bool
  /-- DOMRST_BIT: the backup-domain reset bit of RCC_CSR (R18) -/
  domrstBit : Nat
  /-- RTCSEL_LSB: the low bit of the clock-source mux field of RCC_CSR (R18, R108) -/
  rtcselLsb : Nat
deriving DecidableEq, Repr

/-- The defaults of R15, R16 and R18. RTCSEL_LSB has no default in the spec: 17 is the model's own value, the lowest pair of
bits that overlaps no field of RCC_CSR when DOMRST_BIT is 16. DESIGN CHOICE (assumption 2), unsafe. -/
def Params.default : Params where
  rtcBase := 0x40002800#32
  extiBase := 0x40010400#32
  pwrBase := 0x40007000#32
  rccBase := 0x40023800#32
  nLines := 24
  predivSWidth := 15
  predivAWidth := 7
  rsfProtected := true
  swierNeedsImr := true
  domrstBit := 16
  rtcselLsb := 17

/-- CAL_TICK (R16, R176): the calendar's advance by one tick, from the values of RTC_TR and RTC_DR. OPEN in the spec, so it
has no body: nothing can be proved of its value (assumption 3). -/
opaque calTick : Word → Word → Word × Word

end Sys2Proof
end

