-- ==== Sys2Proof/Syntax.lean ====
section
/-! DEFINITION. The commands of the block: one constructor per row of spec/opcode_table.json (spec/30_encoding.md R73), with
the operands of its format (R72) at the widths of spec/00_scope.md R17. -/

namespace Sys2Proof

/-- The four events, in the order of their codes 0..3 (R75). -/
inductive Event where
  | alarmA | alarmB | wakeup | timestamp
deriving DecidableEq, Repr

/-- A command with its operands, in the operand order of R78. -/
inductive Instr where
  /-- 0x01, format B (R122) -/
  | setSeconds (v : BitVec 8)
  /-- 0x02, format B (R123) -/
  | setMinutes (v : BitVec 8)
  /-- 0x03, format B (R124) -/
  | setHours (v : BitVec 8)
  /-- 0x04, format B (R125) -/
  | setWeekday (v : BitVec 8)
  /-- 0x05, format B (R126) -/
  | setDay (v : BitVec 8)
  /-- 0x06, format B (R127) -/
  | setMonth (v : BitVec 8)
  /-- 0x07, format Y (R128) -/
  | setYear (y : BitVec 16)
  /-- 0x08, format D (R130) -/
  | setDate (y : BitVec 16) (m d : BitVec 8)
  /-- 0x09, format T (R131) -/
  | setDatetime (y : BitVec 16) (m d h mi sec : BitVec 8)
  /-- 0x0A, format N (R132) -/
  | getDatetime
  /-- 0x0B, format P (R135): synchronous, asynchronous -/
  | setPrescalers (sync : BitVec 16) (async : BitVec 8)
  /-- 0x10, format W (R143) -/
  | enableWakeup (n : BitVec 32)
  /-- 0x11, format N (R144) -/
  | disableWakeup
  /-- 0x12, format W (R145) -/
  | wakeupTimer (val : BitVec 32)
  /-- 0x20, format E (R149) -/
  | listen (e : Event)
  /-- 0x21, format E (R150) -/
  | unpendEvent (e : Event)
  /-- 0x22, format L (R152) -/
  | pendLine (l : BitVec 8)
  /-- 0x23, format L (R153) -/
  | unpendLine (l : BitVec 8)
  /-- 0x24, format L (R154) -/
  | isPendingLine (l : BitVec 8)
  /-- 0x30, format C (R137): the field select of R76 (7 is undefined), the value -/
  | bcdEncode (f : BitVec 3) (v : BitVec 8)
  /-- 0x31, format K (R138): tens, units -/
  | bcdDecode (t u : BitVec 4)
  /-- 0x40, format BL (R110): bypass, synchronous, asynchronous -/
  | bringupLse (bypass : BitVec 1) (sync : BitVec 16) (async : BitVec 8)
  /-- 0x41, format P (R111): synchronous, asynchronous -/
  | bringupLsi (sync : BitVec 16) (async : BitVec 8)
deriving DecidableEq, Repr

/-- The pseudo-instruction BRINGUP_LSE_DEFAULT b (R79). -/
def Instr.bringupLseDefault (b : BitVec 1) : Instr := .bringupLse b 255 127

/-- The pseudo-instruction BRINGUP_LSI_DEFAULT (R79). -/
def Instr.bringupLsiDefault : Instr := .bringupLsi 249 127

end Sys2Proof
end

