-- ==== Sys2Proof/Machine/State.lean ====
section
/-! DEFINITION. The state of the block and of the registers it drives, as plain data (spec/10_state.md), the moves of the
other agents that a run is given (spec/60_exceptions.md R167), the reasons a step can stop, and the state after reset. -/

namespace Sys2Proof.Machine

/-- The two sequencers (R25): also the two issuing contexts (R164) and the values of `fault_seq` (R30). -/
inductive SeqId where
  | owner | irq
deriving DecidableEq, Repr

/-- The values of `clk_src` (R32). -/
inductive ClkSrc where
  | lse | lsi
deriving DecidableEq, Repr

/-- The hidden write-protection state of the RTC (R35). -/
inductive WpState where
  | locked | key1 | unlocked
deriving DecidableEq, Repr

/-- The eight operand latches `x[0]`..`x[7]` (R26). `none` is the spec's own "holds no value". -/
structure Latches where
  x0 : Option Word
  x1 : Option Word
  x2 : Option Word
  x3 : Option Word
  x4 : Option Word
  x5 : Option Word
  x6 : Option Word
  x7 : Option Word
deriving DecidableEq, Repr

/-- Every latch holds no value (R51). -/
def Latches.empty : Latches := ⟨none, none, none, none, none, none, none, none⟩

/-- The state of one sequencer (R26 to R29). -/
structure Seq where
  /-- a command is in flight (R28) -/
  busy : Bool
  /-- the opcode in flight (R28) -/
  op : Byte
  /-- the command word in flight (R74 check 5) -/
  word : Cmd
  /-- the micro-program counter (R27: "a natural number") -/
  pc : Nat
  /-- the operand latches (R26) -/
  x : Latches
  /-- the status register (R29) -/
  status : Byte
  /-- the result register (R29) -/
  res : BitVec 64
deriving DecidableEq, Repr

/-- The levels `lvl[17]`, `lvl[19]`, `lvl[20]` of the event signals into EXTI (R48 (4)). -/
structure Levels where
  l17 : Bool
  l19 : Bool
  l20 : Bool
deriving DecidableEq, Repr

/-- The command port (R70): the sequencer the host addresses, and the word it presents there, if any. -/
structure Port where
  seq : SeqId
  word : Option Cmd
deriving DecidableEq, Repr

/-- One step the environment may take (R174 to R184). Where the rule says the step "may also set WUF", `wuf` says whether it
does. -/
inductive Draw where
  /-- `INITF <- 1; RSF <- 0` (R174) -/
  | initfSet
  /-- `INITF <- 0` (R174) -/
  | initfClear
  /-- `RSF <- 1` (R175) -/
  | rsfSet
  /-- `(cal_tr, cal_dr) <- CAL_TICK(cal_tr, cal_dr)` (R176) -/
  | calendarTick
  /-- `WUTWF <- 1` (R177) -/
  | wutwfSet
  /-- `WUTWF <- 0` (R177) -/
  | wutwfClear
  /-- `WUTF <- 1` (R178) -/
  | wutfSet (wuf : Bool)
  /-- `ALRAF <- 1` (R179) -/
  | alrafSet (wuf : Bool)
  /-- `ALRBF <- 1` (R179) -/
  | alrbfSet (wuf : Bool)
  /-- `TSF <- 1` (R180) -/
  | tsfSet (wuf : Bool)
  /-- `LSERDY <- 1` (R183) -/
  | lserdySet
  /-- `LSERDY <- 0` (R183) -/
  | lserdyClear
  /-- `LSIRDY <- 1` (R183) -/
  | lsirdySet
  /-- `LSIRDY <- 0` (R183) -/
  | lsirdyClear
deriving DecidableEq, Repr

/-- The values a system reset leaves unspecified, drawn by whoever asks for the reset (R53, R192: "unspec means unspecified: a
model draws any value"). -/
structure ResetDraw where
  /-- EXTI_PR (R53) -/
  extiPr : Word
  /-- EXTI_EMR, whose reset value the spec does not state -/
  extiEmr : Word
  /-- PWR_CSR, of which R53 states only that WUF is unspecified -/
  pwrCsr : Word
  /-- the bits of PWR_CR other than DBP and CWUF -/
  pwrCr : Word
  /-- the bits of RCC_APB1ENR other than PWREN -/
  apb1enr : Word
  /-- the bits of RCC_CSR that R53 does not name -/
  rccCsr : Word
deriving DecidableEq, Repr

/-- One move of a run: a host step (R166), an environment step (section 4), a named sequencer's next micro-op (R167), or a
reset (R190). -/
inductive Move where
  /-- the host presents a word to a sequencer (R166, R74): acceptance or refusal only -/
  | present (q : SeqId) (w : Cmd)
  /-- the host waits for `busy = 0` of a sequencer (R166) -/
  | await (q : SeqId)
  /-- the host reads `busy`, `status`, `res` or the marks: no effect (R166) -/
  | hostRead
  /-- the named sequencer takes its next micro-op (R167) -/
  | micro (q : SeqId)
  /-- the environment takes a step -/
  | env (d : Draw)
  /-- block reset (R190 (1)) -/
  | blockReset
  /-- system reset (R190 (2)) -/
  | systemReset (d : ResetDraw)
  /-- power-on without backup supply (R190 (4)) -/
  | powerOn (d : ResetDraw)
deriving DecidableEq, Repr

/-- The state. The fields `par`, `port` and `moves` are the MODEL'S OWN: the parameters as launch inputs, the command port of
R70, and the moves of the other agents that the run is given (assumption 1). -/
structure State where
  /-- the parameters of R15, R16, R18: written by no step -/
  par : Params
  /-- the OWNER sequencer (R25) -/
  owner : Seq
  /-- the IRQ sequencer (R25) -/
  irq : Seq
  /-- the sticky fault register: code (R30) -/
  faultCode : Byte
  /-- the sequencer that faulted (R30) -/
  faultSeq : SeqId
  /-- the command word in flight at the fault (R30) -/
  faultWord : Cmd
  /-- the sticky refusal mark: reason (R31) -/
  refusedReason : Byte
  /-- the refused word (R31) -/
  refusedWord : Cmd
  /-- construction (R32) -/
  constructed : Bool
  /-- the clock source, "no value while constructed = 0" (R32) -/
  clkSrc : Option ClkSrc
  /-- the key FSM (R35) -/
  wp : WpState
  /-- the date shadow lock (R48 (2), R61) -/
  drLock : Option Word
  /-- `cal_tr`: what RTC_TR presents (R36, R49) -/
  calTr : Word
  /-- `cal_dr`: what RTC_DR presents (R37, R49) -/
  calDr : Word
  /-- RTC_CR (R38) -/
  rtcCr : Word
  /-- RTC_ISR (R39) -/
  rtcIsr : Word
  /-- RTC_PRER (R40) -/
  rtcPrer : Word
  /-- RTC_WUTR (R41) -/
  rtcWutr : Word
  /-- EXTI_IMR (R45) -/
  extiImr : Word
  /-- EXTI_EMR (R45: "exists ... the block never touches it") -/
  extiEmr : Word
  /-- EXTI_RTSR (R45) -/
  extiRtsr : Word
  /-- EXTI_FTSR (R45) -/
  extiFtsr : Word
  /-- EXTI_SWIER (R45) -/
  extiSwier : Word
  /-- EXTI_PR (R45) -/
  extiPr : Word
  /-- PWR_CR (R46) -/
  pwrCr : Word
  /-- PWR_CSR (R46) -/
  pwrCsr : Word
  /-- RCC_APB1ENR (R47) -/
  apb1enr : Word
  /-- RCC_CSR (R47) -/
  rccCsr : Word
  /-- the event levels (R48 (4)) -/
  lvl : Levels
  /-- the command port (R70) -/
  port : Port
  /-- the moves still to come (R167) -/
  moves : List Move
deriving DecidableEq, Repr

/-- Why the model stops with a fault. None of these is a fault of the block: the three faults of R158 are values of
`fault_code` in a next state. Each is a model error that the invariants of Safety.lean rule out; all are safe. -/
inductive Fault where
  /-- a micro-op reads a latch that holds no value (R26: "a model faults on such a read rather than choosing a value"). Safe. -/
  | latchWithoutValue
  /-- a bus access at an address that is none of the registers of R55. Safe. -/
  | unmappedAddress
  /-- a busy sequencer whose opcode has no micro-program. Safe. -/
  | noMicroProgram
deriving DecidableEq, Repr

/-- Why the model refuses to step. The five refusals of R162 are values of `refused_reason` in a next state, not these. -/
inductive Refusal where
  /-- raised by exec's arm of a command that has no meaning yet. Safe. -/
  | notModelled (mnemonic : String)
  /-- raised by step when the parameters are no configuration (R58: "refused at configuration time"; R108). Safe. -/
  | badConfiguration
deriving DecidableEq, Repr

/-- A sequencer after block reset (R51). The values of `op` and `word` are the model's own: DESIGN CHOICE (assumption 5). -/
def Seq.reset : Seq where
  busy := false
  op := 0#8
  word := 0#64
  pc := 0
  x := Latches.empty
  status := 0#8
  res := 0#64

/-- The machine after power-on without backup supply: all three resets of R192, the state S0 of spec/95_test_vectors.md, with
EXTI_PR and PWR_CSR.WUF drawn as 0 there (assumptions 4 and 5 name every value the spec does not state). -/
def State.reset : State where
  par := Params.default
  owner := Seq.reset
  irq := Seq.reset
  faultCode := 0#8
  faultSeq := .owner
  faultWord := 0#64
  refusedReason := 0#8
  refusedWord := 0#64
  constructed := false
  clkSrc := none
  wp := .locked
  drLock := none
  calTr := 0x00000000#32
  calDr := 0x00002101#32
  rtcCr := 0x00000000#32
  rtcIsr := 0x00000007#32
  rtcPrer := 0x007F00FF#32
  rtcWutr := 0x0000FFFF#32
  extiImr := 0#32
  extiEmr := 0#32
  extiRtsr := 0#32
  extiFtsr := 0#32
  extiSwier := 0#32
  extiPr := 0#32
  pwrCr := 0#32
  pwrCsr := 0#32
  apb1enr := 0#32
  rccCsr := 0#32
  lvl := ⟨false, false, false⟩
  port := ⟨.owner, none⟩
  moves := []

end Sys2Proof.Machine
end

