-- ==== Sys2Proof/Machine/Flags.lean ====
section
/-! DEFINITION. The flags: their positions in RTC_CR and RTC_ISR (spec/10_state.md R38, R39), the event triples (R44), the
ISR write values (spec/40_transaction.md R91, R92), the event levels, the edge detector and the interrupt request
(spec/60_exceptions.md R170). -/

namespace Sys2Proof.Machine

/-- `FIELD_RMW`'s combination (R22): the bits of `m` from `new`, the others from `old`. -/
def blend (m old new : Word) : Word := (old &&& ~~~m) ||| (new &&& m)

/-! ### RTC_ISR (R39) -/

/-- WUTWF, "wake timer write allowed" -/
def wutwf (s : State) : Bool := s.rtcIsr.getLsbD 2
/-- RSF, "registers synchronized" -/
def rsf (s : State) : Bool := s.rtcIsr.getLsbD 5
/-- INITF, "init flag" -/
def initf (s : State) : Bool := s.rtcIsr.getLsbD 6
/-- INIT, "enter init" -/
def initBit (s : State) : Bool := s.rtcIsr.getLsbD 7
/-- ALRAF -/
def alraf (s : State) : Bool := s.rtcIsr.getLsbD 8
/-- ALRBF -/
def alrbf (s : State) : Bool := s.rtcIsr.getLsbD 9
/-- WUTF -/
def wutf (s : State) : Bool := s.rtcIsr.getLsbD 10
/-- TSF -/
def tsf (s : State) : Bool := s.rtcIsr.getLsbD 11

/-- The rc_w0 bits, 5 and 8..15 (R39: "ISR_KEEP = 0x0000_FF20 sets exactly the rc_w0 bits"). -/
def isrKeep : Word := 0x0000FF20#32

/-- The word `ISR_SET_INIT(b)` writes (R91). -/
def isrSetInitWord (b : Bool) : Word := isrKeep ||| (if b then bit 7 else 0#32)

/-- The word `ISR_CLR(m)` writes after reading `v` (R92). -/
def isrClearWord (m v : Word) : Word := (isrKeep &&& ~~~m) ||| (v &&& bit 7)

/-! ### RTC_CR (R38) -/

/-- WUTE, the wake-timer enable -/
def wute (s : State) : Bool := s.rtcCr.getLsbD 10
/-- ALRAE, which gates the AlarmA draw (R179) -/
def alrae (s : State) : Bool := s.rtcCr.getLsbD 8
/-- ALRBE (R179) -/
def alrbe (s : State) : Bool := s.rtcCr.getLsbD 9
/-- TSE, which gates the timestamp draw (R180) -/
def tse (s : State) : Bool := s.rtcCr.getLsbD 11
/-- ALRAIE -/
def alraie (s : State) : Bool := s.rtcCr.getLsbD 12
/-- ALRBIE -/
def alrbie (s : State) : Bool := s.rtcCr.getLsbD 13
/-- WUTIE -/
def wutie (s : State) : Bool := s.rtcCr.getLsbD 14
/-- TSIE -/
def tsie (s : State) : Bool := s.rtcCr.getLsbD 15

/-! ### PWR and RCC (R46, R47) -/

/-- PWR_CR.DBP -/
def dbp (s : State) : Bool := s.pwrCr.getLsbD 8
/-- PWR_CSR.WUF -/
def wuf (s : State) : Bool := s.pwrCsr.getLsbD 0
/-- RCC_APB1ENR.PWREN -/
def pwren (s : State) : Bool := s.apb1enr.getLsbD 28
/-- RCC_CSR.LSION -/
def lsion (s : State) : Bool := s.rccCsr.getLsbD 0
/-- RCC_CSR.LSIRDY -/
def lsirdy (s : State) : Bool := s.rccCsr.getLsbD 1
/-- RCC_CSR.LSEON -/
def lseon (s : State) : Bool := s.rccCsr.getLsbD 8
/-- RCC_CSR.LSERDY -/
def lserdy (s : State) : Bool := s.rccCsr.getLsbD 9
/-- RCC_CSR RTC enable -/
def rtcEnabled (s : State) : Bool := s.rccCsr.getLsbD 22
/-- The domain-reset bit, at DOMRST_BIT (R107) -/
def domainHeld (s : State) : Bool := s.rccCsr.getLsbD s.par.domrstBit

/-! ### The event triples (R44, R147) -/

/-- The EXTI line of an event. -/
def eventLine : Event → Nat
  | .alarmA => 17
  | .alarmB => 17
  | .wakeup => 20
  | .timestamp => 19

/-- The enable bit of an event in RTC_CR. -/
def eventEnableBit : Event → Nat
  | .alarmA => 12
  | .alarmB => 13
  | .wakeup => 14
  | .timestamp => 15

/-- The status flag of an event in RTC_ISR. -/
def eventFlagBit : Event → Nat
  | .alarmA => 8
  | .alarmB => 9
  | .wakeup => 10
  | .timestamp => 11

/-! ### Levels, edges, request (R170) -/

/-- R170 (1): the line levels the registers give. -/
def levelsOf (s : State) : Levels where
  l17 := (alraf s && alraie s) || (alrbf s && alrbie s)
  l19 := tsf s && tsie s
  l20 := wutf s && wutie s

/-- R170 (2) for one line: whether going from `old` to `new` sets the pending bit of line `n`. -/
def edgeSets (s : State) (n : Nat) (old new : Bool) : Bool :=
  (!old && new && s.extiRtsr.getLsbD n) || (old && !new && s.extiFtsr.getLsbD n)

/-- The pending bits that the edges from the recorded levels to the present ones set. -/
def edgePending (s : State) : Word :=
  (if edgeSets s 17 s.lvl.l17 (levelsOf s).l17 then bit 17 else 0#32) |||
  (if edgeSets s 19 s.lvl.l19 (levelsOf s).l19 then bit 19 else 0#32) |||
  (if edgeSets s 20 s.lvl.l20 (levelsOf s).l20 then bit 20 else 0#32)

/-- R170 (1) and (2), R181: the levels recomputed after a step of any agent, and the edges' effect in that same step. -/
def detectEdges (s : State) : State :=
  { s with extiPr := s.extiPr ||| edgePending s, lvl := levelsOf s }

/-- R170 (4): the interrupt request the host sees on line `n`. -/
def interruptRequest (s : State) (n : Nat) : Bool := s.extiPr.getLsbD n && s.extiImr.getLsbD n

/-! ### The marks -/

/-- A fault is recorded (R30). -/
def faulted (s : State) : Bool := s.faultCode != 0#8

/-- A refusal is recorded (R31). -/
def refusedMark (s : State) : Bool := s.refusedReason != 0#8

end Sys2Proof.Machine
end

