-- ==== Sys2Proof/WellFormed.lean ====
section
/-! DEFINITION. What makes a command well formed. The operand widths are in the types of Syntax.lean; the one enumerated
field with an undefined value is the field select of BCD_ENCODE (spec/30_encoding.md R76). -/

namespace Sys2Proof

/-- R76: field selects 0..6 are defined, "The value 7 is undefined". -/
def fieldSelectDefined (f : BitVec 3) : Bool := f != 7#3

/-- A command whose enumerated fields are all defined (R74 check 2, R77). -/
def Instr.wellFormed : Instr → Bool
  | .setSeconds _ | .setMinutes _ | .setHours _ | .setWeekday _ | .setDay _ | .setMonth _ | .setYear _
  | .setDate _ _ _ | .setDatetime _ _ _ _ _ _ | .getDatetime | .setPrescalers _ _
  | .enableWakeup _ | .disableWakeup | .wakeupTimer _
  | .listen _ | .unpendEvent _ | .pendLine _ | .unpendLine _ | .isPendingLine _
  | .bcdDecode _ _ | .bringupLse _ _ _ | .bringupLsi _ _ => true
  | .bcdEncode f _ => fieldSelectDefined f

end Sys2Proof
end

