-- ==== Sys2Proof/Decode.lean ====
section
/-! DEFINITION. The decoder of the 64-bit command word, total and rejecting by name (spec/30_encoding.md R70 to R77); the
encoder, written from the same tables; and the assembler of R78. -/

namespace Sys2Proof

/-- Why a word is no command: the three causes of ILLEGAL_COMMAND (R74 check 2). -/
inductive DecodeError where
  /-- the opcode is not in the table of R73 -/
  | unassignedOpcode
  /-- a reserved-zero bit of the opcode's format (R72) is 1 -/
  | reservedBitSet
  /-- an enumerated field holds an undefined value (R76) -/
  | undefinedField
deriving DecidableEq, Repr

/-- The event code of format E (R75). -/
def eventCode : Event → BitVec 2
  | .alarmA => 0#2
  | .alarmB => 1#2
  | .wakeup => 2#2
  | .timestamp => 3#2

/-- The event of a code: all four values are defined (R75). -/
def eventOfCode (c : BitVec 2) : Event :=
  match c.toNat with
  | 0 => .alarmA
  | 1 => .alarmB
  | 2 => .wakeup
  | _ => .timestamp

/-- The opcode of a command, `w[63:56]` (R73). -/
def opcode : Instr → Byte
  | .setSeconds _ => 0x01#8
  | .setMinutes _ => 0x02#8
  | .setHours _ => 0x03#8
  | .setWeekday _ => 0x04#8
  | .setDay _ => 0x05#8
  | .setMonth _ => 0x06#8
  | .setYear _ => 0x07#8
  | .setDate _ _ _ => 0x08#8
  | .setDatetime _ _ _ _ _ _ => 0x09#8
  | .getDatetime => 0x0A#8
  | .setPrescalers _ _ => 0x0B#8
  | .enableWakeup _ => 0x10#8
  | .disableWakeup => 0x11#8
  | .wakeupTimer _ => 0x12#8
  | .listen _ => 0x20#8
  | .unpendEvent _ => 0x21#8
  | .pendLine _ => 0x22#8
  | .unpendLine _ => 0x23#8
  | .isPendingLine _ => 0x24#8
  | .bcdEncode _ _ => 0x30#8
  | .bcdDecode _ _ => 0x31#8
  | .bringupLse _ _ _ => 0x40#8
  | .bringupLsi _ _ => 0x41#8

/-- The field `w[lo + width - 1 : lo]` (R20). -/
def wordField (w : Cmd) (lo width : Nat) : BitVec width := w.extractLsb' lo width

/-- A word whose operand area ends at bit `used`: it is the command `i` when every reserved-zero bit `[55:used]` is 0 (R72). -/
def ifReservedZero (w : Cmd) (used : Nat) (i : Instr) : Except DecodeError Instr :=
  if wordField w used (56 - used) = 0 then .ok i else .error .reservedBitSet

/-- The decoder (R71 to R77): exactly one command, or the reason the word is illegal. -/
def decode (w : Cmd) : Except DecodeError Instr :=
  match (wordField w 56 8).toNat with
  | 0x01 => ifReservedZero w 8 (.setSeconds (wordField w 0 8))
  | 0x02 => ifReservedZero w 8 (.setMinutes (wordField w 0 8))
  | 0x03 => ifReservedZero w 8 (.setHours (wordField w 0 8))
  | 0x04 => ifReservedZero w 8 (.setWeekday (wordField w 0 8))
  | 0x05 => ifReservedZero w 8 (.setDay (wordField w 0 8))
  | 0x06 => ifReservedZero w 8 (.setMonth (wordField w 0 8))
  | 0x07 => ifReservedZero w 16 (.setYear (wordField w 0 16))
  | 0x08 => ifReservedZero w 32 (.setDate (wordField w 0 16) (wordField w 16 8) (wordField w 24 8))
  | 0x09 => .ok (.setDatetime (wordField w 0 16) (wordField w 16 8) (wordField w 24 8)
      (wordField w 32 8) (wordField w 40 8) (wordField w 48 8))
  | 0x0A => ifReservedZero w 0 .getDatetime
  | 0x0B => ifReservedZero w 24 (.setPrescalers (wordField w 0 16) (wordField w 16 8))
  | 0x10 => ifReservedZero w 32 (.enableWakeup (wordField w 0 32))
  | 0x11 => ifReservedZero w 0 .disableWakeup
  | 0x12 => ifReservedZero w 32 (.wakeupTimer (wordField w 0 32))
  | 0x20 => ifReservedZero w 2 (.listen (eventOfCode (wordField w 0 2)))
  | 0x21 => ifReservedZero w 2 (.unpendEvent (eventOfCode (wordField w 0 2)))
  | 0x22 => ifReservedZero w 8 (.pendLine (wordField w 0 8))
  | 0x23 => ifReservedZero w 8 (.unpendLine (wordField w 0 8))
  | 0x24 => ifReservedZero w 8 (.isPendingLine (wordField w 0 8))
  | 0x30 =>
    if fieldSelectDefined (wordField w 8 3) then ifReservedZero w 11 (.bcdEncode (wordField w 8 3) (wordField w 0 8))
    else .error .undefinedField
  | 0x31 => ifReservedZero w 8 (.bcdDecode (wordField w 4 4) (wordField w 0 4))
  | 0x40 => ifReservedZero w 25 (.bringupLse (wordField w 24 1) (wordField w 0 16) (wordField w 16 8))
  | 0x41 => ifReservedZero w 24 (.bringupLsi (wordField w 0 16) (wordField w 16 8))
  | _ => .error .unassignedOpcode

/-- The operand area `w[55:0]` of a command as a number: each field at its place, every reserved-zero bit 0 (R72). -/
def operandArea : Instr → Nat
  | .setSeconds v | .setMinutes v | .setHours v | .setWeekday v | .setDay v | .setMonth v => v.toNat
  | .setYear y => y.toNat
  | .setDate y m d => y.toNat + m.toNat * 2 ^ 16 + d.toNat * 2 ^ 24
  | .setDatetime y m d h mi sec =>
    y.toNat + m.toNat * 2 ^ 16 + d.toNat * 2 ^ 24 + h.toNat * 2 ^ 32 + mi.toNat * 2 ^ 40 + sec.toNat * 2 ^ 48
  | .getDatetime | .disableWakeup => 0
  | .setPrescalers sync async | .bringupLsi sync async => sync.toNat + async.toNat * 2 ^ 16
  | .enableWakeup v | .wakeupTimer v => v.toNat
  | .listen e | .unpendEvent e => (eventCode e).toNat
  | .pendLine l | .unpendLine l | .isPendingLine l => l.toNat
  | .bcdEncode f v => v.toNat + f.toNat * 2 ^ 8
  | .bcdDecode t u => u.toNat + t.toNat * 2 ^ 4
  | .bringupLse bypass sync async => sync.toNat + async.toNat * 2 ^ 16 + bypass.toNat * 2 ^ 24

/-- The command word of a command: opcode in `[63:56]`, operand area below (R71). -/
def encode (i : Instr) : Cmd := BitVec.ofNat 64 ((opcode i).toNat * 2 ^ 56 + operandArea i)

/-- What the decoder reads from a table word: the word is the whole instruction, 64 bits (R71), and reaches the port as one
value, so there is no byte order to choose. -/
def decodeTableWord (nbits w : Nat) : Option Instr :=
  if nbits ≤ 64 ∧ w < 2 ^ nbits then
    match decode (BitVec.ofNat 64 w) with
    | .ok i => some i
    | .error _ => none
  else none

/-- An operand as the assembler reads it: a number, or the name of an event or of a calendar field (R78). -/
inductive AsmOperand where
  | num (n : Nat)
  | event (e : Event)
  | field (code : BitVec 3)
deriving DecidableEq, Repr

/-- "Each operand must fit its field" (R78): the value at `width` bits, or nothing. -/
def fitsField (width n : Nat) : Option (BitVec width) := if n < 2 ^ width then some (BitVec.ofNat width n) else none

/-- The assembler of R78, after its line has been split into mnemonic and operands: the command, or nothing when the line is
rejected. The two pseudo-instructions of R79 are expanded. -/
def assemble : String → List AsmOperand → Option Instr
  | "SET_SECONDS", [.num v] => (fitsField 8 v).map .setSeconds
  | "SET_MINUTES", [.num v] => (fitsField 8 v).map .setMinutes
  | "SET_HOURS", [.num v] => (fitsField 8 v).map .setHours
  | "SET_WEEKDAY", [.num v] => (fitsField 8 v).map .setWeekday
  | "SET_DAY", [.num v] => (fitsField 8 v).map .setDay
  | "SET_MONTH", [.num v] => (fitsField 8 v).map .setMonth
  | "SET_YEAR", [.num y] => (fitsField 16 y).map .setYear
  | "SET_DATE", [.num y, .num m, .num d] => do
    return .setDate (← fitsField 16 y) (← fitsField 8 m) (← fitsField 8 d)
  | "SET_DATETIME", [.num y, .num m, .num d, .num h, .num mi, .num s] => do
    return .setDatetime (← fitsField 16 y) (← fitsField 8 m) (← fitsField 8 d)
      (← fitsField 8 h) (← fitsField 8 mi) (← fitsField 8 s)
  | "GET_DATETIME", [] => some .getDatetime
  | "SET_PRESCALERS", [.num s, .num a] => do return .setPrescalers (← fitsField 16 s) (← fitsField 8 a)
  | "ENABLE_WAKEUP", [.num n] => (fitsField 32 n).map .enableWakeup
  | "DISABLE_WAKEUP", [] => some .disableWakeup
  | "WAKEUP_TIMER", [.num n] => (fitsField 32 n).map .wakeupTimer
  | "LISTEN", [.event e] => some (.listen e)
  | "UNPEND_EVENT", [.event e] => some (.unpendEvent e)
  | "PEND_LINE", [.num l] => (fitsField 8 l).map .pendLine
  | "UNPEND_LINE", [.num l] => (fitsField 8 l).map .unpendLine
  | "IS_PENDING_LINE", [.num l] => (fitsField 8 l).map .isPendingLine
  | "BCD_ENCODE", [.field f, .num v] =>
    if fieldSelectDefined f then (fitsField 8 v).map (.bcdEncode f) else none
  | "BCD_DECODE", [.num t, .num u] => do return .bcdDecode (← fitsField 4 t) (← fitsField 4 u)
  | "BRINGUP_LSE", [.num b, .num s, .num a] => do
    return .bringupLse (← fitsField 1 b) (← fitsField 16 s) (← fitsField 8 a)
  | "BRINGUP_LSI", [.num s, .num a] => do return .bringupLsi (← fitsField 16 s) (← fitsField 8 a)
  | "BRINGUP_LSE_DEFAULT", [.num b] => (fitsField 1 b).map .bringupLseDefault
  | "BRINGUP_LSI_DEFAULT", [] => some .bringupLsiDefault
  | _, _ => none

end Sys2Proof
end

