-- ==== Sys2Proof/Machine/Operands.lean ====
section
/-! DEFINITION. The operand latches: what each format loads (spec/30_encoding.md R72), latch expressions, and which context
and construction state each command needs (R73). -/

namespace Sys2Proof.Machine

/-- The latches after acceptance (R26, R72): the format's fields, zero-extended, and no value anywhere else. -/
def loadedLatches : Instr → Latches
  | .setSeconds v | .setMinutes v | .setHours v | .setWeekday v | .setDay v | .setMonth v =>
    { Latches.empty with x0 := some (v.setWidth 32) }
  | .setYear y => { Latches.empty with x0 := some (y.setWidth 32) }
  | .setDate y m d =>
    { Latches.empty with x0 := some (y.setWidth 32), x1 := some (m.setWidth 32), x2 := some (d.setWidth 32) }
  | .setDatetime y m d h mi sec =>
    { Latches.empty with
      x0 := some (y.setWidth 32), x1 := some (m.setWidth 32), x2 := some (d.setWidth 32)
      x3 := some (h.setWidth 32), x4 := some (mi.setWidth 32), x5 := some (sec.setWidth 32) }
  | .getDatetime | .disableWakeup => Latches.empty
  | .setPrescalers sync async | .bringupLsi sync async =>
    { Latches.empty with x0 := some (sync.setWidth 32), x1 := some (async.setWidth 32) }
  | .enableWakeup v | .wakeupTimer v => { Latches.empty with x0 := some v }
  | .listen e | .unpendEvent e => { Latches.empty with x0 := some ((eventCode e).setWidth 32) }
  | .pendLine l | .unpendLine l | .isPendingLine l => { Latches.empty with x0 := some (l.setWidth 32) }
  | .bcdEncode f v => { Latches.empty with x0 := some (v.setWidth 32), x1 := some (f.setWidth 32) }
  | .bcdDecode t u => { Latches.empty with x0 := some (u.setWidth 32), x1 := some (t.setWidth 32) }
  | .bringupLse bypass sync async =>
    { Latches.empty with
      x0 := some (sync.setWidth 32), x1 := some (async.setWidth 32), x2 := some (bypass.setWidth 32) }

/-- A latch expression: its value, or `none` when a latch it reads holds no value (R26). -/
abbrev LExpr (α : Type) := Latches → Option α

/-- A constant. -/
def lconst {α : Type} (a : α) : LExpr α := fun _ => some a

/-- A function of `x[0]`. -/
def lx0 {α : Type} (f : Word → α) : LExpr α := fun x => x.x0.map f

/-- A function of `x[0]` and `x[1]`. -/
def lx01 {α : Type} (f : Word → Word → α) : LExpr α := fun x =>
  match x.x0, x.x1 with
  | some a, some b => some (f a b)
  | _, _ => none

/-- A function of `x[0]`, `x[1]` and `x[2]`. -/
def lx012 {α : Type} (f : Word → Word → Word → α) : LExpr α := fun x =>
  match x.x0, x.x1, x.x2 with
  | some a, some b, some c => some (f a b c)
  | _, _, _ => none

/-- A function of `x[0]` to `x[5]`. -/
def lx05 {α : Type} (f : Word → Word → Word → Word → Word → Word → α) : LExpr α := fun x =>
  match x.x0, x.x1, x.x2, x.x3, x.x4, x.x5 with
  | some a, some b, some c, some d, some e, some g => some (f a b c d e g)
  | _, _, _, _, _, _ => none

/-- A function of `x[1]`. -/
def lx1 {α : Type} (f : Word → α) : LExpr α := fun x => x.x1.map f
/-- A function of `x[2]`. -/
def lx2 {α : Type} (f : Word → α) : LExpr α := fun x => x.x2.map f
/-- A function of `x[3]`. -/
def lx3 {α : Type} (f : Word → α) : LExpr α := fun x => x.x3.map f
/-- A function of `x[4]`. -/
def lx4 {α : Type} (f : Word → α) : LExpr α := fun x => x.x4.map f
/-- A function of `x[5]`. -/
def lx5 {α : Type} (f : Word → α) : LExpr α := fun x => x.x5.map f
/-- A function of `x[6]`. -/
def lx6 {α : Type} (f : Word → α) : LExpr α := fun x => x.x6.map f
/-- A function of `x[7]`. -/
def lx7 {α : Type} (f : Word → α) : LExpr α := fun x => x.x7.map f

/-- A function of `x[0]` and `x[6]`. -/
def lx06 {α : Type} (f : Word → Word → α) : LExpr α := fun x =>
  match x.x0, x.x6 with
  | some a, some b => some (f a b)
  | _, _ => none

/-- `x[i] <- v` (R20); there are eight latches, so no other index occurs. -/
def setLatch (x : Latches) (i : Nat) (v : Word) : Latches :=
  match i with
  | 0 => { x with x0 := some v }
  | 1 => { x with x1 := some v }
  | 2 => { x with x2 := some v }
  | 3 => { x with x3 := some v }
  | 4 => { x with x4 := some v }
  | 5 => { x with x5 := some v }
  | 6 => { x with x6 := some v }
  | 7 => { x with x7 := some v }
  | _ => x

/-- The construction state a command's acceptance requires: the column "needs" of R73. -/
inductive Need where
  | constructed | any | notConstructed
deriving DecidableEq, Repr

/-- The column "needs" of R73. -/
def needOf : Instr → Need
  | .setSeconds _ | .setMinutes _ | .setHours _ | .setWeekday _ | .setDay _ | .setMonth _ | .setYear _
  | .setDate _ _ _ | .setDatetime _ _ _ _ _ _ | .getDatetime | .setPrescalers _ _
  | .enableWakeup _ | .disableWakeup | .wakeupTimer _ | .listen _ => .constructed
  | .unpendEvent _ | .pendLine _ | .unpendLine _ | .isPendingLine _ | .bcdEncode _ _ | .bcdDecode _ _ => .any
  | .bringupLse _ _ _ | .bringupLsi _ _ => .notConstructed

/-- The column "ctx" of R73: the owner context may issue every command, the interrupt context six of them (R164). -/
def contextAllows (q : SeqId) (i : Instr) : Bool :=
  match q with
  | .owner => true
  | .irq =>
    match i with
    | .unpendEvent _ | .pendLine _ | .unpendLine _ | .isPendingLine _ | .bcdEncode _ _ | .bcdDecode _ _ => true
    | .setSeconds _ | .setMinutes _ | .setHours _ | .setWeekday _ | .setDay _ | .setMonth _ | .setYear _
    | .setDate _ _ _ | .setDatetime _ _ _ _ _ _ | .getDatetime | .setPrescalers _ _
    | .enableWakeup _ | .disableWakeup | .wakeupTimer _ | .listen _
    | .bringupLse _ _ _ | .bringupLsi _ _ => false

/-- The sequencer of an identity (R25). -/
def seqOf (s : State) (q : SeqId) : Seq :=
  match q with
  | .owner => s.owner
  | .irq => s.irq

/-- The state with one sequencer's state replaced. -/
def setSeq (s : State) (q : SeqId) (c : Seq) : State :=
  match q with
  | .owner => { s with owner := c }
  | .irq => { s with irq := c }

end Sys2Proof.Machine
end

