-- ==== Sys2Proof/Machine/Ops.lean ====
section
/-! DEFINITION. The shared operations: the register bus with every register's read and write rule (spec/10_state.md R33 to R47,
spec/20_memory.md R54 to R63), the backup-domain reset (spec/41_clock_bringup.md R107), taking a fault and a refusal
(spec/60_exceptions.md R157, R162) and the resets that leave them (spec/70_reset_and_hazards.md R190 to R192). -/

namespace Sys2Proof.Machine

/-! ### The registers and their addresses -/

/-- The registers of the bus: those of R55, with EXTI_FTSR and EXTI_EMR, which R45 names and the block never accesses. -/
inductive Reg where
  | tr | dr | cr | isr | prer | wutr | wpr
  | imr | emr | rtsr | ftsr | swier | pr
  | pwrCr | pwrCsr
  | apb1enr | csr
deriving DecidableEq, Repr

/-- Every register once. -/
def allRegs : List Reg :=
  [.tr, .dr, .cr, .isr, .prer, .wutr, .wpr, .imr, .emr, .rtsr, .ftsr, .swier, .pr, .pwrCr, .pwrCsr, .apb1enr, .csr]

/-- `REG(name)`: base parameter plus offset (R21, R33, R45 to R47). -/
def regAddr (p : Params) : Reg → Word
  | .tr => p.rtcBase + 0x00#32
  | .dr => p.rtcBase + 0x04#32
  | .cr => p.rtcBase + 0x08#32
  | .isr => p.rtcBase + 0x0C#32
  | .prer => p.rtcBase + 0x10#32
  | .wutr => p.rtcBase + 0x14#32
  | .wpr => p.rtcBase + 0x24#32
  | .imr => p.extiBase + 0x00#32
  | .emr => p.extiBase + 0x04#32
  | .rtsr => p.extiBase + 0x08#32
  | .ftsr => p.extiBase + 0x0C#32
  | .swier => p.extiBase + 0x10#32
  | .pr => p.extiBase + 0x14#32
  | .pwrCr => p.pwrBase + 0x00#32
  | .pwrCsr => p.pwrBase + 0x04#32
  | .apb1enr => p.rccBase + 0x24#32
  | .csr => p.rccBase + 0x34#32

/-- The register at a bus address, if any: "The block reaches only the registers listed" (R54). -/
def regAt (p : Params) (a : Word) : Option Reg := allRegs.find? fun r => regAddr p r == a

/-- The bits of RCC_CSR that the fields of R47 occupy. -/
def csrFieldBits (p : Params) : List Nat := [0, 1, 8, 9, 10, p.domrstBit, p.rtcselLsb, p.rtcselLsb + 1, 22]

/-- What makes the parameters a configuration: bases that are multiples of 4 (R58), registers at addresses of their own, line
numbers and prescaler fields inside their registers (R40, R45; assumption 6), and RCC_CSR fields that do not overlap (R108). -/
def paramsOk (p : Params) : Bool :=
  p.rtcBase.toNat % 4 == 0 && p.extiBase.toNat % 4 == 0 && p.pwrBase.toNat % 4 == 0 && p.rccBase.toNat % 4 == 0
  && decide (allRegs.map (regAddr p)).Nodup
  && decide (20 < p.nLines) && decide (p.nLines ≤ 32)
  && decide (p.predivSWidth ≤ 16) && decide (p.predivAWidth ≤ 16)
  && decide (csrFieldBits p).Nodup && (csrFieldBits p).all (fun n => decide (n < 32))

/-! ### Masks -/

/-- The `n` low bits. -/
def lowMask (n : Nat) : Word := BitVec.ofNat 32 (2 ^ n - 1)

/-- TR_MASK (R36) -/
def trMask : Word := 0x007F7F7F#32
/-- DR_MASK (R37) -/
def drMask : Word := 0x00FFFF3F#32
/-- CR_MASK (R38) -/
def crMask : Word := 0x00FFFFFF#32
/-- The bits of RTC_ISR that are not reserved (R39) -/
def isrMask : Word := 0x0001FFFF#32
/-- WUT[15:0] (R41) -/
def wutrMask : Word := 0x0000FFFF#32
/-- PREDIV_S (R40) -/
def prescalerSMask (p : Params) : Word := lowMask p.predivSWidth
/-- PREDIV_A (R40) -/
def prescalerAMask (p : Params) : Word := lowMask p.predivAWidth <<< 16
/-- The fields of RTC_PRER (R40) -/
def prerMask (p : Params) : Word := prescalerSMask p ||| prescalerAMask p
/-- The lines that exist (R45) -/
def lineMask (p : Params) : Word := lowMask p.nLines
/-- The two bits of RTCSEL (R108) -/
def rtcselMask (p : Params) : Word := bit p.rtcselLsb ||| bit (p.rtcselLsb + 1)
/-- The fields of RCC_CSR that a write changes only while DBP = 1 (R109) -/
def csrGatedMask (p : Params) : Word := bit 8 ||| bit 10 ||| rtcselMask p ||| bit 22 ||| bit p.domrstBit
/-- The fields of RCC_CSR that a backup-domain reset clears (R107), LSERDY among them -/
def csrBackupMask (p : Params) : Word := bit 8 ||| bit 9 ||| bit 10 ||| rtcselMask p ||| bit 22

/-! ### The backup-domain reset (R107, R52) -/

/-- The backup domain at its reset values. -/
def backupDomainReset (s : State) : State :=
  { s with
    calTr := 0x00000000#32
    calDr := 0x00002101#32
    rtcCr := 0x00000000#32
    rtcIsr := 0x00000007#32
    rtcPrer := 0x007F00FF#32 &&& prerMask s.par
    rtcWutr := 0x0000FFFF#32
    wp := .locked
    drLock := none
    rccCsr := s.rccCsr &&& ~~~csrBackupMask s.par }

/-- "While the RCC_CSR domain-reset bit is 1, the backup domain is held in reset" (R107). -/
def holdDomain (s : State) : State := if domainHeld s then backupDomainReset s else s

/-- What follows any change of the registers, in the same step: the domain held in reset (R107), then levels and edges (R170). -/
def settle (s : State) : State := detectEdges (holdDomain s)

/-! ### Reads (R59, R61) -/

/-- The date shadow lock after a read of RTC_TR (R61); while the domain is held in reset it stays `none` (R107). -/
def captureLock (s : State) : Option Word := if domainHeld s then none else some s.calDr

/-- The value a register presents, and the state after the read: only RTC_TR and RTC_DR have a side effect (R61, R63). -/
def readReg (r : Reg) (s : State) : Word × State :=
  match r with
  | .tr => (s.calTr, { s with drLock := captureLock s })
  | .dr => (s.drLock.getD s.calDr, { s with drLock := none })
  | .cr => (s.rtcCr, s)
  | .isr => (s.rtcIsr, s)
  | .prer => (s.rtcPrer, s)
  | .wutr => (s.rtcWutr, s)
  | .wpr => (0x00000000#32, s)
  | .imr => (s.extiImr, s)
  | .emr => (s.extiEmr, s)
  | .rtsr => (s.extiRtsr, s)
  | .ftsr => (s.extiFtsr, s)
  | .swier => (s.extiSwier, s)
  | .pr => (s.extiPr, s)
  | .pwrCr => (s.pwrCr, s)
  | .pwrCsr => (s.pwrCsr, s)
  | .apb1enr => (s.apb1enr, s)
  | .csr => (s.rccCsr, s)

/-! ### Writes (R60, R34 to R47) -/

/-- The key FSM (R35). -/
def keyStep (w : WpState) (k : Byte) : WpState :=
  if k = 0xCA#8 then .key1
  else if k = 0x53#8 ∧ w = .key1 then .unlocked
  else .locked

/-- The protected registers take writes (R42). -/
def unlocked (s : State) : Bool := s.wp == .unlocked

/-- RTC_TR (R36, R42, R43): only unlocked and in init mode. -/
def writeTr (v : Word) (s : State) : State :=
  if unlocked s && initf s then { s with calTr := v &&& trMask } else s

/-- RTC_DR (R37, R42, R43); an effective write releases the date shadow lock (R61). -/
def writeDr (v : Word) (s : State) : State :=
  if unlocked s && initf s then { s with calDr := v &&& drMask, drLock := none } else s

/-- The bits of RTC_CR that a write changes now (R38, R43): 7, 6 and 4 only in init mode; 2:0 only while WUTE = 0 (before the
write) and WUTWF = 1. -/
def crWritable (s : State) : Word :=
  (if initf s then crMask else crMask &&& ~~~0x000000D0#32)
    &&& (if !wute s && wutwf s then crMask else crMask &&& ~~~0x00000007#32)

/-- RTC_CR (R42, R43). -/
def writeCr (v : Word) (s : State) : State :=
  if unlocked s then { s with rtcCr := blend (crWritable s) s.rtcCr v } else s

/-- The rc_w0 bits of RTC_ISR that a write can clear now (R42): all when unlocked, else bits [13:8], and RSF when
RSF_PROTECTED is false. -/
def isrClearable (s : State) : Word :=
  if unlocked s then isrKeep else 0x00003F00#32 ||| (if s.par.rsfProtected then 0#32 else bit 5)

/-- RTC_ISR (R39, R42, R60): rc_w0 bits cleared where `v` holds 0, INIT taken from `v` when unlocked, the rest unchanged. -/
def writeIsr (v : Word) (s : State) : State :=
  let cleared := s.rtcIsr &&& ~~~(isrClearable s &&& ~~~v)
  { s with rtcIsr := if unlocked s then blend (bit 7) cleared v else cleared }

/-- RTC_PRER (R40, R42, R43). -/
def writePrer (v : Word) (s : State) : State :=
  if unlocked s && initf s then { s with rtcPrer := v &&& prerMask s.par } else s

/-- RTC_WUTR (R41, R42, R43): only unlocked and while WUTWF = 1. -/
def writeWutr (v : Word) (s : State) : State :=
  if unlocked s && wutwf s then { s with rtcWutr := v &&& wutrMask } else s

/-- RTC_WPR (R34, R35): `v[7:0]` drives the key FSM. -/
def writeWpr (v : Word) (s : State) : State := { s with wp := keyStep s.wp (v.setWidth 8) }

/-- EXTI_SWIER, write-1-to-set (R45, R182). -/
def writeSwier (v : Word) (s : State) : State :=
  let set := v &&& ~~~s.extiSwier &&& lineMask s.par
  { s with
    extiSwier := s.extiSwier ||| set
    extiPr := s.extiPr ||| (if s.par.swierNeedsImr then set &&& s.extiImr else set) }

/-- EXTI_PR, write-1-to-clear (R45, R153); a SWIER bit falls with the pending bit of its line (assumption 7). -/
def writePr (v : Word) (s : State) : State :=
  { s with
    extiPr := s.extiPr &&& ~~~v
    extiSwier := s.extiSwier &&& ~~~(v &&& s.extiPr) }

/-- PWR_CR (R46, R109): only while PWREN = 1; DBP is rw, CWUF = 1 clears WUF and reads 0, the other bits are preserved. -/
def writePwrCr (v : Word) (s : State) : State :=
  if pwren s then
    { s with
      pwrCr := blend (bit 8) s.pwrCr v
      pwrCsr := if v.getLsbD 2 then s.pwrCsr &&& ~~~bit 0 else s.pwrCsr }
  else s

/-- RCC_CSR (R47, R109): LSION always, the backup-domain fields and the domain-reset bit only while DBP = 1, the ready flags
never; the bits R47 does not list are preserved (assumption 8). -/
def writeCsr (v : Word) (s : State) : State :=
  { s with rccCsr := blend (bit 0 ||| (if dbp s then csrGatedMask s.par else 0#32)) s.rccCsr v }

/-- The write rule of each register (R60), before what follows in the same step. -/
def writeReg (r : Reg) (v : Word) (s : State) : State :=
  match r with
  | .tr => writeTr v s
  | .dr => writeDr v s
  | .cr => writeCr v s
  | .isr => writeIsr v s
  | .prer => writePrer v s
  | .wutr => writeWutr v s
  | .wpr => writeWpr v s
  | .imr => { s with extiImr := v &&& lineMask s.par }
  | .emr => { s with extiEmr := v &&& lineMask s.par }
  | .rtsr => { s with extiRtsr := v &&& lineMask s.par }
  | .ftsr => { s with extiFtsr := v &&& lineMask s.par }
  | .swier => writeSwier v s
  | .pr => writePr v s
  | .pwrCr => writePwrCr v s
  | .pwrCsr => s
  | .apb1enr => { s with apb1enr := blend (bit 28) s.apb1enr v }
  | .csr => writeCsr v s

/-! ### The two access primitives (R21, R59, R60) -/

/-- `MemRead(a, 4)`: the value and the state after it, or nothing where no register stands. -/
def memRead (a : Word) (s : State) : Option (Word × State) := (regAt s.par a).map fun r => readReg r s

/-- `MemWrite(a, 4, v)`, all in one step. -/
def memWrite (a v : Word) (s : State) : Option State := (regAt s.par a).map fun r => settle (writeReg r v s)

/-! ### Faults and refusals (R157, R158, R162) -/

/-- The faults of R158. -/
inductive FaultCode where
  | wakeupUnrepresentable | calendarSnapshotInvalid | lineOutOfRange
deriving DecidableEq, Repr

/-- Their codes (R30, R158). -/
def faultCodeByte : FaultCode → Byte
  | .wakeupUnrepresentable => 0x01#8
  | .calendarSnapshotInvalid => 0x02#8
  | .lineOutOfRange => 0x03#8

/-- Taking a fault, `raise Fault(code)` on sequencer `q` (R157): the fault register is written and nothing else. -/
def raiseFault (q : SeqId) (c : FaultCode) (s : State) : State :=
  { s with faultCode := faultCodeByte c, faultSeq := q, faultWord := (seqOf s q).word }

/-- The refusals of R162. -/
inductive RefusalReason where
  | illegalCommand | contextViolation | notConstructed | alreadyConstructed | busy
deriving DecidableEq, Repr

/-- Their codes (R31, R162). -/
def refusalByte : RefusalReason → Byte
  | .illegalCommand => 0x01#8
  | .contextViolation => 0x02#8
  | .notConstructed => 0x03#8
  | .alreadyConstructed => 0x04#8
  | .busy => 0x05#8

/-- Taking a refusal, `refuse(reason)` of the word `w` (R162): the mark is written and nothing else. -/
def refuseWord (r : RefusalReason) (w : Cmd) (s : State) : State :=
  { s with refusedReason := refusalByte r, refusedWord := w }

/-! ### Resets (R190 to R192, R51 to R53) -/

/-- A sequencer after block reset (R51): `op` and `word`, which R51 does not name, keep their values. -/
def resetSeq (c : Seq) : Seq := { c with busy := false, pc := 0, x := Latches.empty, status := 0#8, res := 0#64 }

/-- Block reset (R51, R191): the only exit from a fault or a refusal (R190 (1)). -/
def blockReset (s : State) : State :=
  { s with
    owner := resetSeq s.owner
    irq := resetSeq s.irq
    faultCode := 0#8
    refusedReason := 0#8
    constructed := false
    clkSrc := none }

/-- RCC_CSR after a system reset (R53): the backup fields kept, LSION and LSIRDY 0, the domain-reset bit never raised (R52),
the bits R53 does not name as drawn. -/
def csrAfterSystemReset (p : Params) (old drawn : Word) : Word :=
  (old &&& csrBackupMask p) ||| (old &&& drawn &&& bit p.domrstBit)
    ||| (drawn &&& ~~~(csrBackupMask p ||| bit p.domrstBit ||| bit 0 ||| bit 1))

/-- System reset (R53, R190 (2), R192): a block reset, and the EXTI, PWR and non-backup RCC registers. -/
def systemReset (d : ResetDraw) (s : State) : State :=
  let s := blockReset s
  settle { s with
    extiImr := 0#32
    extiEmr := d.extiEmr &&& lineMask s.par
    extiRtsr := 0#32
    extiFtsr := 0#32
    extiSwier := 0#32
    extiPr := d.extiPr &&& lineMask s.par
    pwrCr := d.pwrCr &&& ~~~(bit 8 ||| bit 2)
    pwrCsr := d.pwrCsr
    apb1enr := d.apb1enr &&& ~~~bit 28
    rccCsr := csrAfterSystemReset s.par s.rccCsr d.rccCsr }

/-- Power-on without backup supply (R190 (4)): all three resets. PWR_CR, RCC_APB1ENR and RCC_CSR are 0 whole, as the state S0
of spec/95_test_vectors.md gives them. -/
def powerOnReset (d : ResetDraw) (s : State) : State :=
  let s := backupDomainReset (blockReset s)
  settle { s with
    extiImr := 0#32
    extiEmr := d.extiEmr &&& lineMask s.par
    extiRtsr := 0#32
    extiFtsr := 0#32
    extiSwier := 0#32
    extiPr := d.extiPr &&& lineMask s.par
    pwrCr := 0#32
    pwrCsr := d.pwrCsr
    apb1enr := 0#32
    rccCsr := 0#32 }

end Sys2Proof.Machine
end

