-- ==== Sys2Proof/Machine/MicroOps.lean ====
section
/-! DEFINITION. The micro-ops (spec/40_transaction.md R88 to R92) and what one of them does to the state. -/

namespace Sys2Proof.Machine

/-- The micro-op kinds of R88. Masks, values and predicates are latch expressions; register values are 32 bits, `RES`
expressions 64. -/
inductive MicroOp where
  /-- `CHECK(c)` -/
  | check (c : LExpr Bool)
  /-- `CALC(x[i] <- e)` -/
  | calc (i : Nat) (e : LExpr Word)
  /-- `WR(R, v)` -/
  | wr (r : Reg) (v : LExpr Word)
  /-- `RD(x[i], R)` -/
  | rd (i : Nat) (r : Reg)
  /-- `RMW(R, m, v)` -/
  | rmw (r : Reg) (m v : LExpr Word)
  /-- `ISR_SET_INIT(b)` -/
  | isrSetInit (b : Bool)
  /-- `ISR_CLR(m)` -/
  | isrClr (m : LExpr Word)
  /-- `POLL(R, m, want)` -/
  | poll (r : Reg) (m want : Word)
  /-- `SKIPIF(R, m, want, n)` -/
  | skipIf (r : Reg) (m want : Word) (n : Nat)
  /-- `FAULTIF(c, code)` -/
  | faultIf (c : LExpr Bool) (code : FaultCode)
  /-- `RES(e)` -/
  | res (e : LExpr (BitVec 64))
  /-- `CONSTRUCT(src)` -/
  | construct (src : ClkSrc)
  /-- `END` -/
  | done

/-- What the micro-ops and the commands answer. -/
abbrev Result := Host.Outcome State Fault Refusal

/-- `pc <- pc + n` on sequencer `q` (R27). -/
def advance (q : SeqId) (n : Nat) (s : State) : State :=
  setSeq s q { seqOf s q with pc := (seqOf s q).pc + n }

/-- `x[i] <- v` and `pc <- pc + 1` on sequencer `q`. -/
def setLatchAdvance (q : SeqId) (i : Nat) (v : Word) (s : State) : State :=
  setSeq s q { seqOf s q with x := setLatch (seqOf s q).x i v, pc := (seqOf s q).pc + 1 }

/-- The command of sequencer `q` completes with a status (R88: `CHECK` failing, `END`). The rows of R88 name no target for `pc`,
so it moves on as R27 has it: "Each micro-op that completes sets pc <- pc + 1, unless its rule names another target". -/
def complete (q : SeqId) (status : Byte) (s : State) : State :=
  setSeq s q { seqOf s q with status := status, busy := false, pc := (seqOf s q).pc + 1 }

/-- A latch expression on the latches of `q`, and what is done with its value; no value is a fault (R26). -/
def withValue {α : Type} (q : SeqId) (e : LExpr α) (s : State) (k : α → Result) : Result :=
  match e (seqOf s q).x with
  | some a => k a
  | none => .fault .latchWithoutValue

/-- A read of a register by name, and what is done with its value in the state after it (R21, R59). -/
def withRead (r : Reg) (s : State) (k : Word → State → Result) : Result :=
  match memRead (regAddr s.par r) s with
  | some (v, s') => k v s'
  | none => .fault .unmappedAddress

/-- A write of a register by name, then `k` (R21, R60). -/
def withWrite (r : Reg) (v : Word) (s : State) (k : State → Result) : Result :=
  match memWrite (regAddr s.par r) v s with
  | some s' => k s'
  | none => .fault .unmappedAddress

/-- One micro-op of sequencer `q`, as one atomic step (R62, R88). -/
def runMicroOp (q : SeqId) (m : MicroOp) (s : State) : Result :=
  match m with
  | .check c => withValue q c s fun ok => .next (if ok then advance q 1 s else complete q 0x01#8 s)
  | .calc i e => withValue q e s fun v => .next (setLatchAdvance q i v s)
  | .wr r v => withValue q v s fun v => withWrite r v s fun s => .next (advance q 1 s)
  | .rd i r => withRead r s fun v s => .next (setLatchAdvance q i v s)
  | .rmw r m v =>
    withValue q m s fun m => withValue q v s fun v =>
      withRead r s fun old s => withWrite r (blend m old v) s fun s => .next (advance q 1 s)
  | .isrSetInit b => withWrite .isr (isrSetInitWord b) s fun s => .next (advance q 1 s)
  | .isrClr m =>
    withValue q m s fun m =>
      withRead .isr s fun v s => withWrite .isr (isrClearWord m v) s fun s => .next (advance q 1 s)
  | .poll r m want => withRead r s fun v s' => .next (if v &&& m = want then advance q 1 s' else s)
  | .skipIf r m want n => withRead r s fun v s => .next (advance q (if v &&& m = want then 1 + n else 1) s)
  | .faultIf c code => withValue q c s fun bad => .next (if bad then raiseFault q code s else advance q 1 s)
  | .res e => withValue q e s fun v =>
      .next (setSeq s q { seqOf s q with res := v, pc := (seqOf s q).pc + 1 })
  | .construct src => .next (advance q 1 { s with constructed := true, clkSrc := some src })
  | .done => .next (complete q 0x00#8 s)

/-- A bus access of a micro-op, as far as its kind fixes it: for the bus traces of spec/20_memory.md R68. -/
inductive Access where
  | read (r : Reg)
  | write (r : Reg)
deriving DecidableEq, Repr

/-- The bus accesses of a micro-op, in order (R88; of a poll, those of one attempt). -/
def accessesOf : MicroOp → List Access
  | .check _ | .calc _ _ | .faultIf _ _ | .res _ | .construct _ | .done => []
  | .wr r _ => [.write r]
  | .rd _ r => [.read r]
  | .rmw r _ _ => [.read r, .write r]
  | .isrSetInit _ => [.write .isr]
  | .isrClr _ => [.read .isr, .write .isr]
  | .poll r _ _ => [.read r]
  | .skipIf r _ _ _ => [.read r]

/-- The test harness of R68 on the bus trace of one snapshot: every date-register read follows a time-register read, with no
other read of either between them. -/
def snapshotOrderOk : List Access → Bool
  | [] => true
  | .read .dr :: _ => false
  | .read .tr :: rest =>
    match rest.find? (fun a => a == .read .tr || a == .read .dr) with
    | some (.read .dr) => !(rest.dropWhile (fun a => a != .read .dr)).tail.any (fun a => a == .read .tr || a == .read .dr)
    | _ => false
  | _ :: rest => snapshotOrderOk rest

end Sys2Proof.Machine
end

