-- ==== Sys2Proof/Machine/Transaction.lean ====
section
/-! DEFINITION. The brackets of a protected-register change (spec/40_transaction.md R93 to R98). -/

namespace Sys2Proof.Machine

/-- UNLOCK (R93). -/
def unlockOps : List MicroOp := [.wr .wpr (lconst 0x000000CA#32), .wr .wpr (lconst 0x00000053#32)]

/-- LOCK (R94). -/
def lockOps : List MicroOp := [.wr .wpr (lconst 0x000000FF#32)]

/-- INIT_ENTER (R95). -/
def initEnterOps : List MicroOp :=
  [.skipIf .isr (bit 6) (bit 6) 2, .isrSetInit true, .poll .isr (bit 6) (bit 6)]

/-- INIT_EXIT (R96). -/
def initExitOps : List MicroOp := [.isrSetInit false, .poll .isr (bit 6) 0#32]

/-- `LIGHT_TXN(body)` (R97). -/
def lightTxn (body : List MicroOp) : List MicroOp := unlockOps ++ (body ++ lockOps)

/-- `INIT_TXN(body)` (R98). -/
def initTxn (body : List MicroOp) : List MicroOp :=
  unlockOps ++ (initEnterOps ++ (body ++ (initExitOps ++ lockOps)))

end Sys2Proof.Machine
end

