-- ==== Sys2Proof/Machine/Calendar.lean ====
section
/-! DEFINITION. The micro-programs of the calendar commands and of the codec test port (spec/42_calendar.md sections 2 to 6). -/

namespace Sys2Proof.Machine

/-- A natural number as a register word; every value the micro-programs form fits. -/
def toWord (n : Nat) : Word := BitVec.ofNat 32 n

/-- SET_SECONDS (R122). -/
def progSetSeconds : List MicroOp :=
  [ .check (lx0 fun v => sixtyOk v.toNat)
  , .check (lx0 fun v => encOk v.toNat 3 4)
  , .calc 6 (lx0 fun v => toWord (bcdPair v.toNat)) ]
  ++ (initTxn [.rmw .tr (lconst 0x0000007F#32) (lx6 id)] ++ [.done])

/-- SET_MINUTES (R123). -/
def progSetMinutes : List MicroOp :=
  [ .check (lx0 fun v => sixtyOk v.toNat)
  , .check (lx0 fun v => encOk v.toNat 3 4)
  , .calc 6 (lx0 fun v => toWord (bcdPair v.toNat * 2 ^ 8)) ]
  ++ (initTxn [.rmw .tr (lconst 0x00007F00#32) (lx6 id)] ++ [.done])

/-- SET_HOURS (R124): the mask covers PM. -/
def progSetHours : List MicroOp :=
  [ .check (lx0 fun v => hourOk v.toNat)
  , .check (lx0 fun v => encOk v.toNat 2 4)
  , .calc 6 (lx0 fun v => toWord (bcdPair v.toNat * 2 ^ 16)) ]
  ++ (initTxn [.rmw .tr (lconst 0x007F0000#32) (lx6 id)] ++ [.done])

/-- SET_WEEKDAY (R125). -/
def progSetWeekday : List MicroOp :=
  [ .check (lx0 fun v => weekdayOk v.toNat)
  , .check (lx0 fun v => encOk v.toNat 0 3)
  , .calc 6 (lx0 fun v => toWord (v.toNat * 2 ^ 13)) ]
  ++ (initTxn [.rmw .dr (lconst 0x0000E000#32) (lx6 id)] ++ [.done])

/-- SET_DAY (R126). -/
def progSetDay : List MicroOp :=
  [ .check (lx0 fun v => dayOk v.toNat)
  , .check (lx0 fun v => encOk v.toNat 2 4)
  , .calc 6 (lx0 fun v => toWord (bcdPair v.toNat)) ]
  ++ (initTxn [.rmw .dr (lconst 0x0000003F#32) (lx6 id)] ++ [.done])

/-- SET_MONTH (R127). -/
def progSetMonth : List MicroOp :=
  [ .check (lx0 fun v => monthOk v.toNat)
  , .check (lx0 fun v => encOk v.toNat 1 4)
  , .calc 6 (lx0 fun v => toWord (bcdPair v.toNat * 2 ^ 8)) ]
  ++ (initTxn [.rmw .dr (lconst 0x00001F00#32) (lx6 id)] ++ [.done])

/-- SET_YEAR (R128). -/
def progSetYear : List MicroOp :=
  [ .check (lx0 fun y => yearOk y.toNat)
  , .check (lx0 fun y => encOk (y.toNat - epoch) 4 4)
  , .calc 6 (lx0 fun y => toWord (bcdPair (y.toNat - epoch) * 2 ^ 16)) ]
  ++ (initTxn [.rmw .dr (lconst 0x00FF0000#32) (lx6 id)] ++ [.done])

/-- SET_DATE (R130). -/
def progSetDate : List MicroOp :=
  [ .check (lx0 fun y => yearOk y.toNat)
  , .check (lx1 fun m => monthOk m.toNat)
  , .check (lx2 fun d => dayOk d.toNat)
  , .check (lx012 fun y m d => decide (d.toNat ≤ daysIn y.toNat m.toNat))
  , .check (lx012 fun y m d => encOk (y.toNat - epoch) 4 4 && encOk m.toNat 1 4 && encOk d.toNat 2 4)
  , .calc 6 (lx012 fun y m d => toWord (dateWord y.toNat m.toNat d.toNat)) ]
  ++ (initTxn [.wr .dr (lx6 id)] ++ [.done])

/-- SET_DATETIME (R131). -/
def progSetDatetime : List MicroOp :=
  [ .check (lx0 fun y => yearOk y.toNat)
  , .check (lx1 fun m => monthOk m.toNat)
  , .check (lx2 fun d => dayOk d.toNat)
  , .check (lx012 fun y m d => decide (d.toNat ≤ daysIn y.toNat m.toNat))
  , .check (lx3 fun h => hourOk h.toNat)
  , .check (lx4 fun mi => sixtyOk mi.toNat)
  , .check (lx5 fun s => sixtyOk s.toNat)
  , .check (lx05 fun y m d h mi s =>
      encOk (y.toNat - epoch) 4 4 && encOk m.toNat 1 4 && encOk d.toNat 2 4
        && encOk h.toNat 2 4 && encOk mi.toNat 3 4 && encOk s.toNat 3 4)
  , .calc 6 (lx012 fun y m d => toWord (dateWord y.toNat m.toNat d.toNat))
  , .calc 7 (lx05 fun _ _ _ h mi s => toWord (timeWord h.toNat mi.toNat s.toNat)) ]
  ++ (initTxn [.wr .dr (lx6 id), .wr .tr (lx7 id)] ++ [.done])

/-- The field `v[lo + width - 1 : lo]` of a register word, as a number (R20). -/
def regField (v : Word) (lo width : Nat) : Nat := v.toNat / 2 ^ lo % 2 ^ width

/-- The result word of GET_DATETIME (R80, R132): the positions of format T. -/
def datetimeResult (y mo d h mi s : Nat) : BitVec 64 :=
  BitVec.ofNat 64 (y + mo * 2 ^ 16 + d * 2 ^ 24 + h * 2 ^ 32 + mi * 2 ^ 40 + s * 2 ^ 48)

/-- GET_DATETIME (R132). -/
def progGetDatetime : List MicroOp :=
  [ .poll .isr (bit 5) (bit 5)
  , .rd 6 .tr
  , .rd 7 .dr
  , .isrClr (lconst (bit 5))
  , .calc 0 (lx7 fun d => toWord (epoch + dec (regField d 20 4) (regField d 16 4)))
  , .calc 1 (lx7 fun d => toWord (dec (regField d 12 1) (regField d 8 4)))
  , .calc 2 (lx7 fun d => toWord (dec (regField d 4 2) (regField d 0 4)))
  , .calc 3 (lx6 fun t => toWord (dec (regField t 20 2) (regField t 16 4)))
  , .calc 4 (lx6 fun t => toWord (dec (regField t 12 3) (regField t 8 4)))
  , .calc 5 (lx6 fun t => toWord (dec (regField t 4 3) (regField t 0 4)))
  , .faultIf (lx05 fun y mo d h mi s => !snapOk y.toNat mo.toNat d.toNat h.toNat mi.toNat s.toNat)
      .calendarSnapshotInvalid
  , .res (lx05 fun y mo d h mi s => datetimeResult y.toNat mo.toNat d.toNat h.toNat mi.toNat s.toNat)
  , .done ]

/-- `PRER_WRITE(x[0], x[1])` (R136): the synchronous field first. -/
def prerWrite (p : Params) : List MicroOp :=
  [ .rmw .prer (lconst (prescalerSMask p)) (lx0 fun s => s &&& prescalerSMask p)
  , .rmw .prer (lconst (prescalerAMask p)) (lx1 fun a => (a &&& lowMask p.predivAWidth) <<< 16) ]

/-- SET_PRESCALERS (R135): no check. -/
def progSetPrescalers (p : Params) : List MicroOp := initTxn (prerWrite p) ++ [.done]

/-- `ENC_OK(x[0], TW(x[1]), UW(x[1]))` (R137). -/
def encodeCheck : LExpr Bool := fun x =>
  match x.x0, x.x1 with
  | some v, some f =>
    match tensWidth f.toNat, unitsWidth f.toNat with
    | some tw, some uw => some (encOk v.toNat tw uw)
    | _, _ => none
  | _, _ => none

/-- BCD_ENCODE (R137). -/
def progBcdEncode : List MicroOp :=
  [ .check encodeCheck
  , .res (lx0 fun v => BitVec.ofNat 64 (bcdPair v.toNat))
  , .done ]

/-- BCD_DECODE (R138): `x[1]` is the tens digit, `x[0]` the units digit. -/
def progBcdDecode : List MicroOp :=
  [ .res (lx01 fun u t => BitVec.ofNat 64 (dec t.toNat u.toNat))
  , .done ]

end Sys2Proof.Machine
end

