-- ==== Sys2Proof/Machine/Bringup.lean ====
section
/-! DEFINITION. The micro-programs of the clock-source bring-up (spec/41_clock_bringup.md R110 to R112). -/

namespace Sys2Proof.Machine

/-- STEP5 (R112): 24-hour format, then the prescalers. -/
def step5 (p : Params) : List MicroOp := .rmw .cr (lconst (bit 6)) (lconst 0#32) :: prerWrite p

/-- The RTCSEL field holding a clock-source code (R83, R108). -/
def rtcselCode (p : Params) (code : Nat) : Word := BitVec.ofNat 32 (code * 2 ^ p.rtcselLsb)

/-- BRINGUP_LSE (R110). -/
def progBringupLse (p : Params) : List MicroOp :=
  [ .rmw .apb1enr (lconst (bit 28)) (lconst (bit 28))
  , .rmw .pwrCr (lconst (bit 8)) (lconst (bit 8))
  , .skipIf .csr (bit 9) (bit 9) 5
  , .rmw .csr (lconst (bit p.domrstBit)) (lconst (bit p.domrstBit))
  , .rmw .csr (lconst (bit p.domrstBit)) (lconst 0#32)
  , .rmw .csr (lconst (bit 8)) (lconst (bit 8))
  , .rmw .csr (lconst (bit 10)) (lx2 fun b => b <<< 10)
  , .poll .csr (bit 9) (bit 9)
  , .rmw .csr (lconst (rtcselCode p 3)) (lconst (rtcselCode p 1))
  , .rmw .csr (lconst (bit 22)) (lconst (bit 22)) ]
  ++ (initTxn (step5 p) ++ [.construct .lse, .done])

/-- BRINGUP_LSI (R111). -/
def progBringupLsi (p : Params) : List MicroOp :=
  [ .rmw .apb1enr (lconst (bit 28)) (lconst (bit 28))
  , .rmw .pwrCr (lconst (bit 8)) (lconst (bit 8))
  , .skipIf .csr (bit 1) (bit 1) 4
  , .rmw .csr (lconst (bit p.domrstBit)) (lconst (bit p.domrstBit))
  , .rmw .csr (lconst (bit p.domrstBit)) (lconst 0#32)
  , .rmw .csr (lconst (bit 0)) (lconst (bit 0))
  , .poll .csr (bit 1) (bit 1)
  , .rmw .csr (lconst (rtcselCode p 3)) (lconst (rtcselCode p 2))
  , .rmw .csr (lconst (bit 22)) (lconst (bit 22)) ]
  ++ (initTxn (step5 p) ++ [.construct .lsi, .done])

end Sys2Proof.Machine
end

