-- ==== Sys2Proof/Machine/Environment.lean ====
section
/-! DEFINITION. The environment's steps (spec/60_exceptions.md R174 to R184): when each may be taken, and its effect. -/

namespace Sys2Proof.Machine

/-- The condition of each draw. -/
def drawEnabled (d : Draw) (s : State) : Bool :=
  match d with
  | .initfSet => initBit s && !initf s
  | .initfClear => !initBit s && initf s
  | .rsfSet => !initf s && rtcEnabled s
  | .calendarTick => !initf s && rtcEnabled s
  | .wutwfSet => !wute s && !wutwf s
  | .wutwfClear => wute s && wutwf s
  | .wutfSet _ => wute s
  | .alrafSet _ => alrae s
  | .alrbfSet _ => alrbe s
  | .tsfSet _ => tse s
  | .lserdySet => lseon s && !lserdy s
  | .lserdyClear => !lseon s && lserdy s
  | .lsirdySet => lsion s && !lsirdy s
  | .lsirdyClear => !lsion s && lsirdy s

/-- An event flag of RTC_ISR set, and WUF with it when `w` says so (R184). -/
def setEventFlag (n : Nat) (w : Bool) (s : State) : State :=
  { s with
    rtcIsr := s.rtcIsr ||| bit n
    pwrCsr := if w then s.pwrCsr ||| bit 0 else s.pwrCsr }

/-- The calendar tick (R176); reserved bits of the calendar registers read 0 whatever CAL_TICK answers (R36, R37). -/
def tickCalendar (s : State) : State :=
  { s with
    calTr := (calTick s.calTr s.calDr).1 &&& trMask
    calDr := (calTick s.calTr s.calDr).2 &&& drMask }

/-- The effect of each draw on the registers. -/
def drawEffect (d : Draw) (s : State) : State :=
  match d with
  | .initfSet => { s with rtcIsr := (s.rtcIsr ||| bit 6) &&& ~~~bit 5 }
  | .initfClear => { s with rtcIsr := s.rtcIsr &&& ~~~bit 6 }
  | .rsfSet => { s with rtcIsr := s.rtcIsr ||| bit 5 }
  | .calendarTick => tickCalendar s
  | .wutwfSet => { s with rtcIsr := s.rtcIsr ||| bit 2 }
  | .wutwfClear => { s with rtcIsr := s.rtcIsr &&& ~~~bit 2 }
  | .wutfSet w => setEventFlag 10 w s
  | .alrafSet w => setEventFlag 8 w s
  | .alrbfSet w => setEventFlag 9 w s
  | .tsfSet w => setEventFlag 11 w s
  | .lserdySet => { s with rccCsr := s.rccCsr ||| bit 9 }
  | .lserdyClear => { s with rccCsr := s.rccCsr &&& ~~~bit 9 }
  | .lsirdySet => { s with rccCsr := s.rccCsr ||| bit 1 }
  | .lsirdyClear => { s with rccCsr := s.rccCsr &&& ~~~bit 1 }

/-- One step of the environment: the draw, then levels and edges in the same step (R170, R181). -/
def envStep (d : Draw) (s : State) : State := settle (drawEffect d s)

end Sys2Proof.Machine
end

