-- ==== Sys2Proof/Machine/Router.lean ====
section
/-! DEFINITION. The micro-programs of the event router (spec/44_event_router.md R149 to R154). -/

namespace Sys2Proof.Machine

/-- The event whose code the latch holds (R75); format E loads two bits. -/
def latchEvent (e : Word) : Event := eventOfCode (e.setWidth 2)

/-- `1 << line(x[0])` (R149). -/
def lineBit : LExpr Word := lx0 fun e => bit (eventLine (latchEvent e))
/-- `1 << enbit(x[0])` (R149). -/
def enableBit : LExpr Word := lx0 fun e => bit (eventEnableBit (latchEvent e))
/-- `1 << flagbit(x[0])` (R150). -/
def flagBit : LExpr Word := lx0 fun e => bit (eventFlagBit (latchEvent e))

/-- LISTEN (R149). -/
def progListen : List MicroOp :=
  lightTxn
    [ .rmw .rtsr lineBit lineBit
    , .rmw .imr lineBit lineBit
    , .rmw .cr enableBit enableBit ]
  ++ [.done]

/-- UNPEND_EVENT (R150). -/
def progUnpendEvent : List MicroOp :=
  [ .rmw .pwrCr (lconst (bit 2)) (lconst (bit 2))
  , .isrClr flagBit
  , .wr .pr lineBit
  , .done ]

/-- `FAULTIF(x[0] >= N_LINES, 0x03)` (R151). -/
def lineFault (p : Params) : MicroOp := .faultIf (lx0 fun l => decide (p.nLines ≤ l.toNat)) .lineOutOfRange

/-- PEND_LINE (R152). -/
def progPendLine (p : Params) : List MicroOp :=
  [ lineFault p, .wr .swier (lx0 fun l => bit l.toNat), .done ]

/-- UNPEND_LINE (R153). -/
def progUnpendLine (p : Params) : List MicroOp :=
  [ lineFault p, .wr .pr (lx0 fun l => bit l.toNat), .done ]

/-- IS_PENDING_LINE (R154). -/
def progIsPendingLine (p : Params) : List MicroOp :=
  [ lineFault p
  , .rd 6 .pr
  , .res (lx06 fun l v => if v.getLsbD l.toNat then 1#64 else 0#64)
  , .done ]

end Sys2Proof.Machine
end

