-- ==== Sys2Proof/Machine/Wakeup.lean ====
section
/-! DEFINITION. The micro-programs of the wakeup commands (spec/43_wakeup.md R143 to R145). -/

namespace Sys2Proof.Machine

/-- ENABLE_WAKEUP (R143), micro-ops a to i inside the lightweight transaction. -/
def progEnableWakeup : List MicroOp :=
  lightTxn
    [ .rmw .cr (lconst (bit 10)) (lconst 0#32)
    , .isrClr (lconst (bit 10))
    , .poll .isr (bit 2) (bit 2)
    , .calc 6 (lx0 fun n => toWord (wkSel n.toNat))
    , .calc 7 (lx0 fun n => toWord (wkVal n.toNat))
    , .rmw .cr (lconst 0x00000007#32) (lx6 id)
    , .faultIf (lx0 fun n => !wkOk n.toNat) .wakeupUnrepresentable
    , .wr .wutr (lx7 id)
    , .rmw .cr (lconst (bit 10)) (lconst (bit 10)) ]
  ++ [.done]

/-- DISABLE_WAKEUP (R144). -/
def progDisableWakeup : List MicroOp :=
  lightTxn
    [ .rmw .cr (lconst (bit 10)) (lconst 0#32)
    , .isrClr (lconst (bit 10)) ]
  ++ [.done]

/-- WAKEUP_TIMER (R145). -/
def progWakeupTimer : List MicroOp :=
  lightTxn
    [ .rmw .cr (lconst (bit 10)) (lconst 0#32)
    , .isrClr (lconst (bit 10))
    , .poll .isr (bit 10) 0#32
    , .poll .isr (bit 2) (bit 2)
    , .rmw .cr (lconst 0x00000007#32) (lconst 0x00000004#32)
    , .wr .wutr (lx0 fun v => v &&& 0x0000FFFF#32)
    , .rmw .cr (lconst (bit 14 ||| bit 10)) (lconst (bit 14 ||| bit 10)) ]
  ++ [.done]

end Sys2Proof.Machine
end

