-- ==== Sys2Proof/Machine/Sequencer.lean ====
section
/-! DEFINITION. The sequencers: acceptance of a command word (spec/30_encoding.md R74), the micro-op a sequencer takes next
(spec/40_transaction.md R88, R89), which sequencer may take one (spec/60_exceptions.md R167), one move of a run, and a command
run until it completes or waits. -/

namespace Sys2Proof.Machine

/-- The micro-program of an opcode (R73). -/
def progOf (p : Params) (op : Byte) : Option (List MicroOp) :=
  match op.toNat with
  | 0x01 => some progSetSeconds
  | 0x02 => some progSetMinutes
  | 0x03 => some progSetHours
  | 0x04 => some progSetWeekday
  | 0x05 => some progSetDay
  | 0x06 => some progSetMonth
  | 0x07 => some progSetYear
  | 0x08 => some progSetDate
  | 0x09 => some progSetDatetime
  | 0x0A => some progGetDatetime
  | 0x0B => some (progSetPrescalers p)
  | 0x10 => some progEnableWakeup
  | 0x11 => some progDisableWakeup
  | 0x12 => some progWakeupTimer
  | 0x20 => some progListen
  | 0x21 => some progUnpendEvent
  | 0x22 => some (progPendLine p)
  | 0x23 => some (progUnpendLine p)
  | 0x24 => some (progIsPendingLine p)
  | 0x30 => some progBcdEncode
  | 0x31 => some progBcdDecode
  | 0x40 => some (progBringupLse p)
  | 0x41 => some (progBringupLsi p)
  | _ => none

/-! ### Acceptance (R74) -/

/-- What the acceptance check answers. -/
inductive Verdict where
  /-- check (0): a fault or a refusal is recorded, "The presentation has no step" -/
  | noStep
  /-- checks (1) to (4) -/
  | refuse (r : RefusalReason)
  /-- check (5) -/
  | accept
deriving DecidableEq, Repr

/-- Check (4): the construction state. -/
def constructionVerdict (n : Need) (s : State) : Verdict :=
  match n with
  | .constructed => if s.constructed then .accept else .refuse .notConstructed
  | .any => .accept
  | .notConstructed => if s.constructed then .refuse .alreadyConstructed else .accept

/-- The checks of R74 in their order, for the command a word decodes to; `none` is an illegal word. -/
def verdict (q : SeqId) (d : Option Instr) (s : State) : Verdict :=
  if faulted s || refusedMark s then .noStep
  else if (seqOf s q).busy then .refuse .busy
  else
    match d with
    | none => .refuse .illegalCommand
    | some i =>
      if !i.wellFormed then .refuse .illegalCommand
      else if !contextAllows q i then .refuse .contextViolation
      else constructionVerdict (needOf i) s

/-- Check (5): busy, opcode, latches, `pc <- 0`, the word in flight. -/
def loadCommand (q : SeqId) (i : Instr) (w : Cmd) (s : State) : State :=
  setSeq s q { seqOf s q with busy := true, op := opcode i, word := w, pc := 0, x := loadedLatches i }

/-- The command a word decodes to, if it is legal (R77). -/
def decoded (w : Cmd) : Option Instr :=
  match decode w with
  | .ok i => some i
  | .error _ => none

/-- The host presents a word to a sequencer (R74): acceptance or refusal only. -/
def presentWord (q : SeqId) (w : Cmd) (s : State) : State :=
  match verdict q (decoded w) s, decoded w with
  | .accept, some i => loadCommand q i w s
  | .refuse r, _ => refuseWord r w s
  | _, _ => s

/-! ### The next micro-op -/

/-- The micro-op at `pc` of the command in flight. -/
def nextMicroOp (s : State) (q : SeqId) : Option MicroOp :=
  (progOf s.par (seqOf s q).op).bind fun prog => prog[(seqOf s q).pc]?

/-- A sequencer holds: its next micro-op is a poll whose condition is false (R89). -/
def held (s : State) (q : SeqId) : Bool :=
  match nextMicroOp s q with
  | some (.poll r m want) =>
    match memRead (regAddr s.par r) s with
    | some (v, _) => v &&& m != want
    | none => false
  | _ => false

/-- One micro-op of sequencer `q`; past the last one the command is complete (R27). -/
def seqStep (q : SeqId) (s : State) : Result :=
  match progOf s.par (seqOf s q).op with
  | none => .fault .noMicroProgram
  | some prog =>
    match prog[(seqOf s q).pc]? with
    | some m => runMicroOp q m s
    | none => .next (setSeq s q { seqOf s q with busy := false })

/-- Which sequencer may take a micro-op (R157, R167): none after a fault; IRQ while it is busy; else OWNER; neither while it
holds. -/
def turn (s : State) : Option SeqId :=
  if faulted s then none
  else if s.irq.busy then (if held s .irq then none else some .irq)
  else if s.owner.busy && !held s .owner then some .owner
  else none

/-! ### Moves -/

/-- Whether a move can be taken now. The host can always present a word, read or reset. -/
def moveEnabled (m : Move) (s : State) : Bool :=
  match m with
  | .present _ _ | .hostRead | .blockReset | .systemReset _ | .powerOn _ => true
  | .await q => !(seqOf s q).busy
  | .micro q => turn s == some q
  | .env d => drawEnabled d s

/-- One move. -/
def takeMove (m : Move) (s : State) : Result :=
  match m with
  | .present q w => .next (presentWord q w s)
  | .await _ | .hostRead => .next s
  | .micro q => seqStep q s
  | .env d => .next (envStep d s)
  | .blockReset => .next (blockReset s)
  | .systemReset d => .next (systemReset d s)
  | .powerOn d => .next (powerOnReset d s)

/-- The first of the moves still to come, if it can be taken now. -/
def readyMove (s : State) : Option (Move × List Move) :=
  match s.moves with
  | [] => none
  | m :: rest => if moveEnabled m s then some (m, rest) else none

/-- Nothing can move: the run waits (R89, R90, R193). -/
def stalled (s : State) : Bool := (readyMove s).isNone && (turn s).isNone

/-- One step at the grain of R167: the first move still to come as soon as it can be taken, else the sequencer whose turn it
is, else nothing changes. -/
def tick (s : State) : Result :=
  match readyMove s with
  | some (m, rest) => takeMove m { s with moves := rest }
  | none =>
    match turn s with
    | some q => seqStep q s
    | none => .next s

/-- Up to `n` ticks, until sequencer `q` is idle, a fault is recorded or nothing can move. -/
def drain (q : SeqId) : Nat → State → Result
  | 0, s => .next s
  | n + 1, s =>
    if !(seqOf s q).busy || faulted s || stalled s then .next s
    else
      match tick s with
      | .next s' => drain q n s'
      | .fault r => .fault r
      | .refused r => .refused r

/-- More ticks than a run can make: every tick takes a move or a micro-op, and no command has 32 micro-ops (R27). -/
def drainFuel (s : State) : Nat := 64 * (s.moves.length + 3)

/-- A command presented at the port and run to completion ("All operations are synchronous and run to completion", R166):
acceptance (R74), then ticks until its sequencer is idle, a fault is recorded, or nothing can move. -/
def issue (i : Instr) (s : State) : Result :=
  match verdict s.port.seq (some i) s with
  | .noStep => .next s
  | .refuse r => .next (refuseWord r (encode i) s)
  | .accept => drain s.port.seq (drainFuel s) (loadCommand s.port.seq i (encode i) s)

/-! ### What the host reads (R166) -/

/-- The completion status and result of a sequencer, readable once it is not busy (R29). -/
def hostResult (s : State) (q : SeqId) : Option (Byte × BitVec 64) :=
  if (seqOf s q).busy then none else some ((seqOf s q).status, (seqOf s q).res)

/-- The marks the host reads: `fault_code` and `refused_reason`. -/
def hostMarks (s : State) : Byte × Byte := (s.faultCode, s.refusedReason)

end Sys2Proof.Machine
end

