-- ==== Sys2Proof/Machine/Commands.lean ====
section
/-! DEFINITION. The meaning of every command: its word presented at the command port and its micro-program
(Calendar.lean, Bringup.lean, Wakeup.lean, Router.lean) run until it completes, faults or waits. -/

namespace Sys2Proof.Machine

/-- SET_SECONDS (opcode 0x01, R122). -/
def execSetSeconds (v : BitVec 8) (s : State) : Result := issue (.setSeconds v) s

/-- SET_MINUTES (opcode 0x02, R123). -/
def execSetMinutes (v : BitVec 8) (s : State) : Result := issue (.setMinutes v) s

/-- SET_HOURS (opcode 0x03, R124). -/
def execSetHours (v : BitVec 8) (s : State) : Result := issue (.setHours v) s

/-- SET_WEEKDAY (opcode 0x04, R125). -/
def execSetWeekday (v : BitVec 8) (s : State) : Result := issue (.setWeekday v) s

/-- SET_DAY (opcode 0x05, R126). -/
def execSetDay (v : BitVec 8) (s : State) : Result := issue (.setDay v) s

/-- SET_MONTH (opcode 0x06, R127). -/
def execSetMonth (v : BitVec 8) (s : State) : Result := issue (.setMonth v) s

/-- SET_YEAR (opcode 0x07, R128). -/
def execSetYear (y : BitVec 16) (s : State) : Result := issue (.setYear y) s

/-- SET_DATE (opcode 0x08, R130). -/
def execSetDate (y : BitVec 16) (m : BitVec 8) (d : BitVec 8) (s : State) : Result := issue (.setDate y m d) s

/-- SET_DATETIME (opcode 0x09, R131). -/
def execSetDatetime (y : BitVec 16) (m : BitVec 8) (d : BitVec 8) (h : BitVec 8) (mi : BitVec 8) (sec : BitVec 8) (s : State) : Result := issue (.setDatetime y m d h mi sec) s

/-- GET_DATETIME (opcode 0x0A, R132). -/
def execGetDatetime (s : State) : Result := issue .getDatetime s

/-- SET_PRESCALERS (opcode 0x0B, R135). -/
def execSetPrescalers (sync : BitVec 16) (async : BitVec 8) (s : State) : Result := issue (.setPrescalers sync async) s

/-- ENABLE_WAKEUP (opcode 0x10, R143). -/
def execEnableWakeup (n : BitVec 32) (s : State) : Result := issue (.enableWakeup n) s

/-- DISABLE_WAKEUP (opcode 0x11, R144). -/
def execDisableWakeup (s : State) : Result := issue .disableWakeup s

/-- WAKEUP_TIMER (opcode 0x12, R145). -/
def execWakeupTimer (v : BitVec 32) (s : State) : Result := issue (.wakeupTimer v) s

/-- LISTEN (opcode 0x20, R149). -/
def execListen (e : Event) (s : State) : Result := issue (.listen e) s

/-- UNPEND_EVENT (opcode 0x21, R150). -/
def execUnpendEvent (e : Event) (s : State) : Result := issue (.unpendEvent e) s

/-- PEND_LINE (opcode 0x22, R152). -/
def execPendLine (l : BitVec 8) (s : State) : Result := issue (.pendLine l) s

/-- UNPEND_LINE (opcode 0x23, R153). -/
def execUnpendLine (l : BitVec 8) (s : State) : Result := issue (.unpendLine l) s

/-- IS_PENDING_LINE (opcode 0x24, R154). -/
def execIsPendingLine (l : BitVec 8) (s : State) : Result := issue (.isPendingLine l) s

/-- BCD_ENCODE (opcode 0x30, R137). -/
def execBcdEncode (f : BitVec 3) (v : BitVec 8) (s : State) : Result := issue (.bcdEncode f v) s

/-- BCD_DECODE (opcode 0x31, R138). -/
def execBcdDecode (t : BitVec 4) (u : BitVec 4) (s : State) : Result := issue (.bcdDecode t u) s

/-- BRINGUP_LSE (opcode 0x40, R110). -/
def execBringupLse (bypass : BitVec 1) (sync : BitVec 16) (async : BitVec 8) (s : State) : Result := issue (.bringupLse bypass sync async) s

/-- BRINGUP_LSI (opcode 0x41, R111). -/
def execBringupLsi (sync : BitVec 16) (async : BitVec 8) (s : State) : Result := issue (.bringupLsi sync async) s

end Sys2Proof.Machine
end

