-- ==== Sys2Proof/Machine/Dispatch.lean ====
section
/-! DEFINITION. exec: one arm per command of spec/opcode_table.json. -/

namespace Sys2Proof.Machine

def exec (i : Instr) (s : State) : Host.Outcome State Fault Refusal :=
  match i with
  | .setSeconds v => Sys2Proof.Machine.execSetSeconds v s
  | .setMinutes v => Sys2Proof.Machine.execSetMinutes v s
  | .setHours v => Sys2Proof.Machine.execSetHours v s
  | .setWeekday v => Sys2Proof.Machine.execSetWeekday v s
  | .setDay v => Sys2Proof.Machine.execSetDay v s
  | .setMonth v => Sys2Proof.Machine.execSetMonth v s
  | .setYear y => Sys2Proof.Machine.execSetYear y s
  | .setDate y m d => Sys2Proof.Machine.execSetDate y m d s
  | .setDatetime y m d h mi sec => Sys2Proof.Machine.execSetDatetime y m d h mi sec s
  | .getDatetime => Sys2Proof.Machine.execGetDatetime s
  | .setPrescalers sync async => Sys2Proof.Machine.execSetPrescalers sync async s
  | .enableWakeup n => Sys2Proof.Machine.execEnableWakeup n s
  | .disableWakeup => Sys2Proof.Machine.execDisableWakeup s
  | .wakeupTimer v => Sys2Proof.Machine.execWakeupTimer v s
  | .listen e => Sys2Proof.Machine.execListen e s
  | .unpendEvent e => Sys2Proof.Machine.execUnpendEvent e s
  | .pendLine l => Sys2Proof.Machine.execPendLine l s
  | .unpendLine l => Sys2Proof.Machine.execUnpendLine l s
  | .isPendingLine l => Sys2Proof.Machine.execIsPendingLine l s
  | .bcdEncode f v => Sys2Proof.Machine.execBcdEncode f v s
  | .bcdDecode t u => Sys2Proof.Machine.execBcdDecode t u s
  | .bringupLse bypass sync async => Sys2Proof.Machine.execBringupLse bypass sync async s
  | .bringupLsi sync async => Sys2Proof.Machine.execBringupLsi sync async s

end Sys2Proof.Machine
end

