-- ==== Sys2Proof/Machine/Step.lean ====
section
/-! DEFINITION. One step of the machine, and how a command word is placed at the command port. -/

namespace Sys2Proof.Machine

/-- A word taken from the command port (R70): a legal word is its command, an illegal one is refused (R74, R77). -/
def takePort (w : Cmd) (s : State) : Result :=
  match decode w with
  | .ok i => exec i s
  | .error _ => .next (presentWord s.port.seq w s)

/-- The port emptied of its word. -/
def clearPort (s : State) : State := { s with port := { s.port with word := none } }

/-- One step: the word at the command port is run as a command; with the port empty, one tick (assumption 1). Parameters that
are no configuration are refused (R58, R108). -/
def step (s : State) : Host.Outcome State Fault Refusal :=
  if paramsOk s.par then
    match s.port.word with
    | some w => takePort w (clearPort s)
    | none => tick s
  else .refused .badConfiguration

/-- The state with a command word at the port, so that the next step decodes and runs it. -/
def State.withFetchWord (s : State) (_nbits w : Nat) : State :=
  { s with port := { s.port with word := some (BitVec.ofNat 64 w) } }

end Sys2Proof.Machine
end

