-- ==== Sys2Proof/Safety.lean ====
section
/-! DEFINITION. What counts as a sound state, as a sequencer ready for a command, and as a schedule that serves a command's
polls: the terms the statements are made in. -/

namespace Sys2Proof.Machine

/-- The registers hold together: reserved bits are 0 (R36 to R41, R45, R46), a domain held in reset is at its reset values
(R107), the recorded levels are those of the registers (R170 (1)), and the parameters are a configuration (R58, R108). -/
structure RegsOk (s : State) : Prop where
  params : paramsOk s.par = true
  tr : s.calTr &&& ~~~trMask = 0#32
  dr : s.calDr &&& ~~~drMask = 0#32
  lock : ∀ v, s.drLock = some v → v &&& ~~~drMask = 0#32
  cr : s.rtcCr &&& ~~~crMask = 0#32
  isr : s.rtcIsr &&& ~~~isrMask = 0#32
  prer : s.rtcPrer &&& ~~~prerMask s.par = 0#32
  wutr : s.rtcWutr &&& ~~~wutrMask = 0#32
  imr : s.extiImr &&& ~~~lineMask s.par = 0#32
  emr : s.extiEmr &&& ~~~lineMask s.par = 0#32
  rtsr : s.extiRtsr &&& ~~~lineMask s.par = 0#32
  ftsr : s.extiFtsr &&& ~~~lineMask s.par = 0#32
  swier : s.extiSwier &&& ~~~lineMask s.par = 0#32
  pr : s.extiPr &&& ~~~lineMask s.par = 0#32
  cwuf : s.pwrCr.getLsbD 2 = false
  held : holdDomain s = s
  levels : s.lvl = levelsOf s

/-- Latch `i` of the eight. -/
def getLatch (x : Latches) (i : Nat) : Option Word :=
  match i with
  | 0 => x.x0
  | 1 => x.x1
  | 2 => x.x2
  | 3 => x.x3
  | 4 => x.x4
  | 5 => x.x5
  | 6 => x.x6
  | 7 => x.x7
  | _ => none

/-- The latch a micro-op writes, if any. -/
def writtenLatch : MicroOp → Option Nat
  | .calc i _ => some i
  | .rd i _ => some i
  | .check _ | .wr _ _ | .rmw _ _ _ | .isrSetInit _ | .isrClr _ | .poll _ _ _ | .skipIf _ _ _ _
  | .faultIf _ _ | .res _ | .construct _ | .done => none

/-- A sequencer's command in flight is one of the table, allowed in its context (R164), at a micro-op of its program, with the
operand latches as they were loaded (R70) and every latch written that an earlier micro-op writes (R26). -/
structure InFlight (p : Params) (q : SeqId) (c : Seq) (i : Instr) (prog : List MicroOp) : Prop where
  word : decode c.word = .ok i
  op : c.op = opcode i
  context : contextAllows q i = true
  program : progOf p c.op = some prog
  inside : c.pc < prog.length
  loaded : ∀ j v, getLatch (loadedLatches i) j = some v → getLatch c.x j = some v
  written : ∀ k m j, k < c.pc → prog[k]? = some m → writtenLatch m = some j → (getLatch c.x j).isSome = true

/-- A sequencer is sound: its status is one of R29, and a command in flight is as `InFlight` says. -/
structure SeqOk (p : Params) (q : SeqId) (c : Seq) : Prop where
  status : c.status.toNat ≤ 1
  flight : c.busy = true → ∃ i prog, InFlight p q c i prog

/-- The machine is sound. -/
structure MachineOk (s : State) : Prop where
  regs : RegsOk s
  owner : SeqOk s.par .owner s.owner
  irq : SeqOk s.par .irq s.irq
  /-- R30: the fault codes are those of R158 -/
  faultCode : s.faultCode.toNat ≤ 3
  /-- R157: "the faulting sequencer keeps busy = 1", and its word is the recorded one -/
  faultBusy : faulted s = true → (seqOf s s.faultSeq).busy = true ∧ s.faultWord = (seqOf s s.faultSeq).word
  /-- R31: the reasons are those of R162 -/
  refusedReason : s.refusedReason.toNat ≤ 5
  /-- R32: "no value while constructed = 0" -/
  clock : s.constructed = s.clkSrc.isSome

/-- OWNER is ready for a command and so addressed by the port; IRQ is idle; the backup domain is not held in reset. -/
structure OwnerReady (s : State) : Prop where
  regs : RegsOk s
  live : domainHeld s = false
  noFault : s.faultCode = 0#8
  noRefusal : s.refusedReason = 0#8
  port : s.port.seq = .owner
  idle : s.owner.busy = false
  irqIdle : s.irq.busy = false

/-- Sequencer `q` is ready for a command that either context may issue: OWNER needs IRQ idle to run (R167), IRQ needs nothing
of OWNER. -/
structure ContextReady (q : SeqId) (s : State) : Prop where
  regs : RegsOk s
  noFault : s.faultCode = 0#8
  noRefusal : s.refusedReason = 0#8
  port : s.port.seq = q
  idle : (seqOf s q).busy = false
  irqIdle : s.irq.busy = false

/-- After a command's own draws, the schedule makes no move while sequencer `q` is busy: it is empty, or the host waits for
`busy = 0` (R166). -/
def Waits (q : SeqId) (ms : List Move) : Prop := ms = [] ∨ ∃ rest, ms = .await q :: rest

/-- The environment steps that serve the two polls of an init transaction (R95, R96, R174). -/
def initDraws (s : State) : List Move :=
  (if initf s then [] else [.env .initfSet]) ++ [.env .initfClear]

/-- The schedule serves an init transaction: its draws come first, then `rest`; init mode found active is held by INIT = 1. -/
structure InitServed (s : State) (rest : List Move) : Prop where
  moves : s.moves = initDraws s ++ rest
  quiet : Waits .owner rest
  holdsInit : initf s = true → initBit s = true

/-- RTC_ISR after a served init transaction: INIT and INITF are 0, and RSF is 0 if init mode was entered (R174). -/
def isrAfterInit (s : State) : Word :=
  s.rtcIsr &&& ~~~(bit 7 ||| bit 6 ||| (if initf s then 0#32 else bit 5))

/-- A sequencer after its command `i` has completed with a status and a result. (Where `pc` stands is R27's, for every micro-op
alike, and the latches are left open.) -/
structure Finished (c : Seq) (i : Instr) (status : Byte) (res : BitVec 64) : Prop where
  idle : c.busy = false
  status : c.status = status
  res : c.res = res
  op : c.op = opcode i
  word : c.word = encode i

/-! ### The command table, as data (spec/30_encoding.md R72, R73) -/

/-- One row of the opcode map: the opcode, the number of operand-area bits its format uses (every bit from there to 55 is
reserved-zero), and the format's fields as latch, low bit and width. -/
structure CommandRow where
  opcode : Nat
  used : Nat
  fields : List (Nat × Nat × Nat)
deriving DecidableEq, Repr

/-- Format B and format L (R72). -/
def formatB : List (Nat × Nat × Nat) := [(0, 0, 8)]
/-- Format P (R72). -/
def formatP : List (Nat × Nat × Nat) := [(0, 0, 16), (1, 16, 8)]

/-- The 23 rows of R73, each with its format of R72. -/
def commandRows : List CommandRow :=
  [ ⟨0x01, 8, formatB⟩, ⟨0x02, 8, formatB⟩, ⟨0x03, 8, formatB⟩, ⟨0x04, 8, formatB⟩, ⟨0x05, 8, formatB⟩, ⟨0x06, 8, formatB⟩
  , ⟨0x07, 16, [(0, 0, 16)]⟩
  , ⟨0x08, 32, [(0, 0, 16), (1, 16, 8), (2, 24, 8)]⟩
  , ⟨0x09, 56, [(0, 0, 16), (1, 16, 8), (2, 24, 8), (3, 32, 8), (4, 40, 8), (5, 48, 8)]⟩
  , ⟨0x0A, 0, []⟩, ⟨0x0B, 24, formatP⟩ ] ++
  [ ⟨0x10, 32, [(0, 0, 32)]⟩, ⟨0x11, 0, []⟩, ⟨0x12, 32, [(0, 0, 32)]⟩
  , ⟨0x20, 2, [(0, 0, 2)]⟩, ⟨0x21, 2, [(0, 0, 2)]⟩
  , ⟨0x22, 8, formatB⟩, ⟨0x23, 8, formatB⟩, ⟨0x24, 8, formatB⟩
  , ⟨0x30, 11, [(0, 0, 8), (1, 8, 3)]⟩, ⟨0x31, 8, [(0, 0, 4), (1, 4, 4)]⟩
  , ⟨0x40, 25, [(0, 0, 16), (1, 16, 8), (2, 24, 1)]⟩, ⟨0x41, 24, formatP⟩ ]

/-- The field `w[lo + width - 1 : lo]` of a command word, as a number (R20). -/
def cmdField (w : Cmd) (lo width : Nat) : Nat := w.toNat / 2 ^ lo % 2 ^ width

/-- The row of a word's opcode. -/
def rowOf (w : Cmd) : Option CommandRow := commandRows.find? fun r => r.opcode == cmdField w 56 8

/-- R77: an assigned opcode, its reserved-zero bits clear and its field select, if it has one, defined (R76). -/
def legalWord (w : Cmd) : Bool :=
  match rowOf w with
  | some r => cmdField w r.used (56 - r.used) == 0 && !(r.opcode == 0x30 && cmdField w 8 3 == 7)
  | none => false

/-- The commands that the interrupt context may issue (R164), by opcode. -/
def irqOpcodes : List Nat := [0x21, 0x22, 0x23, 0x24, 0x30, 0x31]

/-! ### Operand domains (R120, R121, R115) -/

/-- The operands of a command pass its checks: the domains of R120, for the combined setters the date's existence (R121), for
BCD_ENCODE the field widths (R115, R84). A command without checks always passes. -/
def operandsInDomain : Instr → Bool
  | .setSeconds v | .setMinutes v => decide (v.toNat ≤ 59)
  | .setHours v => decide (v.toNat ≤ 23)
  | .setWeekday v => decide (1 ≤ v.toNat ∧ v.toNat ≤ 7)
  | .setDay v => decide (1 ≤ v.toNat ∧ v.toNat ≤ 31)
  | .setMonth v => decide (1 ≤ v.toNat ∧ v.toNat ≤ 12)
  | .setYear y => decide (1970 ≤ y.toNat ∧ y.toNat ≤ 2069)
  | .setDate y m d =>
    decide (1970 ≤ y.toNat ∧ y.toNat ≤ 2069 ∧ 1 ≤ m.toNat ∧ m.toNat ≤ 12 ∧ 1 ≤ d.toNat ∧ d.toNat ≤ daysIn y.toNat m.toNat)
  | .setDatetime y m d h mi sec =>
    decide (1970 ≤ y.toNat ∧ y.toNat ≤ 2069 ∧ 1 ≤ m.toNat ∧ m.toNat ≤ 12 ∧ 1 ≤ d.toNat ∧ d.toNat ≤ daysIn y.toNat m.toNat
      ∧ h.toNat ≤ 23 ∧ mi.toNat ≤ 59 ∧ sec.toNat ≤ 59)
  | .bcdEncode f v =>
    match f.toNat with
    | 0 | 1 => decide (v.toNat ≤ 79)
    | 2 | 4 => decide (v.toNat ≤ 39)
    | 3 => decide (v.toNat ≤ 7)
    | 5 => decide (v.toNat ≤ 19)
    | 6 => decide (v.toNat ≤ 99)
    | _ => true
  | .getDatetime | .setPrescalers _ _ | .enableWakeup _ | .disableWakeup | .wakeupTimer _ | .listen _ | .unpendEvent _
  | .pendLine _ | .unpendLine _ | .isPendingLine _ | .bcdDecode _ _ | .bringupLse _ _ _ | .bringupLsi _ _ => true

/-! ### Schedules that serve the other polls -/

/-- The schedule serves the wait for WUTWF (R177): its draw comes first where the flag is 0, then `rest`. -/
structure WakeServed (s : State) (rest : List Move) : Prop where
  moves : s.moves = (if wutwf s then [] else [.env .wutwfSet]) ++ rest
  quiet : Waits .owner rest

/-- The schedule serves the wait for RSF (R175): its draw comes first where the flag is 0, and can then be taken. -/
structure SnapServed (s : State) (rest : List Move) : Prop where
  moves : s.moves = (if rsf s then [] else [.env .rsfSet]) ++ rest
  quiet : Waits .owner rest
  runs : rsf s = false → initf s = false ∧ rtcEnabled s = true

/-- A command of `i` on a sequencer that was `old` has faulted at micro-op `pc` (R157): it stays busy, its status and result
are those from before. -/
structure FaultedAt (c old : Seq) (i : Instr) (pc : Nat) : Prop where
  busy : c.busy = true
  op : c.op = opcode i
  word : c.word = encode i
  pc : c.pc = pc
  status : c.status = old.status
  res : c.res = old.res

/-- A sequencer as a block reset leaves it (R51): idle, at micro-op 0, no latch holding a value, status and result 0. -/
structure SeqReset (c : Seq) : Prop where
  busy : c.busy = false
  pc : c.pc = 0
  x : c.x = Latches.empty
  status : c.status = 0x00#8
  res : c.res = 0#64

/-- Where a command that opens an init transaction at once after its checks waits for INITF (R95): the micro-op number of that
poll, which the number of micro-ops before the bracket decides. -/
def initWaitPc : Instr → Option Nat
  | .setSeconds _ | .setMinutes _ | .setHours _ | .setWeekday _ | .setDay _ | .setMonth _ | .setYear _ => some 7
  | .setDate _ _ _ => some 10
  | .setDatetime _ _ _ _ _ _ => some 14
  | .setPrescalers _ _ => some 4
  | .getDatetime | .enableWakeup _ | .disableWakeup | .wakeupTimer _ | .listen _ | .unpendEvent _
  | .pendLine _ | .unpendLine _ | .isPendingLine _ | .bcdEncode _ _ | .bcdDecode _ _
  | .bringupLse _ _ _ | .bringupLsi _ _ => none

/-- A reset among the moves (R190). -/
def isReset : Move → Bool
  | .blockReset => true
  | .systemReset _ => true
  | .powerOn _ => true
  | .present _ _ | .await _ | .hostRead | .micro _ | .env _ => false

/-- The prescaler register written with both operands (R87, R136). -/
def prerOf (p : Params) (sync : BitVec 16) (async : BitVec 8) : Word :=
  (sync.setWidth 32 &&& lowMask p.predivSWidth) ||| ((async.setWidth 32 &&& lowMask p.predivAWidth) <<< 16)

end Sys2Proof.Machine
end

