-- ==== Sys2Proof/Certificates/Slice0/Obligations.lean ====
section
/-! DEFINITION. The statements for the provers. Each docstring names the rules of spec/ it rests on. Where a statement rests on a
choice of the model's own it names the row of notes/assumptions. Assumption 1, above all: that one step runs a presented
command until it completes, faults or waits, with the other agents' moves given as a schedule, is the model's form of the
spec's scheduling (R166, R167). -/

open Sys2Proof Sys2Proof.Machine

/-! ### Encoding and acceptance -/

/-- One or more words of every format, written out from the table of R73 and the formats of R72. -/
def Obligations.TableWordsDecode : Prop :=
  decode 0x010000000000003B#64 = .ok (.setSeconds 59) ∧
  decode 0x0700000000000815#64 = .ok (.setYear 2069) ∧
  decode 0x080000001D0207E8#64 = .ok (.setDate 2024 2 29) ∧
  decode 0x093A3B171D0207E8#64 = .ok (.setDatetime 2024 2 29 23 59 58) ∧
  decode 0x0A00000000000000#64 = .ok .getDatetime ∧
  decode 0x0B000000007F00F9#64 = .ok (.setPrescalers 249 127) ∧
  decode 0x1000000000010001#64 = .ok (.enableWakeup 65537) ∧
  decode 0x2000000000000002#64 = .ok (.listen .wakeup) ∧
  decode 0x2200000000000011#64 = .ok (.pendLine 17) ∧
  decode 0x3000000000000663#64 = .ok (.bcdEncode 6 99) ∧
  decode 0x3100000000000095#64 = .ok (.bcdDecode 9 5) ∧
  decode 0x40000000007F00FF#64 = .ok (.bringupLse 0 255 127) ∧
  decode 0x41000000007F00F9#64 = .ok (.bringupLsi 249 127)

/-- Every well-formed command is read back from its word with every operand at every value (R72, R73). -/
def Obligations.DecodeOfEncode : Prop := ∀ i : Instr, i.wellFormed = true → decode (encode i) = .ok i

/-- A word that decodes is the word of its command, and the command is well formed: no two words mean one command, and no bit
of a word is dropped (R72, R77). -/
def Obligations.EncodeOfDecode : Prop :=
  ∀ (w : Cmd) (i : Instr), decode w = .ok i → i.wellFormed = true ∧ encode i = w

/-- R77: a word is a command exactly when its opcode is in the table, its reserved-zero bits are clear and its enumerated field
is defined; every word is one command or illegal. -/
def Obligations.EveryWordIsACommandOrIllegal : Prop :=
  ∀ w : Cmd, (legalWord w = true ∧ ∃ i, decode w = .ok i ∧ ∀ j, decode w = .ok j → j = i) ∨
    (legalWord w = false ∧ ∃ e, decode w = .error e)

/-- R72: each latch of an accepted word holds its format's field, zero-extended, and every other latch holds no value (R26). -/
def Obligations.LatchesHoldTheFormatFields : Prop :=
  ∀ (w : Cmd) (i : Instr), decode w = .ok i → ∃ r, rowOf w = some r ∧
    cmdField w r.used (56 - r.used) = 0 ∧
    ∀ j, getLatch (loadedLatches i) j = (r.fields.lookup j).map fun f => BitVec.ofNat 32 (cmdField w f.1 f.2)

/-- R79: the two pseudo-instructions expand to the bring-up commands with the recommended prescaler pairs. -/
def Obligations.PseudoInstructionsExpand : Prop :=
  (∀ b, assemble "BRINGUP_LSE_DEFAULT" [.num b] = assemble "BRINGUP_LSE" [.num b, .num 255, .num 127]) ∧
  assemble "BRINGUP_LSI_DEFAULT" [] = assemble "BRINGUP_LSI" [.num 249, .num 127] ∧
  assemble "BRINGUP_LSI_DEFAULT" [] = some (.bringupLsi 249 127)

/-- A step with a word at the command port runs the command it decodes to, the port emptied. Assumption 1. -/
def Obligations.StepRunsTheDecodedCommand : Prop :=
  ∀ (s : State) (w : Cmd) (i : Instr), paramsOk s.par = true → s.port.word = some w → decode w = .ok i →
    step s = exec i { s with port := { s.port with word := none } }

/-- R74: the acceptance checks in their order, on every word and either sequencer: no step once a mark is set, then BUSY,
ILLEGAL_COMMAND, CONTEXT_VIOLATION, the construction reasons, else acceptance. A refusal writes the refusal mark and nothing
else. -/
def Obligations.AcceptanceChecksInOrder : Prop :=
  ∀ (q : SeqId) (w : Cmd) (s : State),
    (s.faultCode ≠ 0#8 ∨ s.refusedReason ≠ 0#8 → presentWord q w s = s) ∧
    (s.faultCode = 0#8 → s.refusedReason = 0#8 →
      ((seqOf s q).busy = true → presentWord q w s = { s with refusedReason := 0x05#8, refusedWord := w }) ∧
      ((seqOf s q).busy = false →
        (legalWord w = false → presentWord q w s = { s with refusedReason := 0x01#8, refusedWord := w }) ∧
        (legalWord w = true →
          (q = .irq → cmdField w 56 8 ∉ irqOpcodes →
            presentWord q w s = { s with refusedReason := 0x02#8, refusedWord := w }) ∧
          (q = .owner ∨ cmdField w 56 8 ∈ irqOpcodes →
            (cmdField w 56 8 ≤ 0x20 → s.constructed = false →
              presentWord q w s = { s with refusedReason := 0x03#8, refusedWord := w }) ∧
            (0x40 ≤ cmdField w 56 8 → s.constructed = true →
              presentWord q w s = { s with refusedReason := 0x04#8, refusedWord := w }) ∧
            ((cmdField w 56 8 ≤ 0x20 → s.constructed = true) → (0x40 ≤ cmdField w 56 8 → s.constructed = false) →
              ∃ i, decode w = .ok i ∧
                presentWord q w s = setSeq s q { seqOf s q with
                  busy := true, op := BitVec.ofNat 8 (cmdField w 56 8), word := w, pc := 0, x := loadedLatches i })))))

/-- A command that is refused changes the refusal mark and nothing else (R162), whatever its operands. Assumption 1. -/
def Obligations.RefusedCommandOnlyMarks : Prop :=
  ∀ (i : Instr) (s : State) (r : RefusalReason), verdict s.port.seq (some i) s = .refuse r →
    exec i s = .next { s with refusedReason := refusalByte r, refusedWord := encode i }

/-- R106: construction changes only in a CONSTRUCT of a bring-up on OWNER or in a reset, and a bring-up is accepted only on
OWNER and only while the block is not constructed. -/
def Obligations.OnlyBringupConstructs : Prop :=
  (∀ s t : State, MachineOk s → tick s = .next t → s.constructed = false → t.constructed = true →
    s.owner.busy = true ∧
      ((s.owner.op = 0x40#8 ∧ t.clkSrc = some .lse) ∨ (s.owner.op = 0x41#8 ∧ t.clkSrc = some .lsi))) ∧
  (∀ (q : SeqId) (s : State) (bypass : BitVec 1) (sync : BitVec 16) (async : BitVec 8),
    (verdict q (some (.bringupLse bypass sync async)) s = .accept → q = .owner ∧ s.constructed = false) ∧
    (verdict q (some (.bringupLsi sync async)) s = .accept → q = .owner ∧ s.constructed = false))

/-! ### Write protection and the registers -/

/-- R35: the key FSM, and that no register read shows its state. -/
def Obligations.KeySequence : Prop :=
  ∀ s : State, RegsOk s → domainHeld s = false →
    (∀ v : Word, memWrite (regAddr s.par .wpr) v s = some { s with
      wp := if v.setWidth 8 = 0xCA#8 then .key1
        else if v.setWidth 8 = 0x53#8 ∧ s.wp = .key1 then .unlocked else .locked }) ∧
    (∀ (r : Reg) (w : WpState), (readReg r { s with wp := w }).1 = (readReg r s).1) ∧
    (readReg .wpr s).1 = 0#32

/-- R42: while the key FSM is not UNLOCKED, a write to a protected register changes nothing; a write to RTC_ISR then clears, of
the bits it holds 0 in, only [13:8] (and RSF when RSF_PROTECTED is false), with the edges this makes; RTC_WPR is not protected. -/
def Obligations.LockedWritesAreIgnored : Prop :=
  ∀ (s : State) (v : Word), RegsOk s → s.wp ≠ .unlocked →
    (∀ r, r = .tr ∨ r = .dr ∨ r = .cr ∨ r = .prer ∨ r = .wutr → memWrite (regAddr s.par r) v s = some s) ∧
    memWrite (regAddr s.par .isr) v s = some (detectEdges { s with
      rtcIsr := s.rtcIsr &&& (v ||| ~~~(0x00003F00#32 ||| if s.par.rsfProtected then 0#32 else 0x00000020#32)) }) ∧
    (domainHeld s = false → memWrite (regAddr s.par .wpr) 0x000000CA#32 s = some { s with wp := .key1 })

/-- R43: unlocked, RTC_TR, RTC_DR and RTC_PRER take a write only while INITF = 1, RTC_WUTR only while WUTWF = 1; RTC_CR changes
bits 7, 6, 4 only while INITF = 1 and bits 2:0 only while WUTE = 0 and WUTWF = 1, its other bits in any case. -/
def Obligations.GuardedWrites : Prop :=
  ∀ (s : State) (v : Word), RegsOk s → s.wp = .unlocked →
    (initf s = false → ∀ r, r = .tr ∨ r = .dr ∨ r = .prer → memWrite (regAddr s.par r) v s = some s) ∧
    (initf s = true →
      memWrite (regAddr s.par .tr) v s = some { s with calTr := v &&& trMask } ∧
      memWrite (regAddr s.par .dr) v s = some { s with calDr := v &&& drMask, drLock := none } ∧
      memWrite (regAddr s.par .prer) v s = some { s with rtcPrer := v &&& prerMask s.par }) ∧
    (wutwf s = false → memWrite (regAddr s.par .wutr) v s = some s) ∧
    (wutwf s = true → memWrite (regAddr s.par .wutr) v s = some { s with rtcWutr := v &&& wutrMask }) ∧
    ∃ t : Word, memWrite (regAddr s.par .cr) v s = some (detectEdges { s with rtcCr := t }) ∧
      ∀ n, n < 32 → t.getLsbD n =
        if 24 ≤ n then false
        else if (n = 7 ∨ n = 6 ∨ n = 4) ∧ initf s = false then s.rtcCr.getLsbD n
        else if n ≤ 2 ∧ ¬(wute s = false ∧ wutwf s = true) then s.rtcCr.getLsbD n
        else v.getLsbD n

/-- R91, R92: in an unlocked state ISR_SET_INIT writes INIT and no flag; the write of ISR_CLR of a mask of rc_w0 flags, made after
reading `v`, clears exactly those flags, whatever other flag was set since the read. In a locked state the same, of the flags
that R42 leaves writable. -/
def Obligations.IsrWriteForms : Prop :=
  ∀ s : State, RegsOk s →
    (s.wp = .unlocked → ∀ b : Bool, memWrite (regAddr s.par .isr) (isrSetInitWord b) s =
      some { s with rtcIsr := if b then s.rtcIsr ||| bit 7 else s.rtcIsr &&& ~~~bit 7 }) ∧
    (∀ m v : Word, m &&& ~~~isrKeep = 0#32 → v &&& bit 7 = s.rtcIsr &&& bit 7 →
      memWrite (regAddr s.par .isr) (isrClearWord m v) s = some (detectEdges { s with
        rtcIsr := s.rtcIsr &&& ~~~(m &&& if s.wp = .unlocked then isrKeep
          else 0x00003F00#32 ||| if s.par.rsfProtected then 0#32 else 0x00000020#32) }))

/-- R61: the date shadow lock. A time read captures the date, a date read returns the captured date and releases it, an
effective date write releases it, and a calendar tick that is taken (INITF = 0, RTC enabled, R176) leaves it alone. (While the domain is held in reset the lock stays `none`,
R107.) -/
def Obligations.DateShadowLock : Prop :=
  ∀ s : State, RegsOk s → domainHeld s = false →
    memRead (regAddr s.par .tr) s = some (s.calTr, { s with drLock := some s.calDr }) ∧
    (∀ v, s.drLock = some v → memRead (regAddr s.par .dr) s = some (v, { s with drLock := none })) ∧
    (s.drLock = none → memRead (regAddr s.par .dr) s = some (s.calDr, s)) ∧
    (∀ v t, initf s = true → s.wp = .unlocked → memWrite (regAddr s.par .dr) v s = some t → t.drLock = none) ∧
    (∀ rest t, s.moves = .env .calendarTick :: rest → initf s = false → rtcEnabled s = true → tick s = .next t →
      t.drLock = s.drLock)

/-- R182: a write of `v` to EXTI_SWIER sets, for the lines of `v` whose SWIER bit is 0, that bit, and the pending bit where the
line is unmasked or SWIER_NEEDS_IMR is false; where the SWIER bit is 1 it has no effect, and nothing else changes. -/
def Obligations.SoftwarePend : Prop :=
  ∀ (s : State) (v : Word), RegsOk s →
    ∃ sw pr : Word,
      memWrite (regAddr s.par .swier) v s = some { s with extiSwier := sw, extiPr := pr } ∧
      ∀ n, n < 32 →
        sw.getLsbD n = (s.extiSwier.getLsbD n || (v.getLsbD n && decide (n < s.par.nLines))) ∧
        pr.getLsbD n = (s.extiPr.getLsbD n || (v.getLsbD n && decide (n < s.par.nLines) && !s.extiSwier.getLsbD n
          && (s.extiImr.getLsbD n || !s.par.swierNeedsImr)))

/-- R109, R46: PWR_CR takes a write only while PWREN = 1, and then DBP changes and CWUF = 1 clears WUF; the gated bits of
RCC_CSR take one only while DBP = 1, and LSION always. The bits no rule lists keep their values (assumption 8). -/
def Obligations.PowerGates : Prop :=
  ∀ (s : State) (v : Word), RegsOk s →
    (pwren s = false → memWrite (regAddr s.par .pwrCr) v s = some s) ∧
    (pwren s = true → memWrite (regAddr s.par .pwrCr) v s = some { s with
      pwrCr := blend (bit 8) s.pwrCr v
      pwrCsr := if v.getLsbD 2 then s.pwrCsr &&& ~~~bit 0 else s.pwrCsr }) ∧
    (dbp s = false → memWrite (regAddr s.par .csr) v s = some { s with rccCsr := blend (bit 0) s.rccCsr v }) ∧
    (dbp s = true → ∃ t, memWrite (regAddr s.par .csr) v s = some t ∧
      (∀ n, n = 0 ∨ n = s.par.domrstBit → t.rccCsr.getLsbD n = v.getLsbD n) ∧
      (v.getLsbD s.par.domrstBit = false →
        t = { s with rccCsr := blend (bit 0 ||| csrGatedMask s.par) s.rccCsr v }))

/-- R107, R52: writing 1 to the domain-reset bit with DBP = 1 resets the backup domain, and while the bit stays 1 no write,
draw or micro-op moves an RTC register from its reset value. That RTC_PRER's reset value is masked to its fields is assumption
12, that writes and draws leave nothing behind while the domain is held is assumption 14. -/
def Obligations.BackupDomainReset : Prop :=
  (∀ (s : State) (v : Word), RegsOk s → dbp s = true → v.getLsbD s.par.domrstBit = true →
    ∃ t, memWrite (regAddr s.par .csr) v s = some t ∧ t.calTr = 0#32 ∧ t.calDr = 0x00002101#32 ∧ t.rtcCr = 0#32 ∧
      t.rtcIsr = 0x00000007#32 ∧ t.rtcPrer = 0x007F00FF#32 &&& prerMask s.par ∧ t.rtcWutr = 0x0000FFFF#32 ∧
      t.wp = .locked ∧ t.drLock = none ∧ t.rccCsr.getLsbD 8 = false ∧ t.rccCsr.getLsbD 9 = false ∧
      t.rccCsr.getLsbD 10 = false ∧ t.rccCsr.getLsbD s.par.rtcselLsb = false ∧
      t.rccCsr.getLsbD (s.par.rtcselLsb + 1) = false ∧ t.rccCsr.getLsbD 22 = false ∧
      t.constructed = s.constructed ∧ t.owner = s.owner ∧ t.irq = s.irq) ∧
  (∀ s t : State, MachineOk s → domainHeld s = true → tick s = .next t → domainHeld t = true →
    t.calTr = 0#32 ∧ t.calDr = 0x00002101#32 ∧ t.rtcCr = 0#32 ∧ t.rtcIsr = 0x00000007#32 ∧
      t.rtcPrer = 0x007F00FF#32 &&& prerMask s.par ∧ t.rtcWutr = 0x0000FFFF#32 ∧ t.wp = .locked ∧ t.drLock = none ∧
      t.rccCsr &&& csrBackupMask s.par = 0#32)

/-- R170 (1), (2): the levels are those of the flags and enables, and the pending bit of line 17, 19 or 20 is set by a rising
edge under RTSR and by a falling edge under FTSR, and by nothing else of the detector. -/
def Obligations.EdgeDetector : Prop :=
  ∀ s : State,
    (detectEdges s).lvl.l17 = ((alraf s && alraie s) || (alrbf s && alrbie s)) ∧
    (detectEdges s).lvl.l19 = (tsf s && tsie s) ∧ (detectEdges s).lvl.l20 = (wutf s && wutie s) ∧
    ∀ n, n < 32 → (detectEdges s).extiPr.getLsbD n =
      (s.extiPr.getLsbD n ||
        (decide (n = 17) && ((!s.lvl.l17 && (detectEdges s).lvl.l17 && s.extiRtsr.getLsbD 17) ||
          (s.lvl.l17 && !(detectEdges s).lvl.l17 && s.extiFtsr.getLsbD 17))) ||
        (decide (n = 19) && ((!s.lvl.l19 && (detectEdges s).lvl.l19 && s.extiRtsr.getLsbD 19) ||
          (s.lvl.l19 && !(detectEdges s).lvl.l19 && s.extiFtsr.getLsbD 19))) ||
        (decide (n = 20) && ((!s.lvl.l20 && (detectEdges s).lvl.l20 && s.extiRtsr.getLsbD 20) ||
          (s.lvl.l20 && !(detectEdges s).lvl.l20 && s.extiFtsr.getLsbD 20))))

/-! ### The environment and the resets -/

/-- R174 to R180, R183, R184: each draw at the head of the schedule, where its condition holds, has exactly its effect, with the
edges it makes. Where the rule's condition does not hold the draw is not taken: it stays at the head of the schedule, and the
step is the one the machine makes with an empty schedule.
Assumptions 1 (the schedule) and 3 (CAL_TICK masked to the register fields). -/
def Obligations.EnvironmentDraws : Prop :=
  ∀ (s : State) (d : Draw) (rest : List Move), RegsOk s → s.port.word = none → s.moves = .env d :: rest →
    ((d = .initfSet ∧ (initBit s = false ∨ initf s = true)) ∨
      (d = .initfClear ∧ (initBit s = true ∨ initf s = false)) ∨
      (d = .rsfSet ∧ (initf s = true ∨ rtcEnabled s = false)) ∨
      (d = .calendarTick ∧ (initf s = true ∨ rtcEnabled s = false)) ∨
      (d = .wutwfSet ∧ (wute s = true ∨ wutwf s = true)) ∨
      (d = .wutwfClear ∧ (wute s = false ∨ wutwf s = false)) ∨
      ((∃ w, d = .wutfSet w) ∧ wute s = false) ∨
      ((∃ w, d = .alrafSet w) ∧ alrae s = false) ∨
      ((∃ w, d = .alrbfSet w) ∧ alrbe s = false) ∨
      ((∃ w, d = .tsfSet w) ∧ tse s = false) ∨
      (d = .lserdySet ∧ (lseon s = false ∨ lserdy s = true)) ∨
      (d = .lserdyClear ∧ (lseon s = true ∨ lserdy s = false)) ∨
      (d = .lsirdySet ∧ (lsion s = false ∨ lsirdy s = true)) ∨
      (d = .lsirdyClear ∧ (lsion s = true ∨ lsirdy s = false)) →
      ∀ t, step s = .next t → t.moves = s.moves ∧ step { s with moves := [] } = .next { t with moves := [] }) ∧
    (d = .initfSet → initBit s = true → initf s = false →
      step s = .next { s with moves := rest, rtcIsr := (s.rtcIsr ||| bit 6) &&& ~~~bit 5 }) ∧
    (d = .initfClear → initBit s = false → initf s = true →
      step s = .next { s with moves := rest, rtcIsr := s.rtcIsr &&& ~~~bit 6 }) ∧
    (d = .rsfSet → initf s = false → rtcEnabled s = true →
      step s = .next { s with moves := rest, rtcIsr := s.rtcIsr ||| bit 5 }) ∧
    (d = .calendarTick → initf s = false → rtcEnabled s = true →
      step s = .next { s with
        moves := rest, calTr := (calTick s.calTr s.calDr).1 &&& trMask
        calDr := (calTick s.calTr s.calDr).2 &&& drMask }) ∧
    (d = .wutwfSet → wute s = false → wutwf s = false →
      step s = .next { s with moves := rest, rtcIsr := s.rtcIsr ||| bit 2 }) ∧
    (d = .wutwfClear → wute s = true → wutwf s = true →
      step s = .next { s with moves := rest, rtcIsr := s.rtcIsr &&& ~~~bit 2 }) ∧
    (∀ w, (d = .wutfSet w → wute s = true → step s = .next (detectEdges { s with
        moves := rest, rtcIsr := s.rtcIsr ||| bit 10, pwrCsr := if w then s.pwrCsr ||| bit 0 else s.pwrCsr })) ∧
      (d = .alrafSet w → alrae s = true → step s = .next (detectEdges { s with
        moves := rest, rtcIsr := s.rtcIsr ||| bit 8, pwrCsr := if w then s.pwrCsr ||| bit 0 else s.pwrCsr })) ∧
      (d = .alrbfSet w → alrbe s = true → step s = .next (detectEdges { s with
        moves := rest, rtcIsr := s.rtcIsr ||| bit 9, pwrCsr := if w then s.pwrCsr ||| bit 0 else s.pwrCsr })) ∧
      (d = .tsfSet w → tse s = true → step s = .next (detectEdges { s with
        moves := rest, rtcIsr := s.rtcIsr ||| bit 11, pwrCsr := if w then s.pwrCsr ||| bit 0 else s.pwrCsr }))) ∧
    (d = .lserdySet → lseon s = true → lserdy s = false →
      step s = .next { s with moves := rest, rccCsr := s.rccCsr ||| bit 9 }) ∧
    (d = .lserdyClear → lseon s = false → lserdy s = true →
      step s = .next { s with moves := rest, rccCsr := s.rccCsr &&& ~~~bit 9 }) ∧
    (d = .lsirdySet → lsion s = true → lsirdy s = false →
      step s = .next { s with moves := rest, rccCsr := s.rccCsr ||| bit 1 }) ∧
    (d = .lsirdyClear → lsion s = false → lsirdy s = true →
      step s = .next { s with moves := rest, rccCsr := s.rccCsr &&& ~~~bit 1 })

/-- The calendar registers change in one of four ways only (R43, R176, R201, R107): a calendar tick with INITF = 0 and the RTC
enabled, a micro-op of OWNER while unlocked with INITF = 1, a domain held in reset, or a power-on. In particular nothing ticks
in init mode. The held domain is assumption 14. -/
def Obligations.CalendarChangesOnlyByTickOrInitMode : Prop :=
  ∀ s t : State, MachineOk s → tick s = .next t → t.calTr ≠ s.calTr ∨ t.calDr ≠ s.calDr →
    (∃ rest, s.moves = .env .calendarTick :: rest ∧ initf s = false ∧ rtcEnabled s = true) ∨
    (s.owner.busy = true ∧ s.irq.busy = false ∧ s.wp = .unlocked ∧ initf s = true) ∨
    domainHeld t = true ∨ (∃ d rest, s.moves = .powerOn d :: rest)

/-- R174: INITF changes only by its two draws, under their conditions; else only a backup-domain reset or a power-on clears it.
The held domain is assumption 14. -/
def Obligations.InitfChangesOnlyByItsDraws : Prop :=
  ∀ s t : State, MachineOk s → tick s = .next t → initf t ≠ initf s →
    (∃ rest, s.moves = .env .initfSet :: rest ∧ initBit s = true ∧ initf s = false) ∨
    (∃ rest, s.moves = .env .initfClear :: rest ∧ initBit s = false ∧ initf s = true) ∨
    domainHeld t = true ∨ (∃ d rest, s.moves = .powerOn d :: rest)

/-- R51, R191: a block reset puts both sequencers, the marks and the construction at their reset values and keeps the RTC
registers and every other register. (That it keeps `op`, the word in flight and the fault and refusal words, which R51 does not
name, is the model's choice: assumption 5.) -/
def Obligations.BlockReset : Prop :=
  ∀ (s : State) (rest : List Move), paramsOk s.par = true → s.port.word = none → s.moves = .blockReset :: rest →
    step s = .next { s with
      moves := rest
      owner := { s.owner with busy := false, pc := 0, x := Latches.empty, status := 0#8, res := 0#64 }
      irq := { s.irq with busy := false, pc := 0, x := Latches.empty, status := 0#8, res := 0#64 }
      faultCode := 0#8, refusedReason := 0#8, constructed := false, clkSrc := none }

/-- R53, R190 (2), R192: a system reset is a block reset (both sequencers, the marks, the construction) that also clears the EXTI,
PWR and non-backup RCC registers the rule names, takes EXTI_PR and WUF as drawn, and keeps the RTC registers and the backup bits
of RCC_CSR. Assumptions 1, 4 and 10. -/
def Obligations.SystemReset : Prop :=
  ∀ (s : State) (d : ResetDraw) (rest : List Move), RegsOk s → s.port.word = none →
    s.moves = .systemReset d :: rest →
    ∃ t, step s = .next t ∧ SeqReset t.owner ∧ SeqReset t.irq ∧ t.faultCode = 0#8 ∧ t.refusedReason = 0#8 ∧
      t.constructed = false ∧ t.clkSrc = none ∧
      t.extiImr = 0#32 ∧ t.extiRtsr = 0#32 ∧ t.extiFtsr = 0#32 ∧ t.extiSwier = 0#32 ∧ dbp t = false ∧ pwren t = false ∧
      lsion t = false ∧ lsirdy t = false ∧ t.extiPr = d.extiPr &&& lineMask s.par ∧ wuf t = d.pwrCsr.getLsbD 0 ∧
      t.rccCsr &&& csrBackupMask s.par = s.rccCsr &&& csrBackupMask s.par ∧
      t.calTr = s.calTr ∧ t.calDr = s.calDr ∧ t.rtcCr = s.rtcCr ∧ t.rtcIsr = s.rtcIsr ∧ t.rtcPrer = s.rtcPrer ∧
      t.rtcWutr = s.rtcWutr ∧ t.wp = s.wp ∧ t.drLock = s.drLock ∧ t.par = s.par

/-- R190 (4), R192: power-on without backup supply leaves all the state that R192 lists at the value the three resets give it:
the block as a block reset does, the EXTI, PWR and RCC bits as a system reset does (EXTI_PR and WUF as drawn), the RTC registers,
the key FSM, the date lock and the backup bits of RCC_CSR as a backup-domain reset does. Assumptions 1, 4, 11, and 12 (the reset
value of RTC_PRER is masked to its fields). -/
def Obligations.PowerOnReset : Prop :=
  ∀ (s : State) (d : ResetDraw) (rest : List Move), paramsOk s.par = true → s.port.word = none →
    s.moves = .powerOn d :: rest →
    ∃ t, step s = .next t ∧ RegsOk t ∧ SeqReset t.owner ∧ SeqReset t.irq ∧ t.faultCode = 0#8 ∧
      t.refusedReason = 0#8 ∧ t.constructed = false ∧ t.clkSrc = none ∧
      t.calTr = 0#32 ∧ t.calDr = 0x00002101#32 ∧ t.rtcCr = 0#32 ∧
      t.rtcIsr = 0x00000007#32 ∧ t.rtcPrer = 0x007F00FF#32 &&& prerMask s.par ∧ t.rtcWutr = 0x0000FFFF#32 ∧
      t.wp = .locked ∧ t.drLock = none ∧ t.extiImr = 0#32 ∧ t.extiRtsr = 0#32 ∧ t.extiFtsr = 0#32 ∧ t.extiSwier = 0#32 ∧
      t.extiPr = d.extiPr &&& lineMask s.par ∧ wuf t = d.pwrCsr.getLsbD 0 ∧
      dbp t = false ∧ pwren t = false ∧ lsion t = false ∧ lsirdy t = false ∧ lseon t = false ∧ lserdy t = false ∧
      t.rccCsr.getLsbD 10 = false ∧ t.rccCsr.getLsbD s.par.rtcselLsb = false ∧
      t.rccCsr.getLsbD (s.par.rtcselLsb + 1) = false ∧ rtcEnabled t = false ∧ t.par = s.par

/-! ### Calendar commands -/

/-- SET_SECONDS, SET_MINUTES, SET_HOURS complete (R122 to R124): the field's bits of RTC_TR take the BCD pair (the hour's mask
covers PM), the other bits stay, the read captured the date lock, INIT and INITF end at 0 and the key FSM LOCKED; nothing else
changes. Assumption 1. -/
def Obligations.TimeSettersComplete : Prop :=
  ∀ (s : State) (rest : List Move) (v : BitVec 8), OwnerReady s → s.constructed = true → InitServed s rest →
    (v.toNat ≤ 59 → ∃ c, Finished c (.setSeconds v) 0x00#8 s.owner.res ∧
      exec (.setSeconds v) s = .next { s with
        owner := c, calTr := blend 0x0000007F#32 s.calTr (toWord (bcdPair v.toNat)), drLock := some s.calDr
        rtcIsr := isrAfterInit s, wp := .locked, moves := rest }) ∧
    (v.toNat ≤ 59 → ∃ c, Finished c (.setMinutes v) 0x00#8 s.owner.res ∧
      exec (.setMinutes v) s = .next { s with
        owner := c, calTr := blend 0x00007F00#32 s.calTr (toWord (bcdPair v.toNat * 2 ^ 8)), drLock := some s.calDr
        rtcIsr := isrAfterInit s, wp := .locked, moves := rest }) ∧
    (v.toNat ≤ 23 → ∃ c, Finished c (.setHours v) 0x00#8 s.owner.res ∧
      exec (.setHours v) s = .next { s with
        owner := c, calTr := blend 0x007F0000#32 s.calTr (toWord (bcdPair v.toNat * 2 ^ 16)), drLock := some s.calDr
        rtcIsr := isrAfterInit s, wp := .locked, moves := rest })

/-- SET_WEEKDAY, SET_DAY, SET_MONTH, SET_YEAR complete (R125 to R128): the field's bits of RTC_DR take the value, the other bits
are those the read presents (the captured date if a lock is held, R197), and the lock is released; nothing else changes.
Assumption 1. -/
def Obligations.DateSettersComplete : Prop :=
  ∀ (s : State) (rest : List Move), OwnerReady s → s.constructed = true → InitServed s rest →
    (∀ v : BitVec 8, 1 ≤ v.toNat → v.toNat ≤ 7 → ∃ c, Finished c (.setWeekday v) 0x00#8 s.owner.res ∧
      exec (.setWeekday v) s = .next { s with
        owner := c, calDr := blend 0x0000E000#32 (s.drLock.getD s.calDr) (toWord (v.toNat * 2 ^ 13)), drLock := none
        rtcIsr := isrAfterInit s, wp := .locked, moves := rest }) ∧
    (∀ v : BitVec 8, 1 ≤ v.toNat → v.toNat ≤ 31 → ∃ c, Finished c (.setDay v) 0x00#8 s.owner.res ∧
      exec (.setDay v) s = .next { s with
        owner := c, calDr := blend 0x0000003F#32 (s.drLock.getD s.calDr) (toWord (bcdPair v.toNat)), drLock := none
        rtcIsr := isrAfterInit s, wp := .locked, moves := rest }) ∧
    (∀ v : BitVec 8, 1 ≤ v.toNat → v.toNat ≤ 12 → ∃ c, Finished c (.setMonth v) 0x00#8 s.owner.res ∧
      exec (.setMonth v) s = .next { s with
        owner := c, calDr := blend 0x00001F00#32 (s.drLock.getD s.calDr) (toWord (bcdPair v.toNat * 2 ^ 8)), drLock := none
        rtcIsr := isrAfterInit s, wp := .locked, moves := rest }) ∧
    (∀ y : BitVec 16, 1970 ≤ y.toNat → y.toNat ≤ 2069 → ∃ c, Finished c (.setYear y) 0x00#8 s.owner.res ∧
      exec (.setYear y) s = .next { s with
        owner := c, calDr := blend 0x00FF0000#32 (s.drLock.getD s.calDr) (toWord (bcdPair (y.toNat - 1970) * 2 ^ 16))
        drLock := none, rtcIsr := isrAfterInit s, wp := .locked, moves := rest })

/-- SET_DATE and SET_DATETIME complete on an existing date and time (R130, R131, R129): RTC_DR takes the whole date word with
weekday 1, RTC_TR the whole time word with PM = 0, the date lock is released; nothing else changes. Assumption 1. -/
def Obligations.CombinedSettersComplete : Prop :=
  ∀ (s : State) (rest : List Move) (y : BitVec 16) (m d h mi sec : BitVec 8),
    OwnerReady s → s.constructed = true → InitServed s rest →
    1970 ≤ y.toNat → y.toNat ≤ 2069 → 1 ≤ m.toNat → m.toNat ≤ 12 → 1 ≤ d.toNat → d.toNat ≤ daysIn y.toNat m.toNat →
    (∃ c, Finished c (.setDate y m d) 0x00#8 s.owner.res ∧
      exec (.setDate y m d) s = .next { s with
        owner := c
        calDr := toWord (bcdPair (y.toNat - 1970) * 2 ^ 16 + 1 * 2 ^ 13 + bcdPair m.toNat * 2 ^ 8 + bcdPair d.toNat)
        drLock := none, rtcIsr := isrAfterInit s, wp := .locked, moves := rest }) ∧
    (h.toNat ≤ 23 → mi.toNat ≤ 59 → sec.toNat ≤ 59 →
      ∃ c, Finished c (.setDatetime y m d h mi sec) 0x00#8 s.owner.res ∧
        exec (.setDatetime y m d h mi sec) s = .next { s with
          owner := c
          calDr := toWord (bcdPair (y.toNat - 1970) * 2 ^ 16 + 1 * 2 ^ 13 + bcdPair m.toNat * 2 ^ 8 + bcdPair d.toNat)
          calTr := toWord (bcdPair h.toNat * 2 ^ 16 + bcdPair mi.toNat * 2 ^ 8 + bcdPair sec.toNat)
          drLock := none, rtcIsr := isrAfterInit s, wp := .locked, moves := rest })

/-- R100, R120, R156: an operand outside its domain completes the command with INVALID_INPUT, and not one register, mark or
schedule entry changes. Assumption 1. -/
def Obligations.InvalidInputTouchesNothing : Prop :=
  ∀ (s : State) (i : Instr), OwnerReady s → s.constructed = true → Waits .owner s.moves → operandsInDomain i = false →
    ∃ c, Finished c i 0x01#8 s.owner.res ∧ exec i s = .next { s with owner := c }

/-- SET_PRESCALERS completes (R135, R136, R87): both fields of RTC_PRER take their operands masked to the field widths.
Assumption 1. -/
def Obligations.SetPrescalersCompletes : Prop :=
  ∀ (s : State) (rest : List Move) (sync : BitVec 16) (async : BitVec 8),
    OwnerReady s → s.constructed = true → InitServed s rest →
    ∃ c, Finished c (.setPrescalers sync async) 0x00#8 s.owner.res ∧
      exec (.setPrescalers sync async) s = .next { s with
        owner := c, rtcPrer := prerOf s.par sync async, rtcIsr := isrAfterInit s, wp := .locked, moves := rest }

/-- GET_DATETIME (R132, R133, R80): with RSF served, a valid snapshot completes with the decoded fields in `res`; an invalid one
faults at micro-op 10. Either way the date lock is released and RSF is cleared only where it is writable (R42).
Assumption 1. -/
def Obligations.GetDatetimeReturnsOrFaults : Prop :=
  ∀ (s : State) (rest : List Move) (y mo d h mi sec : Nat), OwnerReady s → s.constructed = true → SnapServed s rest →
    y = 1970 + (regField s.calDr 20 4 * 10 + regField s.calDr 16 4) →
    mo = regField s.calDr 12 1 * 10 + regField s.calDr 8 4 → d = regField s.calDr 4 2 * 10 + regField s.calDr 0 4 →
    h = regField s.calTr 20 2 * 10 + regField s.calTr 16 4 → mi = regField s.calTr 12 3 * 10 + regField s.calTr 8 4 →
    sec = regField s.calTr 4 3 * 10 + regField s.calTr 0 4 →
    (1 ≤ mo ∧ mo ≤ 12 ∧ 1 ≤ d ∧ d ≤ daysIn y mo ∧ h ≤ 23 ∧ mi ≤ 59 ∧ sec ≤ 59 →
      ∃ c, Finished c .getDatetime 0x00#8
          (BitVec.ofNat 64 (y + mo * 2 ^ 16 + d * 2 ^ 24 + h * 2 ^ 32 + mi * 2 ^ 40 + sec * 2 ^ 48)) ∧
        exec .getDatetime s = .next { s with
          owner := c, drLock := none, moves := rest
          rtcIsr := if s.wp = .unlocked ∨ s.par.rsfProtected = false then s.rtcIsr &&& ~~~bit 5 else s.rtcIsr ||| bit 5 }) ∧
    (¬(1 ≤ mo ∧ mo ≤ 12 ∧ 1 ≤ d ∧ d ≤ daysIn y mo ∧ h ≤ 23 ∧ mi ≤ 59 ∧ sec ≤ 59) →
      ∃ c, FaultedAt c s.owner .getDatetime 10 ∧
        exec .getDatetime s = .next { s with
          owner := c, drLock := none, moves := rest
          faultCode := 0x02#8, faultSeq := .owner, faultWord := encode .getDatetime
          rtcIsr := if s.wp = .unlocked ∨ s.par.rsfProtected = false then s.rtcIsr &&& ~~~bit 5 else s.rtcIsr ||| bit 5 })

/-- R134: a SET_DATETIME that completes, followed by a GET_DATETIME whose RSF is served with no tick between, returns what was
written. Assumption 1. -/
def Obligations.DateTimeRoundTrip : Prop :=
  ∀ (s : State) (y : BitVec 16) (m d h mi sec : BitVec 8), OwnerReady s → s.constructed = true → rtcEnabled s = true →
    InitServed s [] → operandsInDomain (.setDatetime y m d h mi sec) = true →
    ∃ t, exec (.setDatetime y m d h mi sec) s = .next t ∧
      ∀ t', t' = { t with moves := if rsf t then [] else [.env .rsfSet] } →
        ∃ u, exec .getDatetime t' = .next u ∧ u.owner.busy = false ∧ u.owner.status = 0x00#8 ∧
          u.owner.res.toNat = y.toNat + m.toNat * 2 ^ 16 + d.toNat * 2 ^ 24 + h.toNat * 2 ^ 32 + mi.toNat * 2 ^ 40
            + sec.toNat * 2 ^ 48

/-- BCD_ENCODE and BCD_DECODE complete in either context (R137, R138): the pair of digits, or INVALID_INPUT with `res` unchanged
where the value does not fit the field; no register changes. Assumption 1. -/
def Obligations.CodecCommandsComplete : Prop :=
  ∀ (q : SeqId) (s : State) (f : BitVec 3) (v : BitVec 8) (t u : BitVec 4), ContextReady q s → Waits q s.moves → f ≠ 7#3 →
    (operandsInDomain (.bcdEncode f v) = true →
      ∃ c, Finished c (.bcdEncode f v) 0x00#8 (BitVec.ofNat 64 (v.toNat / 10 * 16 + v.toNat % 10)) ∧
        exec (.bcdEncode f v) s = .next (setSeq s q c)) ∧
    (operandsInDomain (.bcdEncode f v) = false →
      ∃ c, Finished c (.bcdEncode f v) 0x01#8 (seqOf s q).res ∧ exec (.bcdEncode f v) s = .next (setSeq s q c)) ∧
    ∃ c, Finished c (.bcdDecode t u) 0x00#8 (BitVec.ofNat 64 (t.toNat * 10 + u.toNat)) ∧
      exec (.bcdDecode t u) s = .next (setSeq s q c)

/-- R138: for every n in 0..99, BCD_ENCODE year n followed by BCD_DECODE of the result's two nibbles gives n.
Assumption 1. -/
def Obligations.BcdRoundTrip : Prop :=
  ∀ (q : SeqId) (s : State) (n : BitVec 8), ContextReady q s → Waits q s.moves → n.toNat ≤ 99 →
    ∃ t u, exec (.bcdEncode 6 n) s = .next t ∧
      exec (.bcdDecode ((seqOf t q).res.extractLsb' 4 4) ((seqOf t q).res.extractLsb' 0 4)) t = .next u ∧
      (seqOf u q).res.toNat = n.toNat

/-! ### Wakeup commands -/

/-- ENABLE_WAKEUP completes for 1 to 131072 (R143, R140): the clock-select code, the reload value, WUTE set and WUTF clear, with
the edge this makes, and the key FSM LOCKED; WUTIE and every other bit unchanged. Assumption 1. -/
def Obligations.EnableWakeupCompletes : Prop :=
  ∀ (s : State) (rest : List Move) (n : BitVec 32), OwnerReady s → s.constructed = true → WakeServed s rest →
    1 ≤ n.toNat → n.toNat ≤ 131072 →
    ∃ c, Finished c (.enableWakeup n) 0x00#8 s.owner.res ∧
      exec (.enableWakeup n) s = .next (detectEdges { s with
        owner := c
        rtcCr := blend 0x00000007#32 s.rtcCr (if n.toNat ≤ 65536 then 4#32 else 6#32) ||| bit 10
        rtcIsr := (s.rtcIsr ||| bit 2) &&& ~~~bit 10
        rtcWutr := if n.toNat ≤ 65536 then n - 1#32 else n - 65537#32
        wp := .locked, moves := rest })

/-- R143, R101: ENABLE_WAKEUP of 0 or of more than 131072 faults 0x01 after the code write and leaves its bracket open: the key
FSM UNLOCKED, WUTE = 0, WUTF = 0, WUCKSEL written, RTC_WUTR unchanged. Assumption 1. -/
def Obligations.EnableWakeupFaults : Prop :=
  ∀ (s : State) (rest : List Move) (n : BitVec 32), OwnerReady s → s.constructed = true → WakeServed s rest →
    n.toNat = 0 ∨ 131072 < n.toNat →
    ∃ c, FaultedAt c s.owner (.enableWakeup n) 8 ∧
      exec (.enableWakeup n) s = .next (detectEdges { s with
        owner := c
        rtcCr := blend 0x00000007#32 s.rtcCr (if n.toNat = 0 then 4#32 else 6#32) &&& ~~~bit 10
        rtcIsr := (s.rtcIsr ||| bit 2) &&& ~~~bit 10
        wp := .unlocked, moves := rest
        faultCode := 0x01#8, faultSeq := .owner, faultWord := encode (.enableWakeup n) })

/-- R142: for every representable n, ENABLE_WAKEUP n programs a period of exactly n ticks: WUT + 1 under code 0b100, WUT + 65537
under code 0b110. Assumption 1. -/
def Obligations.WakeupPeriodIsExact : Prop :=
  ∀ (s t : State) (rest : List Move) (n : BitVec 32), OwnerReady s → s.constructed = true → WakeServed s rest →
    wkOk n.toNat = true → exec (.enableWakeup n) s = .next t →
    (t.rtcCr &&& 0x00000007#32 = 4#32 ∧ t.rtcWutr.toNat + 1 = n.toNat) ∨
    (t.rtcCr &&& 0x00000007#32 = 6#32 ∧ t.rtcWutr.toNat + 65537 = n.toNat)

/-- DISABLE_WAKEUP completes (R144): WUTE and WUTF clear, with the edge this makes; WUTIE, WUCKSEL, RTC_WUTR and the rest
unchanged. Assumption 1. -/
def Obligations.DisableWakeupCompletes : Prop :=
  ∀ s : State, OwnerReady s → s.constructed = true → Waits .owner s.moves →
    ∃ c, Finished c .disableWakeup 0x00#8 s.owner.res ∧
      exec .disableWakeup s = .next (detectEdges { s with
        owner := c, rtcCr := s.rtcCr &&& ~~~bit 10, rtcIsr := s.rtcIsr &&& ~~~bit 10, wp := .locked })

/-- WAKEUP_TIMER completes for every operand (R145): code 0b100, the raw low 16 bits, WUTIE and WUTE set, WUTF clear.
Assumption 1. -/
def Obligations.WakeupTimerCompletes : Prop :=
  ∀ (s : State) (rest : List Move) (v : BitVec 32), OwnerReady s → s.constructed = true → WakeServed s rest →
    ∃ c, Finished c (.wakeupTimer v) 0x00#8 s.owner.res ∧
      exec (.wakeupTimer v) s = .next (detectEdges { s with
        owner := c
        rtcCr := blend 0x00000007#32 s.rtcCr 4#32 ||| (bit 14 ||| bit 10)
        rtcIsr := (s.rtcIsr ||| bit 2) &&& ~~~bit 10
        rtcWutr := v &&& 0x0000FFFF#32
        wp := .locked, moves := rest })

/-! ### Event router -/

/-- LISTEN completes (R149, R44): rising trigger, mask and enable of the event's triple are set, with the edge this makes
(R181); EXTI_FTSR and every other bit unchanged. Assumption 1. -/
def Obligations.ListenCompletes : Prop :=
  ∀ (s : State) (e : Event), OwnerReady s → s.constructed = true → Waits .owner s.moves →
    ∃ c, Finished c (.listen e) 0x00#8 s.owner.res ∧
      exec (.listen e) s = .next (detectEdges { s with
        owner := c
        extiRtsr := s.extiRtsr ||| bit (eventLine e), extiImr := s.extiImr ||| bit (eventLine e)
        rtcCr := s.rtcCr ||| bit (eventEnableBit e), wp := .locked })

/-- UNPEND_EVENT completes in either context (R150): WUF cleared where PWREN = 1, the event's flag cleared, the line's pending
bit 0 at the end, with the SWIER bit of a line that was pending; no other flag, line or register changes.
Assumptions 1 and 7 (that a SWIER bit falls only with a pending line). -/
def Obligations.UnpendEventCompletes : Prop :=
  ∀ (q : SeqId) (s u : State) (e : Event), ContextReady q s → Waits q s.moves →
    u = { s with
      pwrCsr := if pwren s then s.pwrCsr &&& ~~~bit 0 else s.pwrCsr
      rtcIsr := s.rtcIsr &&& ~~~bit (eventFlagBit e) } →
    ∃ c, Finished c (.unpendEvent e) 0x00#8 (seqOf s q).res ∧
      exec (.unpendEvent e) s = .next (setSeq { u with
        lvl := levelsOf u
        extiPr := s.extiPr &&& ~~~bit (eventLine e)
        extiSwier := s.extiSwier &&& ~~~(bit (eventLine e) &&& (s.extiPr ||| edgePending u)) } q c)

/-- R203, R148: with both alarm flags and both enables set, UNPEND_EVENT AlarmA clears ALRAF and PR[17]; ALRBF stays, line 17
stays high and PR[17] is not set again. Assumption 1. -/
def Obligations.SharedAlarmLine : Prop :=
  ∀ (q : SeqId) (s : State), ContextReady q s → Waits q s.moves → alraf s = true → alrbf s = true → alrbie s = true →
    ∃ t, exec (.unpendEvent .alarmA) s = .next t ∧ alraf t = false ∧ alrbf t = true ∧ t.lvl.l17 = true ∧
      t.extiPr.getLsbD 17 = false ∧ interruptRequest t 17 = false

/-- PEND_LINE, UNPEND_LINE and IS_PENDING_LINE complete in either context on a line that exists (R152 to R154, R182).
Assumptions 1 and 7 (that a SWIER bit falls only with a pending line). -/
def Obligations.LineCommandsComplete : Prop :=
  ∀ (q : SeqId) (s : State) (l : BitVec 8), ContextReady q s → Waits q s.moves → l.toNat < s.par.nLines →
    (∃ c, Finished c (.pendLine l) 0x00#8 (seqOf s q).res ∧
      exec (.pendLine l) s = .next (setSeq { s with
        extiSwier := s.extiSwier ||| bit l.toNat
        extiPr := if s.extiSwier.getLsbD l.toNat = false ∧ (s.extiImr.getLsbD l.toNat = true ∨ s.par.swierNeedsImr = false)
          then s.extiPr ||| bit l.toNat else s.extiPr } q c)) ∧
    (∃ c, Finished c (.unpendLine l) 0x00#8 (seqOf s q).res ∧
      exec (.unpendLine l) s = .next (setSeq { s with
        extiPr := s.extiPr &&& ~~~bit l.toNat
        extiSwier := if s.extiPr.getLsbD l.toNat then s.extiSwier &&& ~~~bit l.toNat else s.extiSwier } q c)) ∧
    (∃ c, Finished c (.isPendingLine l) 0x00#8 (if s.extiPr.getLsbD l.toNat then 1#64 else 0#64) ∧
      exec (.isPendingLine l) s = .next (setSeq s q c))

/-- R151: a line operand at or above N_LINES faults 0x03 at micro-op 0, before any bus access. Assumption 1. -/
def Obligations.LineOutOfRangeFaults : Prop :=
  ∀ (q : SeqId) (s : State) (l : BitVec 8), ContextReady q s → Waits q s.moves → s.par.nLines ≤ l.toNat →
    ∀ i, i = .pendLine l ∨ i = .unpendLine l ∨ i = .isPendingLine l →
      ∃ c, FaultedAt c (seqOf s q) i 0 ∧
        exec i s = .next (setSeq { s with faultCode := 0x03#8, faultSeq := q, faultWord := encode i } q c)

/-! ### Bring-up -/

/-- BRINGUP_LSE completes (R110, R112): with LSERDY = 1 the calendar survives and only PWREN, DBP, RTCSEL, RTC enable, FMT and
the prescalers are written; with LSERDY = 0 the backup domain is reset first and LSEON and LSEBYP are written. Both end
constructed with LSE. The first five micro-ops of the second path are scheduled by name, so that the oscillator's draw falls
after the domain reset. Assumptions 1, 8 and 12. -/
def Obligations.BringupLseCompletes : Prop :=
  ∀ (s : State) (rest : List Move) (bypass : BitVec 1) (sync : BitVec 16) (async : BitVec 8),
    ContextReady .owner s → s.constructed = false →
    (lserdy s = true → InitServed s rest → ∃ c, Finished c (.bringupLse bypass sync async) 0x00#8 s.owner.res ∧
      exec (.bringupLse bypass sync async) s = .next { s with
        owner := c, apb1enr := s.apb1enr ||| bit 28, pwrCr := s.pwrCr ||| bit 8
        rccCsr := blend (rtcselMask s.par) s.rccCsr (bit s.par.rtcselLsb) ||| bit 22
        rtcCr := s.rtcCr &&& ~~~bit 6, rtcPrer := prerOf s.par sync async
        rtcIsr := isrAfterInit s, wp := .locked, constructed := true, clkSrc := some .lse, moves := rest }) ∧
    (lserdy s = false → Waits .owner rest →
      s.moves = List.replicate 5 (.micro .owner) ++ .env .lserdySet :: .env .initfSet :: .env .initfClear :: rest →
      ∃ c, Finished c (.bringupLse bypass sync async) 0x00#8 s.owner.res ∧
        exec (.bringupLse bypass sync async) s = .next (detectEdges { s with
          owner := c, apb1enr := s.apb1enr ||| bit 28, pwrCr := s.pwrCr ||| bit 8
          rccCsr := (s.rccCsr &&& ~~~(csrBackupMask s.par ||| bit s.par.domrstBit)) ||| bit 8 ||| bit 9
            ||| (if bypass = 1#1 then bit 10 else 0#32) ||| bit s.par.rtcselLsb ||| bit 22
          calTr := 0#32, calDr := 0x00002101#32, drLock := none, rtcCr := 0#32, rtcIsr := 0x00000007#32
          rtcPrer := prerOf s.par sync async, rtcWutr := 0x0000FFFF#32, wp := .locked
          constructed := true, clkSrc := some .lse, moves := rest }))

/-- BRINGUP_LSI completes (R111, R112), in the same two forms: RTCSEL takes code 2, LSION is set, and LSEON is not.
Assumptions 1, 8 and 12. -/
def Obligations.BringupLsiCompletes : Prop :=
  ∀ (s : State) (rest : List Move) (sync : BitVec 16) (async : BitVec 8),
    ContextReady .owner s → s.constructed = false →
    (lsirdy s = true → domainHeld s = false → InitServed s rest →
      ∃ c, Finished c (.bringupLsi sync async) 0x00#8 s.owner.res ∧
        exec (.bringupLsi sync async) s = .next { s with
          owner := c, apb1enr := s.apb1enr ||| bit 28, pwrCr := s.pwrCr ||| bit 8
          rccCsr := blend (rtcselMask s.par) s.rccCsr (bit (s.par.rtcselLsb + 1)) ||| bit 22
          rtcCr := s.rtcCr &&& ~~~bit 6, rtcPrer := prerOf s.par sync async
          rtcIsr := isrAfterInit s, wp := .locked, constructed := true, clkSrc := some .lsi, moves := rest }) ∧
    (lsirdy s = false → Waits .owner rest →
      s.moves = List.replicate 5 (.micro .owner) ++ .env .lsirdySet :: .env .initfSet :: .env .initfClear :: rest →
      ∃ c, Finished c (.bringupLsi sync async) 0x00#8 s.owner.res ∧
        exec (.bringupLsi sync async) s = .next (detectEdges { s with
          owner := c, apb1enr := s.apb1enr ||| bit 28, pwrCr := s.pwrCr ||| bit 8
          rccCsr := (s.rccCsr &&& ~~~(csrBackupMask s.par ||| bit s.par.domrstBit)) ||| bit 0 ||| bit 1
            ||| bit (s.par.rtcselLsb + 1) ||| bit 22
          calTr := 0#32, calDr := 0x00002101#32, drLock := none, rtcCr := 0#32, rtcIsr := 0x00000007#32
          rtcPrer := prerOf s.par sync async, rtcWutr := 0x0000FFFF#32, wp := .locked
          constructed := true, clkSrc := some .lsi, moves := rest }))

/-! ### The machine as a whole -/

/-- A command run is its presentation followed by ticks of the machine: nothing else happens in it (R166, R167; that one step
runs a command to completion is the model's choice, assumption 1). -/
def Obligations.CommandIsPresentationThenTicks : Prop :=
  ∀ (s t : State) (i : Instr), paramsOk s.par = true → s.port.word = none → i.wellFormed = true → exec i s = .next t →
    ∃ n, Sys2Proof.core.run n (presentWord s.port.seq (encode i) s) = .next t

/-- A command run ends only where its sequencer is idle, a fault is recorded, or nothing can move (R89, R90): the run is never
cut short, however long its schedule. Assumption 1. -/
def Obligations.CommandRunsUntilItEndsOrWaits : Prop :=
  ∀ (s t : State) (i : Instr), MachineOk s → verdict s.port.seq (some i) s = .accept → exec i s = .next t →
    (seqOf t s.port.seq).busy = false ∨ faulted t = true ∨ stalled t = true

/-- R90, R103: a setter or SET_PRESCALERS whose environment takes no step stops at the poll for INITF (INITWAIT) and stays there
for ever: unlocked, INIT = 1, both calendar registers, the date lock and the prescalers unchanged. Assumption 1. -/
def Obligations.SetterWaitsForInitf : Prop :=
  ∀ (s : State) (i : Instr) (k : Nat), OwnerReady s → s.constructed = true → s.moves = [] → s.port.word = none →
    initf s = false → initWaitPc i = some k → operandsInDomain i = true →
    ∃ t, exec i s = .next t ∧ t.owner.busy = true ∧ t.owner.pc = k ∧ t.owner.word = encode i ∧ t.wp = .unlocked ∧
      t.rtcIsr = s.rtcIsr ||| bit 7 ∧ t.calTr = s.calTr ∧ t.calDr = s.calDr ∧ t.drLock = s.drLock ∧
      t.rtcPrer = s.rtcPrer ∧ ∀ n, Sys2Proof.core.run n t = .next t

/-- R30, R31, R157, R161: once a fault is recorded, a step leaves both sequencers and the fault register as they are, and once a
refusal is, the refusal mark; only a reset among the moves clears them. -/
def Obligations.MarksAreSticky : Prop :=
  ∀ s t : State, step s = .next t → (∀ m rest, s.moves = m :: rest → isReset m = false) →
    (faulted s = true → t.faultCode = s.faultCode ∧ t.faultSeq = s.faultSeq ∧ t.faultWord = s.faultWord ∧
      t.owner = s.owner ∧ t.irq = s.irq) ∧
    (refusedMark s = true → t.refusedReason = s.refusedReason ∧ t.refusedWord = s.refusedWord)

/-- R167: an interrupt command runs to completion before OWNER takes another micro-op, in at most four of its own steps; OWNER
does not move meanwhile. -/
def Obligations.InterruptCommandsAreBounded : Prop :=
  ∀ s : State, MachineOk s → s.irq.busy = true → faulted s = false → s.moves = [] → s.port.word = none →
    ∃ n t, n ≤ 4 ∧ Sys2Proof.core.run n s = .next t ∧ t.owner = s.owner ∧ (t.irq.busy = false ∨ faulted t = true)

/-- R155: a micro-op of the interrupt sequencer changes nothing but its own state, the fault register, EXTI_SWIER, EXTI_PR,
PWR_CSR.WUF, the event flags of RTC_ISR and the levels that follow them. -/
def Obligations.InterruptContextKeepsOwnerState : Prop :=
  ∀ s t : State, MachineOk s → s.irq.busy = true → seqStep .irq s = .next t →
    t = { s with
      irq := t.irq, faultCode := t.faultCode, faultSeq := t.faultSeq, faultWord := t.faultWord
      extiSwier := t.extiSwier, extiPr := t.extiPr, pwrCsr := t.pwrCsr, rtcIsr := t.rtcIsr, lvl := t.lvl } ∧
    t.rtcIsr &&& ~~~0x00000F00#32 = s.rtcIsr &&& ~~~0x00000F00#32 ∧ t.pwrCsr &&& ~~~bit 0 = s.pwrCsr &&& ~~~bit 0

/-- R206, R101: a block reset after a wakeup fault leaves the key FSM UNLOCKED. Assumption 1. -/
def Obligations.BlockResetKeepsTheOpenBracket : Prop :=
  ∀ (s t : State) (rest : List Move) (n : BitVec 32), OwnerReady s → s.constructed = true → WakeServed s rest →
    n.toNat = 0 ∨ 131072 < n.toNat → exec (.enableWakeup n) s = .next t →
    ∃ u, tick { t with moves := [.blockReset] } = .next u ∧ u.wp = .unlocked ∧ u.faultCode = 0#8 ∧ u.owner.busy = false ∧
      u.constructed = false

/-- R68: the bus trace of GET_DATETIME reads RTC_TR before RTC_DR with no other read of either between; the test harness accepts
it, and rejects the same trace with the two reads exchanged. -/
def Obligations.SnapshotOrder : Prop :=
  snapshotOrderOk (progGetDatetime.flatMap accessesOf) = true ∧
  progGetDatetime.flatMap accessesOf = [.read .isr, .read .tr, .read .dr, .read .isr, .write .isr] ∧
  snapshotOrderOk [.read .isr, .read .dr, .read .tr, .read .isr, .write .isr] = false

/-- The machine right after reset is sound, and holds every value that R51, R52 and R53 state, with the backup bits of RCC_CSR
that R107 clears. (EXTI_PR and WUF, which R53 leaves unspecified, are not stated.) That State.reset is the start after a power-on
without backup supply is assumption 21, and that its parameters are a configuration rests on assumptions 2 and 6. -/
def Obligations.ResetIsSound : Prop :=
  MachineOk State.reset ∧ SeqReset State.reset.owner ∧ SeqReset State.reset.irq ∧ State.reset.faultCode = 0#8 ∧
    State.reset.refusedReason = 0#8 ∧ State.reset.constructed = false ∧ State.reset.clkSrc = none ∧
    State.reset.calTr = 0#32 ∧
    State.reset.calDr = 0x00002101#32 ∧ State.reset.rtcCr = 0#32 ∧ State.reset.rtcIsr = 0x00000007#32 ∧
    State.reset.rtcPrer = 0x007F00FF#32 ∧ State.reset.rtcWutr = 0x0000FFFF#32 ∧ State.reset.wp = .locked ∧
    State.reset.drLock = none ∧ State.reset.extiImr = 0#32 ∧ State.reset.extiRtsr = 0#32 ∧ State.reset.extiFtsr = 0#32 ∧
    State.reset.extiSwier = 0#32 ∧ dbp State.reset = false ∧ pwren State.reset = false ∧ lsion State.reset = false ∧
    lsirdy State.reset = false ∧ lseon State.reset = false ∧ lserdy State.reset = false ∧
    State.reset.rccCsr.getLsbD 10 = false ∧ State.reset.rccCsr.getLsbD State.reset.par.rtcselLsb = false ∧
    State.reset.rccCsr.getLsbD (State.reset.par.rtcselLsb + 1) = false ∧ rtcEnabled State.reset = false

/-- Every step from a sound state gives a sound state: reserved bits read 0, a held domain is at its reset values, the levels are
those of the registers, the command in flight is one its context may issue with its latches as loaded, and the marks hold codes
of the spec. What a configuration is rests on assumption 6, the held domain on assumptions 12 and 14. -/
def Obligations.StepKeepsTheMachineSound : Prop := ∀ s t : State, MachineOk s → step s = .next t → MachineOk t

/-- From a sound state every step answers a next state: no latch without a value is read (R26), no bus access leaves the registers
(R54), and the faults and refusals of the spec are states. -/
def Obligations.SoundMachineNeverStops : Prop := ∀ s : State, MachineOk s → ∃ t, step s = .next t

/-- No step changes a parameter (R19). -/
def Obligations.ParametersAreFixed : Prop := ∀ s t : State, step s = .next t → t.par = s.par

/-- R27: the micro-program counter. Acceptance sets it to 0. A micro-op moves it one on, `END` and a failing `CHECK` among them,
but for the three kinds whose rules name another target: a poll that holds leaves it, a `SKIPIF` whose condition holds passes
over `n` more, a `FAULTIF` that faults stays. A step that takes it past the last micro-op leaves the sequencer idle. No
micro-program has 32 micro-ops. -/
def Obligations.MicroProgramCounter : Prop :=
  (∀ (q : SeqId) (s : State) (w : Cmd) (i : Instr), decode w = .ok i → verdict q (some i) s = .accept →
    (seqOf (presentWord q w s) q).busy = true ∧ (seqOf (presentWord q w s) q).pc = 0) ∧
  (∀ (q : SeqId) (s t : State) (m : MicroOp), paramsOk s.par = true → nextMicroOp s q = some m → seqStep q s = .next t →
    (seqOf t q).pc = match m with
      | .poll r mask want => if (readReg r s).1 &&& mask = want then (seqOf s q).pc + 1 else (seqOf s q).pc
      | .skipIf r mask want n => if (readReg r s).1 &&& mask = want then (seqOf s q).pc + 1 + n else (seqOf s q).pc + 1
      | .faultIf c _ => if c (seqOf s q).x = some true then (seqOf s q).pc else (seqOf s q).pc + 1
      | .check _ | .calc _ _ | .wr _ _ | .rd _ _ | .rmw _ _ _ | .isrSetInit _ | .isrClr _ | .res _ | .construct _ | .done =>
        (seqOf s q).pc + 1) ∧
  (∀ (q : SeqId) (s t : State) (prog : List MicroOp), progOf s.par (seqOf s q).op = some prog →
    (seqOf s q).pc < prog.length → seqStep q s = .next t → prog.length ≤ (seqOf t q).pc → (seqOf t q).busy = false) ∧
  (∀ (p : Params) (op : Byte) (prog : List MicroOp), progOf p op = some prog → prog.length < 32)
end

