-- ==== Sys2Proof/Laws/State.lean ====
section
/-! SUPPORT. One lemma per field per update of State: replacing a sequencer, recomputing the levels, resetting the backup
domain. Later proofs cite these and unfold no record update. -/

namespace Sys2Proof.Machine

/-! ### Replacing a sequencer -/

@[simp] theorem seqOf_setSeq_self (s : State) (q : SeqId) (c : Seq) : seqOf (setSeq s q c) q = c := by cases q <;> rfl

@[simp] theorem setSeq_seqOf (s : State) (q : SeqId) : setSeq s q (seqOf s q) = s := by cases q <;> rfl

@[simp] theorem setSeq_setSeq (s : State) (q : SeqId) (c d : Seq) : setSeq (setSeq s q c) q d = setSeq s q d := by
  cases q <;> rfl

theorem seqOf_setSeq_of_ne (s : State) (q r : SeqId) (c : Seq) (h : r ≠ q) : seqOf (setSeq s q c) r = seqOf s r := by
  cases q <;> cases r <;> first | rfl | exact absurd rfl h

@[simp] theorem seqOf_owner (s : State) : seqOf s .owner = s.owner := rfl
@[simp] theorem seqOf_irq (s : State) : seqOf s .irq = s.irq := rfl
@[simp] theorem setSeq_owner (s : State) (c : Seq) : setSeq s .owner c = { s with owner := c } := rfl
@[simp] theorem setSeq_irq (s : State) (c : Seq) : setSeq s .irq c = { s with irq := c } := rfl

@[simp] theorem setSeq_par (s : State) (q : SeqId) (c : Seq) : (setSeq s q c).par = s.par := by cases q <;> rfl
@[simp] theorem setSeq_faultCode (s : State) (q : SeqId) (c : Seq) : (setSeq s q c).faultCode = s.faultCode := by cases q <;> rfl
@[simp] theorem setSeq_faultSeq (s : State) (q : SeqId) (c : Seq) : (setSeq s q c).faultSeq = s.faultSeq := by cases q <;> rfl
@[simp] theorem setSeq_faultWord (s : State) (q : SeqId) (c : Seq) : (setSeq s q c).faultWord = s.faultWord := by cases q <;> rfl
@[simp] theorem setSeq_refusedReason (s : State) (q : SeqId) (c : Seq) : (setSeq s q c).refusedReason = s.refusedReason := by cases q <;> rfl
@[simp] theorem setSeq_refusedWord (s : State) (q : SeqId) (c : Seq) : (setSeq s q c).refusedWord = s.refusedWord := by cases q <;> rfl
@[simp] theorem setSeq_constructed (s : State) (q : SeqId) (c : Seq) : (setSeq s q c).constructed = s.constructed := by cases q <;> rfl
@[simp] theorem setSeq_clkSrc (s : State) (q : SeqId) (c : Seq) : (setSeq s q c).clkSrc = s.clkSrc := by cases q <;> rfl
@[simp] theorem setSeq_wp (s : State) (q : SeqId) (c : Seq) : (setSeq s q c).wp = s.wp := by cases q <;> rfl
@[simp] theorem setSeq_drLock (s : State) (q : SeqId) (c : Seq) : (setSeq s q c).drLock = s.drLock := by cases q <;> rfl
@[simp] theorem setSeq_calTr (s : State) (q : SeqId) (c : Seq) : (setSeq s q c).calTr = s.calTr := by cases q <;> rfl
@[simp] theorem setSeq_calDr (s : State) (q : SeqId) (c : Seq) : (setSeq s q c).calDr = s.calDr := by cases q <;> rfl
@[simp] theorem setSeq_rtcCr (s : State) (q : SeqId) (c : Seq) : (setSeq s q c).rtcCr = s.rtcCr := by cases q <;> rfl
@[simp] theorem setSeq_rtcIsr (s : State) (q : SeqId) (c : Seq) : (setSeq s q c).rtcIsr = s.rtcIsr := by cases q <;> rfl
@[simp] theorem setSeq_rtcPrer (s : State) (q : SeqId) (c : Seq) : (setSeq s q c).rtcPrer = s.rtcPrer := by cases q <;> rfl
@[simp] theorem setSeq_rtcWutr (s : State) (q : SeqId) (c : Seq) : (setSeq s q c).rtcWutr = s.rtcWutr := by cases q <;> rfl
@[simp] theorem setSeq_extiImr (s : State) (q : SeqId) (c : Seq) : (setSeq s q c).extiImr = s.extiImr := by cases q <;> rfl
@[simp] theorem setSeq_extiEmr (s : State) (q : SeqId) (c : Seq) : (setSeq s q c).extiEmr = s.extiEmr := by cases q <;> rfl
@[simp] theorem setSeq_extiRtsr (s : State) (q : SeqId) (c : Seq) : (setSeq s q c).extiRtsr = s.extiRtsr := by cases q <;> rfl
@[simp] theorem setSeq_extiFtsr (s : State) (q : SeqId) (c : Seq) : (setSeq s q c).extiFtsr = s.extiFtsr := by cases q <;> rfl
@[simp] theorem setSeq_extiSwier (s : State) (q : SeqId) (c : Seq) : (setSeq s q c).extiSwier = s.extiSwier := by cases q <;> rfl
@[simp] theorem setSeq_extiPr (s : State) (q : SeqId) (c : Seq) : (setSeq s q c).extiPr = s.extiPr := by cases q <;> rfl
@[simp] theorem setSeq_pwrCr (s : State) (q : SeqId) (c : Seq) : (setSeq s q c).pwrCr = s.pwrCr := by cases q <;> rfl
@[simp] theorem setSeq_pwrCsr (s : State) (q : SeqId) (c : Seq) : (setSeq s q c).pwrCsr = s.pwrCsr := by cases q <;> rfl
@[simp] theorem setSeq_apb1enr (s : State) (q : SeqId) (c : Seq) : (setSeq s q c).apb1enr = s.apb1enr := by cases q <;> rfl
@[simp] theorem setSeq_rccCsr (s : State) (q : SeqId) (c : Seq) : (setSeq s q c).rccCsr = s.rccCsr := by cases q <;> rfl
@[simp] theorem setSeq_lvl (s : State) (q : SeqId) (c : Seq) : (setSeq s q c).lvl = s.lvl := by cases q <;> rfl
@[simp] theorem setSeq_port (s : State) (q : SeqId) (c : Seq) : (setSeq s q c).port = s.port := by cases q <;> rfl
@[simp] theorem setSeq_moves (s : State) (q : SeqId) (c : Seq) : (setSeq s q c).moves = s.moves := by cases q <;> rfl

/-! ### Recomputing levels and edges (R170) -/

@[simp] theorem detectEdges_owner (s : State) : (detectEdges s).owner = s.owner := rfl
@[simp] theorem detectEdges_irq (s : State) : (detectEdges s).irq = s.irq := rfl
@[simp] theorem detectEdges_par (s : State) : (detectEdges s).par = s.par := rfl
@[simp] theorem detectEdges_faultCode (s : State) : (detectEdges s).faultCode = s.faultCode := rfl
@[simp] theorem detectEdges_faultSeq (s : State) : (detectEdges s).faultSeq = s.faultSeq := rfl
@[simp] theorem detectEdges_faultWord (s : State) : (detectEdges s).faultWord = s.faultWord := rfl
@[simp] theorem detectEdges_refusedReason (s : State) : (detectEdges s).refusedReason = s.refusedReason := rfl
@[simp] theorem detectEdges_refusedWord (s : State) : (detectEdges s).refusedWord = s.refusedWord := rfl
@[simp] theorem detectEdges_constructed (s : State) : (detectEdges s).constructed = s.constructed := rfl
@[simp] theorem detectEdges_clkSrc (s : State) : (detectEdges s).clkSrc = s.clkSrc := rfl
@[simp] theorem detectEdges_wp (s : State) : (detectEdges s).wp = s.wp := rfl
@[simp] theorem detectEdges_drLock (s : State) : (detectEdges s).drLock = s.drLock := rfl
@[simp] theorem detectEdges_calTr (s : State) : (detectEdges s).calTr = s.calTr := rfl
@[simp] theorem detectEdges_calDr (s : State) : (detectEdges s).calDr = s.calDr := rfl
@[simp] theorem detectEdges_rtcCr (s : State) : (detectEdges s).rtcCr = s.rtcCr := rfl
@[simp] theorem detectEdges_rtcIsr (s : State) : (detectEdges s).rtcIsr = s.rtcIsr := rfl
@[simp] theorem detectEdges_rtcPrer (s : State) : (detectEdges s).rtcPrer = s.rtcPrer := rfl
@[simp] theorem detectEdges_rtcWutr (s : State) : (detectEdges s).rtcWutr = s.rtcWutr := rfl
@[simp] theorem detectEdges_extiImr (s : State) : (detectEdges s).extiImr = s.extiImr := rfl
@[simp] theorem detectEdges_extiEmr (s : State) : (detectEdges s).extiEmr = s.extiEmr := rfl
@[simp] theorem detectEdges_extiRtsr (s : State) : (detectEdges s).extiRtsr = s.extiRtsr := rfl
@[simp] theorem detectEdges_extiFtsr (s : State) : (detectEdges s).extiFtsr = s.extiFtsr := rfl
@[simp] theorem detectEdges_extiSwier (s : State) : (detectEdges s).extiSwier = s.extiSwier := rfl
@[simp] theorem detectEdges_pwrCr (s : State) : (detectEdges s).pwrCr = s.pwrCr := rfl
@[simp] theorem detectEdges_pwrCsr (s : State) : (detectEdges s).pwrCsr = s.pwrCsr := rfl
@[simp] theorem detectEdges_apb1enr (s : State) : (detectEdges s).apb1enr = s.apb1enr := rfl
@[simp] theorem detectEdges_rccCsr (s : State) : (detectEdges s).rccCsr = s.rccCsr := rfl
@[simp] theorem detectEdges_port (s : State) : (detectEdges s).port = s.port := rfl
@[simp] theorem detectEdges_moves (s : State) : (detectEdges s).moves = s.moves := rfl
@[simp] theorem detectEdges_lvl (s : State) : (detectEdges s).lvl = levelsOf s := rfl
@[simp] theorem detectEdges_extiPr (s : State) : (detectEdges s).extiPr = s.extiPr ||| edgePending s := rfl
@[simp] theorem levelsOf_detectEdges (s : State) : levelsOf (detectEdges s) = levelsOf s := rfl

/-! ### The backup-domain reset (R107) -/

@[simp] theorem backupDomainReset_owner (s : State) : (backupDomainReset s).owner = s.owner := rfl
@[simp] theorem holdDomain_owner (s : State) : (holdDomain s).owner = s.owner := by unfold holdDomain; split <;> rfl
@[simp] theorem settle_owner (s : State) : (settle s).owner = s.owner := by simp [settle]
@[simp] theorem backupDomainReset_irq (s : State) : (backupDomainReset s).irq = s.irq := rfl
@[simp] theorem holdDomain_irq (s : State) : (holdDomain s).irq = s.irq := by unfold holdDomain; split <;> rfl
@[simp] theorem settle_irq (s : State) : (settle s).irq = s.irq := by simp [settle]
@[simp] theorem backupDomainReset_par (s : State) : (backupDomainReset s).par = s.par := rfl
@[simp] theorem holdDomain_par (s : State) : (holdDomain s).par = s.par := by unfold holdDomain; split <;> rfl
@[simp] theorem settle_par (s : State) : (settle s).par = s.par := by simp [settle]
@[simp] theorem backupDomainReset_faultCode (s : State) : (backupDomainReset s).faultCode = s.faultCode := rfl
@[simp] theorem holdDomain_faultCode (s : State) : (holdDomain s).faultCode = s.faultCode := by unfold holdDomain; split <;> rfl
@[simp] theorem settle_faultCode (s : State) : (settle s).faultCode = s.faultCode := by simp [settle]
@[simp] theorem backupDomainReset_faultSeq (s : State) : (backupDomainReset s).faultSeq = s.faultSeq := rfl
@[simp] theorem holdDomain_faultSeq (s : State) : (holdDomain s).faultSeq = s.faultSeq := by unfold holdDomain; split <;> rfl
@[simp] theorem settle_faultSeq (s : State) : (settle s).faultSeq = s.faultSeq := by simp [settle]
@[simp] theorem backupDomainReset_faultWord (s : State) : (backupDomainReset s).faultWord = s.faultWord := rfl
@[simp] theorem holdDomain_faultWord (s : State) : (holdDomain s).faultWord = s.faultWord := by unfold holdDomain; split <;> rfl
@[simp] theorem settle_faultWord (s : State) : (settle s).faultWord = s.faultWord := by simp [settle]
@[simp] theorem backupDomainReset_refusedReason (s : State) : (backupDomainReset s).refusedReason = s.refusedReason := rfl
@[simp] theorem holdDomain_refusedReason (s : State) : (holdDomain s).refusedReason = s.refusedReason := by unfold holdDomain; split <;> rfl
@[simp] theorem settle_refusedReason (s : State) : (settle s).refusedReason = s.refusedReason := by simp [settle]
@[simp] theorem backupDomainReset_refusedWord (s : State) : (backupDomainReset s).refusedWord = s.refusedWord := rfl
@[simp] theorem holdDomain_refusedWord (s : State) : (holdDomain s).refusedWord = s.refusedWord := by unfold holdDomain; split <;> rfl
@[simp] theorem settle_refusedWord (s : State) : (settle s).refusedWord = s.refusedWord := by simp [settle]
@[simp] theorem backupDomainReset_constructed (s : State) : (backupDomainReset s).constructed = s.constructed := rfl
@[simp] theorem holdDomain_constructed (s : State) : (holdDomain s).constructed = s.constructed := by unfold holdDomain; split <;> rfl
@[simp] theorem settle_constructed (s : State) : (settle s).constructed = s.constructed := by simp [settle]
@[simp] theorem backupDomainReset_clkSrc (s : State) : (backupDomainReset s).clkSrc = s.clkSrc := rfl
@[simp] theorem holdDomain_clkSrc (s : State) : (holdDomain s).clkSrc = s.clkSrc := by unfold holdDomain; split <;> rfl
@[simp] theorem settle_clkSrc (s : State) : (settle s).clkSrc = s.clkSrc := by simp [settle]
@[simp] theorem backupDomainReset_extiImr (s : State) : (backupDomainReset s).extiImr = s.extiImr := rfl
@[simp] theorem holdDomain_extiImr (s : State) : (holdDomain s).extiImr = s.extiImr := by unfold holdDomain; split <;> rfl
@[simp] theorem settle_extiImr (s : State) : (settle s).extiImr = s.extiImr := by simp [settle]
@[simp] theorem backupDomainReset_extiEmr (s : State) : (backupDomainReset s).extiEmr = s.extiEmr := rfl
@[simp] theorem holdDomain_extiEmr (s : State) : (holdDomain s).extiEmr = s.extiEmr := by unfold holdDomain; split <;> rfl
@[simp] theorem settle_extiEmr (s : State) : (settle s).extiEmr = s.extiEmr := by simp [settle]
@[simp] theorem backupDomainReset_extiRtsr (s : State) : (backupDomainReset s).extiRtsr = s.extiRtsr := rfl
@[simp] theorem holdDomain_extiRtsr (s : State) : (holdDomain s).extiRtsr = s.extiRtsr := by unfold holdDomain; split <;> rfl
@[simp] theorem settle_extiRtsr (s : State) : (settle s).extiRtsr = s.extiRtsr := by simp [settle]
@[simp] theorem backupDomainReset_extiFtsr (s : State) : (backupDomainReset s).extiFtsr = s.extiFtsr := rfl
@[simp] theorem holdDomain_extiFtsr (s : State) : (holdDomain s).extiFtsr = s.extiFtsr := by unfold holdDomain; split <;> rfl
@[simp] theorem settle_extiFtsr (s : State) : (settle s).extiFtsr = s.extiFtsr := by simp [settle]
@[simp] theorem backupDomainReset_extiSwier (s : State) : (backupDomainReset s).extiSwier = s.extiSwier := rfl
@[simp] theorem holdDomain_extiSwier (s : State) : (holdDomain s).extiSwier = s.extiSwier := by unfold holdDomain; split <;> rfl
@[simp] theorem settle_extiSwier (s : State) : (settle s).extiSwier = s.extiSwier := by simp [settle]
@[simp] theorem backupDomainReset_extiPr (s : State) : (backupDomainReset s).extiPr = s.extiPr := rfl
@[simp] theorem holdDomain_extiPr (s : State) : (holdDomain s).extiPr = s.extiPr := by unfold holdDomain; split <;> rfl
@[simp] theorem backupDomainReset_pwrCr (s : State) : (backupDomainReset s).pwrCr = s.pwrCr := rfl
@[simp] theorem holdDomain_pwrCr (s : State) : (holdDomain s).pwrCr = s.pwrCr := by unfold holdDomain; split <;> rfl
@[simp] theorem settle_pwrCr (s : State) : (settle s).pwrCr = s.pwrCr := by simp [settle]
@[simp] theorem backupDomainReset_pwrCsr (s : State) : (backupDomainReset s).pwrCsr = s.pwrCsr := rfl
@[simp] theorem holdDomain_pwrCsr (s : State) : (holdDomain s).pwrCsr = s.pwrCsr := by unfold holdDomain; split <;> rfl
@[simp] theorem settle_pwrCsr (s : State) : (settle s).pwrCsr = s.pwrCsr := by simp [settle]
@[simp] theorem backupDomainReset_apb1enr (s : State) : (backupDomainReset s).apb1enr = s.apb1enr := rfl
@[simp] theorem holdDomain_apb1enr (s : State) : (holdDomain s).apb1enr = s.apb1enr := by unfold holdDomain; split <;> rfl
@[simp] theorem settle_apb1enr (s : State) : (settle s).apb1enr = s.apb1enr := by simp [settle]
@[simp] theorem backupDomainReset_lvl (s : State) : (backupDomainReset s).lvl = s.lvl := rfl
@[simp] theorem holdDomain_lvl (s : State) : (holdDomain s).lvl = s.lvl := by unfold holdDomain; split <;> rfl
@[simp] theorem backupDomainReset_port (s : State) : (backupDomainReset s).port = s.port := rfl
@[simp] theorem holdDomain_port (s : State) : (holdDomain s).port = s.port := by unfold holdDomain; split <;> rfl
@[simp] theorem settle_port (s : State) : (settle s).port = s.port := by simp [settle]
@[simp] theorem backupDomainReset_moves (s : State) : (backupDomainReset s).moves = s.moves := rfl
@[simp] theorem holdDomain_moves (s : State) : (holdDomain s).moves = s.moves := by unfold holdDomain; split <;> rfl
@[simp] theorem settle_moves (s : State) : (settle s).moves = s.moves := by simp [settle]

@[simp] theorem settle_lvl (s : State) : (settle s).lvl = levelsOf (holdDomain s) := rfl
@[simp] theorem levelsOf_settle (s : State) : levelsOf (settle s) = levelsOf (holdDomain s) := rfl

/-- A domain that is not held in reset is left alone. -/
theorem holdDomain_of_live {s : State} (h : domainHeld s = false) : holdDomain s = s := by simp [holdDomain, h]

/-- With the recorded levels up to date there is no edge. -/
theorem edgePending_of_levels {s : State} (h : s.lvl = levelsOf s) : edgePending s = 0#32 := by
  simp [edgePending, edgeSets, h]

theorem detectEdges_of_levels {s : State} (h : s.lvl = levelsOf s) : detectEdges s = s := by
  unfold detectEdges
  rw [edgePending_of_levels h, BitVec.or_zero, ← h]

/-- Where neither the domain reset nor a level is touched, nothing follows a register write. -/
theorem settle_of_calm {s : State} (hd : domainHeld s = false) (hl : s.lvl = levelsOf s) : settle s = s := by
  rw [settle, holdDomain_of_live hd, detectEdges_of_levels hl]

/-- The same for any state whose domain reset changes nothing. -/
theorem settle_of_regs {s : State} (hd : holdDomain s = s) (hl : s.lvl = levelsOf s) : settle s = s := by
  rw [settle, hd, detectEdges_of_levels hl]

end Sys2Proof.Machine
end

