-- ==== Sys2Proof/Laws/Bus.lean ====
section
/-! SUPPORT. The register bus: under a configuration every register is found at its own address, and each access primitive
does what its register's rule says (R21, R54, R59, R60). -/

namespace Sys2Proof.Machine

/-- In a list whose images are pairwise distinct, searching by image finds the element itself. -/
theorem find_by_image {α β : Type} [DecidableEq β] (f : α → β) (a : α) :
    ∀ l : List α, (l.map f).Nodup → a ∈ l → l.find? (fun b => f b == f a) = some a
  | [], _, h => by cases h
  | b :: l, hn, h => by
    rw [List.map_cons, List.nodup_cons] at hn
    rcases List.mem_cons.mp h with rfl | h
    · simp
    · have hne : f b ≠ f a := fun e => hn.1 (e ▸ List.mem_map_of_mem h)
      simp only [List.find?_cons, beq_eq_false_iff_ne.mpr hne]
      exact find_by_image f a l hn.2 h

theorem mem_allRegs (r : Reg) : r ∈ allRegs := by cases r <;> decide

/-- What `paramsOk` says, in words. -/
structure ParamsFacts (p : Params) : Prop where
  aligned : p.rtcBase.toNat % 4 = 0 ∧ p.extiBase.toNat % 4 = 0 ∧ p.pwrBase.toNat % 4 = 0 ∧ p.rccBase.toNat % 4 = 0
  distinct : (allRegs.map (regAddr p)).Nodup
  linesMin : 20 < p.nLines
  linesMax : p.nLines ≤ 32
  sWidth : p.predivSWidth ≤ 16
  aWidth : p.predivAWidth ≤ 16
  csrBits : (csrFieldBits p).Nodup
  csrWidth : ∀ n ∈ csrFieldBits p, n < 32

theorem paramsFacts {p : Params} (h : paramsOk p = true) : ParamsFacts p := by
  simp only [paramsOk, Bool.and_eq_true, beq_iff_eq, decide_eq_true_eq, List.all_eq_true] at h
  obtain ⟨⟨⟨⟨⟨⟨⟨⟨⟨⟨h1, h2⟩, h3⟩, h4⟩, h5⟩, h6⟩, h7⟩, h8⟩, h9⟩, h10⟩, h11⟩ := h
  exact ⟨⟨h1, h2, h3, h4⟩, h5, h6, h7, h8, h9, h10, h11⟩

/-- Every register stands at its own address. -/
theorem regAt_regAddr {p : Params} (h : paramsOk p = true) (r : Reg) : regAt p (regAddr p r) = some r :=
  find_by_image (regAddr p) r allRegs (paramsFacts h).distinct (mem_allRegs r)

/-- `MemRead(REG(r), 4)` (R59). -/
theorem memRead_regAddr {s : State} (h : paramsOk s.par = true) (r : Reg) :
    memRead (regAddr s.par r) s = some (readReg r s) := by simp [memRead, regAt_regAddr h]

/-- `MemWrite(REG(r), 4, v)` (R60). -/
theorem memWrite_regAddr {s : State} (h : paramsOk s.par = true) (r : Reg) (v : Word) :
    memWrite (regAddr s.par r) v s = some (settle (writeReg r v s)) := by simp [memWrite, regAt_regAddr h]

/-- A read or a write of a register changes no parameter. -/
@[simp] theorem readReg_par (r : Reg) (s : State) : (readReg r s).2.par = s.par := by cases r <;> rfl

@[simp] theorem writeReg_par (r : Reg) (v : Word) (s : State) : (writeReg r v s).par = s.par := by
  cases r <;> simp only [writeReg, writeTr, writeDr, writeCr, writeIsr, writePrer, writeWutr, writeWpr, writeSwier, writePr,
    writePwrCr, writeCsr] <;> (try split) <;> rfl

/-- A read of any register but RTC_TR and RTC_DR has no side effect (R59, R63). -/
theorem readReg_pure {r : Reg} (ht : r ≠ .tr) (hd : r ≠ .dr) (s : State) : (readReg r s).2 = s := by
  cases r <;> first | rfl | exact absurd rfl ht | exact absurd rfl hd

theorem withRead_eq {s : State} (h : paramsOk s.par = true) (r : Reg) (k : Word → State → Result) :
    withRead r s k = k (readReg r s).1 (readReg r s).2 := by simp [withRead, memRead_regAddr h]

theorem withWrite_eq {s : State} (h : paramsOk s.par = true) (r : Reg) (v : Word) (k : State → Result) :
    withWrite r v s k = k (settle (writeReg r v s)) := by simp [withWrite, memWrite_regAddr h]

theorem withValue_eq {α : Type} {q : SeqId} {e : LExpr α} {s : State} {a : α} (h : e (seqOf s q).x = some a)
    (k : α → Result) : withValue q e s k = k a := by simp [withValue, h]

end Sys2Proof.Machine
end

