-- ==== Sys2Proof/Laws/Registers.lean ====
section
/-! SUPPORT. What a register access leaves alone, and what each register write is when its guard is open (R42, R43, R60). -/

namespace Sys2Proof.Machine

/-! ### The block's own state is touched by no register access -/

@[simp] theorem readReg_owner (r : Reg) (s : State) : (readReg r s).2.owner = s.owner := by cases r <;> rfl
@[simp] theorem writeReg_owner (r : Reg) (v : Word) (s : State) : (writeReg r v s).owner = s.owner := by
  cases r <;> simp only [writeReg, writeTr, writeDr, writeCr, writeIsr, writePrer, writeWutr, writeWpr, writeSwier, writePr,
    writePwrCr, writeCsr] <;> (try split) <;> rfl
@[simp] theorem readReg_irq (r : Reg) (s : State) : (readReg r s).2.irq = s.irq := by cases r <;> rfl
@[simp] theorem writeReg_irq (r : Reg) (v : Word) (s : State) : (writeReg r v s).irq = s.irq := by
  cases r <;> simp only [writeReg, writeTr, writeDr, writeCr, writeIsr, writePrer, writeWutr, writeWpr, writeSwier, writePr,
    writePwrCr, writeCsr] <;> (try split) <;> rfl
@[simp] theorem readReg_faultCode (r : Reg) (s : State) : (readReg r s).2.faultCode = s.faultCode := by cases r <;> rfl
@[simp] theorem writeReg_faultCode (r : Reg) (v : Word) (s : State) : (writeReg r v s).faultCode = s.faultCode := by
  cases r <;> simp only [writeReg, writeTr, writeDr, writeCr, writeIsr, writePrer, writeWutr, writeWpr, writeSwier, writePr,
    writePwrCr, writeCsr] <;> (try split) <;> rfl
@[simp] theorem readReg_faultSeq (r : Reg) (s : State) : (readReg r s).2.faultSeq = s.faultSeq := by cases r <;> rfl
@[simp] theorem writeReg_faultSeq (r : Reg) (v : Word) (s : State) : (writeReg r v s).faultSeq = s.faultSeq := by
  cases r <;> simp only [writeReg, writeTr, writeDr, writeCr, writeIsr, writePrer, writeWutr, writeWpr, writeSwier, writePr,
    writePwrCr, writeCsr] <;> (try split) <;> rfl
@[simp] theorem readReg_faultWord (r : Reg) (s : State) : (readReg r s).2.faultWord = s.faultWord := by cases r <;> rfl
@[simp] theorem writeReg_faultWord (r : Reg) (v : Word) (s : State) : (writeReg r v s).faultWord = s.faultWord := by
  cases r <;> simp only [writeReg, writeTr, writeDr, writeCr, writeIsr, writePrer, writeWutr, writeWpr, writeSwier, writePr,
    writePwrCr, writeCsr] <;> (try split) <;> rfl
@[simp] theorem readReg_refusedReason (r : Reg) (s : State) : (readReg r s).2.refusedReason = s.refusedReason := by cases r <;> rfl
@[simp] theorem writeReg_refusedReason (r : Reg) (v : Word) (s : State) : (writeReg r v s).refusedReason = s.refusedReason := by
  cases r <;> simp only [writeReg, writeTr, writeDr, writeCr, writeIsr, writePrer, writeWutr, writeWpr, writeSwier, writePr,
    writePwrCr, writeCsr] <;> (try split) <;> rfl
@[simp] theorem readReg_refusedWord (r : Reg) (s : State) : (readReg r s).2.refusedWord = s.refusedWord := by cases r <;> rfl
@[simp] theorem writeReg_refusedWord (r : Reg) (v : Word) (s : State) : (writeReg r v s).refusedWord = s.refusedWord := by
  cases r <;> simp only [writeReg, writeTr, writeDr, writeCr, writeIsr, writePrer, writeWutr, writeWpr, writeSwier, writePr,
    writePwrCr, writeCsr] <;> (try split) <;> rfl
@[simp] theorem readReg_constructed (r : Reg) (s : State) : (readReg r s).2.constructed = s.constructed := by cases r <;> rfl
@[simp] theorem writeReg_constructed (r : Reg) (v : Word) (s : State) : (writeReg r v s).constructed = s.constructed := by
  cases r <;> simp only [writeReg, writeTr, writeDr, writeCr, writeIsr, writePrer, writeWutr, writeWpr, writeSwier, writePr,
    writePwrCr, writeCsr] <;> (try split) <;> rfl
@[simp] theorem readReg_clkSrc (r : Reg) (s : State) : (readReg r s).2.clkSrc = s.clkSrc := by cases r <;> rfl
@[simp] theorem writeReg_clkSrc (r : Reg) (v : Word) (s : State) : (writeReg r v s).clkSrc = s.clkSrc := by
  cases r <;> simp only [writeReg, writeTr, writeDr, writeCr, writeIsr, writePrer, writeWutr, writeWpr, writeSwier, writePr,
    writePwrCr, writeCsr] <;> (try split) <;> rfl
@[simp] theorem readReg_port (r : Reg) (s : State) : (readReg r s).2.port = s.port := by cases r <;> rfl
@[simp] theorem writeReg_port (r : Reg) (v : Word) (s : State) : (writeReg r v s).port = s.port := by
  cases r <;> simp only [writeReg, writeTr, writeDr, writeCr, writeIsr, writePrer, writeWutr, writeWpr, writeSwier, writePr,
    writePwrCr, writeCsr] <;> (try split) <;> rfl
@[simp] theorem readReg_moves (r : Reg) (s : State) : (readReg r s).2.moves = s.moves := by cases r <;> rfl
@[simp] theorem writeReg_moves (r : Reg) (v : Word) (s : State) : (writeReg r v s).moves = s.moves := by
  cases r <;> simp only [writeReg, writeTr, writeDr, writeCr, writeIsr, writePrer, writeWutr, writeWpr, writeSwier, writePr,
    writePwrCr, writeCsr] <;> (try split) <;> rfl
@[simp] theorem readReg_lvl (r : Reg) (s : State) : (readReg r s).2.lvl = s.lvl := by cases r <;> rfl
@[simp] theorem writeReg_lvl (r : Reg) (v : Word) (s : State) : (writeReg r v s).lvl = s.lvl := by
  cases r <;> simp only [writeReg, writeTr, writeDr, writeCr, writeIsr, writePrer, writeWutr, writeWpr, writeSwier, writePr,
    writePwrCr, writeCsr] <;> (try split) <;> rfl

end Sys2Proof.Machine
end

