-- ==== Sys2Proof/Laws/Sequencer.lean ====
section
/-! SUPPORT. Running a command: one lemma per micro-op kind saying which state OWNER's next micro-op reaches when the schedule
is silent, and one for a scheduled move. Longer runs are chained with `Reaches.trans`. -/

namespace Sys2Proof.Machine

/-- `k` ticks of the drain of sequencer `q` lead from `s` to `t`. -/
def Reaches (q : SeqId) (k : Nat) (s t : State) : Prop := ∀ n, drain q (n + k) s = drain q n t

theorem Reaches.refl (q : SeqId) (s : State) : Reaches q 0 s s := fun _ => rfl

theorem Reaches.trans {q : SeqId} {j k : Nat} {s t u : State} (h₁ : Reaches q j s t) (h₂ : Reaches q k t u) :
    Reaches q (j + k) s u := fun n => by
  rw [show n + (j + k) = (n + k) + j by omega, h₁, h₂]

/-- A drain ends where its sequencer is idle. -/
theorem drain_idle {q : SeqId} {s : State} (h : (seqOf s q).busy = false) (n : Nat) : drain q n s = .next s := by
  cases n <;> simp [drain, h]

/-- A drain ends where a fault is recorded. -/
theorem drain_faulted {q : SeqId} {s : State} (h : faulted s = true) (n : Nat) : drain q n s = .next s := by
  cases n <;> simp [drain, h]

/-- A drain ends where nothing can move. -/
theorem drain_stalled {q : SeqId} {s : State} (h : stalled s = true) (n : Nat) : drain q n s = .next s := by
  cases n <;> simp [drain, h]

/-- One tick of a drain that goes on. -/
theorem reaches_tick {q : SeqId} {s t : State} (hb : (seqOf s q).busy = true) (hf : faulted s = false)
    (hs : stalled s = false) (ht : tick s = .next t) : Reaches q 1 s t := fun n => by
  simp [drain, hb, hf, hs, ht]

/-- A scheduled move that can be taken. -/
theorem reaches_move {q : SeqId} {s t : State} {m : Move} {rest : List Move} (hb : (seqOf s q).busy = true)
    (hf : faulted s = false) (hm : readyMove s = some (m, rest)) (ht : takeMove m { s with moves := rest } = .next t) :
    Reaches q 1 s t :=
  reaches_tick hb hf (by simp [stalled, hm]) (by simp [tick, hm, ht])

/-- A micro-op of the sequencer whose turn it is, the schedule being silent. -/
theorem reaches_micro {q r : SeqId} {s t : State} {m : MicroOp} (hb : (seqOf s q).busy = true) (hf : faulted s = false)
    (hq : readyMove s = none) (hr : turn s = some r) (hm : nextMicroOp s r = some m) (ht : runMicroOp r m s = .next t) :
    Reaches q 1 s t := by
  refine reaches_tick hb hf (by simp [stalled, hr]) ?_
  simp only [tick, hq, hr, seqStep]
  unfold nextMicroOp at hm
  cases hp : progOf s.par (seqOf s r).op with
  | none => simp [hp] at hm
  | some prog => rw [hp] at hm; simp only [Option.bind_some] at hm; simp [hm, ht]

/-- A micro-op that is no poll never holds. -/
theorem not_held {s : State} {q : SeqId} {m : MicroOp} (hm : nextMicroOp s q = some m)
    (hp : ∀ r a b, m ≠ .poll r a b) : held s q = false := by
  cases m <;> first | (simp [held, hm]; done) | exact absurd rfl (hp _ _ _)

/-- A poll whose condition is met does not hold. -/
theorem not_held_poll {s : State} {q : SeqId} {r : Reg} {a b : Word} (hp : paramsOk s.par = true)
    (hm : nextMicroOp s q = some (.poll r a b)) (hv : (readReg r s).1 &&& a = b) : held s q = false := by
  simp [held, hm, memRead_regAddr hp, hv]

/-- Sequencer `q` runs the command of program `prog` and stands at micro-op `k`; it has the turn (R167: IRQ is idle if `q` is
OWNER) and no fault is recorded. -/
structure SeqAt (q : SeqId) (s : State) (prog : List MicroOp) (k : Nat) : Prop where
  params : paramsOk s.par = true
  noFault : s.faultCode = 0#8
  busy : (seqOf s q).busy = true
  irqIdle : q = .owner → s.irq.busy = false
  program : progOf s.par (seqOf s q).op = some prog
  pc : (seqOf s q).pc = k

theorem SeqAt.next {q : SeqId} {s : State} {prog : List MicroOp} {k : Nat} (h : SeqAt q s prog k) :
    nextMicroOp s q = prog[k]? := by
  simp [nextMicroOp, h.program, h.pc]

theorem SeqAt.notFaulted {q : SeqId} {s : State} {prog : List MicroOp} {k : Nat} (h : SeqAt q s prog k) : faulted s = false := by
  simp [faulted, h.noFault]

theorem SeqAt.turn {q : SeqId} {s : State} {prog : List MicroOp} {k : Nat} (h : SeqAt q s prog k)
    (hh : held s q = false) : turn s = some q := by
  have hb := h.busy
  have hi := h.irqIdle
  cases q <;> simp_all [Machine.turn, h.notFaulted]

/-- The next micro-op, when it does not hold. -/
theorem SeqAt.reaches {q : SeqId} {s t : State} {prog : List MicroOp} {k : Nat} {m : MicroOp} (h : SeqAt q s prog k)
    (hq : readyMove s = none) (hm : prog[k]? = some m) (hh : held s q = false)
    (ht : runMicroOp q m s = .next t) : Reaches q 1 s t :=
  reaches_micro h.busy h.notFaulted hq (h.turn hh) (h.next.trans hm) ht

section
variable {q : SeqId} {s : State} {prog : List MicroOp} {k : Nat}

/-- `WR` -/
theorem SeqAt.wr {r : Reg} {e : LExpr Word} {v : Word} (h : SeqAt q s prog k) (hq : readyMove s = none)
    (hm : prog[k]? = some (.wr r e)) (he : e (seqOf s q).x = some v) :
    Reaches q 1 s (advance q 1 (settle (writeReg r v s))) :=
  h.reaches hq hm (not_held (h.next.trans hm) (by simp)) (by
    rw [runMicroOp, withValue_eq (a := v) he, withWrite_eq h.params])

/-- `RMW` -/
theorem SeqAt.rmw {r : Reg} {em ev : LExpr Word} {m v : Word} (h : SeqAt q s prog k) (hq : readyMove s = none)
    (hm : prog[k]? = some (.rmw r em ev)) (hem : em (seqOf s q).x = some m) (hev : ev (seqOf s q).x = some v) :
    Reaches q 1 s
      (advance q 1 (settle (writeReg r (blend m (readReg r s).1 v) (readReg r s).2))) :=
  h.reaches hq hm (not_held (h.next.trans hm) (by simp)) (by
    rw [runMicroOp, withValue_eq (a := m) hem, withValue_eq (a := v) hev,
      withRead_eq h.params, withWrite_eq (by simpa using h.params)])

/-- `RD` -/
theorem SeqAt.rd {r : Reg} {i : Nat} (h : SeqAt q s prog k) (hq : readyMove s = none)
    (hm : prog[k]? = some (.rd i r)) :
    Reaches q 1 s (setLatchAdvance q i (readReg r s).1 (readReg r s).2) :=
  h.reaches hq hm (not_held (h.next.trans hm) (by simp)) (by rw [runMicroOp, withRead_eq h.params])

/-- `ISR_SET_INIT` -/
theorem SeqAt.isrSetInit {b : Bool} (h : SeqAt q s prog k) (hq : readyMove s = none)
    (hm : prog[k]? = some (.isrSetInit b)) :
    Reaches q 1 s (advance q 1 (settle (writeIsr (isrSetInitWord b) s))) :=
  h.reaches hq hm (not_held (h.next.trans hm) (by simp)) (by rw [runMicroOp, withWrite_eq h.params]; rfl)

/-- `ISR_CLR` -/
theorem SeqAt.isrClr {em : LExpr Word} {m : Word} (h : SeqAt q s prog k) (hq : readyMove s = none)
    (hm : prog[k]? = some (.isrClr em)) (hem : em (seqOf s q).x = some m) :
    Reaches q 1 s (advance q 1 (settle (writeIsr (isrClearWord m s.rtcIsr) s))) :=
  h.reaches hq hm (not_held (h.next.trans hm) (by simp)) (by
    rw [runMicroOp, withValue_eq (a := m) hem, withRead_eq h.params,
      withWrite_eq (by simpa using h.params)]; rfl)

/-- `POLL` of a register without a read effect, its condition met -/
theorem SeqAt.poll {r : Reg} {a b : Word} (h : SeqAt q s prog k) (hq : readyMove s = none)
    (hm : prog[k]? = some (.poll r a b)) (ht : r ≠ .tr) (hd : r ≠ .dr) (hv : (readReg r s).1 &&& a = b) :
    Reaches q 1 s (advance q 1 s) :=
  h.reaches hq hm (not_held_poll h.params (h.next.trans hm) hv) (by
    rw [runMicroOp, withRead_eq h.params, if_pos hv, readReg_pure ht hd])

/-- `SKIPIF` of a register without a read effect -/
theorem SeqAt.skipIf {r : Reg} {a b : Word} {n : Nat} (h : SeqAt q s prog k) (hq : readyMove s = none)
    (hm : prog[k]? = some (.skipIf r a b n)) (ht : r ≠ .tr) (hd : r ≠ .dr) :
    Reaches q 1 s (advance q (if (readReg r s).1 &&& a = b then 1 + n else 1) s) :=
  h.reaches hq hm (not_held (h.next.trans hm) (by simp)) (by
    rw [runMicroOp, withRead_eq h.params, readReg_pure ht hd])

/-- `CALC` -/
theorem SeqAt.calc {i : Nat} {e : LExpr Word} {v : Word} (h : SeqAt q s prog k) (hq : readyMove s = none)
    (hm : prog[k]? = some (.calc i e)) (he : e (seqOf s q).x = some v) :
    Reaches q 1 s (setLatchAdvance q i v s) :=
  h.reaches hq hm (not_held (h.next.trans hm) (by simp)) (by
    rw [runMicroOp, withValue_eq (a := v) he])

/-- `CHECK` that holds -/
theorem SeqAt.check {c : LExpr Bool} (h : SeqAt q s prog k) (hq : readyMove s = none)
    (hm : prog[k]? = some (.check c)) (he : c (seqOf s q).x = some true) :
    Reaches q 1 s (advance q 1 s) :=
  h.reaches hq hm (not_held (h.next.trans hm) (by simp)) (by
    rw [runMicroOp, withValue_eq (a := true) he]; rfl)

/-- `CHECK` that fails -/
theorem SeqAt.checkFails {c : LExpr Bool} (h : SeqAt q s prog k) (hq : readyMove s = none)
    (hm : prog[k]? = some (.check c)) (he : c (seqOf s q).x = some false) :
    Reaches q 1 s (complete q 0x01#8 s) :=
  h.reaches hq hm (not_held (h.next.trans hm) (by simp)) (by
    rw [runMicroOp, withValue_eq (a := false) he]; rfl)

/-- `FAULTIF` that does not fault -/
theorem SeqAt.faultIfNot {c : LExpr Bool} {code : FaultCode} (h : SeqAt q s prog k) (hq : readyMove s = none)
    (hm : prog[k]? = some (.faultIf c code)) (he : c (seqOf s q).x = some false) :
    Reaches q 1 s (advance q 1 s) :=
  h.reaches hq hm (not_held (h.next.trans hm) (by simp)) (by
    rw [runMicroOp, withValue_eq (a := false) he]; rfl)

/-- `FAULTIF` that faults -/
theorem SeqAt.faultIf {c : LExpr Bool} {code : FaultCode} (h : SeqAt q s prog k) (hq : readyMove s = none)
    (hm : prog[k]? = some (.faultIf c code)) (he : c (seqOf s q).x = some true) :
    Reaches q 1 s (raiseFault q code s) :=
  h.reaches hq hm (not_held (h.next.trans hm) (by simp)) (by
    rw [runMicroOp, withValue_eq (a := true) he]; rfl)

/-- `RES` -/
theorem SeqAt.resOp {e : LExpr (BitVec 64)} {v : BitVec 64} (h : SeqAt q s prog k) (hq : readyMove s = none)
    (hm : prog[k]? = some (.res e)) (he : e (seqOf s q).x = some v) :
    Reaches q 1 s (setSeq s q { seqOf s q with res := v, pc := (seqOf s q).pc + 1 }) :=
  h.reaches hq hm (not_held (h.next.trans hm) (by simp)) (by
    rw [runMicroOp, withValue_eq (a := v) he])

/-- `CONSTRUCT` -/
theorem SeqAt.construct {c : ClkSrc} (h : SeqAt q s prog k) (hq : readyMove s = none)
    (hm : prog[k]? = some (.construct c)) :
    Reaches q 1 s (advance q 1 { s with constructed := true, clkSrc := some c }) :=
  h.reaches hq hm (not_held (h.next.trans hm) (by simp)) rfl

/-- `END` -/
theorem SeqAt.done (h : SeqAt q s prog k) (hq : readyMove s = none) (hm : prog[k]? = some .done) :
    Reaches q 1 s (complete q 0x00#8 s) :=
  h.reaches hq hm (not_held (h.next.trans hm) (by simp)) rfl

end

end Sys2Proof.Machine
end

