-- ==== Sys2Proof/Laws/Transactions.lean ====
section
/-! SUPPORT. The brackets as runs: what UNLOCK, INIT_ENTER, INIT_EXIT and LOCK do to a state whose schedule serves them, and the
step from a run to the answer of `issue`. -/

namespace Sys2Proof.Machine

/-! ### Silence of the schedule -/

/-- The schedule makes no move now: it is empty, its first draw is not enabled, or the host waits for the busy sequencer. -/
inductive Silent (q : SeqId) (s : State) : Prop where
  | empty (h : s.moves = [])
  | waits (rest : List Move) (h : s.moves = .await q :: rest) (hb : (seqOf s q).busy = true)
  | draw (d : Draw) (rest : List Move) (h : s.moves = .env d :: rest) (hd : drawEnabled d s = false)

theorem Silent.ready {q : SeqId} {s : State} (h : Silent q s) : readyMove s = none := by
  cases h with
  | empty h => simp [readyMove, h]
  | waits rest h hb => simp [readyMove, h, moveEnabled, hb]
  | draw d rest h hd => simp [readyMove, h, moveEnabled, hd]

/-- Whether a draw is enabled depends on RTC_ISR, RTC_CR and RCC_CSR only. -/
theorem drawEnabled_congr {s t : State} (d : Draw) (hi : t.rtcIsr = s.rtcIsr) (hc : t.rtcCr = s.rtcCr)
    (hr : t.rccCsr = s.rccCsr) : drawEnabled d t = drawEnabled d s := by
  cases d <;> simp [drawEnabled, initBit, initf, rtcEnabled, wute, wutwf, alrae, alrbe, tse, lseon, lserdy, lsion, lsirdy,
    hi, hc, hr]

theorem Silent.congr {q : SeqId} {s t : State} (h : Silent q s) (hm : t.moves = s.moves) (hi : t.rtcIsr = s.rtcIsr)
    (hc : t.rtcCr = s.rtcCr) (hr : t.rccCsr = s.rccCsr) (hb : (seqOf s q).busy = true → (seqOf t q).busy = true) :
    Silent q t := by
  cases h with
  | empty h => exact .empty (hm.trans h)
  | waits rest h hq => exact .waits rest (hm.trans h) (hb hq)
  | draw d rest h hd => exact .draw d rest (hm.trans h) ((drawEnabled_congr d hi hc hr).trans hd)

theorem Silent.of_waits {q : SeqId} {s : State} (h : Waits q s.moves) (hb : (seqOf s q).busy = true) : Silent q s := by
  rcases h with h | ⟨rest, h⟩
  · exact .empty h
  · exact .waits rest h hb

/-! ### Calm states: nothing follows a write that touches neither a level nor the domain reset -/

/-- The backup domain is not held in reset and the recorded levels are up to date. -/
structure Calm (s : State) : Prop where
  live : domainHeld s = false
  levels : s.lvl = levelsOf s

theorem Calm.settle {s : State} (h : Calm s) : settle s = s := settle_of_calm h.live h.levels

theorem Calm.congr {s t : State} (h : Calm s) (hp : t.par = s.par) (hr : t.rccCsr = s.rccCsr) (hl : t.lvl = s.lvl)
    (hv : levelsOf t = levelsOf s) : Calm t :=
  ⟨by simpa [domainHeld, hp, hr] using h.live, by rw [hl, hv]; exact h.levels⟩

/-- The levels depend on RTC_CR and on the event flags of RTC_ISR only. -/
theorem levelsOf_congr {s t : State} (hc : t.rtcCr = s.rtcCr) (hi : ∀ n, 8 ≤ n → n ≤ 11 → t.rtcIsr.getLsbD n = s.rtcIsr.getLsbD n) :
    levelsOf t = levelsOf s := by
  simp only [levelsOf, alraf, alrbf, wutf, tsf, alraie, alrbie, wutie, tsie, hc, hi 8 (by omega) (by omega),
    hi 9 (by omega) (by omega), hi 10 (by omega) (by omega), hi 11 (by omega) (by omega)]

/-! ### Following a sequencer through a run -/

theorem SeqAt.congr {q : SeqId} {s t : State} {prog : List MicroOp} {k l : Nat} (h : SeqAt q s prog k) (hp : t.par = s.par)
    (hf : t.faultCode = s.faultCode) (hb : (seqOf t q).busy = (seqOf s q).busy) (ho : (seqOf t q).op = (seqOf s q).op)
    (hi : q = .owner → t.irq.busy = s.irq.busy) (hc : (seqOf t q).pc = l) : SeqAt q t prog l where
  params := by rw [hp]; exact h.params
  noFault := by rw [hf]; exact h.noFault
  busy := by rw [hb]; exact h.busy
  irqIdle := fun e => by rw [hi e]; exact h.irqIdle e
  program := by rw [hp, ho]; exact h.program
  pc := hc

@[simp] theorem seqOf_advance (q : SeqId) (n : Nat) (s : State) :
    seqOf (advance q n s) q = { seqOf s q with pc := (seqOf s q).pc + n } := by simp [advance]

@[simp] theorem seqOf_complete (q : SeqId) (b : Byte) (s : State) :
    seqOf (complete q b s) q = { seqOf s q with status := b, busy := false, pc := (seqOf s q).pc + 1 } := by simp [complete]

@[simp] theorem advance_advance (q : SeqId) (m n : Nat) (s : State) :
    advance q n (advance q m s) = advance q (m + n) s := by simp [advance, Nat.add_assoc]

/-- OWNER's `pc` moved forward. -/
theorem advance_owner (n : Nat) (s : State) :
    advance .owner n s = { s with owner := { s.owner with pc := s.owner.pc + n } } := rfl

/-! ### Bits -/

theorem bit_getLsbD (n i : Nat) (hn : n < 32) : (bit n).getLsbD i = decide (i = n) := by
  simp only [bit, BitVec.getLsbD_ofNat, Nat.testBit_two_pow]
  by_cases h : n = i
  · subst h; simp [hn]
  · simp [h, Ne.symm h]

/-- Testing one bit. -/
theorem and_bit_eq_bit {x : Word} {n : Nat} (hn : n < 32) : x &&& bit n = bit n ↔ x.getLsbD n = true := by
  constructor
  · intro h
    have := congrArg (fun w => w.getLsbD n) h
    simp only [BitVec.getLsbD_and, bit_getLsbD n n hn, decide_true, Bool.and_true] at this
    exact this
  · intro h
    apply BitVec.eq_of_getLsbD_eq
    intro i _
    simp only [BitVec.getLsbD_and, bit_getLsbD n i hn]
    by_cases e : i = n
    · subst e; simp only [h, Bool.true_and]
    · simp [e]

theorem and_bit_eq_zero {x : Word} {n : Nat} (hn : n < 32) : x &&& bit n = 0#32 ↔ x.getLsbD n = false := by
  constructor
  · intro h
    have := congrArg (fun w => w.getLsbD n) h
    simp only [BitVec.getLsbD_and, bit_getLsbD n n hn, decide_true, Bool.and_true, BitVec.getLsbD_zero] at this
    exact this
  · intro h
    apply BitVec.eq_of_getLsbD_eq
    intro i _
    simp only [BitVec.getLsbD_and, bit_getLsbD n i hn, BitVec.getLsbD_zero]
    by_cases e : i = n
    · subst e; simp only [h, Bool.false_and]
    · simp [e]

/-! ### The two ISR write forms (R91, R92) -/

theorem isr_setInit_true (x : Word) :
    blend (bit 7) (x &&& ~~~(isrKeep &&& ~~~isrSetInitWord true)) (isrSetInitWord true) = x ||| bit 7 := by
  apply BitVec.eq_of_getLsbD_eq
  intro i hi
  simp only [blend, bit, isrKeep, isrSetInitWord]
  interval_cases i <;> simp

theorem isr_setInit_false (x : Word) :
    blend (bit 7) (x &&& ~~~(isrKeep &&& ~~~isrSetInitWord false)) (isrSetInitWord false) = x &&& ~~~bit 7 := by
  apply BitVec.eq_of_getLsbD_eq
  intro i hi
  simp only [blend, bit, isrKeep, isrSetInitWord]
  interval_cases i <;> simp

/-- `ISR_SET_INIT(1)` in an unlocked state (R91). -/
theorem writeIsr_setInit_true {s : State} (h : s.wp = .unlocked) :
    writeIsr (isrSetInitWord true) s = { s with rtcIsr := s.rtcIsr ||| bit 7 } := by
  simp [writeIsr, unlocked, isrClearable, h, isr_setInit_true]

/-- `ISR_SET_INIT(0)` in an unlocked state (R91). -/
theorem writeIsr_setInit_false {s : State} (h : s.wp = .unlocked) :
    writeIsr (isrSetInitWord false) s = { s with rtcIsr := s.rtcIsr &&& ~~~bit 7 } := by
  simp [writeIsr, unlocked, isrClearable, h, isr_setInit_false]

/-! ### UNLOCK and LOCK (R93, R94) -/

theorem keyStep_unlock (w : WpState) : keyStep (keyStep w 0xCA#8) 0x53#8 = .unlocked := by cases w <;> decide
theorem keyStep_lock (w : WpState) : keyStep w 0xFF#8 = .locked := by cases w <;> decide

/-! ### Runs of bounded length -/

/-- At most `n` ticks of the drain of sequencer `q` lead from `s` to `t`. -/
def Leads (q : SeqId) (n : Nat) (s t : State) : Prop := ∃ k, k ≤ n ∧ Reaches q k s t

theorem Leads.refl (q : SeqId) (s : State) : Leads q 0 s s := ⟨0, Nat.le_refl 0, Reaches.refl q s⟩

theorem Reaches.leads {q : SeqId} {k : Nat} {s t : State} (h : Reaches q k s t) : Leads q k s t := ⟨k, Nat.le_refl k, h⟩

theorem Leads.then {q : SeqId} {m n : Nat} {s t u : State} (h₁ : Leads q m s t) (h₂ : Leads q n t u) :
    Leads q (m + n) s u := by
  obtain ⟨j, hj, r₁⟩ := h₁
  obtain ⟨k, hk, r₂⟩ := h₂
  exact ⟨j + k, by omega, r₁.trans r₂⟩

theorem Leads.mono {q : SeqId} {m n : Nat} {s t : State} (h : Leads q m s t) (hn : m ≤ n) : Leads q n s t := by
  obtain ⟨k, hk, r⟩ := h
  exact ⟨k, by omega, r⟩

/-! ### A sequencer at a micro-op, its `pc` kept apart from the rest of the state -/

/-- The `pc` of sequencer `q` set. -/
def atPc (q : SeqId) (s : State) (k : Nat) : State := setSeq s q { seqOf s q with pc := k }

theorem advance_atPc (q : SeqId) (s : State) (k n : Nat) : advance q n (atPc q s k) = atPc q s (k + n) := by
  cases q <;> rfl

theorem ite_setSeq {c d : Bool} {a b a' b' : State} {q : SeqId} {x : Seq} (hc : d = c) (ha : a' = setSeq a q x)
    (hb : b' = setSeq b q x) : (if d = true then a' else b') = setSeq (if c = true then a else b) q x := by
  subst hc ha hb; split <;> rfl

/-- No register access sees a sequencer's own state. -/
theorem writeReg_setSeq (r : Reg) (v : Word) (s : State) (q : SeqId) (x : Seq) :
    writeReg r v (setSeq s q x) = setSeq (writeReg r v s) q x := by
  cases q <;> cases r <;> simp only [writeReg, writeTr, writeDr, writeCr, writeIsr, writePrer, writeWutr, writeWpr,
    writeSwier, writePr, writePwrCr, writeCsr] <;> first | rfl | exact ite_setSeq rfl rfl rfl

theorem readReg_fst_setSeq (r : Reg) (s : State) (q : SeqId) (x : Seq) : (readReg r (setSeq s q x)).1 = (readReg r s).1 := by
  cases q <;> cases r <;> rfl

theorem readReg_snd_setSeq (r : Reg) (s : State) (q : SeqId) (x : Seq) :
    (readReg r (setSeq s q x)).2 = setSeq (readReg r s).2 q x := by cases q <;> cases r <;> rfl

theorem settle_setSeq (s : State) (q : SeqId) (x : Seq) : settle (setSeq s q x) = setSeq (settle s) q x := by
  simp only [settle, holdDomain]
  have e : domainHeld (setSeq s q x) = domainHeld s := by cases q <;> rfl
  rw [e]
  split <;> cases q <;> rfl

theorem envStep_setSeq (d : Draw) (s : State) (q : SeqId) (x : Seq) :
    envStep d (setSeq s q x) = setSeq (envStep d s) q x := by
  rw [envStep, envStep, ← settle_setSeq]
  cases q <;> cases d <;> rfl

@[simp] theorem seqOf_writeReg (r : Reg) (v : Word) (s : State) (q : SeqId) : seqOf (writeReg r v s) q = seqOf s q := by
  cases q <;> simp

@[simp] theorem seqOf_readReg (r : Reg) (s : State) (q : SeqId) : seqOf (readReg r s).2 q = seqOf s q := by
  cases q <;> simp

@[simp] theorem seqOf_settle (s : State) (q : SeqId) : seqOf (settle s) q = seqOf s q := by cases q <;> simp

theorem writeReg_atPc (r : Reg) (v : Word) (q : SeqId) (s : State) (k : Nat) :
    writeReg r v (atPc q s k) = atPc q (writeReg r v s) k := by simp [atPc, writeReg_setSeq]

theorem readReg_fst_atPc (r : Reg) (q : SeqId) (s : State) (k : Nat) : (readReg r (atPc q s k)).1 = (readReg r s).1 :=
  readReg_fst_setSeq r s q _

theorem readReg_snd_atPc (r : Reg) (q : SeqId) (s : State) (k : Nat) :
    (readReg r (atPc q s k)).2 = atPc q (readReg r s).2 k := by simp [atPc, readReg_snd_setSeq]

theorem settle_atPc (q : SeqId) (s : State) (k : Nat) : settle (atPc q s k) = atPc q (settle s) k := by
  simp [atPc, settle_setSeq]

theorem envStep_atPc (d : Draw) (q : SeqId) (s : State) (k : Nat) : envStep d (atPc q s k) = atPc q (envStep d s) k := by
  have e : seqOf (envStep d s) q = seqOf s q := by
    rw [envStep, seqOf_settle]; cases q <;> cases d <;> rfl
  simp only [atPc, envStep_setSeq, e]

@[simp] theorem seqOf_atPc (q : SeqId) (s : State) (k : Nat) : seqOf (atPc q s k) q = { seqOf s q with pc := k } := by
  simp [atPc]

@[simp] theorem atPc_par (q : SeqId) (s : State) (k : Nat) : (atPc q s k).par = s.par := by simp [atPc]

/-- Sequencer `q` runs the command of program `prog` with the turn: IRQ is idle if it is OWNER, and no fault is recorded. -/
structure Running (q : SeqId) (s : State) (prog : List MicroOp) : Prop where
  params : paramsOk s.par = true
  noFault : s.faultCode = 0#8
  busy : (seqOf s q).busy = true
  irqIdle : q = .owner → s.irq.busy = false
  program : progOf s.par (seqOf s q).op = some prog

theorem Running.seqAt {q : SeqId} {s : State} {prog : List MicroOp} (h : Running q s prog) (k : Nat) :
    SeqAt q (atPc q s k) prog k where
  params := by simpa using h.params
  noFault := by simpa [atPc] using h.noFault
  busy := by simpa using h.busy
  irqIdle := fun e => by have := h.irqIdle e; subst e; simpa [atPc] using this
  program := by simpa using h.program
  pc := by simp

theorem Running.congr {q : SeqId} {s t : State} {prog : List MicroOp} (h : Running q s prog) (hp : t.par = s.par)
    (hf : t.faultCode = s.faultCode) (hb : (seqOf t q).busy = (seqOf s q).busy) (ho : (seqOf t q).op = (seqOf s q).op)
    (hi : q = .owner → t.irq = s.irq) : Running q t prog where
  params := by rw [hp]; exact h.params
  noFault := by rw [hf]; exact h.noFault
  busy := by rw [hb]; exact h.busy
  irqIdle := fun e => by rw [hi e]; exact h.irqIdle e
  program := by rw [hp, ho]; exact h.program

theorem Silent.atPc {q : SeqId} {s : State} (h : Silent q s) (k : Nat) : readyMove (Machine.atPc q s k) = none :=
  (h.congr (t := Machine.atPc q s k) (by simp [Machine.atPc]) (by simp [Machine.atPc]) (by simp [Machine.atPc])
    (by simp [Machine.atPc]) (by simp)).ready

section
variable {q : SeqId} {s t : State} {prog : List MicroOp} {k : Nat}

/-- `WR`, with the state after the write named. -/
theorem Running.wr {r : Reg} {e : LExpr Word} {v : Word} (h : Running q s prog) (hs : Silent q s)
    (hm : prog[k]? = some (.wr r e)) (he : e (seqOf s q).x = some v) (ht : settle (writeReg r v s) = t) :
    Leads q 1 (atPc q s k) (atPc q t (k + 1)) := by
  have := (h.seqAt k).wr (v := v) (hs.atPc k) hm (by simpa using he)
  rw [writeReg_atPc, settle_atPc, ht, advance_atPc] at this
  exact this.leads

/-- `RMW` -/
theorem Running.rmw {r : Reg} {em ev : LExpr Word} {m v : Word} (h : Running q s prog) (hs : Silent q s)
    (hm : prog[k]? = some (.rmw r em ev)) (hem : em (seqOf s q).x = some m) (hev : ev (seqOf s q).x = some v)
    (ht : settle (writeReg r (blend m (readReg r s).1 v) (readReg r s).2) = t) :
    Leads q 1 (atPc q s k) (atPc q t (k + 1)) := by
  have := (h.seqAt k).rmw (m := m) (v := v) (hs.atPc k) hm (by simpa using hem) (by simpa using hev)
  rw [readReg_fst_atPc, readReg_snd_atPc, writeReg_atPc, settle_atPc, ht, advance_atPc] at this
  exact this.leads

/-- `RD` -/
theorem Running.rd {r : Reg} {i : Nat} (h : Running q s prog) (hs : Silent q s) (hm : prog[k]? = some (.rd i r))
    (ht : (readReg r s).2 = t) :
    Leads q 1 (atPc q s k)
      (atPc q (setSeq t q { seqOf s q with x := setLatch (seqOf s q).x i (readReg r s).1 }) (k + 1)) := by
  have := (h.seqAt k).rd (hs.atPc k) hm
  rw [readReg_fst_atPc, readReg_snd_atPc, ht] at this
  have e : seqOf t q = seqOf s q := by rw [← ht]; simp
  simp only [setLatchAdvance, e, atPc, setSeq_setSeq, seqOf_setSeq_self] at this ⊢
  exact this.leads

/-- `ISR_SET_INIT` -/
theorem Running.isrSetInit {b : Bool} (h : Running q s prog) (hs : Silent q s)
    (hm : prog[k]? = some (.isrSetInit b)) (ht : settle (writeIsr (isrSetInitWord b) s) = t) :
    Leads q 1 (atPc q s k) (atPc q t (k + 1)) := by
  have := (h.seqAt k).isrSetInit (hs.atPc k) hm
  rw [show writeIsr (isrSetInitWord b) (atPc q s k) = atPc q (writeIsr (isrSetInitWord b) s) k from
    writeReg_atPc .isr _ q s k, settle_atPc, ht, advance_atPc] at this
  exact this.leads

/-- `ISR_CLR` -/
theorem Running.isrClr {em : LExpr Word} {m : Word} (h : Running q s prog) (hs : Silent q s)
    (hm : prog[k]? = some (.isrClr em)) (hem : em (seqOf s q).x = some m)
    (ht : settle (writeIsr (isrClearWord m s.rtcIsr) s) = t) :
    Leads q 1 (atPc q s k) (atPc q t (k + 1)) := by
  have := (h.seqAt k).isrClr (m := m) (hs.atPc k) hm (by simpa using hem)
  rw [show (atPc q s k).rtcIsr = s.rtcIsr by simp [atPc],
    show writeIsr (isrClearWord m s.rtcIsr) (atPc q s k) = atPc q (writeIsr (isrClearWord m s.rtcIsr) s) k from
    writeReg_atPc .isr _ q s k, settle_atPc, ht, advance_atPc] at this
  exact this.leads

/-- `POLL`, its condition met -/
theorem Running.poll {r : Reg} {a b : Word} (h : Running q s prog) (hs : Silent q s)
    (hm : prog[k]? = some (.poll r a b)) (hr : r ≠ .tr) (hd : r ≠ .dr) (hv : (readReg r s).1 &&& a = b) :
    Leads q 1 (atPc q s k) (atPc q s (k + 1)) := by
  have := (h.seqAt k).poll (hs.atPc k) hm hr hd (by rw [readReg_fst_atPc]; exact hv)
  rw [advance_atPc] at this
  exact this.leads

/-- `SKIPIF` that skips -/
theorem Running.skips {r : Reg} {a b : Word} {n : Nat} (h : Running q s prog) (hs : Silent q s)
    (hm : prog[k]? = some (.skipIf r a b n)) (hr : r ≠ .tr) (hd : r ≠ .dr) (hv : (readReg r s).1 &&& a = b) :
    Leads q 1 (atPc q s k) (atPc q s (k + (1 + n))) := by
  have := (h.seqAt k).skipIf (hs.atPc k) hm hr hd
  rw [readReg_fst_atPc, if_pos hv, advance_atPc] at this
  exact this.leads

/-- `SKIPIF` that does not skip -/
theorem Running.skipsNot {r : Reg} {a b : Word} {n : Nat} (h : Running q s prog) (hs : Silent q s)
    (hm : prog[k]? = some (.skipIf r a b n)) (hr : r ≠ .tr) (hd : r ≠ .dr) (hv : ¬(readReg r s).1 &&& a = b) :
    Leads q 1 (atPc q s k) (atPc q s (k + 1)) := by
  have := (h.seqAt k).skipIf (hs.atPc k) hm hr hd
  rw [readReg_fst_atPc, if_neg hv, advance_atPc] at this
  exact this.leads

/-- `CHECK` that holds -/
theorem Running.check {c : LExpr Bool} (h : Running q s prog) (hs : Silent q s)
    (hm : prog[k]? = some (.check c)) (he : c (seqOf s q).x = some true) :
    Leads q 1 (atPc q s k) (atPc q s (k + 1)) := by
  have := (h.seqAt k).check (hs.atPc k) hm (by simpa using he)
  rw [advance_atPc] at this
  exact this.leads

/-- `CHECK` that fails -/
theorem Running.checkFails {c : LExpr Bool} (h : Running q s prog) (hs : Silent q s)
    (hm : prog[k]? = some (.check c)) (he : c (seqOf s q).x = some false) :
    Leads q 1 (atPc q s k) (complete q 0x01#8 (atPc q s k)) :=
  ((h.seqAt k).checkFails (hs.atPc k) hm (by simpa using he)).leads

/-- `CALC` -/
theorem Running.calc {i : Nat} {e : LExpr Word} {v : Word} (h : Running q s prog) (hs : Silent q s)
    (hm : prog[k]? = some (.calc i e)) (he : e (seqOf s q).x = some v) :
    Leads q 1 (atPc q s k) (atPc q (setSeq s q { seqOf s q with x := setLatch (seqOf s q).x i v }) (k + 1)) := by
  have := (h.seqAt k).calc (v := v) (hs.atPc k) hm (by simpa using he)
  simp only [setLatchAdvance, atPc, setSeq_setSeq, seqOf_setSeq_self] at this ⊢
  exact this.leads

/-- `RES` -/
theorem Running.resOp {e : LExpr (BitVec 64)} {v : BitVec 64} (h : Running q s prog) (hs : Silent q s)
    (hm : prog[k]? = some (.res e)) (he : e (seqOf s q).x = some v) :
    Leads q 1 (atPc q s k) (atPc q (setSeq s q { seqOf s q with res := v }) (k + 1)) := by
  have := (h.seqAt k).resOp (v := v) (hs.atPc k) hm (by simpa using he)
  simp only [atPc, setSeq_setSeq, seqOf_setSeq_self] at this ⊢
  exact this.leads

/-- `FAULTIF` that does not fault -/
theorem Running.faultIfNot {c : LExpr Bool} {code : FaultCode} (h : Running q s prog) (hs : Silent q s)
    (hm : prog[k]? = some (.faultIf c code)) (he : c (seqOf s q).x = some false) :
    Leads q 1 (atPc q s k) (atPc q s (k + 1)) := by
  have := (h.seqAt k).faultIfNot (hs.atPc k) hm (by simpa using he)
  rw [advance_atPc] at this
  exact this.leads

/-- `FAULTIF` that faults -/
theorem Running.faultIf {c : LExpr Bool} {code : FaultCode} (h : Running q s prog) (hs : Silent q s)
    (hm : prog[k]? = some (.faultIf c code)) (he : c (seqOf s q).x = some true) :
    Leads q 1 (atPc q s k) (raiseFault q code (atPc q s k)) :=
  ((h.seqAt k).faultIf (hs.atPc k) hm (by simpa using he)).leads

/-- `CONSTRUCT` -/
theorem Running.construct {c : ClkSrc} (h : Running q s prog) (hs : Silent q s) (hm : prog[k]? = some (.construct c)) :
    Leads q 1 (atPc q s k) (atPc q { s with constructed := true, clkSrc := some c } (k + 1)) := by
  have := (h.seqAt k).construct (hs.atPc k) hm
  have e : advance q 1 { atPc q s k with constructed := true, clkSrc := some c } =
      atPc q { s with constructed := true, clkSrc := some c } (k + 1) := by cases q <;> rfl
  rw [e] at this
  exact this.leads

/-- `END` -/
theorem Running.done (h : Running q s prog) (hs : Silent q s) (hm : prog[k]? = some .done) :
    Leads q 1 (atPc q s k) (complete q 0x00#8 (atPc q s k)) :=
  ((h.seqAt k).done (hs.atPc k) hm).leads

/-- A draw at the head of the schedule, enabled now. -/
theorem Running.draw {d : Draw} {rest : List Move} (h : Running q s prog) (hm : s.moves = .env d :: rest)
    (he : drawEnabled d s = true) (ht : envStep d { s with moves := rest } = t) :
    Leads q 1 (atPc q s k) (atPc q t k) := by
  refine Reaches.leads (reaches_move (by simpa using h.busy) (by simpa [atPc, faulted] using h.noFault) (m := .env d)
    (rest := rest) ?_ ?_)
  · have e : drawEnabled d (atPc q s k) = true :=
      (drawEnabled_congr d (by simp [atPc]) (by simp [atPc]) (by simp [atPc])).trans he
    simp [readyMove, show (atPc q s k).moves = .env d :: rest by simpa [atPc] using hm, moveEnabled, e]
  · rw [takeMove, ← ht, ← envStep_atPc]
    cases q <;> rfl

end

/-! ### UNLOCK and LOCK -/

/-- A key write in a calm state. -/
theorem settle_writeWpr {s : State} (h : Calm s) (v : Word) :
    settle (writeReg .wpr v s) = { s with wp := keyStep s.wp (v.setWidth 8) } :=
  Calm.settle (h.congr rfl rfl rfl rfl)

theorem Running.unlock {s : State} {prog : List MicroOp} {k : Nat} (h : Running .owner s prog) (hc : Calm s)
    (hs : Silent .owner s) (h0 : prog[k]? = some (.wr .wpr (lconst 0x000000CA#32)))
    (h1 : prog[k + 1]? = some (.wr .wpr (lconst 0x00000053#32))) :
    Leads .owner 2 (atPc .owner s k) (atPc .owner { s with wp := .unlocked } (k + 2)) := by
  refine (h.wr (v := 0xCA#32) hs h0 rfl (settle_writeWpr hc _)).then (n := 1) ?_
  refine Running.wr (v := 0x53#32) (h.congr rfl rfl rfl rfl fun _ => rfl) (hs.congr rfl rfl rfl rfl fun e => e) h1 rfl ?_
  have e : writeReg .wpr 0x53#32 { s with wp := keyStep s.wp (BitVec.setWidth 8 0xCA#32) } = { s with wp := .unlocked } :=
    congrArg (fun w => { s with wp := w }) (keyStep_unlock s.wp)
  rw [e]
  exact Calm.settle (hc.congr rfl rfl rfl rfl)

theorem Running.lock {s : State} {prog : List MicroOp} {k : Nat} (h : Running .owner s prog) (hc : Calm s)
    (hs : Silent .owner s) (h0 : prog[k]? = some (.wr .wpr (lconst 0x000000FF#32))) :
    Leads .owner 1 (atPc .owner s k) (atPc .owner { s with wp := .locked } (k + 1)) := by
  refine h.wr (v := 0xFF#32) hs h0 rfl ?_
  rw [settle_writeWpr hc]
  simp only [show keyStep s.wp (BitVec.setWidth 8 0xFF#32) = .locked from keyStep_lock s.wp]

end Sys2Proof.Machine
end

