-- ==== Sys2Proof/Laws/InitMode.lean ====
section
/-! SUPPORT. An init transaction's two brackets (R95, R96) as runs, and from a run to the answer of a command. -/

namespace Sys2Proof.Machine

/-! ### Bits other than the one written -/

theorem getLsbD_or_bit_ne {x : Word} {n i : Nat} (hn : n < 32) (h : i ≠ n) : (x ||| bit n).getLsbD i = x.getLsbD i := by
  simp [BitVec.getLsbD_or, bit_getLsbD n i hn, h]

theorem getLsbD_andNot_bit_ne {x : Word} {n i : Nat} (hn : n < 32) (hi : i < 32) (h : i ≠ n) :
    (x &&& ~~~bit n).getLsbD i = x.getLsbD i := by
  simp only [BitVec.getLsbD_and, BitVec.getLsbD_not, bit_getLsbD n i hn]
  simp [h, hi]

/-- Bits of RTC_ISR that are no event flag move no level. -/
theorem Calm.isr {s t : State} (h : Calm s) (hp : t.par = s.par) (hr : t.rccCsr = s.rccCsr) (hl : t.lvl = s.lvl)
    (hc : t.rtcCr = s.rtcCr) (hi : ∀ n, 8 ≤ n → n ≤ 11 → t.rtcIsr.getLsbD n = s.rtcIsr.getLsbD n) : Calm t :=
  h.congr hp hr hl (levelsOf_congr hc hi)

/-! ### The words RTC_ISR holds in init mode -/

/-- RTC_ISR in a served init mode: INIT = INITF = 1, and RSF = 0 if the mode was entered by this command. -/
def isrInInit (s : State) : Word := (s.rtcIsr ||| (bit 7 ||| bit 6)) &&& ~~~(if initf s then 0#32 else bit 5)

theorem isrInInit_of_active {s : State} (hf : initf s = true) (hb : initBit s = true) : isrInInit s = s.rtcIsr := by
  simp only [isrInInit, hf, if_true]
  simp only [initf, initBit] at hf hb
  apply BitVec.eq_of_getLsbD_eq
  intro i hi
  simp only [bit]
  interval_cases i <;> simp_all

theorem isrInInit_of_requested {s : State} (hf : initf s = false) (hb : initBit s = true) :
    isrInInit s = (s.rtcIsr ||| bit 6) &&& ~~~bit 5 := by
  simp only [isrInInit, hf, Bool.false_eq_true, if_false]
  simp only [initBit] at hb
  apply BitVec.eq_of_getLsbD_eq
  intro i hi
  simp only [bit]
  interval_cases i <;> simp_all

theorem isrInInit_of_idle {s : State} (hf : initf s = false) :
    isrInInit s = ((s.rtcIsr ||| bit 7) ||| bit 6) &&& ~~~bit 5 := by
  simp only [isrInInit, hf, Bool.false_eq_true, if_false, BitVec.or_assoc]

theorem isrInInit_close (s : State) : (isrInInit s &&& ~~~bit 7) &&& ~~~bit 6 = isrAfterInit s := by
  simp only [isrInInit, isrAfterInit]
  apply BitVec.eq_of_getLsbD_eq
  intro i hi
  simp only [bit]
  split <;> interval_cases i <;> simp

theorem isrInInit_flags (s : State) {n : Nat} (h : 8 ≤ n) (h' : n ≤ 11) :
    (isrInInit s).getLsbD n = s.rtcIsr.getLsbD n := by
  simp only [isrInInit, bit]
  split <;> interval_cases n <;> simp

theorem isrInInit_initf (s : State) : (isrInInit s).getLsbD 6 = true := by
  simp only [isrInInit, bit]; split <;> simp

theorem isrInInit_init (s : State) : (isrInInit s).getLsbD 7 = true := by
  simp only [isrInInit, bit]; split <;> simp

/-! ### Entering and leaving init mode -/

/-- The state inside an init transaction's brackets. -/
def inInit (s : State) (rest : List Move) : State :=
  { s with wp := .unlocked, rtcIsr := isrInInit s, moves := .env .initfClear :: rest }

/-- `INITF <- 1; RSF <- 0` in a calm state (R174). -/
theorem envStep_initfSet {s : State} (h : Calm s) :
    envStep .initfSet s = { s with rtcIsr := (s.rtcIsr ||| bit 6) &&& ~~~bit 5 } :=
  Calm.settle (h.isr (t := { s with rtcIsr := (s.rtcIsr ||| bit 6) &&& ~~~bit 5 }) rfl rfl rfl rfl fun n h1 h2 => by
    rw [getLsbD_andNot_bit_ne (by omega) (by omega) (by omega), getLsbD_or_bit_ne (by omega) (by omega)])

/-- `INITF <- 0` in a calm state (R174). -/
theorem envStep_initfClear {s : State} (h : Calm s) :
    envStep .initfClear s = { s with rtcIsr := s.rtcIsr &&& ~~~bit 6 } :=
  Calm.settle (h.isr (t := { s with rtcIsr := s.rtcIsr &&& ~~~bit 6 }) rfl rfl rfl rfl fun n h1 h2 => by
    rw [getLsbD_andNot_bit_ne (by omega) (by omega) (by omega)])

/-- UNLOCK and INIT_ENTER with init mode already active (R95: "ISR is left untouched"). -/
theorem Running.initOpen_active {s : State} {prog : List MicroOp} {k : Nat} (h : Running .owner s prog) (hc : Calm s)
    (hs : Silent .owner s) (hf : initf s = true)
    (h0 : prog[k]? = some (.wr .wpr (lconst 0x000000CA#32))) (h1 : prog[k + 1]? = some (.wr .wpr (lconst 0x00000053#32)))
    (h2 : prog[k + 2]? = some (.skipIf .isr (bit 6) (bit 6) 2)) :
    Leads .owner 3 (atPc .owner s k) (atPc .owner { s with wp := .unlocked } (k + 5)) :=
  (h.unlock hc hs h0 h1).then (n := 1)
    (Running.skips (s := { s with wp := .unlocked }) (h.congr rfl rfl rfl rfl fun _ => rfl) (hs.congr rfl rfl rfl rfl fun e => e) h2 (by decide) (by decide)
      ((and_bit_eq_bit (by decide)).mpr hf))

/-- UNLOCK and INIT_ENTER with init mode not active and INIT = 0. -/
theorem Running.initOpen_idle {s : State} {prog : List MicroOp} {k : Nat} {rest : List Move} (h : Running .owner s prog)
    (hc : Calm s) (hm : s.moves = .env .initfSet :: .env .initfClear :: rest) (hf : initf s = false) (hb : initBit s = false)
    (h0 : prog[k]? = some (.wr .wpr (lconst 0x000000CA#32))) (h1 : prog[k + 1]? = some (.wr .wpr (lconst 0x00000053#32)))
    (h2 : prog[k + 2]? = some (.skipIf .isr (bit 6) (bit 6) 2)) (h3 : prog[k + 3]? = some (.isrSetInit true))
    (h4 : prog[k + 4]? = some (.poll .isr (bit 6) (bit 6))) :
    Leads .owner 6 (atPc .owner s k) (atPc .owner (inInit s rest) (k + 5)) := by
  have hs : Silent .owner s := .draw _ _ hm (by simp [drawEnabled, hb])
  have r1 := h.unlock hc hs h0 h1
  have r2 := Running.skipsNot (s := { s with wp := .unlocked }) (h.congr rfl rfl rfl rfl fun _ => rfl)
    (hs.congr rfl rfl rfl rfl fun e => e) h2 (by decide) (by decide)
    (fun e => by rw [and_bit_eq_bit (by decide)] at e; exact absurd (hf.symm.trans e) (by decide))
  have c1 : Calm { s with wp := .unlocked, rtcIsr := s.rtcIsr ||| bit 7 } :=
    hc.isr rfl rfl rfl rfl fun n _ _ => getLsbD_or_bit_ne (by omega) (by omega)
  have c1m : Calm { s with wp := .unlocked, rtcIsr := s.rtcIsr ||| bit 7, moves := .env .initfClear :: rest } :=
    c1.congr rfl rfl rfl rfl
  have r3 := Running.isrSetInit (s := { s with wp := .unlocked }) (t := { s with wp := .unlocked, rtcIsr := s.rtcIsr ||| bit 7 })
    (h.congr rfl rfl rfl rfl fun _ => rfl) (hs.congr rfl rfl rfl rfl fun e => e) h3
    (by rw [writeIsr_setInit_true rfl]; exact Calm.settle c1)
  have r4 := Running.draw (k := k + 2 + 1 + 1) (s := { s with wp := .unlocked, rtcIsr := s.rtcIsr ||| bit 7 })
    (t := inInit s rest) (h.congr rfl rfl rfl rfl fun _ => rfl) hm
    (by
      have h6 : (s.rtcIsr ||| bit 7).getLsbD 6 = false := (getLsbD_or_bit_ne (by omega) (by omega)).trans hf
      have h7 : (s.rtcIsr ||| bit 7).getLsbD 7 = true := by
        rw [BitVec.getLsbD_or, bit_getLsbD 7 7 (by omega)]; simp
      simp only [drawEnabled, initBit, initf, h6, h7]; rfl)
    (by rw [inInit, isrInInit_of_idle hf]; exact envStep_initfSet c1m)
  have r5 := Running.poll (k := k + 4) (s := inInit s rest) (h.congr rfl rfl rfl rfl fun _ => rfl)
    (.draw _ _ rfl (by simp only [drawEnabled, initBit, inInit, isrInInit_init]; rfl)) h4 (by decide) (by decide)
    ((and_bit_eq_bit (by decide)).mpr (isrInInit_initf s))
  exact ((((r1.then r2).then r3).then r4).then r5).mono (by omega)

/-- The brackets UNLOCK and INIT_ENTER under a schedule that serves them. -/
theorem Running.initOpen {s : State} {prog : List MicroOp} {k : Nat} {rest : List Move} (h : Running .owner s prog) (hc : Calm s)
    (hm : InitServed s rest)
    (h0 : prog[k]? = some (.wr .wpr (lconst 0x000000CA#32))) (h1 : prog[k + 1]? = some (.wr .wpr (lconst 0x00000053#32)))
    (h2 : prog[k + 2]? = some (.skipIf .isr (bit 6) (bit 6) 2)) (h3 : prog[k + 3]? = some (.isrSetInit true))
    (h4 : prog[k + 4]? = some (.poll .isr (bit 6) (bit 6))) :
    Leads .owner 6 (atPc .owner s k) (atPc .owner (inInit s rest) (k + 5)) := by
  have hmoves := hm.moves
  cases hf : initf s with
  | true =>
    have hb := hm.holdsInit hf
    simp only [initDraws, hf, if_true, List.nil_append, List.cons_append] at hmoves
    have r := h.initOpen_active hc (.draw _ _ hmoves (by simp [drawEnabled, hb])) hf h0 h1 h2
    have e : ({ s with wp := .unlocked } : State) = inInit s rest := by
      simp only [inInit, isrInInit_of_active hf hb, ← hmoves]
    rw [e] at r
    exact r.mono (by omega)
  | false =>
    simp only [initDraws, hf, Bool.false_eq_true, if_false, List.cons_append, List.nil_append] at hmoves
    cases hb : initBit s with
    | false => exact h.initOpen_idle hc hmoves hf hb h0 h1 h2 h3 h4
    | true =>
      have c1 : Calm { s with rtcIsr := (s.rtcIsr ||| bit 6) &&& ~~~bit 5, moves := .env .initfClear :: rest } :=
        hc.isr rfl rfl rfl rfl fun n _ _ => by
          rw [getLsbD_andNot_bit_ne (by omega) (by omega) (by omega), getLsbD_or_bit_ne (by omega) (by omega)]
      have hcm : Calm { s with moves := .env .initfClear :: rest } := hc.congr rfl rfl rfl rfl
      have r0 := Running.draw (k := k)
        (t := { s with rtcIsr := (s.rtcIsr ||| bit 6) &&& ~~~bit 5, moves := .env .initfClear :: rest }) h hmoves
        (by simp [drawEnabled, hb, hf]) (envStep_initfSet hcm)
      have hb' : ((s.rtcIsr ||| bit 6) &&& ~~~bit 5).getLsbD 7 = true := by
        rw [getLsbD_andNot_bit_ne (by omega) (by omega) (by omega), getLsbD_or_bit_ne (by omega) (by omega)]; exact hb
      have hf' : ((s.rtcIsr ||| bit 6) &&& ~~~bit 5).getLsbD 6 = true := by
        rw [getLsbD_andNot_bit_ne (by omega) (by omega) (by omega), BitVec.getLsbD_or, bit_getLsbD 6 6 (by omega)]; simp
      have r1 := Running.initOpen_active (k := k)
        (s := { s with rtcIsr := (s.rtcIsr ||| bit 6) &&& ~~~bit 5, moves := .env .initfClear :: rest })
        (h.congr rfl rfl rfl rfl fun _ => rfl) c1
        (.draw _ _ rfl (by simp only [drawEnabled, initBit, hb']; rfl)) hf' h0 h1 h2
      have e : ({ s with wp := .unlocked, rtcIsr := (s.rtcIsr ||| bit 6) &&& ~~~bit 5, moves := .env .initfClear :: rest } : State)
          = inInit s rest := by
        simp only [inInit, isrInInit_of_requested hf hb]
      exact (r0.then (e ▸ r1)).mono (by omega)

/-- The brackets INIT_EXIT and LOCK, then END, under a schedule that serves them. -/
theorem Running.initClose {s : State} {prog : List MicroOp} {k : Nat} {rest : List Move} (h : Running .owner s prog) (hc : Calm s)
    (hm : s.moves = .env .initfClear :: rest) (hq : Waits .owner rest) (hu : s.wp = .unlocked)
    (hf : initf s = true) (hb : initBit s = true)
    (h0 : prog[k]? = some (.isrSetInit false)) (h1 : prog[k + 1]? = some (.poll .isr (bit 6) 0#32))
    (h2 : prog[k + 2]? = some (.wr .wpr (lconst 0x000000FF#32))) :
    Leads .owner 4 (atPc .owner s k)
      (atPc .owner { s with wp := .locked, rtcIsr := (s.rtcIsr &&& ~~~bit 7) &&& ~~~bit 6, moves := rest } (k + 3)) := by
  have hs : Silent .owner s := .draw _ _ hm (by simp [drawEnabled, hb])
  have c1 : Calm { s with rtcIsr := s.rtcIsr &&& ~~~bit 7 } :=
    hc.isr rfl rfl rfl rfl fun n _ _ => getLsbD_andNot_bit_ne (by omega) (by omega) (by omega)
  have r1 := Running.isrSetInit (k := k) (t := { s with rtcIsr := s.rtcIsr &&& ~~~bit 7 }) h hs h0
    (by rw [writeIsr_setInit_false hu]; exact Calm.settle c1)
  have h6 : (s.rtcIsr &&& ~~~bit 7).getLsbD 6 = true := (getLsbD_andNot_bit_ne (by omega) (by omega) (by omega)).trans hf
  have h7 : (s.rtcIsr &&& ~~~bit 7).getLsbD 7 = false := by
    rw [BitVec.getLsbD_and, BitVec.getLsbD_not, bit_getLsbD 7 7 (by omega)]; simp
  have c1m : Calm { s with rtcIsr := s.rtcIsr &&& ~~~bit 7, moves := rest } := c1.congr rfl rfl rfl rfl
  have r2 := Running.draw (k := k + 1) (s := { s with rtcIsr := s.rtcIsr &&& ~~~bit 7 })
    (t := { s with rtcIsr := (s.rtcIsr &&& ~~~bit 7) &&& ~~~bit 6, moves := rest })
    (h.congr rfl rfl rfl rfl fun _ => rfl) hm (by simp only [drawEnabled, initBit, initf, h6, h7]; rfl)
    (envStep_initfClear c1m)
  have c2 : Calm { s with rtcIsr := (s.rtcIsr &&& ~~~bit 7) &&& ~~~bit 6, moves := rest } :=
    c1.isr rfl rfl rfl rfl fun n _ _ => getLsbD_andNot_bit_ne (by omega) (by omega) (by omega)
  have hw : Silent .owner { s with rtcIsr := (s.rtcIsr &&& ~~~bit 7) &&& ~~~bit 6, moves := rest } :=
    .of_waits hq h.busy
  have r3 := Running.poll (k := k + 1) (s := { s with rtcIsr := (s.rtcIsr &&& ~~~bit 7) &&& ~~~bit 6, moves := rest })
    (h.congr rfl rfl rfl rfl fun _ => rfl) hw h1 (by decide) (by decide)
    ((and_bit_eq_zero (by decide)).mpr (by
      show ((s.rtcIsr &&& ~~~bit 7) &&& ~~~bit 6).getLsbD 6 = false
      rw [BitVec.getLsbD_and, BitVec.getLsbD_not, bit_getLsbD 6 6 (by omega)]; simp))
  have r4 := Running.lock (k := k + 2) (s := { s with rtcIsr := (s.rtcIsr &&& ~~~bit 7) &&& ~~~bit 6, moves := rest })
    (h.congr rfl rfl rfl rfl fun _ => rfl) c2 hw h2
  exact ((r1.then r2).then r3).then r4

/-! ### From a run to the answer of a command -/

theorem drain_leads {q : SeqId} {n : Nat} {s t : State} (h : Leads q n s t) (m : Nat) (hn : n ≤ m)
    (hend : ∀ m, drain q m t = .next t) : drain q m s = .next t := by
  obtain ⟨k, hk, r⟩ := h
  obtain ⟨j, rfl⟩ : ∃ j, m = j + k := ⟨m - k, by omega⟩
  rw [r j, hend]

/-- A command that is accepted and whose run ends answers the state it ends in. -/
theorem issue_of_leads {i : Instr} {s t : State} {n : Nat} (hv : verdict s.port.seq (some i) s = .accept)
    (h : Leads s.port.seq n (loadCommand s.port.seq i (encode i) s) t) (hn : n ≤ 192)
    (hend : ∀ m, drain s.port.seq m t = .next t) : issue i s = .next t := by
  rw [issue, hv]
  exact drain_leads h _ (by unfold drainFuel; omega) hend

end Sys2Proof.Machine
end

