-- ==== Sys2Proof/Laws/Commands.lean ====
section
/-! SUPPORT. Whole commands: acceptance of a ready sequencer's command, an init transaction around any body, and the end of a
run. -/

namespace Sys2Proof.Machine

/-! ### Acceptance -/

/-- A ready OWNER's command is accepted when its construction need is met (R74). -/
theorem verdict_owner {s : State} {i : Instr} (hw : i.wellFormed = true) (hf : s.faultCode = 0#8)
    (hr : s.refusedReason = 0#8) (hb : s.owner.busy = false) (hn : constructionVerdict (needOf i) s = .accept) :
    verdict .owner (some i) s = .accept := by
  simp [verdict, faulted, refusedMark, hf, hr, hb, hw, contextAllows, hn]

/-- A command that either context may issue and that needs no construction is accepted by any idle sequencer. -/
theorem verdict_any {q : SeqId} {s : State} {i : Instr} (hw : i.wellFormed = true) (hf : s.faultCode = 0#8)
    (hr : s.refusedReason = 0#8) (hb : (seqOf s q).busy = false) (hc : contextAllows q i = true) (hn : needOf i = .any) :
    verdict q (some i) s = .accept := by
  simp [verdict, faulted, refusedMark, hf, hr, hb, hw, hc, hn, constructionVerdict]

/-- The state a command starts in. -/
def loadedSeq (c : Seq) (i : Instr) : Seq :=
  { c with busy := true, op := opcode i, word := encode i, pc := 0, x := loadedLatches i }

theorem loadCommand_eq (q : SeqId) (i : Instr) (s : State) :
    loadCommand q i (encode i) s = atPc q (setSeq s q (loadedSeq (seqOf s q) i)) 0 := by
  cases q <;> rfl

theorem running_loaded {q : SeqId} {s : State} {i : Instr} {prog : List MicroOp} (hp : paramsOk s.par = true)
    (hf : s.faultCode = 0#8) (hi : s.irq.busy = false) (hg : progOf s.par (opcode i) = some prog) :
    Running q (setSeq s q (loadedSeq (seqOf s q) i)) prog where
  params := by simpa using hp
  noFault := by simpa using hf
  busy := by simp [loadedSeq]
  irqIdle := fun e => by subst e; simpa using hi
  program := by simpa [loadedSeq] using hg

theorem Calm.setSeq {s : State} (h : Calm s) (q : SeqId) (c : Seq) : Calm (Machine.setSeq s q c) :=
  h.congr (by simp) (by simp) (by cases q <;> rfl) (by cases q <;> rfl)

theorem RegsOk.calm {s : State} (h : RegsOk s) (hl : domainHeld s = false) : Calm s := ⟨hl, h.levels⟩

theorem Silent.loaded {q : SeqId} {s : State} (h : Waits q s.moves) (c : Seq) (hb : c.busy = true) :
    Silent q (setSeq s q c) := .of_waits (by simpa using h) (by simpa using hb)

theorem InitServed.setOwner {s : State} {rest : List Move} (h : InitServed s rest) (c : Seq) :
    InitServed { s with owner := c } rest := ⟨h.moves, h.quiet, h.holdsInit⟩

/-- Where INIT is requested and INITF still 0, the schedule's first draw is taken at once; after that, and in every other case,
the schedule is silent until the transaction clears INIT. -/
theorem InitServed.start {s : State} {prog : List MicroOp} {rest : List Move} (h : Running .owner s prog) (hc : Calm s)
    (hm : InitServed s rest) (k : Nat) :
    ∃ s', Leads .owner 1 (atPc .owner s k) (atPc .owner s' k) ∧ Silent .owner s' ∧ InitServed s' rest ∧ Calm s' ∧
      s' = { s with rtcIsr := s'.rtcIsr, moves := s'.moves } ∧ inInit s' rest = inInit s rest ∧
      isrAfterInit s' = isrAfterInit s := by
  have hmv := hm.moves
  cases hf : initf s with
  | true =>
    simp only [initDraws, hf, if_true, List.nil_append, List.cons_append] at hmv
    exact ⟨s, (Leads.refl _ _).mono (by omega), .draw _ _ hmv (by simp [drawEnabled, hm.holdsInit hf]), hm, hc, rfl, rfl, rfl⟩
  | false =>
    simp only [initDraws, hf, Bool.false_eq_true, if_false, List.cons_append, List.nil_append] at hmv
    cases hb : initBit s with
    | false => exact ⟨s, (Leads.refl _ _).mono (by omega), .draw _ _ hmv (by simp [drawEnabled, hb]), hm, hc, rfl, rfl, rfl⟩
    | true =>
      have hcm : Calm { s with moves := .env .initfClear :: rest } := hc.congr rfl rfl rfl rfl
      have h6 : ((s.rtcIsr ||| bit 6) &&& ~~~bit 5).getLsbD 6 = true := by
        rw [getLsbD_andNot_bit_ne (by omega) (by omega) (by omega), BitVec.getLsbD_or, bit_getLsbD 6 6 (by omega)]; simp
      have h7 : ((s.rtcIsr ||| bit 6) &&& ~~~bit 5).getLsbD 7 = true := by
        rw [getLsbD_andNot_bit_ne (by omega) (by omega) (by omega), getLsbD_or_bit_ne (by omega) (by omega)]; exact hb
      let s' : State := { s with rtcIsr := (s.rtcIsr ||| bit 6) &&& ~~~bit 5, moves := .env .initfClear :: rest }
      have hf' : initf s' = true := h6
      have hb' : initBit s' = true := h7
      have e1 : isrInInit s' = isrInInit s := by
        rw [isrInInit_of_active hf' hb', isrInInit_of_requested hf hb]
      refine ⟨s', Running.draw h hmv (by simp [drawEnabled, hb, hf]) (envStep_initfSet hcm), .draw _ _ rfl (by simp [drawEnabled, hb']),
        ⟨by simp only [initDraws, hf', if_true]; rfl, hm.quiet, fun _ => hb'⟩, ?_, rfl, ?_, ?_⟩
      · exact hc.isr rfl rfl rfl rfl fun n _ _ => by
          rw [getLsbD_andNot_bit_ne (by omega) (by omega) (by omega), getLsbD_or_bit_ne (by omega) (by omega)]
      · simp only [inInit, e1]; rfl
      · rw [← isrInInit_close s', ← isrInInit_close s, e1]

/-- A command that is checks and calculations, an init transaction around a body, and END, on a ready OWNER whose schedule
serves it. -/
theorem issue_initTxn {i : Instr} {s t : State} {prog : List MicroOp} {rest : List Move} {x : Latches} {k l : Nat}
    (hr : OwnerReady s) (hm : InitServed s rest) (hv : verdict .owner (some i) s = .accept)
    (hg : progOf s.par (opcode i) = some prog)
    (hpre : ∀ s', Running .owner s' prog → Silent .owner s' → s'.owner = loadedSeq s.owner i →
      Leads .owner 20 (atPc .owner s' 0) (atPc .owner { s' with owner := { s'.owner with x := x } } k))
    (h0 : prog[k]? = some (.wr .wpr (lconst 0x000000CA#32))) (h1 : prog[k + 1]? = some (.wr .wpr (lconst 0x00000053#32)))
    (h2 : prog[k + 2]? = some (.skipIf .isr (bit 6) (bit 6) 2)) (h3 : prog[k + 3]? = some (.isrSetInit true))
    (h4 : prog[k + 4]? = some (.poll .isr (bit 6) (bit 6)))
    (hbody : ∀ b, b = inInit { s with owner := { loadedSeq s.owner i with x := x } } rest → Running .owner b prog →
      Calm b → Silent .owner b → Leads .owner 20 (atPc .owner b (k + 5)) (atPc .owner t l) ∧ Calm t)
    (ht : t.par = s.par ∧ t.faultCode = s.faultCode ∧ t.irq = s.irq ∧ t.owner.busy = true ∧ t.owner.op = opcode i)
    (hu : t.wp = .unlocked) (hs : t.rtcIsr = isrInInit s) (hq : t.moves = .env .initfClear :: rest)
    (c0 : prog[l]? = some (.isrSetInit false)) (c1 : prog[l + 1]? = some (.poll .isr (bit 6) 0#32))
    (c2 : prog[l + 2]? = some (.wr .wpr (lconst 0x000000FF#32))) (c3 : prog[l + 3]? = some .done) :
    issue i s = .next { t with
      owner := { t.owner with pc := l + 4, status := 0x00#8, busy := false }
      wp := .locked, rtcIsr := isrAfterInit s, moves := rest } := by
  have hp : s.port.seq = .owner := hr.port
  have hl : Running .owner { s with owner := loadedSeq s.owner i } prog :=
    running_loaded hr.regs.params hr.noFault hr.irqIdle hg
  have hcalm : Calm s := hr.regs.calm hr.live
  obtain ⟨s', r0, q0, m0, calm0, e0, eb, ei⟩ := InitServed.start hl (hcalm.setSeq .owner _) (hm.setOwner _) 0
  have ho : s'.owner = loadedSeq s.owner i := by rw [e0]
  have hR : Running .owner s' prog := by rw [e0]; exact hl.congr rfl rfl rfl rfl fun _ => rfl
  have r1 := hpre s' hR q0 ho
  let s1 : State := { s' with owner := { s'.owner with x := x } }
  have hR1 : Running .owner s1 prog := hR.congr rfl rfl rfl rfl fun _ => rfl
  have r2 := Running.initOpen (k := k) hR1 (calm0.setSeq .owner _) (m0.setOwner _) h0 h1 h2 h3 h4
  have hbe : inInit s1 rest = inInit { s with owner := { loadedSeq s.owner i with x := x } } rest := by
    have e1 : isrInInit s' = isrInInit s := congrArg State.rtcIsr eb
    show ({ s1 with wp := .unlocked, rtcIsr := isrInInit s', moves := .env .initfClear :: rest } : State) = _
    rw [e1]
    simp only [s1, ho]
    rw [e0]
    rfl
  have hb7 : initBit (inInit s1 rest) = true := isrInInit_init s1
  obtain ⟨r3, hct⟩ := hbody _ hbe (hR1.congr rfl rfl rfl rfl fun _ => rfl)
    ((calm0.setSeq .owner _).isr (t := inInit s1 rest) rfl rfl rfl rfl fun n h h' => isrInInit_flags s1 h h')
    (.draw _ _ rfl (by simp [drawEnabled, hb7]))
  have hRt : Running .owner t prog :=
    hl.congr ht.1 ht.2.1 (by simpa [loadedSeq] using ht.2.2.2.1) (by simpa [loadedSeq] using ht.2.2.2.2) fun _ => ht.2.2.1
  have hft : initf t = true := by rw [initf, hs]; exact isrInInit_initf s
  have hbt : initBit t = true := by rw [initBit, hs]; exact isrInInit_init s
  have r4 := Running.initClose hRt hct hq hm.quiet hu hft hbt c0 c1 c2
  have r5 := Running.done (k := l + 3) (s := { t with wp := .locked, rtcIsr := (t.rtcIsr &&& ~~~bit 7) &&& ~~~bit 6, moves := rest })
    (hRt.congr rfl rfl rfl rfl fun _ => rfl) (.of_waits hm.quiet hRt.busy) c3
  have rr := (((r0.then r1).then (r2.then r3)).then r4).then r5
  have ef : (t.rtcIsr &&& ~~~bit 7) &&& ~~~bit 6 = isrAfterInit s := by rw [hs]; exact isrInInit_close s
  rw [ef] at rr
  refine issue_of_leads (by rw [hp]; exact hv) (n := 52) (by rw [hp, loadCommand_eq]; exact rr) (by omega) ?_
  rw [hp]
  exact drain_idle rfl

/-! ### Checks that fail (R100) -/

/-- A run of checks of which one fails ends in INVALID_INPUT, having touched nothing but its sequencer. -/
theorem Running.checksFail {q : SeqId} {s : State} {prog : List MicroOp} (h : Running q s prog) (hs : Silent q s) :
    ∀ (cs : List (LExpr Bool)) (k : Nat), (∀ j, j < cs.length → prog[k + j]? = cs[j]?.map .check) →
      (∀ c ∈ cs, ∃ b, c (seqOf s q).x = some b) → (∃ c ∈ cs, c (seqOf s q).x = some false) →
      ∃ j, Leads q cs.length (atPc q s k) (complete q 0x01#8 (atPc q s j))
  | [], _, _, _, hf => by obtain ⟨c, hc, _⟩ := hf; cases hc
  | c :: cs, k, hp, ha, hf => by
    obtain ⟨b, hb⟩ := ha c (List.mem_cons_self ..)
    have h0 := hp 0 (by simp)
    cases b with
    | false => exact ⟨k, (h.checkFails hs h0 hb).mono (by simp)⟩
    | true =>
      obtain ⟨j, r⟩ := Running.checksFail h hs cs (k + 1)
        (fun j hj => by
          have := hp (j + 1) (by simpa using hj)
          rwa [Nat.add_assoc, Nat.add_comm 1 j, List.getElem?_cons_succ] at *)
        (fun c hc => ha c (List.mem_cons_of_mem _ hc))
        (by
          obtain ⟨d, hd, e⟩ := hf
          rcases List.mem_cons.mp hd with rfl | hd
          · rw [hb] at e; cases e
          · exact ⟨d, hd, e⟩)
      exact ⟨j, ((h.check hs h0 hb).then r).mono (by simp; omega)⟩

/-- A command whose first micro-ops are checks, one of which its operands fail. -/
theorem issue_checksFail {q : SeqId} {i : Instr} {s : State} {prog : List MicroOp} (hp : s.port.seq = q)
    (hpar : paramsOk s.par = true) (hf : s.faultCode = 0#8) (hirq : s.irq.busy = false) (hw : Waits q s.moves)
    (hv : verdict q (some i) s = .accept) (hg : progOf s.par (opcode i) = some prog) (cs : List (LExpr Bool))
    (hn : cs.length ≤ 20) (hc : ∀ j, j < cs.length → prog[j]? = cs[j]?.map .check)
    (ha : ∀ c ∈ cs, ∃ b, c (loadedLatches i) = some b) (hbad : ∃ c ∈ cs, c (loadedLatches i) = some false) :
    ∃ c, Finished c i 0x01#8 (seqOf s q).res ∧ issue i s = .next (setSeq s q c) := by
  have hx : (seqOf (setSeq s q (loadedSeq (seqOf s q) i)) q).x = loadedLatches i := by simp [loadedSeq]
  obtain ⟨j, r⟩ := (running_loaded hpar hf hirq hg).checksFail (Silent.loaded hw _ rfl) cs 0
    (fun j hj => by simpa using hc j hj) (by rw [hx]; exact ha) (by rw [hx]; exact hbad)
  refine ⟨{ loadedSeq (seqOf s q) i with pc := j + 1, status := 0x01#8, busy := false }, ⟨rfl, rfl, rfl, rfl, rfl⟩, ?_⟩
  refine issue_of_leads (by rw [hp]; exact hv) (n := cs.length) (by rw [hp, loadCommand_eq]; simpa [complete, atPc] using r)
    (by omega) ?_
  rw [hp]
  exact drain_idle (by simp)

/-! ### A ready sequencer's command, run -/

/-- A ready sequencer's command whose run, the schedule silent, ends idle or in a fault. -/
theorem issue_of_run {q : SeqId} {i : Instr} {s t : State} {prog : List MicroOp} {n : Nat} (hr : ContextReady q s)
    (hw : Waits q s.moves) (hv : verdict q (some i) s = .accept) (hg : progOf s.par (opcode i) = some prog) (hn : n ≤ 192)
    (h : Running q (setSeq s q (loadedSeq (seqOf s q) i)) prog → Silent q (setSeq s q (loadedSeq (seqOf s q) i)) →
      Leads q n (atPc q (setSeq s q (loadedSeq (seqOf s q) i)) 0) t)
    (hend : (seqOf t q).busy = false ∨ faulted t = true) : issue i s = .next t := by
  have r := h (running_loaded hr.regs.params hr.noFault hr.irqIdle hg) (Silent.loaded hw _ rfl)
  refine issue_of_leads (by rw [hr.port]; exact hv) (n := n) (by rw [hr.port, loadCommand_eq]; exact r) hn ?_
  rw [hr.port]
  exact fun m => hend.elim (fun e => drain_idle e m) (fun e => drain_faulted e m)

/-- OWNER ready for a command is a ready context. -/
theorem OwnerReady.context {s : State} (h : OwnerReady s) : ContextReady .owner s :=
  ⟨h.regs, h.noFault, h.noRefusal, h.port, h.idle, h.irqIdle⟩

theorem ContextReady.accepts {q : SeqId} {s : State} {i : Instr} (h : ContextReady q s) (hw : i.wellFormed = true)
    (hc : contextAllows q i = true) (hn : needOf i = .any) : verdict q (some i) s = .accept :=
  verdict_any hw h.noFault h.noRefusal h.idle hc hn

end Sys2Proof.Machine
end

