-- ==== Sys2Proof/Laws/Calendar.lean ====
section
/-! SUPPORT. The calendar registers under an open init transaction, and commands whose transaction has one or two writes. -/

namespace Sys2Proof.Machine

/-! ### Words -/

@[simp] theorem zext8 (v : BitVec 8) : (v.setWidth 32).toNat = v.toNat := by
  rw [BitVec.toNat_setWidth]; exact Nat.mod_eq_of_lt (by have := v.isLt; omega)

@[simp] theorem zext16 (v : BitVec 16) : (v.setWidth 32).toNat = v.toNat := by
  rw [BitVec.toNat_setWidth]; exact Nat.mod_eq_of_lt (by have := v.isLt; omega)

/-- A word with no bit outside a mask is unchanged by it. -/
theorem and_mask_id {x m : Word} (h : x &&& ~~~m = 0#32) : x &&& m = x := by
  apply BitVec.eq_of_getLsbD_eq
  intro i hi
  have := congrArg (fun w => w.getLsbD i) h
  simp only [BitVec.getLsbD_and, BitVec.getLsbD_not, BitVec.getLsbD_zero, hi, decide_true, Bool.true_and] at this ⊢
  cases h1 : x.getLsbD i <;> cases h2 : m.getLsbD i <;> simp_all

/-- A masked word has no bit outside the mask. -/
theorem and_and_not (x m : Word) : (x &&& m) &&& ~~~m = 0#32 := by
  apply BitVec.eq_of_getLsbD_eq
  intro i hi
  simp only [BitVec.getLsbD_and, BitVec.getLsbD_not, BitVec.getLsbD_zero, hi, decide_true, Bool.true_and]
  cases x.getLsbD i <;> cases m.getLsbD i <;> rfl

/-- A blend of fields inside `M` into a word inside `M` stays inside `M`. -/
theorem blend_inside {M m x v : Word} (hx : x &&& ~~~M = 0#32) (hm : m &&& ~~~M = 0#32) : blend m x v &&& ~~~M = 0#32 := by
  apply BitVec.eq_of_getLsbD_eq
  intro i hi
  have h1 := congrArg (fun w => w.getLsbD i) hx
  have h2 := congrArg (fun w => w.getLsbD i) hm
  simp only [blend, BitVec.getLsbD_and, BitVec.getLsbD_or, BitVec.getLsbD_not, BitVec.getLsbD_zero, hi, decide_true,
    Bool.true_and] at h1 h2 ⊢
  cases h3 : x.getLsbD i <;> cases h4 : m.getLsbD i <;> cases h5 : M.getLsbD i <;> simp_all

theorem blend_mask {M m x v : Word} (hx : x &&& ~~~M = 0#32) (hm : m &&& ~~~M = 0#32) : blend m x v &&& M = blend m x v :=
  and_mask_id (blend_inside hx hm)

/-- A word inside the left part of a union of masks is inside the union. -/
theorem or_left_inside (x y : Word) : x &&& ~~~(x ||| y) = 0#32 := by
  apply BitVec.eq_of_getLsbD_eq
  intro i hi
  simp only [BitVec.getLsbD_and, BitVec.getLsbD_or, BitVec.getLsbD_not, BitVec.getLsbD_zero, hi, decide_true, Bool.true_and]
  cases x.getLsbD i <;> simp

theorem or_right_inside (x y : Word) : y &&& ~~~(x ||| y) = 0#32 := by
  rw [BitVec.or_comm]; exact or_left_inside y x

theorem getLsbD_toWord (n i : Nat) (hi : i < 32) : (toWord n).getLsbD i = decide (n / 2 ^ i % 2 = 1) := by
  rw [toWord, BitVec.getLsbD_ofNat, Nat.testBit_eq_decide_div_mod_eq]; simp [hi]

theorem lowMask_getLsbD (n i : Nat) (hi : i < 32) : (lowMask n).getLsbD i = decide (i < n) := by
  rw [lowMask, BitVec.getLsbD_ofNat, Nat.testBit_two_pow_sub_one]; simp [hi]

/-! ### The codec inside the setters' domains (R116, R119) -/

theorem bcdPair_le {v n : Nat} (h : v ≤ n) : bcdPair v ≤ n / 10 * 16 + 9 := by
  have := Nat.div_le_div_right (c := 10) h
  unfold bcdPair; omega

theorem encOk_sixty {n : Nat} (h : n ≤ 59) : encOk n 3 4 = true := by
  simp only [encOk, Bool.and_eq_true, decide_eq_true_eq]; omega
theorem encOk_day {n : Nat} (h : n ≤ 31) : encOk n 2 4 = true := by
  simp only [encOk, Bool.and_eq_true, decide_eq_true_eq]; omega
theorem encOk_hour {n : Nat} (h : n ≤ 23) : encOk n 2 4 = true := encOk_day (by omega)
theorem encOk_weekday {n : Nat} (h : n ≤ 7) : encOk n 0 3 = true := by
  simp only [encOk, Bool.and_eq_true, decide_eq_true_eq]; omega
theorem encOk_month {n : Nat} (h : n ≤ 12) : encOk n 1 4 = true := by
  simp only [encOk, Bool.and_eq_true, decide_eq_true_eq]; omega
theorem encOk_year {n : Nat} (h : n ≤ 99) : encOk n 4 4 = true := by
  simp only [encOk, Bool.and_eq_true, decide_eq_true_eq]; omega

theorem daysIn_le (y m : Nat) : daysIn y m ≤ 31 := by
  unfold daysIn; split <;> (try split) <;> omega

/-- The time word sets no reserved bit of RTC_TR. -/
theorem timeWord_inside {h mi s : Nat} (h1 : h ≤ 23) (h2 : mi ≤ 59) (h3 : s ≤ 59) :
    toWord (timeWord h mi s) &&& ~~~trMask = 0#32 := by
  have a := bcdPair_le h1
  have b := bcdPair_le h2
  have c := bcdPair_le h3
  apply BitVec.eq_of_getLsbD_eq
  intro i hi
  simp only [BitVec.getLsbD_and, BitVec.getLsbD_not, getLsbD_toWord _ i hi, BitVec.getLsbD_zero, hi, decide_true,
    Bool.true_and, timeWord, trMask]
  interval_cases i <;> simp <;> omega

/-- The date word sets no reserved bit of RTC_DR. -/
theorem dateWord_inside {y m d : Nat} (h1 : y - 1970 ≤ 99) (h2 : m ≤ 12) (h3 : d ≤ 31) :
    toWord (dateWord y m d) &&& ~~~drMask = 0#32 := by
  have a := bcdPair_le h1
  have b := bcdPair_le h2
  have c := bcdPair_le h3
  apply BitVec.eq_of_getLsbD_eq
  intro i hi
  simp only [BitVec.getLsbD_and, BitVec.getLsbD_not, getLsbD_toWord _ i hi, BitVec.getLsbD_zero, hi, decide_true,
    Bool.true_and, dateWord, epoch, drMask]
  interval_cases i <;> simp <;> omega

/-- What a read of RTC_DR presents has no reserved bit. -/
theorem RegsOk.dateRead {s : State} (h : RegsOk s) : s.drLock.getD s.calDr &&& ~~~drMask = 0#32 := by
  cases e : s.drLock with
  | none => simpa using h.dr
  | some v => simpa using h.lock v e

/-- The two field writes of R136 leave both operands, masked, and nothing of the old word. -/
theorem prer_two_writes {p : Params} (h : paramsOk p = true) {x : Word} (hx : x &&& ~~~prerMask p = 0#32)
    (sync : BitVec 16) (async : BitVec 8) :
    blend (prescalerAMask p) (blend (prescalerSMask p) x (sync.setWidth 32 &&& prescalerSMask p))
      ((async.setWidth 32 &&& lowMask p.predivAWidth) <<< 16) = prerOf p sync async := by
  have f := (paramsFacts h).sWidth
  apply BitVec.eq_of_getLsbD_eq
  intro i hi
  have hxi := congrArg (fun w => w.getLsbD i) hx
  simp only [blend, prerOf, prerMask, prescalerAMask, prescalerSMask, BitVec.getLsbD_and, BitVec.getLsbD_or,
    BitVec.getLsbD_not, BitVec.getLsbD_shiftLeft, lowMask_getLsbD _ i hi, hi, decide_true, Bool.true_and,
    BitVec.getLsbD_zero] at hxi ⊢
  by_cases h16 : i < 16
  · simp only [h16, decide_true, Bool.not_true, Bool.false_and, Bool.or_false, Bool.and_false, Bool.not_false,
      Bool.and_true] at hxi ⊢
    by_cases hs : i < p.predivSWidth <;> simp_all
  · have hn : ¬ i < p.predivSWidth := by omega
    simp only [h16, hn, decide_false, Bool.not_false, Bool.true_and, Bool.and_false, Bool.and_true, Bool.or_false,
      Bool.false_or] at hxi ⊢
    rw [lowMask_getLsbD _ _ (by omega)] at hxi ⊢
    by_cases ha : i - 16 < p.predivAWidth <;> simp_all

/-! ### Writes in init mode -/

/-- The two guards of the calendar and prescaler registers (R42, R43). -/
def initOpen (s : State) : Prop := (unlocked s && initf s) = true

theorem initOpen_of {s : State} (hu : s.wp = .unlocked) (hf : initf s = true) : initOpen s := by
  simp [initOpen, unlocked, hu, hf]

theorem writeReg_tr_open {s : State} (h : initOpen s) (v : Word) : writeReg .tr v s = { s with calTr := v &&& trMask } :=
  if_pos h

theorem writeReg_dr_open {s : State} (h : initOpen s) (v : Word) :
    writeReg .dr v s = { s with calDr := v &&& drMask, drLock := none } := if_pos h

theorem writeReg_prer_open {s : State} (h : initOpen s) (v : Word) :
    writeReg .prer v s = { s with rtcPrer := v &&& prerMask s.par } := if_pos h

/-- RMW of RTC_TR (R43, R61). -/
theorem rmw_tr {b : State} {m v : Word} (hc : Calm b) (hu : b.wp = .unlocked) (hf : initf b = true)
    (hx : b.calTr &&& ~~~trMask = 0#32) (hm : m &&& ~~~trMask = 0#32) :
    settle (writeReg .tr (blend m (readReg .tr b).1 v) (readReg .tr b).2) =
      { b with calTr := blend m b.calTr v, drLock := some b.calDr } := by
  have e : (readReg .tr b).2 = { b with drLock := some b.calDr } := by simp [readReg, captureLock, hc.live]
  rw [e, writeReg_tr_open (initOpen_of (s := { b with drLock := some b.calDr }) hu hf),
    show (readReg .tr b).1 = b.calTr from rfl, blend_mask hx hm]
  exact Calm.settle (hc.congr rfl rfl rfl rfl)

/-- RMW of RTC_DR: what it reads is the captured date where a lock is held (R43, R61). -/
theorem rmw_dr {b : State} {m v : Word} (hc : Calm b) (hu : b.wp = .unlocked) (hf : initf b = true)
    (hx : b.drLock.getD b.calDr &&& ~~~drMask = 0#32) (hm : m &&& ~~~drMask = 0#32) :
    settle (writeReg .dr (blend m (readReg .dr b).1 v) (readReg .dr b).2) =
      { b with calDr := blend m (b.drLock.getD b.calDr) v, drLock := none } := by
  rw [writeReg_dr_open (initOpen_of (s := (readReg .dr b).2) hu hf),
    show (readReg .dr b).1 = b.drLock.getD b.calDr from rfl, blend_mask hx hm]
  exact Calm.settle (hc.congr rfl rfl rfl rfl)

/-- Write of RTC_TR. -/
theorem wr_tr {b : State} {v : Word} (hc : Calm b) (hu : b.wp = .unlocked) (hf : initf b = true)
    (hv : v &&& ~~~trMask = 0#32) : settle (writeReg .tr v b) = { b with calTr := v } := by
  rw [writeReg_tr_open (initOpen_of hu hf), and_mask_id hv]
  exact Calm.settle (hc.congr rfl rfl rfl rfl)

/-- Write of RTC_DR. -/
theorem wr_dr {b : State} {v : Word} (hc : Calm b) (hu : b.wp = .unlocked) (hf : initf b = true)
    (hv : v &&& ~~~drMask = 0#32) : settle (writeReg .dr v b) = { b with calDr := v, drLock := none } := by
  rw [writeReg_dr_open (initOpen_of hu hf), and_mask_id hv]
  exact Calm.settle (hc.congr rfl rfl rfl rfl)

/-- RMW of RTC_PRER. -/
theorem rmw_prer {b : State} {m v : Word} (hc : Calm b) (hu : b.wp = .unlocked) (hf : initf b = true)
    (hx : b.rtcPrer &&& ~~~prerMask b.par = 0#32) (hm : m &&& ~~~prerMask b.par = 0#32) :
    settle (writeReg .prer (blend m (readReg .prer b).1 v) (readReg .prer b).2) =
      { b with rtcPrer := blend m b.rtcPrer v } := by
  rw [show (readReg .prer b).2 = b from rfl, writeReg_prer_open (initOpen_of hu hf),
    show (readReg .prer b).1 = b.rtcPrer from rfl, blend_mask hx hm]
  exact Calm.settle (hc.congr rfl rfl rfl rfl)

/-! ### Commands with an init transaction -/

/-- The prefix of the per-field setters: two checks and one calculation into `x[6]`. -/
theorem Running.twoChecks {i : Instr} {c : Seq} {s' : State} {prog : List MicroOp} {c0 c1 : LExpr Bool} {e : LExpr Word}
    {v : Word} (hR : Running .owner s' prog) (hs : Silent .owner s') (ho : s'.owner = loadedSeq c i)
    (h0 : prog[0]? = some (.check c0)) (h1 : prog[1]? = some (.check c1)) (h2 : prog[2]? = some (.calc 6 e))
    (e0 : c0 (loadedLatches i) = some true) (e1 : c1 (loadedLatches i) = some true) (e2 : e (loadedLatches i) = some v) :
    Leads .owner 20 (atPc .owner s' 0)
      (atPc .owner { s' with owner := { s'.owner with x := { loadedLatches i with x6 := some v } } } 3) := by
  have hx : s'.owner.x = loadedLatches i := by rw [ho]; rfl
  have r0 := hR.check hs h0 (by simpa [hx] using e0)
  have r1 := hR.check hs h1 (by simpa [hx] using e1)
  have r2 := hR.calc (v := v) hs h2 (by simpa [hx] using e2)
  simp only [seqOf_owner, setSeq_owner, hx] at r2
  exact ((r0.then r1).then r2).mono (by omega)

/-- The state inside the brackets of command `i`, its latches being `x`. -/
def inBody (s : State) (i : Instr) (x : Latches) (rest : List Move) : State :=
  inInit { s with owner := { loadedSeq s.owner i with x := x } } rest

/-- An init transaction with a body of `n` micro-ops, whose run ends in `t`. -/
theorem issue_initBody {i : Instr} {s t : State} {prog body tail : List MicroOp} {rest : List Move} {x : Latches} {k : Nat}
    (hr : OwnerReady s) (hm : InitServed s rest) (hv : verdict .owner (some i) s = .accept)
    (hg : progOf s.par (opcode i) = some prog) (hprog : prog.drop k = initTxn body ++ .done :: tail)
    (hpre : ∀ s', Running .owner s' prog → Silent .owner s' → s'.owner = loadedSeq s.owner i →
      Leads .owner 20 (atPc .owner s' 0) (atPc .owner { s' with owner := { s'.owner with x := x } } k))
    (hbody : ∀ b, b = inBody s i x rest → Running .owner b prog → Calm b → Silent .owner b → b.wp = .unlocked →
      initf b = true → (∀ j, prog[k + 5 + j]? = (body ++ (initExitOps ++ (lockOps ++ .done :: tail)))[j]?) →
      Leads .owner 20 (atPc .owner b (k + 5)) (atPc .owner t (k + 5 + body.length)) ∧ Calm t)
    (ht : t.par = s.par ∧ t.faultCode = s.faultCode ∧ t.irq = s.irq ∧ t.owner = { loadedSeq s.owner i with x := t.owner.x })
    (hu : t.wp = .unlocked) (hs : t.rtcIsr = isrInInit s) (hq : t.moves = .env .initfClear :: rest) :
    ∃ c, Finished c i 0x00#8 s.owner.res ∧ issue i s = .next { t with
      owner := c, wp := .locked, rtcIsr := isrAfterInit s, moves := rest } := by
  have get : ∀ j, prog[k + j]? = (initTxn body ++ .done :: tail)[j]? := fun j => by
    rw [← hprog, List.getElem?_drop]
  have get5 : ∀ j, prog[k + 5 + j]? = (body ++ (initExitOps ++ (lockOps ++ .done :: tail)))[j]? := fun j => by
    rw [Nat.add_assoc, get, initTxn, unlockOps, initEnterOps]
    simp only [List.cons_append, List.nil_append, Nat.add_comm 5 j, List.getElem?_cons_succ, List.append_assoc]
  have getl : ∀ j, prog[k + 5 + body.length + j]? = (initExitOps ++ (lockOps ++ .done :: tail))[j]? := fun j => by
    rw [Nat.add_assoc (k + 5), get5, List.getElem?_append_right (by omega), Nat.add_sub_cancel_left]
  obtain ⟨hp, hf, hi, ho⟩ := ht
  have h := issue_initTxn (t := t) (k := k) (l := k + 5 + body.length) hr hm hv hg hpre (get 0) (get 1) (get 2) (get 3) (get 4)
    (fun b hb hR hc hsil => hbody b hb hR hc hsil (by rw [hb]; rfl) (by rw [hb]; exact isrInInit_initf s) get5)
    ⟨hp, hf, hi, by rw [ho]; rfl, by rw [ho]; rfl⟩ hu hs hq (getl 0) (getl 1) (getl 2) (getl 3)
  refine ⟨{ t.owner with pc := k + 5 + body.length + 4, status := 0x00#8, busy := false }, ?_, h⟩
  rw [ho]
  exact ⟨rfl, rfl, rfl, rfl, rfl⟩

/-- A command that needs construction is accepted by a ready, constructed OWNER. -/
theorem OwnerReady.accepts {s : State} {i : Instr} (hr : OwnerReady s) (hc : s.constructed = true)
    (hw : i.wellFormed = true) (hn : needOf i = .constructed) : verdict .owner (some i) s = .accept :=
  verdict_owner hw hr.noFault hr.noRefusal hr.idle (by simp [hn, constructionVerdict, hc])

end Sys2Proof.Machine
end

