-- ==== Sys2Proof/Laws/Invariant.lean ====
section
/-! SUPPORT. Every register access, environment step and reset keeps the registers sound (`RegsOk`): reserved bits 0, a held
domain at its reset values, the levels those of the registers. -/

namespace Sys2Proof.Machine

/-! ### Words inside a mask -/

theorem inside_or {x y m : Word} (hx : x &&& ~~~m = 0#32) (hy : y &&& ~~~m = 0#32) : (x ||| y) &&& ~~~m = 0#32 := by
  rw [BitVec.and_comm, BitVec.and_or_distrib_left, BitVec.and_comm _ x, BitVec.and_comm _ y, hx, hy]; rfl

theorem inside_and {x m : Word} (hx : x &&& ~~~m = 0#32) (y : Word) : (x &&& y) &&& ~~~m = 0#32 := by
  rw [BitVec.and_assoc, BitVec.and_comm y, ← BitVec.and_assoc, hx]; exact BitVec.zero_and

theorem inside_mask (x m : Word) : (x &&& m) &&& ~~~m = 0#32 := and_and_not x m

theorem inside_and_right {x m : Word} (hx : x &&& ~~~m = 0#32) (y : Word) : (y &&& x) &&& ~~~m = 0#32 := by
  rw [BitVec.and_comm y]; exact inside_and hx y

theorem inside_ite {c : Prop} [Decidable c] {x y m : Word} (hx : x &&& ~~~m = 0#32) (hy : y &&& ~~~m = 0#32) :
    (if c then x else y) &&& ~~~m = 0#32 := by split <;> assumption

/-- A bit below the number of lines is inside the line mask. -/
theorem bit_inside_lines {p : Params} {n : Nat} (hn : n < p.nLines) : bit n &&& ~~~lineMask p = 0#32 := by
  apply BitVec.eq_of_getLsbD_eq
  intro i hi
  simp only [BitVec.getLsbD_and, BitVec.getLsbD_not, hi, lineMask, lowMask_getLsbD, bit, BitVec.getLsbD_ofNat,
    Nat.testBit_two_pow]
  by_cases e : n = i
  · subst e; simp [hn]
  · simp [e]

/-! ### The reserved bits -/

/-- The part of `RegsOk` that speaks of each register by itself. -/
structure Inside (s : State) : Prop where
  params : paramsOk s.par = true
  tr : s.calTr &&& ~~~trMask = 0#32
  dr : s.calDr &&& ~~~drMask = 0#32
  lock : ∀ v, s.drLock = some v → v &&& ~~~drMask = 0#32
  cr : s.rtcCr &&& ~~~crMask = 0#32
  isr : s.rtcIsr &&& ~~~isrMask = 0#32
  prer : s.rtcPrer &&& ~~~prerMask s.par = 0#32
  wutr : s.rtcWutr &&& ~~~wutrMask = 0#32
  imr : s.extiImr &&& ~~~lineMask s.par = 0#32
  emr : s.extiEmr &&& ~~~lineMask s.par = 0#32
  rtsr : s.extiRtsr &&& ~~~lineMask s.par = 0#32
  ftsr : s.extiFtsr &&& ~~~lineMask s.par = 0#32
  swier : s.extiSwier &&& ~~~lineMask s.par = 0#32
  pr : s.extiPr &&& ~~~lineMask s.par = 0#32
  cwuf : s.pwrCr.getLsbD 2 = false

theorem RegsOk.inside {s : State} (h : RegsOk s) : Inside s :=
  ⟨h.params, h.tr, h.dr, h.lock, h.cr, h.isr, h.prer, h.wutr, h.imr, h.emr, h.rtsr, h.ftsr, h.swier, h.pr, h.cwuf⟩

theorem blend_bit_other {n k : Nat} (hk : k < 32) (h : n ≠ k) (x v : Word) : (blend (bit n) x v).getLsbD k = x.getLsbD k := by
  simp only [blend, bit, BitVec.getLsbD_or, BitVec.getLsbD_and, BitVec.getLsbD_not, BitVec.getLsbD_ofNat,
    Nat.testBit_two_pow, hk, h, decide_true, decide_false]
  simp

/-- A write keeps the reserved bits (R42 to R46, R60). -/
theorem Inside.write {s : State} (h : Inside s) (r : Reg) (v : Word) : Inside (writeReg r v s) := by
  cases r
  case tr => simp only [writeReg, writeTr]; split; exacts [{ h with tr := inside_mask _ _ }, h]
  case dr =>
    simp only [writeReg, writeDr]
    split
    exacts [{ h with dr := inside_mask _ _, lock := (fun _ e => nomatch e) }, h]
  case cr =>
    simp only [writeReg, writeCr]
    split
    · refine { h with cr := ?_ }
      exact blend_inside h.cr (inside_and (inside_ite (by decide) (by decide)) _)
    · exact h
  case isr =>
    simp only [writeReg, writeIsr]
    exact { h with isr := inside_ite (blend_inside (inside_and h.isr _) (by decide)) (inside_and h.isr _) }
  case prer => simp only [writeReg, writePrer]; split; exacts [{ h with prer := inside_mask _ _ }, h]
  case wutr => simp only [writeReg, writeWutr]; split; exacts [{ h with wutr := inside_mask _ _ }, h]
  case wpr => exact { h with }
  case imr => exact { h with imr := inside_mask _ _ }
  case emr => exact { h with emr := inside_mask _ _ }
  case rtsr => exact { h with rtsr := inside_mask _ _ }
  case ftsr => exact { h with ftsr := inside_mask _ _ }
  case swier =>
    simp only [writeReg, writeSwier]
    refine { h with swier := inside_or h.swier (inside_mask _ _), pr := inside_or h.pr ?_ }
    exact inside_ite (inside_and (inside_mask _ _) _) (inside_mask _ _)
  case pr =>
    simp only [writeReg, writePr]
    exact { h with swier := inside_and h.swier _, pr := inside_and h.pr _ }
  case pwrCr =>
    simp only [writeReg, writePwrCr]
    split
    · exact { h with cwuf := by rw [blend_bit_other (by decide) (by decide)]; exact h.cwuf }
    · exact h
  case pwrCsr => exact h
  case apb1enr => exact { h with }
  case csr => exact { h with }

theorem resetInside : (0x00000000#32 : Word) &&& ~~~trMask = 0#32 ∧ (0x00002101#32 : Word) &&& ~~~drMask = 0#32 ∧
    (0x00000000#32 : Word) &&& ~~~crMask = 0#32 ∧ (0x00000007#32 : Word) &&& ~~~isrMask = 0#32 ∧
    (0x0000FFFF#32 : Word) &&& ~~~wutrMask = 0#32 := by decide

/-- The backup-domain reset values are inside their masks (R52). -/
theorem Inside.backup {s : State} (h : Inside s) : Inside (backupDomainReset s) :=
  { h with
    tr := resetInside.1, dr := resetInside.2.1, lock := (fun _ e => nomatch e), cr := resetInside.2.2.1
    isr := resetInside.2.2.2.1, prer := inside_mask _ _, wutr := resetInside.2.2.2.2 }

theorem Inside.hold {s : State} (h : Inside s) : Inside (holdDomain s) := by
  unfold holdDomain; split; exacts [h.backup, h]

theorem edgePending_inside {s : State} (hp : paramsOk s.par = true) : edgePending s &&& ~~~lineMask s.par = 0#32 := by
  have hn := (paramsFacts hp).linesMin
  have hz : (0#32 : Word) &&& ~~~lineMask s.par = 0#32 := BitVec.zero_and
  exact inside_or (inside_or (inside_ite (bit_inside_lines (by omega)) hz)
    (inside_ite (bit_inside_lines (by omega)) hz)) (inside_ite (bit_inside_lines (by omega)) hz)

theorem Inside.edges {s : State} (h : Inside s) : Inside (detectEdges s) :=
  { h with pr := inside_or h.pr (edgePending_inside h.params) }

/-! ### The held domain -/

/-- Two different bits of a word: clearing one leaves the other. -/
theorem csrBackup_domrst {p : Params} (h : paramsOk p = true) : (csrBackupMask p).getLsbD p.domrstBit = false := by
  have hn := (paramsFacts h).csrBits
  have hw := (paramsFacts h).csrWidth p.domrstBit (by simp [csrFieldBits])
  simp only [csrFieldBits, List.nodup_cons, List.mem_cons, List.not_mem_nil, or_false, not_or] at hn
  obtain ⟨_, _, ⟨_, _, h8, _⟩, ⟨_, h9, _⟩, ⟨h10, _⟩, ⟨hl, hl1, h22⟩, _⟩ := hn
  simp only [csrBackupMask, rtcselMask, bit, BitVec.getLsbD_or, BitVec.getLsbD_ofNat, Nat.testBit_two_pow, hw, decide_true,
    Bool.true_and, Bool.or_eq_false_iff, decide_eq_false_iff_not]
  exact ⟨⟨⟨⟨h8, h9⟩, h10⟩, Ne.symm hl, Ne.symm hl1⟩, Ne.symm h22⟩

theorem domainHeld_backup {s : State} (h : paramsOk s.par = true) : domainHeld (backupDomainReset s) = domainHeld s := by
  have hw := (paramsFacts h).csrWidth s.par.domrstBit (by simp [csrFieldBits])
  show ((s.rccCsr &&& ~~~csrBackupMask s.par).getLsbD s.par.domrstBit) = s.rccCsr.getLsbD s.par.domrstBit
  simp only [BitVec.getLsbD_and, BitVec.getLsbD_not, csrBackup_domrst h, hw]
  simp

theorem backup_backup (s : State) : backupDomainReset (backupDomainReset s) = backupDomainReset s := by
  simp [backupDomainReset, BitVec.and_assoc]

/-- Holding the domain twice is holding it once (R107). -/
theorem hold_hold {s : State} (h : paramsOk s.par = true) : holdDomain (holdDomain s) = holdDomain s := by
  by_cases hd : domainHeld s = true
  · rw [holdDomain, holdDomain, if_pos hd, if_pos (by rw [domainHeld_backup h]; exact hd), backup_backup]
  · simp [holdDomain, hd]

theorem hold_edges (s : State) : holdDomain s = s → holdDomain (detectEdges s) = detectEdges s := by
  intro h
  by_cases hd : domainHeld s = true
  · have hd' : domainHeld (detectEdges s) = true := hd
    rw [holdDomain, if_pos hd] at h
    rw [holdDomain, if_pos hd']
    conv => rhs; rw [← h]
    conv => lhs; rw [← h]
    simp [backupDomainReset, detectEdges, BitVec.and_assoc]
  · have hd' : ¬domainHeld (detectEdges s) = true := hd
    rw [holdDomain, if_neg hd']

/-- What settles is sound (R107, R170): the one lemma for every change of the registers. -/
theorem Inside.settle {s : State} (h : Inside s) : RegsOk (settle s) := by
  have hi := h.hold.edges
  have hp : paramsOk (holdDomain s).par = true := h.hold.params
  exact { hi with
    held := hold_edges _ (hold_hold h.params)
    levels := rfl }

/-! ### What keeps the registers sound -/

theorem RegsOk.congr {s t : State} (h : RegsOk s) (e : t = { s with
    owner := t.owner, irq := t.irq, faultCode := t.faultCode, faultSeq := t.faultSeq, faultWord := t.faultWord
    refusedReason := t.refusedReason, refusedWord := t.refusedWord, constructed := t.constructed, clkSrc := t.clkSrc
    port := t.port, moves := t.moves }) : RegsOk t := by
  have hi : Inside t := by rw [e]; exact { h.inside with }
  have hh : holdDomain t = t := by
    by_cases hd : domainHeld s = true
    · have hs := h.held
      have hd' : domainHeld t = true := by rw [e]; exact hd
      rw [holdDomain, if_pos hd] at hs
      rw [holdDomain, if_pos hd', e]
      conv => rhs; rw [← hs]
      conv => lhs; rw [← hs]
      simp [backupDomainReset, BitVec.and_assoc]
    · have hd' : ¬domainHeld t = true := by rw [e]; exact hd
      rw [holdDomain, if_neg hd']
  have hl : t.lvl = levelsOf t := by rw [e]; exact h.levels
  exact { hi with held := hh, levels := hl }

/-- A register write (R60). -/
theorem RegsOk.write {s : State} (h : RegsOk s) (r : Reg) (v : Word) : RegsOk (settle (writeReg r v s)) :=
  (h.inside.write r v).settle

/-- A bus write at any address (R54, R60). -/
theorem RegsOk.memWrite {s t : State} (h : RegsOk s) {a v : Word} (e : memWrite a v s = some t) : RegsOk t := by
  simp only [Machine.memWrite, Option.map_eq_some_iff] at e
  obtain ⟨r, -, rfl⟩ := e
  exact h.write r v

/-- The date shadow lock may hold any date, or nothing while the domain is held. -/
theorem RegsOk.withLock {s : State} (h : RegsOk s) {l : Option Word} (hl : ∀ v, l = some v → v &&& ~~~drMask = 0#32)
    (hd : domainHeld s = true → l = none) : RegsOk { s with drLock := l } := by
  have hi : Inside { s with drLock := l } := { h.inside with lock := hl }
  have hh : holdDomain { s with drLock := l } = { s with drLock := l } := by
    by_cases hdm : domainHeld s = true
    · have hs := h.held
      have hd' : domainHeld { s with drLock := l } = true := hdm
      rw [holdDomain, if_pos hdm] at hs
      rw [holdDomain, if_pos hd', hd hdm]
      conv => rhs; rw [← hs]
      conv => lhs; rw [← hs]
      simp [backupDomainReset, BitVec.and_assoc]
    · have hd' : ¬domainHeld { s with drLock := l } = true := hdm
      rw [holdDomain, if_neg hd']
  exact { hi with held := hh, levels := h.levels }

/-- A register read (R59, R61). -/
theorem RegsOk.read {s : State} (h : RegsOk s) (r : Reg) : RegsOk (readReg r s).2 := by
  cases r <;> try exact h
  · refine h.withLock (fun v e => ?_) (fun hd => by simp [captureLock, hd])
    simp only [captureLock] at e
    split at e
    · cases e
    · cases e; exact h.dr
  · exact h.withLock (fun _ e => nomatch e) (fun _ => rfl)

/-- A bus read at any address (R54, R59). -/
theorem RegsOk.memRead {s t : State} (h : RegsOk s) {a v : Word} (e : memRead a s = some (v, t)) : RegsOk t := by
  simp only [Machine.memRead, Option.map_eq_some_iff] at e
  obtain ⟨r, -, e⟩ := e
  have := h.read r
  rw [e] at this
  exact this

/-- An environment step (R174 to R184). -/
theorem RegsOk.envStep {s : State} (h : RegsOk s) (d : Draw) : RegsOk (envStep d s) := by
  have hi := h.inside
  have ho : ∀ n, bit n &&& ~~~isrMask = 0#32 → (s.rtcIsr ||| bit n) &&& ~~~isrMask = 0#32 := fun n e => inside_or h.isr e
  apply Inside.settle
  cases d <;> simp only [drawEffect, setEventFlag, tickCalendar]
  case initfSet => exact { hi with isr := inside_and (ho 6 (by decide)) _ }
  case initfClear => exact { hi with isr := inside_and h.isr _ }
  case rsfSet => exact { hi with isr := ho 5 (by decide) }
  case calendarTick => exact { hi with tr := inside_mask _ _, dr := inside_mask _ _ }
  case wutwfSet => exact { hi with isr := ho 2 (by decide) }
  case wutwfClear => exact { hi with isr := inside_and h.isr _ }
  case wutfSet => exact { hi with isr := ho 10 (by decide) }
  case alrafSet => exact { hi with isr := ho 8 (by decide) }
  case alrbfSet => exact { hi with isr := ho 9 (by decide) }
  case tsfSet => exact { hi with isr := ho 11 (by decide) }
  all_goals exact { hi with }

/-- A block reset (R51, R191). -/
theorem RegsOk.blockReset {s : State} (h : RegsOk s) : RegsOk (blockReset s) := h.congr rfl

/-- A system reset (R53). -/
theorem RegsOk.systemReset {s : State} (h : RegsOk s) (d : ResetDraw) : RegsOk (systemReset d s) := by
  have hi := h.blockReset.inside
  have hz : (0#32 : Word) &&& ~~~lineMask s.par = 0#32 := BitVec.zero_and
  apply Inside.settle
  refine { hi with imr := hz, emr := inside_mask _ _, rtsr := hz, ftsr := hz, swier := hz, pr := inside_mask _ _, cwuf := ?_ }
  simp [bit]

/-- A power-on leaves the registers sound whatever they were (R190 (4)). -/
theorem regsOk_powerOn {s : State} (h : paramsOk s.par = true) (d : ResetDraw) : RegsOk (powerOnReset d s) := by
  have hz : (0#32 : Word) &&& ~~~lineMask s.par = 0#32 := BitVec.zero_and
  apply Inside.settle
  exact {
    params := h, tr := resetInside.1, dr := resetInside.2.1, lock := (fun _ e => nomatch e), cr := resetInside.2.2.1
    isr := resetInside.2.2.2.1, prer := inside_mask _ _, wutr := resetInside.2.2.2.2, imr := hz, emr := inside_mask _ _, rtsr := hz, ftsr := hz, swier := hz
    pr := inside_mask _ _, cwuf := BitVec.getLsbD_zero }

end Sys2Proof.Machine
end

