-- ==== Sys2Proof/Laws/Frames.lean ====
section
/-! SUPPORT. What one micro-op may change, said once: the frame of a micro-op on one sequencer, and of a whole step of it. -/

namespace Sys2Proof.Machine

/-- What a micro-op of sequencer `q` leaves as it was: the parameters, the port, the schedule, the refusal mark and the other
sequencer; and it keeps the registers sound. -/
structure MicroFrame (q : SeqId) (s t : State) : Prop where
  par : t.par = s.par
  port : t.port = s.port
  moves : t.moves = s.moves
  refusedReason : t.refusedReason = s.refusedReason
  refusedWord : t.refusedWord = s.refusedWord
  other : ∀ r, r ≠ q → seqOf t r = seqOf s r
  regs : RegsOk s → RegsOk t

theorem MicroFrame.refl (q : SeqId) (s : State) : MicroFrame q s s :=
  ⟨rfl, rfl, rfl, rfl, rfl, fun _ _ => rfl, id⟩

theorem MicroFrame.trans {q : SeqId} {s t u : State} (h : MicroFrame q s t) (k : MicroFrame q t u) : MicroFrame q s u :=
  ⟨k.par.trans h.par, k.port.trans h.port, k.moves.trans h.moves, k.refusedReason.trans h.refusedReason,
    k.refusedWord.trans h.refusedWord, fun r hr => (k.other r hr).trans (h.other r hr), fun hs => k.regs (h.regs hs)⟩

theorem frame_setSeq (q : SeqId) (s : State) (c : Seq) : MicroFrame q s (setSeq s q c) :=
  ⟨by simp, by simp, by simp, by simp, by simp, fun r hr => seqOf_setSeq_of_ne s q r c hr,
    fun h => h.congr (by cases q <;> rfl)⟩

theorem settle_frame (q : SeqId) {s t : State} (r : Reg) (v : Word) (e : t = settle (writeReg r v s)) : MicroFrame q s t := by
  subst e
  exact ⟨by simp, by simp, by simp, by simp, by simp, fun p _ => by simp, fun h => h.write r v⟩

theorem frame_memWrite (q : SeqId) {s t : State} {a v : Word} (e : memWrite a v s = some t) : MicroFrame q s t := by
  simp only [memWrite, Option.map_eq_some_iff] at e
  obtain ⟨r, -, rfl⟩ := e
  exact settle_frame q r v rfl

theorem frame_memRead (q : SeqId) {s t : State} {a v : Word} (e : memRead a s = some (v, t)) : MicroFrame q s t := by
  have hk := e
  simp only [memRead, Option.map_eq_some_iff] at e
  obtain ⟨r, -, e⟩ := e
  have e : (readReg r s).2 = t := by rw [e]
  subst e
  exact ⟨by simp, by simp, by simp, by simp, by simp, fun p _ => by simp, fun h => h.read r⟩

theorem frame_raiseFault (q : SeqId) (c : FaultCode) (s : State) : MicroFrame q s (raiseFault q c s) :=
  ⟨rfl, rfl, rfl, rfl, rfl, fun r _ => by cases r <;> rfl, fun h => h.congr rfl⟩

theorem withValue_next {α : Type} {q : SeqId} {e : LExpr α} {s t : State} {k : α → Result} (h : withValue q e s k = .next t) :
    ∃ a, e (seqOf s q).x = some a ∧ k a = .next t := by
  unfold withValue at h
  split at h
  · exact ⟨_, ‹_›, h⟩
  · cases h

theorem withRead_next {r : Reg} {s t : State} {k : Word → State → Result} (h : withRead r s k = .next t) :
    ∃ v u, memRead (regAddr s.par r) s = some (v, u) ∧ k v u = .next t := by
  unfold withRead at h
  split at h
  · exact ⟨_, _, ‹_›, h⟩
  · cases h

theorem withWrite_next {r : Reg} {v : Word} {s t : State} {k : State → Result} (h : withWrite r v s k = .next t) :
    ∃ u, memWrite (regAddr s.par r) v s = some u ∧ k u = .next t := by
  unfold withWrite at h
  split at h
  · exact ⟨_, ‹_›, h⟩
  · cases h

/-- A micro-op that answers a next state keeps the frame, whatever its kind (R62, R88). -/
theorem runMicroOp_frame {q : SeqId} {m : MicroOp} {s t : State} (h : runMicroOp q m s = .next t) : MicroFrame q s t := by
  have adv (n : Nat) (u : State) : MicroFrame q u (advance q n u) := frame_setSeq q u _
  match m, h with
  | .check c, h =>
    simp only [runMicroOp] at h
    obtain ⟨ok, -, h⟩ := withValue_next h
    cases h; split
    exacts [adv _ _, frame_setSeq q s _]
  | .calc i e, h =>
    simp only [runMicroOp] at h
    obtain ⟨v, -, h⟩ := withValue_next h
    cases h; exact frame_setSeq q s _
  | .wr r e, h =>
    simp only [runMicroOp] at h
    obtain ⟨v, -, h⟩ := withValue_next h
    obtain ⟨u, hu, h⟩ := withWrite_next h
    cases h; exact (frame_memWrite q hu).trans (adv _ _)
  | .rd i r, h =>
    simp only [runMicroOp] at h
    obtain ⟨v, u, hu, h⟩ := withRead_next h
    cases h; exact (frame_memRead q hu).trans (frame_setSeq q u _)
  | .rmw r em ev, h =>
    simp only [runMicroOp] at h
    obtain ⟨m, -, h⟩ := withValue_next h
    obtain ⟨v, -, h⟩ := withValue_next h
    obtain ⟨old, u, hu, h⟩ := withRead_next h
    obtain ⟨w, hw, h⟩ := withWrite_next h
    cases h; exact ((frame_memRead q hu).trans (frame_memWrite q hw)).trans (adv _ _)
  | .isrSetInit b, h =>
    simp only [runMicroOp] at h
    obtain ⟨u, hu, h⟩ := withWrite_next h
    cases h; exact (frame_memWrite q hu).trans (adv _ _)
  | .isrClr e, h =>
    simp only [runMicroOp] at h
    obtain ⟨m, -, h⟩ := withValue_next h
    obtain ⟨old, u, hu, h⟩ := withRead_next h
    obtain ⟨w, hw, h⟩ := withWrite_next h
    cases h; exact ((frame_memRead q hu).trans (frame_memWrite q hw)).trans (adv _ _)
  | .poll r a b, h =>
    simp only [runMicroOp] at h
    obtain ⟨v, u, hu, h⟩ := withRead_next h
    cases h; split
    exacts [(frame_memRead q hu).trans (adv _ _), MicroFrame.refl q s]
  | .skipIf r a b n, h =>
    simp only [runMicroOp] at h
    obtain ⟨v, u, hu, h⟩ := withRead_next h
    cases h; exact (frame_memRead q hu).trans (adv _ _)
  | .faultIf c code, h =>
    simp only [runMicroOp] at h
    obtain ⟨bad, -, h⟩ := withValue_next h
    cases h; split
    exacts [frame_raiseFault q code s, adv _ _]
  | .res e, h =>
    simp only [runMicroOp] at h
    obtain ⟨v, -, h⟩ := withValue_next h
    cases h; exact frame_setSeq q s _
  | .construct c, h =>
    simp only [runMicroOp] at h
    cases h
    have hc : MicroFrame q s { s with constructed := true, clkSrc := some c } :=
      ⟨rfl, rfl, rfl, rfl, rfl, fun r _ => by cases r <;> rfl, fun h => h.congr rfl⟩
    exact hc.trans (adv _ _)
  | .done, h =>
    simp only [runMicroOp] at h; cases h; exact frame_setSeq q s _

/-- A step of one sequencer keeps the frame. -/
theorem seqStep_frame {q : SeqId} {s t : State} (h : seqStep q s = .next t) : MicroFrame q s t := by
  unfold seqStep at h
  split at h
  · cases h
  · split at h
    · exact runMicroOp_frame h
    · cases h; exact frame_setSeq q s _

/-- A presentation changes the presented sequencer and the refusal mark only, and keeps the registers sound (R74, R162). -/
theorem presentWord_regs {q : SeqId} {w : Cmd} {s : State} (h : RegsOk s) : RegsOk (presentWord q w s) := by
  unfold presentWord
  split
  · exact h.congr (by cases q <;> rfl)
  · exact h.congr rfl
  · exact h

/-- A move of any kind keeps the registers sound. -/
theorem takeMove_regs {m : Move} {s t : State} (h : RegsOk s) (e : takeMove m s = .next t) : RegsOk t := by
  cases m <;> simp only [takeMove, Host.Outcome.next.injEq] at e
  case present q w => subst e; exact presentWord_regs h
  case await => subst e; exact h
  case hostRead => subst e; exact h
  case micro q => exact (seqStep_frame e).regs h
  case env d => subst e; exact h.envStep d
  case blockReset => subst e; exact h.blockReset
  case systemReset d => subst e; exact h.systemReset d
  case powerOn d => subst e; exact regsOk_powerOn h.params d

end Sys2Proof.Machine
end

