-- ==== Sys2Proof/Laws/PerInstr.lean ====
section
/-! SUPPORT. What holds of every command as syntax, one lemma per constructor: its operand area fits below the opcode. -/

namespace Sys2Proof.Laws.OperandArea

/-- The operand area fits in the 56 bits below the opcode (R71). -/
def Statement (i : Instr) : Prop := operandArea i < 2 ^ 56

theorem setSeconds (v : BitVec 8) : Statement (.setSeconds v) := by
  simp only [Statement, operandArea]; omega

theorem setMinutes (v : BitVec 8) : Statement (.setMinutes v) := by
  simp only [Statement, operandArea]; omega

theorem setHours (v : BitVec 8) : Statement (.setHours v) := by
  simp only [Statement, operandArea]; omega

theorem setWeekday (v : BitVec 8) : Statement (.setWeekday v) := by
  simp only [Statement, operandArea]; omega

theorem setDay (v : BitVec 8) : Statement (.setDay v) := by
  simp only [Statement, operandArea]; omega

theorem setMonth (v : BitVec 8) : Statement (.setMonth v) := by
  simp only [Statement, operandArea]; omega

theorem setYear (y : BitVec 16) : Statement (.setYear y) := by
  simp only [Statement, operandArea]; omega

theorem setDate (y : BitVec 16) (m d : BitVec 8) : Statement (.setDate y m d) := by
  simp only [Statement, operandArea]; omega

theorem setDatetime (y : BitVec 16) (m d h mi sec : BitVec 8) : Statement (.setDatetime y m d h mi sec) := by
  simp only [Statement, operandArea]; omega

theorem getDatetime : Statement .getDatetime := by
  simp [Statement, operandArea]

theorem setPrescalers (sync : BitVec 16) (async : BitVec 8) : Statement (.setPrescalers sync async) := by
  simp only [Statement, operandArea]; omega

theorem enableWakeup (n : BitVec 32) : Statement (.enableWakeup n) := by
  simp only [Statement, operandArea]; omega

theorem disableWakeup : Statement .disableWakeup := by
  simp [Statement, operandArea]

theorem wakeupTimer (val : BitVec 32) : Statement (.wakeupTimer val) := by
  simp only [Statement, operandArea]; omega

theorem listen (e : Event) : Statement (.listen e) := by
  simp only [Statement, operandArea]; omega

theorem unpendEvent (e : Event) : Statement (.unpendEvent e) := by
  simp only [Statement, operandArea]; omega

theorem pendLine (l : BitVec 8) : Statement (.pendLine l) := by
  simp only [Statement, operandArea]; omega

theorem unpendLine (l : BitVec 8) : Statement (.unpendLine l) := by
  simp only [Statement, operandArea]; omega

theorem isPendingLine (l : BitVec 8) : Statement (.isPendingLine l) := by
  simp only [Statement, operandArea]; omega

theorem bcdEncode (f : BitVec 3) (v : BitVec 8) : Statement (.bcdEncode f v) := by
  simp only [Statement, operandArea]; omega

theorem bcdDecode (t u : BitVec 4) : Statement (.bcdDecode t u) := by
  simp only [Statement, operandArea]; omega

theorem bringupLse (bypass : BitVec 1) (sync : BitVec 16) (async : BitVec 8) : Statement (.bringupLse bypass sync async) := by
  simp only [Statement, operandArea]; omega

theorem bringupLsi (sync : BitVec 16) (async : BitVec 8) : Statement (.bringupLsi sync async) := by
  simp only [Statement, operandArea]; omega

end Sys2Proof.Laws.OperandArea

namespace Sys2Proof.Laws

/-- The operand area of any command fits below the opcode. -/
theorem operandArea_lt (i : Instr) : operandArea i < 2 ^ 56 := by
  cases i
  · exact OperandArea.setSeconds _
  · exact OperandArea.setMinutes _
  · exact OperandArea.setHours _
  · exact OperandArea.setWeekday _
  · exact OperandArea.setDay _
  · exact OperandArea.setMonth _
  · exact OperandArea.setYear _
  · exact OperandArea.setDate _ _ _
  · exact OperandArea.setDatetime _ _ _ _ _ _
  · exact OperandArea.getDatetime
  · exact OperandArea.setPrescalers _ _
  · exact OperandArea.enableWakeup _
  · exact OperandArea.disableWakeup
  · exact OperandArea.wakeupTimer _
  · exact OperandArea.listen _
  · exact OperandArea.unpendEvent _
  · exact OperandArea.pendLine _
  · exact OperandArea.unpendLine _
  · exact OperandArea.isPendingLine _
  · exact OperandArea.bcdEncode _ _
  · exact OperandArea.bcdDecode _ _
  · exact OperandArea.bringupLse _ _ _
  · exact OperandArea.bringupLsi _ _

/-- The command word as a number: the opcode above the operand area, nothing lost. -/
theorem encode_toNat (i : Instr) : (encode i).toNat = (opcode i).toNat * 2 ^ 56 + operandArea i := by
  have h := operandArea_lt i
  have := (opcode i).isLt
  simp only [encode, BitVec.toNat_ofNat]
  omega

/-- The opcode field of a command word. -/
theorem encode_opcode (i : Instr) : (encode i).toNat / 2 ^ 56 = (opcode i).toNat := by
  have := operandArea_lt i
  have := encode_toNat i
  omega

/-- The operand area of a command word. -/
theorem encode_area (i : Instr) : (encode i).toNat % 2 ^ 56 = operandArea i := by
  have := operandArea_lt i
  have := encode_toNat i
  omega

end Sys2Proof.Laws
end

