-- ==== Sys2Proof/Laws/Schedule.lean ====
section
/-! SUPPORT. No micro-op sees the schedule: a step of a sequencer under another list of moves is the same step, and a move that
cannot be taken yet leaves the machine to its sequencers. -/

namespace Sys2Proof.Machine

/-- The state under another schedule. -/
def withMoves (ms : List Move) (s : State) : State := { s with moves := ms }

/-- A result with its next state under another schedule. -/
def resultWithMoves (ms : List Move) : Result → Result
  | .next t => .next (withMoves ms t)
  | .fault r => .fault r
  | .refused r => .refused r

theorem ite_withMoves {ms : List Move} {c : Prop} [Decidable c] {a b a' b' : State} (ha : a' = withMoves ms a)
    (hb : b' = withMoves ms b) : (if c then a' else b') = withMoves ms (if c then a else b) := by
  subst ha hb; split <;> rfl

@[simp] theorem seqOf_withMoves (ms : List Move) (s : State) (q : SeqId) : seqOf (withMoves ms s) q = seqOf s q := by
  cases q <;> rfl

theorem setSeq_withMoves (ms : List Move) (s : State) (q : SeqId) (c : Seq) :
    setSeq (withMoves ms s) q c = withMoves ms (setSeq s q c) := by cases q <;> rfl

theorem writeReg_withMoves (ms : List Move) (r : Reg) (v : Word) (s : State) :
    writeReg r v (withMoves ms s) = withMoves ms (writeReg r v s) := by
  cases r <;> simp only [writeReg, writeTr, writeDr, writeCr, writeIsr, writePrer, writeWutr, writeWpr, writeSwier, writePr,
    writePwrCr, writeCsr] <;> first | rfl | exact ite_withMoves rfl rfl

theorem settle_withMoves (ms : List Move) (s : State) : settle (withMoves ms s) = withMoves ms (settle s) := by
  have e : holdDomain (withMoves ms s) = withMoves ms (holdDomain s) := ite_withMoves rfl rfl
  rw [settle, e]; rfl

theorem readReg_withMoves (ms : List Move) (r : Reg) (s : State) :
    readReg r (withMoves ms s) = ((readReg r s).1, withMoves ms (readReg r s).2) := by cases r <;> rfl

theorem memWrite_withMoves (ms : List Move) (a v : Word) (s : State) :
    memWrite a v (withMoves ms s) = (memWrite a v s).map (withMoves ms) := by
  have e : (withMoves ms s).par = s.par := rfl
  simp only [memWrite, e, Option.map_map]
  cases regAt s.par a with
  | none => rfl
  | some r => simp [writeReg_withMoves, settle_withMoves]

theorem memRead_withMoves (ms : List Move) (a : Word) (s : State) :
    memRead a (withMoves ms s) = (memRead a s).map fun p => (p.1, withMoves ms p.2) := by
  have e : (withMoves ms s).par = s.par := rfl
  simp only [memRead, e, Option.map_map]
  cases regAt s.par a with
  | none => rfl
  | some r => simp [readReg_withMoves]

theorem withValue_withMoves {α : Type} (ms : List Move) (q : SeqId) (e : LExpr α) (s : State) {k k' : α → Result}
    (h : ∀ a, k' a = resultWithMoves ms (k a)) : withValue q e (withMoves ms s) k' = resultWithMoves ms (withValue q e s k) := by
  simp only [withValue, seqOf_withMoves]
  cases e (seqOf s q).x with
  | none => rfl
  | some a => exact h a

theorem withRead_withMoves (ms : List Move) (r : Reg) (s : State) {k k' : Word → State → Result}
    (h : ∀ v u, k' v (withMoves ms u) = resultWithMoves ms (k v u)) :
    withRead r (withMoves ms s) k' = resultWithMoves ms (withRead r s k) := by
  have e : (withMoves ms s).par = s.par := rfl
  simp only [withRead, e, memRead_withMoves]
  cases memRead (regAddr s.par r) s with
  | none => rfl
  | some p => exact h p.1 p.2

theorem withWrite_withMoves (ms : List Move) (r : Reg) (v : Word) (s : State) {k k' : State → Result}
    (h : ∀ u, k' (withMoves ms u) = resultWithMoves ms (k u)) :
    withWrite r v (withMoves ms s) k' = resultWithMoves ms (withWrite r v s k) := by
  have e : (withMoves ms s).par = s.par := rfl
  simp only [withWrite, e, memWrite_withMoves]
  cases memWrite (regAddr s.par r) v s with
  | none => rfl
  | some u => exact h u

theorem advance_withMoves (ms : List Move) (q : SeqId) (n : Nat) (s : State) :
    advance q n (withMoves ms s) = withMoves ms (advance q n s) := by
  simp only [advance, seqOf_withMoves, setSeq_withMoves]

/-- A micro-op under another schedule is the same micro-op (R88: no micro-op names the schedule). -/
theorem runMicroOp_withMoves (ms : List Move) (q : SeqId) (m : MicroOp) (s : State) :
    runMicroOp q m (withMoves ms s) = resultWithMoves ms (runMicroOp q m s) := by
  have adv (n : Nat) (u : State) := advance_withMoves ms q n u
  have stepped (n : Nat) (u : State) :
      (Host.Outcome.next (advance q n (withMoves ms u)) : Result) = resultWithMoves ms (.next (advance q n u)) := by
    rw [adv]; rfl
  match m with
  | .check c =>
    refine withValue_withMoves ms q c s fun ok => ?_
    cases ok
    · simp [complete, setSeq_withMoves, resultWithMoves]
    · exact stepped 1 s
  | .calc i e => exact withValue_withMoves ms q e s fun v => by simp [setLatchAdvance, setSeq_withMoves, resultWithMoves]
  | .wr r e => exact withValue_withMoves ms q e s fun v => withWrite_withMoves ms r v s (stepped 1)
  | .rd i r => exact withRead_withMoves ms r s fun v u => by simp [setLatchAdvance, setSeq_withMoves, resultWithMoves]
  | .rmw r em ev =>
    exact withValue_withMoves ms q em s fun m => withValue_withMoves ms q ev s fun v =>
      withRead_withMoves ms r s fun old u => withWrite_withMoves ms r (blend m old v) u (stepped 1)
  | .isrSetInit b => exact withWrite_withMoves ms .isr _ s (stepped 1)
  | .isrClr e =>
    exact withValue_withMoves ms q e s fun m =>
      withRead_withMoves ms .isr s fun v u => withWrite_withMoves ms .isr (isrClearWord m v) u (stepped 1)
  | .poll r a b =>
    refine withRead_withMoves ms r s fun v u => ?_
    split
    · exact stepped 1 u
    · rfl
  | .skipIf r a b n => exact withRead_withMoves ms r s fun v u => stepped _ u
  | .faultIf c code =>
    refine withValue_withMoves ms q c s fun bad => ?_
    cases bad
    · exact stepped 1 s
    · simp only [raiseFault, seqOf_withMoves]; rfl
  | .res e => exact withValue_withMoves ms q e s fun v => by simp [setSeq_withMoves, resultWithMoves]
  | .construct c => exact stepped 1 { s with constructed := true, clkSrc := some c }
  | .done => simp [runMicroOp, complete, setSeq_withMoves, resultWithMoves]

/-- A step of a sequencer under another schedule is the same step. -/
theorem seqStep_withMoves (ms : List Move) (q : SeqId) (s : State) :
    seqStep q (withMoves ms s) = resultWithMoves ms (seqStep q s) := by
  have e : (withMoves ms s).par = s.par := rfl
  simp only [seqStep, e, seqOf_withMoves]
  cases progOf s.par (seqOf s q).op with
  | none => rfl
  | some prog =>
    dsimp only
    cases prog[(seqOf s q).pc]? with
    | none => simp [setSeq_withMoves, resultWithMoves]
    | some m => exact runMicroOp_withMoves ms q m s

/-- Whose turn it is does not depend on the schedule (R167). -/
theorem turn_withMoves (ms : List Move) (s : State) : turn (withMoves ms s) = turn s := by
  have hn (q : SeqId) : nextMicroOp (withMoves ms s) q = nextMicroOp s q := by
    simp only [nextMicroOp, seqOf_withMoves]; rfl
  have hh (q : SeqId) : held (withMoves ms s) q = held s q := by
    have e : (withMoves ms s).par = s.par := rfl
    simp only [held, hn, e, memRead_withMoves]
    cases nextMicroOp s q with
    | none => rfl
    | some m =>
      cases m <;> try rfl
      case poll r a b => dsimp only; cases memRead (regAddr s.par r) s <;> rfl
  simp only [turn, hh]; rfl

end Sys2Proof.Machine
end

