-- ==== Sys2Proof/Tests/Slice0.lean ====
section
/-! SUPPORT. The model's own tests. Words are written out from the formats of R72 and the opcode map of R73; the expected values
of the one-step tests are those of spec/95_test_vectors.md. At the end, a witness for the hypotheses of every statement that has some. -/

set_option maxRecDepth 100000

namespace Sys2Proof.Tests

open Sys2Proof.Machine

/-! ### Well-formedness -/

/-- The one enumerated field with an undefined value, field select 7 (R76), is refused. -/
theorem test_wellFormed_field_select_7 : (Instr.bcdEncode 7 0).wellFormed = false := by decide
theorem test_wellFormed_field_select_6 : (Instr.bcdEncode 6 0).wellFormed = true := by decide

/-! ### Decoding -/

/-- What the decoder reads from a word, without its error. -/
def reads (w : Cmd) : Option Instr := decodeTableWord 64 w.toNat

/-- The calendar setters: opcode in the top byte, 40 reserved-zero bits or more, the operand below. -/
theorem test_decode_setters :
    reads (0b00000001#8 ++ 0#48 ++ 0b00111011#8) = some (.setSeconds 59) ∧
    reads (0b00000010#8 ++ 0#48 ++ 0b00000111#8) = some (.setMinutes 7) ∧
    reads (0b00000011#8 ++ 0#48 ++ 0b00010111#8) = some (.setHours 23) ∧
    reads (0b00000100#8 ++ 0#48 ++ 0b00000111#8) = some (.setWeekday 7) ∧
    reads (0b00000101#8 ++ 0#48 ++ 0b00011111#8) = some (.setDay 31) ∧
    reads (0b00000110#8 ++ 0#48 ++ 0b00001100#8) = some (.setMonth 12) ∧
    reads (0b00000111#8 ++ 0#40 ++ 0b0000100000010101#16) = some (.setYear 2069) := by decide

/-- Formats D, T, N and P: the year, the synchronous prescaler in the low 16 bits, the other operands above. -/
theorem test_decode_dates :
    reads (0b00001000#8 ++ 0#24 ++ 0b00011101#8 ++ 0b00000010#8 ++ 0b0000011111101000#16) = some (.setDate 2024 2 29) ∧
    reads (0b00001001#8 ++ 0b00111010#8 ++ 0b00111011#8 ++ 0b00010111#8 ++ 0b00011101#8 ++ 0b00000010#8
      ++ 0b0000011111101000#16) = some (.setDatetime 2024 2 29 23 59 58) ∧
    reads (0b00001010#8 ++ 0#56) = some .getDatetime ∧
    reads (0b00001011#8 ++ 0#32 ++ 0b01111111#8 ++ 0b0000000011111001#16) = some (.setPrescalers 249 127) := by decide

/-- Format W: 32 bits of interval. -/
theorem test_decode_wakeup :
    reads (0b00010000#8 ++ 0#24 ++ 0b00000000000000010000000000000001#32) = some (.enableWakeup 65537) ∧
    reads (0b00010001#8 ++ 0#56) = some .disableWakeup ∧
    reads (0b00010010#8 ++ 0#24 ++ 0b10000000000000000000000000001010#32) = some (.wakeupTimer 0x8000000A) := by decide

/-- Formats E and L: two bits of event, eight of line. -/
theorem test_decode_router :
    reads (0b00100000#8 ++ 0#54 ++ 0b10#2) = some (.listen .wakeup) ∧
    reads (0b00100001#8 ++ 0#54 ++ 0b01#2) = some (.unpendEvent .alarmB) ∧
    reads (0b00100010#8 ++ 0#48 ++ 0b00010001#8) = some (.pendLine 17) ∧
    reads (0b00100011#8 ++ 0#48 ++ 0b00010100#8) = some (.unpendLine 20) ∧
    reads (0b00100100#8 ++ 0#48 ++ 0b11111111#8) = some (.isPendingLine 255) := by decide

/-- Formats C and K: the field select above the value; tens above units. -/
theorem test_decode_codec :
    reads (0b00110000#8 ++ 0#45 ++ 0b110#3 ++ 0b01100011#8) = some (.bcdEncode 6 99) ∧
    reads (0b00110001#8 ++ 0#48 ++ 0b1001#4 ++ 0b0101#4) = some (.bcdDecode 9 5) := by decide

/-- Formats BL and P: bypass in bit 24. -/
theorem test_decode_bringup :
    reads (0b01000000#8 ++ 0#31 ++ 0b1#1 ++ 0b01111111#8 ++ 0b0000000011111111#16) = some (.bringupLse 1 255 127) ∧
    reads (0b01000001#8 ++ 0#32 ++ 0b01111111#8 ++ 0b0000000011111001#16) = some (.bringupLsi 249 127) := by decide

/-- An unassigned opcode, a reserved-zero bit set, an undefined field select (vectors RF-1 to RF-3, CAL-E11). -/
theorem test_decode_illegal :
    decode 0x0C00000000000000 = .error .unassignedOpcode ∧ decode 0 = .error .unassignedOpcode ∧
    decode 0x0100000000000100 = .error .reservedBitSet ∧ decode 0x0A00000000000001 = .error .reservedBitSet ∧
    decode 0x3000000000000700 = .error .undefinedField := by decide

/-- The assembler expands a pseudo-instruction (R79) and rejects an operand that does not fit (R78). -/
theorem test_assemble : assemble "BRINGUP_LSE_DEFAULT" [.num 1] = some (.bringupLse 1 255 127) ∧
    assemble "SET_SECONDS" [.num 256] = none := by decide

/-! ### States -/

/-- The parameters of spec/95_test_vectors.md section 0. -/
def par : Params := { Params.default with domrstBit := 23, rtcselLsb := 16 }

/-- S0 of spec/95_test_vectors.md. -/
def s0 : State := { State.reset with par := par }

/-- S1 of spec/95_test_vectors.md. -/
def s1 : State :=
  { s0 with
    calTr := 0x00235958, calDr := 0x00542229, rtcIsr := 0x27, pwrCr := 0x100, apb1enr := 0x10000000, rccCsr := 0x00410300
    constructed := true, clkSrc := some .lse }

/-- The draws that release the two polls of an init transaction. -/
def initMoves : List Move := [.env .initfSet, .env .initfClear]

/-- A state with a schedule. -/
def sched (s : State) (ms : List Move) : State := { s with moves := ms }

/-- The same port addressed to the IRQ sequencer. -/
def onIrq (s : State) : State := { s with port := ⟨.irq, none⟩ }

/-- A property of the next state. -/
def after (r : Result) (p : State → Bool) : Bool :=
  match r with
  | .next t => p t
  | .fault _ => false
  | .refused _ => false

/-- What `after` found is a next state. -/
theorem next_of_after {r : Result} {p : State → Bool} (h : after r p = true) : ∃ t, r = .next t ∧ p t = true := by
  cases r with
  | next t => exact ⟨t, rfl, h⟩
  | fault _ => cases h
  | refused _ => cases h

/-- Completed with a status, no mark set. -/
def completed (st : Byte) (t : State) : Bool := !t.owner.busy && t.owner.status == st && t.faultCode == 0 && t.refusedReason == 0

/-! ### The fetch -/

/-- The word placed by `withFetchWord` is what the next step runs: a BCD_ENCODE from reset (CAL-E1). -/
theorem test_step_runs_fetch_word :
    after (step (State.reset.withFetchWord 64 0x300000000000003B)) (fun t => completed 0 t && t.owner.res == 0x59) = true := by
  decide

/-! ### Calendar -/

/-- Section 1.3, set_seconds(59). -/
theorem test_setSeconds_59 : after (exec (.setSeconds 59) (sched s1 initMoves)) (fun t =>
    completed 0 t && t.calTr == 0x00235959 && t.rtcIsr == 7 && t.wp == .locked) = true := by decide
/-- TX-15. -/
theorem test_setSeconds_60 : after (exec (.setSeconds 60) s1) (fun t => completed 1 t && t.calTr == s1.calTr && t.wp == .locked)
    = true := by decide
/-- CAL-S2. -/
theorem test_setMinutes_7 : after (exec (.setMinutes 7) (sched s1 initMoves)) (fun t => completed 0 t && t.calTr == 0x00230758)
    = true := by decide
/-- CAL-S3: PM is cleared. -/
theorem test_setHours_23 : after (exec (.setHours 23) (sched { s1 with calTr := 0x00410000 } initMoves)) (fun t =>
    completed 0 t && t.calTr == 0x00230000) = true := by decide
/-- Section 1.3, set_weekday(7). -/
theorem test_setWeekday_7 : after (exec (.setWeekday 7) (sched s1 initMoves)) (fun t => completed 0 t && t.calDr == 0x0054E229)
    = true := by decide
/-- CAL-H1: the captured date is written back. -/
theorem test_setDay_15_stale : after (exec (.setDay 15) (sched { s1 with calDr := 0x00543301, drLock := some 0x00542229 } initMoves))
    (fun t => completed 0 t && t.calDr == 0x00542215 && t.drLock == none) = true := by decide
/-- Section 1.3, set_month(12). -/
theorem test_setMonth_12 : after (exec (.setMonth 12) (sched s1 initMoves)) (fun t => completed 0 t && t.calDr == 0x00543229)
    = true := by decide
/-- Section 1.3, set_year(2069); section 1.2, set_year(1969). -/
theorem test_setYear : after (exec (.setYear 2069) (sched s1 initMoves)) (fun t => completed 0 t && t.calDr == 0x00992229)
    = true ∧ after (exec (.setYear 1969) s1) (fun t => completed 1 t && t.calDr == s1.calDr) = true := by decide
/-- CAL-C1 and CAL-C2: leap years. -/
theorem test_setDate_leap : after (exec (.setDate 2023 2 29) s1) (fun t => completed 1 t && t.calDr == s1.calDr) = true ∧
    after (exec (.setDate 2000 2 29) (sched s1 initMoves)) (fun t => completed 0 t && t.calDr == 0x00302229) = true := by decide
/-- Program 1: SET_DATETIME of 2024-02-29 23:59:58. -/
theorem test_setDatetime : after (exec (.setDatetime 2024 2 29 23 59 58) (sched { s1 with calTr := 0, calDr := 0x2101 } initMoves))
    (fun t => completed 0 t && t.calTr == 0x00235958 && t.calDr == 0x00542229) = true := by decide
/-- R27 on the micro-programs of R137 and R138: past `END`, the second of two; past a `CHECK` that fails, the first. -/
theorem test_pc_after_completion : after (exec (.bcdDecode 9 9) s1) (fun t => completed 0 t && t.owner.pc == 2) = true ∧
    after (exec (.bcdEncode 0 80) s1) (fun t => completed 1 t && t.owner.pc == 1) = true := by decide
/-- CAL-G1. -/
theorem test_getDatetime : after (exec .getDatetime s1) (fun t => completed 0 t && t.owner.res == 0x003A3B171D0207E8
    && t.rtcIsr == 0x27) = true := by decide
/-- CAL-G4. -/
theorem test_getDatetime_fault : after (exec .getDatetime { s1 with calDr := 0x00542231 }) (fun t =>
    t.faultCode == 2 && t.faultWord == 0x0A00000000000000 && t.owner.busy && t.owner.pc == 10) = true := by decide
/-- BU-7: the prescalers are masked to their widths. -/
theorem test_setPrescalers : after (exec (.setPrescalers 0xFFFF 0xFF) (sched s1 initMoves)) (fun t =>
    completed 0 t && t.rtcPrer == 0x007F7FFF) = true := by decide
/-- TX-14: the setter whose environment takes no step waits unlocked. -/
theorem test_setter_waits : after (exec (.setSeconds 1) s1) (fun t => t.owner.busy && t.wp == .unlocked && t.rtcIsr == 0xA7
    && t.calTr == s1.calTr) = true := by decide

/-! ### Wakeup -/

/-- Section 1.5: the two sides of the interval boundary. -/
theorem test_enableWakeup_boundary :
    after (exec (.enableWakeup 65536) s1) (fun t => completed 0 t && t.rtcCr == 0x404 && t.rtcWutr == 0xFFFF) = true ∧
    after (exec (.enableWakeup 65537) s1) (fun t => completed 0 t && t.rtcCr == 0x406 && t.rtcWutr == 0) = true := by decide
/-- WK-5: the fault leaves the bracket open. -/
theorem test_enableWakeup_fault : after (exec (.enableWakeup 131073) s1) (fun t =>
    t.faultCode == 1 && t.rtcCr == 6 && t.rtcWutr == 0xFFFF && t.wp == .unlocked && t.owner.busy) = true := by decide
/-- WK-12. -/
theorem test_disableWakeup : after (exec .disableWakeup { s1 with rtcCr := 0x404, rtcWutr := 9, rtcIsr := 0x427 }) (fun t =>
    completed 0 t && t.rtcCr == 4 && t.rtcWutr == 9 && t.rtcIsr == 0x27) = true := by decide
/-- WK-7, and the raw low half of a wide operand. -/
theorem test_wakeupTimer : after (exec (.wakeupTimer 10) s1) (fun t => completed 0 t && t.rtcCr == 0x4404 && t.rtcWutr == 10)
    = true ∧ after (exec (.wakeupTimer 0x12345678) s1) (fun t => t.rtcWutr == 0x5678) = true := by decide

/-! ### Event router -/

/-- Section 1.6: AlarmB shares line 17; its enable is bit 13. -/
theorem test_listen_alarmB : after (exec (.listen .alarmB) s1) (fun t => completed 0 t && t.extiRtsr == 0x20000
    && t.extiImr == 0x20000 && t.rtcCr == 0x2000 && t.wp == .locked) = true := by decide
/-- EV-5: the flag was already set, so enabling it is an edge. -/
theorem test_listen_edge : after (exec (.listen .alarmA) { s1 with rtcIsr := 0x127 }) (fun t => t.extiPr == 0x20000) = true := by
  decide
/-- Section 1.6: UNPEND_EVENT AlarmA leaves AlarmB's flag. -/
theorem test_unpendEvent : after (exec (.unpendEvent .alarmA) { s1 with rtcIsr := 0x327, extiPr := 0x20000, pwrCsr := 1 })
    (fun t => completed 0 t && t.rtcIsr == 0x227 && t.extiPr == 0 && t.pwrCsr == 0) = true := by decide
/-- EV-9: with PWREN = 0 the wakeup flag stays, and the interrupt context may issue it. -/
theorem test_unpendEvent_irq : after (exec (.unpendEvent .timestamp) (onIrq { s0 with rtcIsr := 0x807, extiPr := 0x80000, pwrCsr := 1 }))
    (fun t => !t.irq.busy && t.rtcIsr == 7 && t.extiPr == 0 && t.pwrCsr == 1) = true := by decide
/-- EV-10 and EV-11: a masked line takes the SWIER bit only. -/
theorem test_pendLine : after (exec (.pendLine 17) { s1 with extiImr := 0x20000 }) (fun t => t.extiSwier == 0x20000
    && t.extiPr == 0x20000) = true ∧ after (exec (.pendLine 17) s1) (fun t => t.extiSwier == 0x20000 && t.extiPr == 0) = true := by
  decide
/-- EV-13: the first line that does not exist. -/
theorem test_pendLine_24 : after (exec (.pendLine 24) s1) (fun t => t.faultCode == 3 && t.extiSwier == 0) = true := by decide
/-- EV-15. -/
theorem test_unpendLine : after (exec (.unpendLine 17) { s1 with extiPr := 0x120000 }) (fun t => completed 0 t
    && t.extiPr == 0x100000) = true := by decide
/-- EV-16 and EV-17. -/
theorem test_isPendingLine : after (exec (.isPendingLine 17) { s1 with extiPr := 0x20000 }) (fun t => t.owner.res == 1) = true ∧
    after (exec (.isPendingLine 20) { s1 with extiPr := 0x20000 }) (fun t => completed 0 t && t.owner.res == 0) = true := by decide

/-! ### Codec, bring-up, refusals -/

/-- CAL-E7 and CAL-E8: the codec checks widths, not domains. -/
theorem test_bcdEncode : after (exec (.bcdEncode 5 20) s0) (completed 1) = true ∧
    after (exec (.bcdEncode 2 30) s0) (fun t => completed 0 t && t.owner.res == 0x30) = true := by decide
/-- CAL-D1. -/
theorem test_bcdDecode : after (exec (.bcdDecode 15 15) s0) (fun t => completed 0 t && t.owner.res == 165) = true := by decide
/-- BU-2. -/
theorem test_bringupLse : after (exec (.bringupLse 1 255 127) (sched s0 (.env .lserdySet :: initMoves))) (fun t =>
    completed 0 t && t.rccCsr == 0x00410700 && t.constructed && t.rtcPrer == 0x007F00FF && t.clkSrc == some .lse) = true := by
  decide
/-- BU-3. -/
theorem test_bringupLsi : after (exec (.bringupLsi 249 127) (sched s0 (.env .lsirdySet :: initMoves))) (fun t =>
    completed 0 t && t.rccCsr == 0x00420003 && t.rtcPrer == 0x007F00F9 && t.clkSrc == some .lsi) = true := by decide
/-- RF-4 and RF-6. -/
theorem test_refusals : after (exec (.setSeconds 5) (onIrq s1)) (fun t => t.refusedReason == 2 && !t.irq.busy) = true ∧
    after (exec (.setSeconds 5) s0) (fun t => t.refusedReason == 3 && t.refusedWord == 0x0100000000000005) = true := by decide

/-- TX-2 to TX-5: the key sequences. -/
theorem test_keys : keyStep (keyStep .locked 0xCA) 0x53 = .unlocked ∧ keyStep .locked 0x53 = .locked ∧
    keyStep (keyStep (keyStep .locked 0xCA) 0xCA) 0x53 = .unlocked ∧
    keyStep (keyStep (keyStep .locked 0xCA) 0x00) 0x53 = .locked := by decide

/-! ### Witnesses: sound states -/

theorem regsOk_of {s : State} (hl : ∀ v, s.drLock = some v → v &&& ~~~drMask = 0#32)
    (h : (paramsOk s.par && s.calTr &&& ~~~trMask == 0#32 && s.calDr &&& ~~~drMask == 0#32
      && s.rtcCr &&& ~~~crMask == 0#32 && s.rtcIsr &&& ~~~isrMask == 0#32 && s.rtcPrer &&& ~~~prerMask s.par == 0#32
      && s.rtcWutr &&& ~~~wutrMask == 0#32 && s.extiImr &&& ~~~lineMask s.par == 0#32 && s.extiEmr &&& ~~~lineMask s.par == 0#32
      && s.extiRtsr &&& ~~~lineMask s.par == 0#32 && s.extiFtsr &&& ~~~lineMask s.par == 0#32
      && s.extiSwier &&& ~~~lineMask s.par == 0#32 && s.extiPr &&& ~~~lineMask s.par == 0#32 && !s.pwrCr.getLsbD 2
      && holdDomain s == s && s.lvl == levelsOf s) = true) : RegsOk s := by
  simp only [Bool.and_eq_true, beq_iff_eq, Bool.not_eq_true'] at h
  obtain ⟨⟨⟨⟨⟨⟨⟨⟨⟨⟨⟨⟨⟨⟨⟨a, b⟩, c⟩, d⟩, e⟩, f⟩, g⟩, i⟩, j⟩, k⟩, l⟩, m⟩, n⟩, o⟩, p⟩, q⟩ := h
  exact ⟨a, b, c, hl, d, e, f, g, i, j, k, l, m, n, o, p, q⟩

/-- S1 without the sequencers in play: registers sound. -/
theorem regs_s1 : RegsOk s1 := regsOk_of (fun _ e => nomatch e) (by decide)
theorem regs_s0 : RegsOk s0 := regsOk_of (fun _ e => nomatch e) (by decide)

/-- S1 unlocked in init mode, with the flags and enables of every event set. -/
def rich : State :=
  { s1 with
    wp := .unlocked, rtcIsr := 0xFE7, rtcCr := 0xFB00, lvl := ⟨true, true, true⟩, drLock := some 0x00542229, pwrCsr := 1 }
theorem regs_rich : RegsOk rich := regsOk_of (fun v e => by cases e; decide) (by decide)

/-- S1 with the domain-reset bit held. -/
def heldState : State := holdDomain { s1 with rccCsr := 0x00C10300, constructed := false, clkSrc := none }
theorem regs_held : RegsOk heldState := regsOk_of (fun _ e => nomatch e) (by decide)

/-- Other moves change nothing of the registers. -/
theorem regs_sched {s : State} (h : RegsOk s) (ms : List Move) : RegsOk (sched s ms) :=
  ⟨h.params, h.tr, h.dr, h.lock, h.cr, h.isr, h.prer, h.wutr, h.imr, h.emr, h.rtsr, h.ftsr, h.swier, h.pr, h.cwuf, by
    have := h.held
    unfold holdDomain at this ⊢
    split at this
    · rw [if_pos ‹_›]; exact congrArg (fun t : State => { t with moves := ms }) this
    · rw [if_neg ‹_›], h.levels⟩

theorem live_s1 : domainHeld s1 = false := by decide
theorem ownerReady_s1 (ms : List Move) : OwnerReady (sched s1 ms) :=
  ⟨regs_sched regs_s1 ms, live_s1, rfl, rfl, rfl, rfl, rfl⟩
theorem contextReady_s1 (ms : List Move) : ContextReady .owner (sched s1 ms) := ⟨regs_sched regs_s1 ms, rfl, rfl, rfl, rfl, rfl⟩

/-- The IRQ sequencer is addressed while OWNER waits in a setter. -/
def irqState : State := onIrq { s1 with owner := { s1.owner with busy := true, op := 1, word := 0x0100000000000001, pc := 3, x := loadedLatches (.setSeconds 1) } }
theorem contextReady_irq : ContextReady .irq irqState :=
  ⟨regsOk_of (fun _ e => nomatch e) (by decide), rfl, rfl, rfl, rfl, rfl⟩

theorem initServed_s1 (rest : List Move) (h : Waits .owner rest) : InitServed (sched s1 (initMoves ++ rest)) rest :=
  ⟨by simp [sched, initMoves, initDraws, initf, s1], h, fun e => absurd e (by simp [sched, initf, s1])⟩

/-- S1 with init mode already held (TX-13). -/
def inInitState : State := { s1 with rtcIsr := 0xE7, moves := [.env .initfClear, .await .owner, .hostRead] }
theorem ownerReady_inInit : OwnerReady inInitState := ⟨regsOk_of (fun _ e => nomatch e) (by decide), by decide, rfl, rfl, rfl, rfl, rfl⟩
theorem initServed_inInit : InitServed inInitState [.await .owner, .hostRead] := ⟨rfl, .inr ⟨_, rfl⟩, by decide⟩

theorem wakeServed_s1 : WakeServed (sched s1 []) [] := ⟨rfl, .inl rfl⟩
/-- S1 with WUTWF = 0: the draw comes first. -/
def noWutwf : State := { s1 with rtcIsr := 0x23, moves := [.env .wutwfSet] }
theorem ownerReady_noWutwf : OwnerReady noWutwf := ⟨regsOk_of (fun _ e => nomatch e) (by decide), by decide, rfl, rfl, rfl, rfl, rfl⟩
theorem wakeServed_noWutwf : WakeServed noWutwf [] := ⟨rfl, .inl rfl⟩

/-- A sequencer with no command in flight. -/
theorem seqOk_idle {p : Params} {q : SeqId} {c : Seq} (hs : c.status.toNat ≤ 1) (hb : c.busy = false) : SeqOk p q c :=
  ⟨hs, fun h => by rw [hb] at h; cases h⟩

/-- A sequencer with a command just accepted. -/
theorem seqOk_loaded {p : Params} {q : SeqId} {c : Seq} {i : Instr} {prog : List MicroOp} (hs : c.status.toNat ≤ 1)
    (hw : decode c.word = .ok i) (ho : c.op = opcode i) (hc : contextAllows q i = true) (hp : progOf p c.op = some prog)
    (hl : 0 < prog.length) (hx : c.x = loadedLatches i) (hpc : c.pc = 0) : SeqOk p q c :=
  ⟨hs, fun _ => ⟨i, prog, hw, ho, hc, hp, by omega, fun j v h => by rw [hx]; exact h, fun k m j hk => by omega⟩⟩

theorem machineOk_of {s : State} (hr : RegsOk s) (ho : SeqOk s.par .owner s.owner) (hi : SeqOk s.par .irq s.irq)
    (h : (decide (s.faultCode.toNat ≤ 3) && (s.faultCode == 0 || (seqOf s s.faultSeq).busy && s.faultWord == (seqOf s s.faultSeq).word)
      && decide (s.refusedReason.toNat ≤ 5) && s.constructed == s.clkSrc.isSome) = true) : MachineOk s := by
  simp only [Bool.and_eq_true, Bool.or_eq_true, beq_iff_eq, decide_eq_true_eq] at h
  obtain ⟨⟨⟨h1, h2⟩, h3⟩, h4⟩ := h
  exact ⟨hr, ho, hi, h1, fun hf => by
    rcases h2 with h2 | h2
    · simp [faulted, h2] at hf
    · exact h2, h3, h4⟩

theorem machine_s1 (ms : List Move) : MachineOk (sched s1 ms) :=
  machineOk_of (regs_sched regs_s1 ms) (seqOk_idle (Nat.zero_le 1) rfl) (seqOk_idle (Nat.zero_le 1) rfl) rfl

/-- BCD_DECODE accepted on the IRQ sequencer of S1. -/
def irqBusy : State := { s1 with irq := { s1.irq with busy := true, op := 0x31, word := 0x3100000000000095, x := loadedLatches (.bcdDecode 9 5) } }
theorem machine_irqBusy : MachineOk irqBusy :=
  machineOk_of (regsOk_of (fun _ e => nomatch e) (by decide)) (seqOk_idle (by decide) rfl)
    (seqOk_loaded (i := .bcdDecode 9 5) (prog := progBcdDecode) (by decide) rfl rfl rfl rfl (by decide) rfl rfl) (by decide)

/-- SET_SECONDS at its write of RTC_TR (micro-op 8), in init mode, unlocked. -/
def atBody : State :=
  { s1 with
    wp := .unlocked, rtcIsr := 0xC7
    owner := { s1.owner with busy := true, op := 1, word := 0x010000000000003B, pc := 8, x := { loadedLatches (.setSeconds 59) with x6 := some 0x59 } } }
theorem machine_atBody : MachineOk atBody := by
  refine machineOk_of (regsOk_of (fun _ e => nomatch e) (by decide)) ⟨by decide, fun _ => ?_⟩ (seqOk_idle (by decide) rfl)
    (by decide)
  refine ⟨.setSeconds 59, progSetSeconds, rfl, rfl, rfl, rfl, by decide, ?_, ?_⟩
  · intro j v h
    match j, h with
    | 0, h => exact h
    | 1, h | 2, h | 3, h | 4, h | 5, h | 6, h | 7, h | n + 8, h => cases h
  · intro k m j hk hm hw
    have hk : k < 8 := hk
    interval_cases k <;> cases hm <;> first | (cases hw; done) | (cases hw; rfl)

/-- BRINGUP_LSE at its CONSTRUCT (micro-op 21), before construction. -/
def atConstruct : State :=
  { s1 with
    constructed := false, clkSrc := none
    owner := { s1.owner with busy := true, op := 0x40, word := 0x40000000007F00FF, pc := 21, x := loadedLatches (.bringupLse 0 255 127) } }
theorem machine_atConstruct : MachineOk atConstruct := by
  refine machineOk_of (regsOk_of (fun _ e => nomatch e) (by decide)) ⟨by decide, fun _ => ?_⟩ (seqOk_idle (by decide) rfl)
    (by decide)
  refine ⟨.bringupLse 0 255 127, progBringupLse par, rfl, rfl, rfl, rfl, by decide, fun _ _ h => h, ?_⟩
  intro k m j hk hm hw
  have hk : k < 21 := hk
  interval_cases k <;> cases hm <;> cases hw

/-- A fault recorded on OWNER (WK-4), and a refusal. -/
def faultedState : State :=
  { s1 with
    wp := .unlocked, rtcCr := 4, faultCode := 1, faultSeq := .owner, faultWord := 0x1000000000000000
    owner := { s1.owner with busy := true, op := 0x10, word := 0x1000000000000000, pc := 0, x := loadedLatches (.enableWakeup 0) } }
def refusedState : State := { s1 with refusedReason := 4, refusedWord := 0x40000000007F00FF }

/-! ### Witnesses of the hypotheses, in the statements' order -/

theorem witness_DecodeOfEncode : (Instr.setDatetime 2069 12 31 23 59 59).wellFormed = true ∧ (Instr.bcdEncode 6 99).wellFormed = true := by
  decide
theorem witness_EncodeOfDecode : decode 0x080000001D0207E8 = .ok (.setDate 2024 2 29) := rfl
theorem witness_LatchesHoldTheFormatFields : decode 0x40000000017F00FF = .ok (.bringupLse 1 255 127) := rfl
theorem witness_StepRunsTheDecodedCommand : paramsOk (s1.withFetchWord 64 0x010000000000003B).par = true ∧
    (s1.withFetchWord 64 0x010000000000003B).port.word = some 0x010000000000003B ∧
    decode 0x010000000000003B = .ok (.setSeconds 59) := ⟨by decide, rfl, rfl⟩

/-- A mark set; busy; illegal; the context; each side of the construction check, at the opcodes where they meet; accepted. -/
theorem witness_AcceptanceChecksInOrder :
    (faultedState.faultCode ≠ 0#8 ∧ refusedState.refusedReason ≠ 0#8) ∧
    (atBody.faultCode = 0#8 ∧ atBody.refusedReason = 0#8 ∧ (seqOf atBody .owner).busy = true) ∧
    (s0.faultCode = 0#8 ∧ s0.refusedReason = 0#8 ∧ (seqOf s0 .owner).busy = false ∧ (seqOf s0 .irq).busy = false) ∧
    legalWord 0x0C00000000000000 = false ∧
    (legalWord 0x2000000000000000 = true ∧ cmdField 0x2000000000000000 56 8 ∉ irqOpcodes) ∧
    (legalWord 0x2100000000000000 = true ∧ cmdField 0x2100000000000000 56 8 ∈ irqOpcodes) ∧
    (cmdField 0x2000000000000000 56 8 ≤ 0x20 ∧ s0.constructed = false) ∧
    (0x40 ≤ cmdField 0x40000000007F00FF 56 8 ∧ legalWord 0x40000000007F00FF = true ∧ s1.constructed = true) ∧
    ¬cmdField 0x3100000000000095 56 8 ≤ 0x20 ∧ ¬0x40 ≤ cmdField 0x3100000000000095 56 8 := by decide

theorem witness_RefusedCommandOnlyMarks : verdict s0.port.seq (some (.setSeconds 5)) s0 = .refuse .notConstructed := by decide

theorem witness_OnlyBringupConstructs : MachineOk atConstruct ∧ atConstruct.constructed = false ∧
    (∃ t, tick atConstruct = .next t ∧ t.constructed = true) ∧
    verdict .owner (some (.bringupLse 0 255 127)) s0 = .accept ∧ verdict .owner (some (.bringupLsi 249 127)) s0 = .accept :=
  ⟨machine_atConstruct, rfl, next_of_after (p := fun t => t.constructed) (by decide), by decide, by decide⟩

theorem witness_KeySequence : RegsOk s1 ∧ domainHeld s1 = false := ⟨regs_s1, by decide⟩
theorem witness_LockedWritesAreIgnored : RegsOk s1 ∧ s1.wp ≠ .unlocked ∧ domainHeld s1 = false := ⟨regs_s1, by decide, by decide⟩

/-- Unlocked, in init mode or not, with WUTWF or without. -/
theorem witness_GuardedWrites : (RegsOk rich ∧ rich.wp = .unlocked ∧ initf rich = true ∧ wutwf rich = true) ∧
    ∃ s, RegsOk s ∧ s.wp = .unlocked ∧ initf s = false ∧ wutwf s = false :=
  ⟨⟨regs_rich, rfl, by decide, by decide⟩, { s1 with wp := .unlocked, rtcIsr := 0x23 },
    regsOk_of (fun _ e => nomatch e) (by decide), rfl, by decide, by decide⟩

theorem witness_IsrWriteForms : RegsOk rich ∧ rich.wp = .unlocked ∧ RegsOk s1 ∧ s1.wp ≠ .unlocked ∧
    (0xFF20#32 : Word) &&& ~~~isrKeep = 0#32 ∧ (0x3F80#32 : Word) &&& bit 7 = rich.rtcIsr &&& bit 7 :=
  ⟨regs_rich, rfl, regs_s1, by decide, by decide, by decide⟩

theorem witness_DateShadowLock : (RegsOk rich ∧ domainHeld rich = false ∧ rich.drLock = some 0x00542229 ∧ initf rich = true ∧
      rich.wp = .unlocked ∧ ∃ t, memWrite (regAddr rich.par .dr) 0x2101 rich = some t) ∧
    RegsOk (sched s1 [.env .calendarTick]) ∧ domainHeld s1 = false ∧ s1.drLock = none ∧
    initf (sched s1 [.env .calendarTick]) = false ∧ rtcEnabled (sched s1 [.env .calendarTick]) = true ∧
    ∃ t, tick (sched s1 [.env .calendarTick]) = .next t :=
  ⟨⟨regs_rich, by decide, rfl, by decide, rfl, _, rfl⟩, regs_sched regs_s1 _, by decide, rfl, by decide, by decide,
    (next_of_after (p := fun t => t.faultCode == 0) (by decide)).imp fun _ h => h.1⟩

theorem witness_SoftwarePend : RegsOk s1 := regs_s1
theorem witness_PowerGates : (RegsOk s1 ∧ pwren s1 = true ∧ dbp s1 = true ∧ (0x1#32 : Word).getLsbD s1.par.domrstBit = false) ∧
    RegsOk s0 ∧ pwren s0 = false ∧ dbp s0 = false := ⟨⟨regs_s1, by decide, by decide, by decide⟩, regs_s0, by decide, by decide⟩

theorem witness_BackupDomainReset : (RegsOk s1 ∧ dbp s1 = true ∧ (0x00800000#32 : Word).getLsbD s1.par.domrstBit = true) ∧
    MachineOk heldState ∧ domainHeld heldState = true ∧ ∃ t, tick heldState = .next t ∧ domainHeld t = true :=
  ⟨⟨regs_s1, by decide, by decide⟩,
    machineOk_of regs_held (seqOk_idle (by decide) rfl) (seqOk_idle (by decide) rfl) (by decide), by decide,
    next_of_after (p := fun t => domainHeld t) (by decide)⟩

/-- Each draw where its condition holds. -/
theorem witness_EnvironmentDraws : RegsOk rich ∧ RegsOk s1 ∧ RegsOk s0 ∧ s1.port.word = none ∧
    (sched s1 [.env .initfSet]).moves = .env .initfSet :: [] ∧
    (initBit { s1 with rtcIsr := 0xA7 } = true ∧ initf { s1 with rtcIsr := 0xA7 } = false) ∧
    (initBit { s1 with rtcIsr := 0x47 } = false ∧ initf { s1 with rtcIsr := 0x47 } = true) ∧
    (initf s1 = false ∧ rtcEnabled s1 = true) ∧
    (wute { s1 with rtcIsr := 0x23 } = false ∧ wutwf { s1 with rtcIsr := 0x23 } = false) ∧
    (wute { s1 with rtcCr := 0x400 } = true ∧ wutwf { s1 with rtcCr := 0x400 } = true) ∧
    (alrae rich = true ∧ alrbe rich = true ∧ tse rich = true) ∧
    (lseon { s0 with rccCsr := 0x100 } = true ∧ lserdy { s0 with rccCsr := 0x100 } = false) ∧
    (lseon { s0 with rccCsr := 0x200 } = false ∧ lserdy { s0 with rccCsr := 0x200 } = true) ∧
    (lsion { s0 with rccCsr := 0x1 } = true ∧ lsirdy { s0 with rccCsr := 0x1 } = false) ∧
    (lsion { s0 with rccCsr := 0x2 } = false ∧ lsirdy { s0 with rccCsr := 0x2 } = true) :=
  ⟨regs_rich, regs_s1, regs_s0, rfl, rfl, by decide, by decide, by decide, by decide, by decide, by decide, by decide,
    by decide, by decide, by decide⟩

/-- Each draw where its condition does not hold, one part of it at a time, in sound states; a step is answered there. -/
theorem witness_EnvironmentDraws_blocked :
    (initBit s1 = false ∧ initf { s1 with rtcIsr := 0x47 } = true ∧ initBit { s1 with rtcIsr := 0xA7 } = true ∧ initf s1 = false) ∧
    rtcEnabled s0 = false ∧ (wute s1 = false ∧ wutwf s1 = true ∧ wute { s1 with rtcCr := 0x400 } = true ∧
      wutwf { s1 with rtcIsr := 0x23 } = false) ∧
    (alrae s1 = false ∧ alrbe s1 = false ∧ tse s1 = false) ∧ (lseon s0 = false ∧ lserdy s1 = true ∧ lseon s1 = true ∧ lserdy s0 = false) ∧
    (lsion s0 = false ∧ lsirdy { s0 with rccCsr := 0x2 } = true ∧ lsion { s0 with rccCsr := 0x1 } = true ∧ lsirdy s0 = false) ∧
    ∃ t, step (sched s1 [.env .initfSet]) = .next t :=
  ⟨by decide, by decide, by decide, by decide, by decide, by decide,
    (next_of_after (p := fun t => t.faultCode == 0) (by decide)).imp fun _ h => h.1⟩

/-- The states of `witness_EnvironmentDraws` are sound. -/
theorem witness_EnvironmentDraws_sound : RegsOk { s1 with rtcIsr := 0xA7 } ∧ RegsOk { s1 with rtcIsr := 0x47 } ∧
    RegsOk { s1 with rtcIsr := 0x23 } ∧ RegsOk { s1 with rtcCr := 0x400 } ∧ RegsOk { s0 with rccCsr := 0x100 } ∧
    RegsOk { s0 with rccCsr := 0x200 } ∧ RegsOk { s0 with rccCsr := 0x1 } ∧ RegsOk { s0 with rccCsr := 0x2 } :=
  ⟨regsOk_of (fun _ e => nomatch e) (by decide), regsOk_of (fun _ e => nomatch e) (by decide),
    regsOk_of (fun _ e => nomatch e) (by decide), regsOk_of (fun _ e => nomatch e) (by decide),
    regsOk_of (fun _ e => nomatch e) (by decide), regsOk_of (fun _ e => nomatch e) (by decide),
    regsOk_of (fun _ e => nomatch e) (by decide), regsOk_of (fun _ e => nomatch e) (by decide)⟩

theorem witness_CalendarChangesOnlyByTickOrInitMode : MachineOk atBody ∧ ∃ t, tick atBody = .next t ∧ (t.calTr != atBody.calTr) = true :=
  ⟨machine_atBody, next_of_after (p := fun t => t.calTr != atBody.calTr) (by decide)⟩

theorem witness_InitfChangesOnlyByItsDraws : MachineOk { s1 with rtcIsr := 0xA7, moves := [.env .initfSet] } ∧
    ∃ t, tick { s1 with rtcIsr := 0xA7, moves := [.env .initfSet] } = .next t ∧
      (initf t != initf { s1 with rtcIsr := 0xA7, moves := [.env .initfSet] }) = true :=
  ⟨machineOk_of (regsOk_of (fun _ e => nomatch e) (by decide)) (seqOk_idle (by decide) rfl) (seqOk_idle (by decide) rfl) (by decide),
    next_of_after (p := fun t => initf t != initf { s1 with rtcIsr := 0xA7, moves := [.env .initfSet] }) (by decide)⟩

/-- What a reset draws, here all zero. -/
def zeroDraw : ResetDraw := ⟨0, 0, 0, 0, 0, 0⟩
theorem witness_BlockReset : paramsOk (sched faultedState [.blockReset]).par = true ∧ (sched faultedState [.blockReset]).port.word = none ∧
    (sched faultedState [.blockReset]).moves = .blockReset :: [] := ⟨by decide, rfl, rfl⟩
theorem witness_SystemReset : RegsOk (sched s1 [.systemReset zeroDraw]) ∧ (sched s1 [.systemReset zeroDraw]).port.word = none ∧
    (sched s1 [.systemReset zeroDraw]).moves = .systemReset zeroDraw :: [] := ⟨regs_sched regs_s1 _, rfl, rfl⟩
theorem witness_PowerOnReset : paramsOk (sched rich [.powerOn zeroDraw]).par = true ∧ (sched rich [.powerOn zeroDraw]).port.word = none :=
  ⟨by decide, rfl⟩

/-- The setters, with init mode to be entered and with init mode found active; the operands at the ends of their domains. -/
theorem witness_TimeSettersComplete : (OwnerReady (sched s1 (initMoves ++ [])) ∧ s1.constructed = true ∧
      InitServed (sched s1 (initMoves ++ [])) []) ∧ (OwnerReady inInitState ∧ inInitState.constructed = true ∧
      InitServed inInitState [.await .owner, .hostRead]) ∧ (0#8 : BitVec 8).toNat ≤ 23 ∧ (59#8 : BitVec 8).toNat ≤ 59 ∧
      (23#8 : BitVec 8).toNat ≤ 23 :=
  ⟨⟨ownerReady_s1 _, rfl, initServed_s1 [] (.inl rfl)⟩, ⟨ownerReady_inInit, rfl, initServed_inInit⟩, by decide, by decide, by decide⟩
theorem witness_DateSettersComplete : OwnerReady (sched s1 (initMoves ++ [])) ∧ InitServed (sched s1 (initMoves ++ [])) [] ∧
    (1 ≤ (7#8 : BitVec 8).toNat ∧ (7#8 : BitVec 8).toNat ≤ 7) ∧ (1 ≤ (31#8 : BitVec 8).toNat ∧ (31#8 : BitVec 8).toNat ≤ 31) ∧
    (1 ≤ (12#8 : BitVec 8).toNat ∧ (12#8 : BitVec 8).toNat ≤ 12) ∧ (1 ≤ (1#8 : BitVec 8).toNat ∧ (1#8 : BitVec 8).toNat ≤ 7) ∧
    (1970 ≤ (1970#16 : BitVec 16).toNat ∧ (2069#16 : BitVec 16).toNat ≤ 2069) :=
  ⟨ownerReady_s1 _, initServed_s1 [] (.inl rfl), by decide, by decide, by decide, by decide, by decide⟩
theorem witness_CombinedSettersComplete : OwnerReady (sched s1 (initMoves ++ [])) ∧ InitServed (sched s1 (initMoves ++ [])) [] ∧
    1970 ≤ (2024#16 : BitVec 16).toNat ∧ (2024#16 : BitVec 16).toNat ≤ 2069 ∧ 1 ≤ (2#8 : BitVec 8).toNat ∧
    (2#8 : BitVec 8).toNat ≤ 12 ∧ 1 ≤ (29#8 : BitVec 8).toNat ∧
    (29#8 : BitVec 8).toNat ≤ daysIn (2024#16 : BitVec 16).toNat (2#8 : BitVec 8).toNat ∧ (23#8 : BitVec 8).toNat ≤ 23 ∧
    (59#8 : BitVec 8).toNat ≤ 59 ∧ (0#8 : BitVec 8).toNat ≤ 59 :=
  ⟨ownerReady_s1 _, initServed_s1 [] (.inl rfl), by decide, by decide, by decide, by decide, by decide, by decide, by decide, by decide,
    by decide⟩
theorem witness_InvalidInputTouchesNothing : OwnerReady (sched s1 []) ∧ s1.constructed = true ∧ Waits .owner (sched s1 []).moves ∧
    operandsInDomain (.setSeconds 60) = false ∧ operandsInDomain (.setHours 24) = false ∧ operandsInDomain (.setWeekday 0) = false ∧
    operandsInDomain (.setDay 32) = false ∧ operandsInDomain (.setMonth 13) = false ∧ operandsInDomain (.setYear 1969) = false ∧
    operandsInDomain (.setDate 2023 2 29) = false ∧ operandsInDomain (.setDatetime 2024 2 29 24 0 0) = false ∧
    operandsInDomain (.bcdEncode 5 20) = false ∧ operandsInDomain (.setMinutes 60) = false :=
  ⟨ownerReady_s1 _, rfl, .inl rfl, by decide, by decide, by decide, by decide, by decide, by decide, by decide, by decide, by decide,
    by decide⟩
theorem witness_SetPrescalersCompletes : OwnerReady inInitState ∧ inInitState.constructed = true ∧
    InitServed inInitState [.await .owner, .hostRead] := ⟨ownerReady_inInit, rfl, initServed_inInit⟩

/-- RSF found set and RSF to be drawn; a valid snapshot (the last valid day) and an invalid one (the day after, CAL-G4). -/
theorem witness_GetDatetimeReturnsOrFaults : (OwnerReady (sched s1 []) ∧ s1.constructed = true ∧ SnapServed (sched s1 []) []) ∧
    (OwnerReady { s1 with rtcIsr := 7, moves := [.env .rsfSet] } ∧ SnapServed { s1 with rtcIsr := 7, moves := [.env .rsfSet] } []) ∧
    (1970 + (regField s1.calDr 20 4 * 10 + regField s1.calDr 16 4) = 2024 ∧ regField s1.calDr 12 1 * 10 + regField s1.calDr 8 4 = 2 ∧
      regField s1.calDr 4 2 * 10 + regField s1.calDr 0 4 = daysIn 2024 2) ∧
    regField 0x00542230 4 2 * 10 + regField 0x00542230 0 4 = daysIn 2024 2 + 1 :=
  ⟨⟨ownerReady_s1 _, rfl, ⟨rfl, .inl rfl, by decide⟩⟩,
    ⟨⟨regsOk_of (fun _ e => nomatch e) (by decide), by decide, rfl, rfl, rfl, rfl, rfl⟩, ⟨rfl, .inl rfl, by decide⟩⟩, by decide, by decide⟩
theorem witness_DateTimeRoundTrip : OwnerReady (sched s1 (initMoves ++ [])) ∧ s1.constructed = true ∧ rtcEnabled s1 = true ∧
    InitServed (sched s1 (initMoves ++ [])) [] ∧ operandsInDomain (.setDatetime 2069 12 31 23 59 59) = true :=
  ⟨ownerReady_s1 _, rfl, by decide, initServed_s1 [] (.inl rfl), by decide⟩
theorem witness_CodecCommandsComplete : ContextReady .owner (sched s1 []) ∧ Waits .owner (sched s1 []).moves ∧
    ContextReady .irq irqState ∧ Waits .irq irqState.moves ∧ (6#3 : BitVec 3) ≠ 7#3 ∧ operandsInDomain (.bcdEncode 6 99) = true ∧
    operandsInDomain (.bcdEncode 0 80) = false :=
  ⟨contextReady_s1 _, .inl rfl, contextReady_irq, .inl rfl, by decide, by decide, by decide⟩
theorem witness_BcdRoundTrip : ContextReady .irq irqState ∧ Waits .irq irqState.moves ∧ (99#8 : BitVec 8).toNat ≤ 99 :=
  ⟨contextReady_irq, .inl rfl, by decide⟩

/-- WUTWF found set and WUTWF to be drawn; the interval at both ends, and on both sides of its ends. -/
theorem witness_EnableWakeupCompletes : (OwnerReady (sched s1 []) ∧ s1.constructed = true ∧ WakeServed (sched s1 []) []) ∧
    (OwnerReady noWutwf ∧ noWutwf.constructed = true ∧ WakeServed noWutwf []) ∧ 1 ≤ (1#32 : BitVec 32).toNat ∧
    (131072#32 : BitVec 32).toNat ≤ 131072 ∧ (65536#32 : BitVec 32).toNat ≤ 65536 ∧ ¬(65537#32 : BitVec 32).toNat ≤ 65536 :=
  ⟨⟨ownerReady_s1 _, rfl, wakeServed_s1⟩, ⟨ownerReady_noWutwf, rfl, wakeServed_noWutwf⟩, by decide, by decide, by decide, by decide⟩
theorem witness_EnableWakeupFaults : OwnerReady noWutwf ∧ noWutwf.constructed = true ∧ WakeServed noWutwf [] ∧
    (0#32 : BitVec 32).toNat = 0 ∧ 131072 < (131073#32 : BitVec 32).toNat :=
  ⟨ownerReady_noWutwf, rfl, wakeServed_noWutwf, by decide, by decide⟩
theorem witness_WakeupPeriodIsExact : OwnerReady (sched s1 []) ∧ s1.constructed = true ∧ WakeServed (sched s1 []) [] ∧
    wkOk (65537#32 : BitVec 32).toNat = true ∧ wkOk (65536#32 : BitVec 32).toNat = true ∧
    ∃ t, exec (.enableWakeup 65537) (sched s1 []) = .next t :=
  ⟨ownerReady_s1 _, rfl, wakeServed_s1, by decide, by decide,
    (next_of_after (p := fun t => t.faultCode == 0) (by decide)).imp fun _ h => h.1⟩
theorem witness_DisableWakeupCompletes : OwnerReady (sched s1 []) ∧ s1.constructed = true ∧ Waits .owner (sched s1 []).moves :=
  ⟨ownerReady_s1 _, rfl, .inl rfl⟩
theorem witness_WakeupTimerCompletes : OwnerReady noWutwf ∧ noWutwf.constructed = true ∧ WakeServed noWutwf [] :=
  ⟨ownerReady_noWutwf, rfl, wakeServed_noWutwf⟩
theorem witness_ListenCompletes : OwnerReady (sched s1 [.await .owner]) ∧ s1.constructed = true ∧
    Waits .owner (sched s1 [.await .owner]).moves := ⟨ownerReady_s1 _, rfl, .inr ⟨[], rfl⟩⟩

theorem contextReady_rich : ContextReady .owner rich := ⟨regs_rich, rfl, rfl, rfl, rfl, rfl⟩
theorem witness_UnpendEventCompletes : (ContextReady .owner rich ∧ Waits .owner rich.moves) ∧ ContextReady .irq irqState ∧
    Waits .irq irqState.moves := ⟨⟨contextReady_rich, .inl rfl⟩, contextReady_irq, .inl rfl⟩
theorem witness_SharedAlarmLine : ContextReady .owner rich ∧ Waits .owner rich.moves ∧ alraf rich = true ∧ alrbf rich = true ∧
    alrbie rich = true := ⟨contextReady_rich, .inl rfl, by decide, by decide, by decide⟩
theorem witness_LineCommandsComplete : ContextReady .irq irqState ∧ Waits .irq irqState.moves ∧
    (23#8 : BitVec 8).toNat < irqState.par.nLines ∧ ContextReady .owner (sched s1 []) :=
  ⟨contextReady_irq, .inl rfl, by decide, contextReady_s1 _⟩
theorem witness_LineOutOfRangeFaults : ContextReady .irq irqState ∧ Waits .irq irqState.moves ∧
    irqState.par.nLines ≤ (24#8 : BitVec 8).toNat := ⟨contextReady_irq, .inl rfl, by decide⟩

/-- LSE: ready after a reset that kept it, and not ready; LSI in the same two forms. -/
def lseKept : State := { s1 with constructed := false, clkSrc := none, moves := initMoves }
def lsiReady : State := { s0 with rccCsr := 3, moves := initMoves }
def lseMoves : List Move := List.replicate 5 (.micro .owner) ++ .env .lserdySet :: .env .initfSet :: .env .initfClear :: []
def lsiMoves : List Move := List.replicate 5 (.micro .owner) ++ .env .lsirdySet :: .env .initfSet :: .env .initfClear :: []
theorem witness_BringupLseCompletes : (ContextReady .owner lseKept ∧ lseKept.constructed = false ∧ lserdy lseKept = true ∧
      InitServed lseKept []) ∧ ContextReady .owner (sched s0 lseMoves) ∧ s0.constructed = false ∧ lserdy (sched s0 lseMoves) = false ∧
    Waits .owner [] ∧
    (sched s0 lseMoves).moves = List.replicate 5 (.micro .owner) ++ .env .lserdySet :: .env .initfSet :: .env .initfClear :: [] :=
  ⟨⟨⟨regsOk_of (fun _ e => nomatch e) (by decide), rfl, rfl, rfl, rfl, rfl⟩, rfl, by decide, ⟨rfl, .inl rfl, by decide⟩⟩,
    ⟨regs_sched regs_s0 _, rfl, rfl, rfl, rfl, rfl⟩, rfl, by decide, .inl rfl, rfl⟩
theorem witness_BringupLsiCompletes : (ContextReady .owner lsiReady ∧ lsiReady.constructed = false ∧ lsirdy lsiReady = true ∧
      domainHeld lsiReady = false ∧ InitServed lsiReady []) ∧ ContextReady .owner (sched s0 lsiMoves) ∧ s0.constructed = false ∧
    lsirdy (sched s0 lsiMoves) = false ∧ Waits .owner [] ∧
    (sched s0 lsiMoves).moves = List.replicate 5 (.micro .owner) ++ .env .lsirdySet :: .env .initfSet :: .env .initfClear :: [] :=
  ⟨⟨⟨regsOk_of (fun _ e => nomatch e) (by decide), rfl, rfl, rfl, rfl, rfl⟩, rfl, by decide, by decide, ⟨rfl, .inl rfl, by decide⟩⟩,
    ⟨regs_sched regs_s0 _, rfl, rfl, rfl, rfl, rfl⟩, rfl, by decide, .inl rfl, rfl⟩

theorem witness_CommandIsPresentationThenTicks : paramsOk s1.par = true ∧ s1.port.word = none ∧
    (Instr.getDatetime).wellFormed = true ∧ ∃ t, exec .getDatetime s1 = .next t :=
  ⟨by decide, rfl, rfl, (next_of_after (p := fun t => t.faultCode == 0) (by decide)).imp fun _ h => h.1⟩
theorem witness_CommandRunsUntilItEndsOrWaits : MachineOk (sched s1 []) ∧
    verdict s1.port.seq (some (.setSeconds 1)) (sched s1 []) = .accept ∧ ∃ t, exec (.setSeconds 1) (sched s1 []) = .next t :=
  ⟨machine_s1 _, by decide, (next_of_after (p := fun t => t.owner.busy) (by decide)).imp fun _ h => h.1⟩
theorem witness_SetterWaitsForInitf : OwnerReady (sched s1 []) ∧ s1.constructed = true ∧ (sched s1 []).moves = [] ∧
    (sched s1 []).port.word = none ∧ initf (sched s1 []) = false ∧
    (initWaitPc (.setSeconds 59) = some 7 ∧ operandsInDomain (.setSeconds 59) = true) ∧
    (initWaitPc (.setYear 2069) = some 7 ∧ operandsInDomain (.setYear 2069) = true) ∧
    (initWaitPc (.setDate 2024 2 29) = some 10 ∧ operandsInDomain (.setDate 2024 2 29) = true) ∧
    (initWaitPc (.setDatetime 2069 12 31 23 59 59) = some 14 ∧ operandsInDomain (.setDatetime 2069 12 31 23 59 59) = true) ∧
    initWaitPc (.setPrescalers 0xFFFF 0xFF) = some 4 ∧ operandsInDomain (.setPrescalers 0xFFFF 0xFF) = true :=
  ⟨ownerReady_s1 _, rfl, rfl, rfl, by decide, by decide, by decide, by decide, by decide, by decide, by decide⟩
theorem witness_MarksAreSticky : (faulted (sched faultedState [.env .rsfSet]) = true ∧
      (∀ m rest, (sched faultedState [.env .rsfSet]).moves = m :: rest → isReset m = false) ∧
      ∃ t, step (sched faultedState [.env .rsfSet]) = .next t) ∧
    refusedMark (refusedState.withFetchWord 64 0x0100000000000001) = true ∧
    ∃ t, step (refusedState.withFetchWord 64 0x0100000000000001) = .next t :=
  ⟨⟨by decide, fun m rest h => by cases h; rfl, (next_of_after (p := fun t => t.faultCode == 1) (by decide)).imp fun _ h => h.1⟩,
    by decide, (next_of_after (p := fun t => t.refusedReason == 4) (by decide)).imp fun _ h => h.1⟩
theorem witness_InterruptCommandsAreBounded : MachineOk irqBusy ∧ irqBusy.irq.busy = true ∧ faulted irqBusy = false ∧ irqBusy.moves = [] ∧
    irqBusy.port.word = none := ⟨machine_irqBusy, rfl, by decide, rfl, rfl⟩
theorem witness_InterruptContextKeepsOwnerState : MachineOk irqBusy ∧ irqBusy.irq.busy = true ∧ ∃ t, seqStep .irq irqBusy = .next t :=
  ⟨machine_irqBusy, rfl, (next_of_after (p := fun t => t.faultCode == 0) (by decide)).imp fun _ h => h.1⟩
theorem witness_BlockResetKeepsTheOpenBracket : OwnerReady noWutwf ∧ noWutwf.constructed = true ∧ WakeServed noWutwf [] ∧
    131072 < (131073#32 : BitVec 32).toNat ∧ ∃ t, exec (.enableWakeup 131073) noWutwf = .next t :=
  ⟨ownerReady_noWutwf, rfl, wakeServed_noWutwf, by decide,
    (next_of_after (p := fun t => t.faultCode == 1) (by decide)).imp fun _ h => h.1⟩
theorem witness_StepKeepsTheMachineSound : MachineOk atBody ∧ ∃ t, step atBody = .next t :=
  ⟨machine_atBody, (next_of_after (p := fun t => t.owner.busy) (by decide)).imp fun _ h => h.1⟩
theorem witness_SoundMachineNeverStops : MachineOk atConstruct ∧ MachineOk irqBusy := ⟨machine_atConstruct, machine_irqBusy⟩
theorem witness_ParametersAreFixed : ∃ t, step (sched s1 [.powerOn zeroDraw]) = .next t :=
  (next_of_after (p := fun t => t.faultCode == 0) (by decide)).imp fun _ h => h.1

/-- BCD_DECODE at its `END`. -/
def atEnd : State := { s1 with
    owner := { s1.owner with busy := true, op := 0x31, word := 0x3100000000000099, pc := 1, x := loadedLatches (.bcdDecode 9 9) } }
theorem witness_MicroProgramCounter :
    (decode 0x3100000000000099 = .ok (.bcdDecode 9 9) ∧ verdict .owner (some (.bcdDecode 9 9)) s1 = .accept) ∧
    (paramsOk irqBusy.par = true ∧ ∃ m t, nextMicroOp irqBusy .irq = some m ∧ seqStep .irq irqBusy = .next t) ∧
    (∃ prog t, progOf atEnd.par atEnd.owner.op = some prog ∧ atEnd.owner.pc < prog.length ∧ seqStep .owner atEnd = .next t ∧
      prog.length ≤ t.owner.pc) ∧
    ∃ prog, progOf s1.par 0x31#8 = some prog :=
  ⟨⟨by decide, by decide⟩, ⟨by decide, _, _, rfl, rfl⟩, ⟨_, _, rfl, by decide, rfl, by decide⟩, _, rfl⟩

end Sys2Proof.Tests
end

section
/-! SUPPORT. The parameters (R15, R16, R18) along a run: what the moves of the machine and whole command runs do to them. -/

namespace Sys2Proof.Machine

/-! ### A command is one issue, and a drain is a run of ticks -/

/-- Every command has its meaning by one and the same issue at the port (R166). -/
theorem exec_eq_issue (i : Instr) (s : State) : exec i s = issue i s := by cases i <;> rfl

/-- What every tick keeps, a drain keeps. -/
theorem drain_keeps {P : State → Prop} (htick : ∀ {s t}, tick s = .next t → P s → P t) {q : SeqId} {n : Nat} {s t : State}
    (h : drain q n s = .next t) (hs : P s) : P t := by
  induction n generalizing s with
  | zero => cases h; exact hs
  | succ n ih =>
    rw [drain] at h
    split at h
    · cases h; exact hs
    · split at h
      case h_1 u hu => exact ih h (htick hu hs)
      all_goals cases h

/-! ### No move of the machine changes a parameter -/

@[simp] theorem refuseWord_par (r : RefusalReason) (w : Cmd) (s : State) : (refuseWord r w s).par = s.par := rfl
@[simp] theorem loadCommand_par (q : SeqId) (i : Instr) (w : Cmd) (s : State) : (loadCommand q i w s).par = s.par :=
  setSeq_par _ _ _
@[simp] theorem presentWord_par (q : SeqId) (w : Cmd) (s : State) : (presentWord q w s).par = s.par := by
  unfold presentWord
  split
  · exact loadCommand_par _ _ _ _
  · exact refuseWord_par _ _ _
  · rfl

@[simp] theorem drawEffect_par (d : Draw) (s : State) : (drawEffect d s).par = s.par := by cases d <;> rfl
@[simp] theorem envStep_par (d : Draw) (s : State) : (envStep d s).par = s.par := by simp [envStep]

@[simp] theorem blockReset_par (s : State) : (blockReset s).par = s.par := rfl
@[simp] theorem systemReset_par (d : ResetDraw) (s : State) : (systemReset d s).par = s.par := by simp [systemReset]
@[simp] theorem powerOnReset_par (d : ResetDraw) (s : State) : (powerOnReset d s).par = s.par := by simp [powerOnReset]

theorem takeMove_par {m : Move} {s t : State} (h : takeMove m s = .next t) : t.par = s.par := by
  cases m <;> simp only [takeMove, Host.Outcome.next.injEq] at h
  case micro q => exact (seqStep_frame h).par
  all_goals subst h; simp

theorem tick_par {s t : State} (h : tick s = .next t) : t.par = s.par := by
  unfold tick at h
  split at h
  · exact (takeMove_par h).trans rfl
  · split at h
    · exact (seqStep_frame h).par
    · cases h; rfl

/-! ### Nor does a command run from the port -/

theorem drain_par {q : SeqId} {n : Nat} {s t : State} (h : drain q n s = .next t) : t.par = s.par :=
  drain_keeps (P := fun u => u.par = s.par) (fun ht hu => (tick_par ht).trans hu) h rfl

theorem exec_par {i : Instr} {s t : State} (h : exec i s = .next t) : t.par = s.par := by
  rw [exec_eq_issue, issue] at h
  split at h
  · cases h; rfl
  · cases h; exact refuseWord_par _ _ _
  · exact (drain_par h).trans (loadCommand_par _ _ _ _)

theorem takePort_par {w : Cmd} {s t : State} (h : takePort w s = .next t) : t.par = s.par := by
  unfold takePort at h
  split at h
  · exact exec_par h
  · cases h; exact presentWord_par _ _ _

theorem step_par {s t : State} (h : step s = .next t) : t.par = s.par := by
  unfold step at h
  split at h
  · split at h
    · exact (takePort_par h).trans rfl
    · exact tick_par h
  · cases h

/-- Settles O58: a step is one tick, or a command run, which is a presentation and a drain of ticks; a tick's move or micro-op
writes no parameter. -/
theorem parametersAreFixed : Obligations.ParametersAreFixed := fun _ _ => step_par

end Sys2Proof.Machine
end

section
/-! SUPPORT. The date shadow lock (R61), the order of the snapshot's reads (R68), and the date setters (R125 to R128): a field
setter's whole run, said once for any register, and its case for RTC_DR. -/

namespace Sys2Proof.Machine

/-! ### The date shadow lock under reads and writes (R61) -/

/-- A read of RTC_TR in a live domain captures the date. -/
theorem readReg_tr_of_live {s : State} (h : domainHeld s = false) :
    readReg .tr s = (s.calTr, { s with drLock := some s.calDr }) := by
  simp [readReg, captureLock, h]

/-- A read of RTC_DR presents the captured date and releases it. -/
theorem readReg_dr_of_captured {s : State} {v : Word} (h : s.drLock = some v) :
    readReg .dr s = (v, { s with drLock := none }) := by
  simp [readReg, h]

/-- With no date captured, a read of RTC_DR presents the date and changes nothing. -/
theorem readReg_dr_of_free {s : State} (h : s.drLock = none) : readReg .dr s = (s.calDr, s) := by
  cases s; cases h; rfl

/-- An effective write of RTC_DR releases the captured date, and nothing follows it in the same step. -/
theorem settle_writeReg_dr_open {s : State} (hc : Calm s) (ho : initOpen s) (v : Word) :
    settle (writeReg .dr v s) = { s with calDr := v &&& drMask, drLock := none } := by
  rw [writeReg_dr_open ho]
  exact Calm.settle (hc.congr rfl rfl rfl rfl)

/-! ### A scheduled draw, and the calendar tick (R167, R176) -/

/-- A draw at the head of the schedule is taken as soon as it is enabled. -/
theorem tick_draw {s : State} {d : Draw} {rest : List Move} (hm : s.moves = .env d :: rest) (hd : drawEnabled d s = true) :
    tick s = .next (envStep d { s with moves := rest }) := by
  simp [tick, readyMove, hm, moveEnabled, hd, takeMove]

/-- A calendar tick moves no level, so nothing follows it in the same step. -/
theorem envStep_calendarTick {s : State} (h : Calm s) : envStep .calendarTick s = tickCalendar s :=
  Calm.settle (h.congr rfl rfl rfl rfl)

/-- A calendar tick leaves the date shadow lock alone (R61). -/
@[simp] theorem tickCalendar_drLock (s : State) : (tickCalendar s).drLock = s.drLock := rfl

/-- Settles O15: the reads by their rules, the effective write and the tick each as a register change in a calm state. -/
theorem dateShadowLock : Obligations.DateShadowLock := by
  intro s hr hl
  have hc : Calm s := hr.calm hl
  refine ⟨?capture, ?release, ?free, ?write, ?ticks⟩
  case capture => rw [memRead_regAddr hr.params, readReg_tr_of_live hl]
  case release =>
    intro v hv
    rw [memRead_regAddr hr.params, readReg_dr_of_captured hv]
  case free =>
    intro hn
    rw [memRead_regAddr hr.params, readReg_dr_of_free hn]
  case write =>
    intro v t hi hu ht
    rw [memWrite_regAddr hr.params, settle_writeReg_dr_open hc (initOpen_of hu hi)] at ht
    cases ht; rfl
  case ticks =>
    intro rest t hm hi he ht
    have hcm : Calm { s with moves := rest } := hc.congr rfl rfl rfl rfl
    rw [tick_draw hm (by simp [drawEnabled, hi, he]), envStep_calendarTick hcm] at ht
    cases ht; rfl

/-! ### A setter of one register field -/

/-- The micro-program of a per-field setter (R122 to R128): the operand checked by `ok` and by `enc`, its field's value `val`
into `x[6]`, and one RMW of the register under the field's mask inside an init transaction. -/
def fieldSetter (ok enc : Nat → Bool) (val : Nat → Nat) (r : Reg) (m : Word) : List MicroOp :=
  [ .check (lx0 fun v => ok v.toNat)
  , .check (lx0 fun v => enc v.toNat)
  , .calc 6 (lx0 fun v => toWord (val v.toNat)) ]
  ++ (initTxn [.rmw r (lconst m) (lx6 id)] ++ [.done])

/-- A function of `x[0]` where that latch holds a word of value `n`. -/
theorem lx0_toNat {α : Type} {x : Latches} {w : Word} {n : Nat} (hx : x.x0 = some w) (hw : w.toNat = n) (f : Nat → α) :
    lx0 (fun v => f v.toNat) x = some (f n) := by
  simp [lx0, hx, hw]

section
variable {i : Instr} {s : State} {ok enc : Nat → Bool} {val : Nat → Nat} {m w : Word} {n : Nat} {rest : List Move}

/-- A field setter whose checks pass, on a ready OWNER whose schedule serves it, ends in the state `t` that its one RMW
leaves, the brackets closed. -/
theorem exec_fieldSetter {r : Reg} {t : State} (hr : OwnerReady s) (hc : s.constructed = true) (hm : InitServed s rest)
    (hwf : i.wellFormed = true) (hn : needOf i = .constructed)
    (hg : progOf s.par (opcode i) = some (fieldSetter ok enc val r m))
    (hx : (loadedLatches i).x0 = some w) (hw : w.toNat = n) (hok : ok n = true) (henc : enc n = true)
    (hrmw : ∀ b, b = inBody s i { loadedLatches i with x6 := some (toWord (val n)) } rest → Calm b → b.wp = .unlocked →
      initf b = true → settle (writeReg r (blend m (readReg r b).1 (toWord (val n))) (readReg r b).2) = t ∧ Calm t)
    (ht : t.par = s.par ∧ t.faultCode = s.faultCode ∧ t.irq = s.irq ∧ t.owner = { loadedSeq s.owner i with x := t.owner.x })
    (hu : t.wp = .unlocked) (hs : t.rtcIsr = isrInInit s) (hq : t.moves = .env .initfClear :: rest) :
    ∃ c, Finished c i 0x00#8 s.owner.res ∧ exec i s = .next { t with
      owner := c, wp := .locked, rtcIsr := isrAfterInit s, moves := rest } := by
  rw [exec_eq_issue]
  refine issue_initBody (k := 3) (body := [.rmw r (lconst m) (lx6 id)]) hr hm (hr.accepts hc hwf hn) hg rfl
    (fun s' hR hsil ho => hR.twoChecks hsil ho rfl rfl rfl ((lx0_toNat hx hw ok).trans (congrArg some hok))
      ((lx0_toNat hx hw enc).trans (congrArg some henc)) (lx0_toNat hx hw fun k => toWord (val k))) ?_ ht hu hs hq
  intro b hb hR hcb hsil hub hfb hget
  obtain ⟨hwr, hct⟩ := hrmw b hb hcb hub hfb
  exact ⟨(hR.rmw hsil (hget 0) rfl (by rw [hb]; rfl) hwr).mono (by decide), hct⟩

/-- A field setter of RTC_DR: the other bits of the register are those its read presents (R197), and the date lock is released
(R61). -/
theorem exec_dateSetter (hr : OwnerReady s) (hc : s.constructed = true) (hm : InitServed s rest)
    (hwf : i.wellFormed = true) (hn : needOf i = .constructed)
    (hg : progOf s.par (opcode i) = some (fieldSetter ok enc val .dr m)) (hmask : m &&& ~~~drMask = 0#32)
    (hx : (loadedLatches i).x0 = some w) (hw : w.toNat = n) (hok : ok n = true) (henc : enc n = true) :
    ∃ c, Finished c i 0x00#8 s.owner.res ∧ exec i s = .next { s with
      owner := c, calDr := blend m (s.drLock.getD s.calDr) (toWord (val n)), drLock := none
      rtcIsr := isrAfterInit s, wp := .locked, moves := rest } := by
  refine exec_fieldSetter
    (t := { inBody s i { loadedLatches i with x6 := some (toWord (val n)) } rest with
      calDr := blend m (s.drLock.getD s.calDr) (toWord (val n)), drLock := none })
    hr hc hm hwf hn hg hx hw hok henc ?_ ⟨rfl, rfl, rfl, rfl⟩ rfl rfl rfl
  rintro b rfl hcb hub hfb
  exact ⟨rmw_dr hcb hub hfb hr.regs.dateRead hmask, hcb.congr rfl rfl rfl rfl⟩

end

/-- Settles O27: the four date setters are field setters of RTC_DR, and both checks of each pass on its operand's domain. -/
theorem dateSettersComplete : Obligations.DateSettersComplete := by
  intro s rest hr hc hm
  refine ⟨fun v lo hi => ?weekday, fun v lo hi => ?day, fun v lo hi => ?month, fun y lo hi => ?year⟩
  case weekday =>
    exact exec_dateSetter (ok := weekdayOk) (enc := fun n => encOk n 0 3) (val := fun n => n * 2 ^ 13)
      hr hc hm rfl rfl rfl (by decide) rfl (zext8 v) (by simp [weekdayOk, lo, hi]) (encOk_weekday hi)
  case day =>
    exact exec_dateSetter (ok := dayOk) (enc := fun n => encOk n 2 4) (val := bcdPair)
      hr hc hm rfl rfl rfl (by decide) rfl (zext8 v) (by simp [dayOk, lo, hi]) (encOk_day hi)
  case month =>
    exact exec_dateSetter (ok := monthOk) (enc := fun n => encOk n 1 4) (val := fun n => bcdPair n * 2 ^ 8)
      hr hc hm rfl rfl rfl (by decide) rfl (zext8 v) (by simp [monthOk, lo, hi]) (encOk_month hi)
  case year =>
    exact exec_dateSetter (ok := yearOk) (enc := fun n => encOk (n - epoch) 4 4)
      (val := fun n => bcdPair (n - epoch) * 2 ^ 16)
      hr hc hm rfl rfl rfl (by decide) rfl (zext16 y) (by simp [yearOk, lo, hi])
      (encOk_year (show y.toNat - 1970 ≤ 99 by omega))

/-! ### The order of the snapshot's reads (R68) -/

/-- The bus trace of GET_DATETIME (R132). -/
theorem accesses_getDatetime :
    progGetDatetime.flatMap accessesOf = [.read .isr, .read .tr, .read .dr, .read .isr, .write .isr] := rfl

/-- Settles O54: the harness on the trace of GET_DATETIME, and on the same trace with the two reads exchanged. -/
theorem snapshotOrder : Obligations.SnapshotOrder := by
  refine ⟨?_, accesses_getDatetime, by decide⟩
  rw [accesses_getDatetime]
  decide

end Sys2Proof.Machine
end

section
/-! SUPPORT. The command word (R71 to R77): a field of an encoded command, the row of the command table that a word's opcode
gives, and what a word that decodes says of its command. -/

namespace Sys2Proof

open Sys2Proof.Machine

/-! ### Fields of a command word (R20, R71) -/

theorem wordField_toNat (w : Cmd) (lo width : Nat) : (wordField w lo width).toNat = cmdField w lo width := by
  rw [wordField, BitVec.extractLsb'_toNat, Nat.shiftRight_eq_div_pow]; rfl

/-- A field zero-extended into a latch (R72). -/
theorem wordField_setWidth (w : Cmd) (lo width : Nat) :
    (wordField w lo width).setWidth 32 = BitVec.ofNat 32 (cmdField w lo width) := by
  rw [← wordField_toNat, BitVec.ofNat_toNat]

/-- The same of a field as wide as a latch. -/
theorem wordField_latch (w : Cmd) (lo : Nat) : wordField w lo 32 = BitVec.ofNat 32 (cmdField w lo 32) := by
  rw [← wordField_setWidth, BitVec.setWidth_eq]

/-- The opcode field of an encoded command is its opcode. -/
theorem wordField_opcode_encode (i : Instr) : wordField (encode i) 56 8 = opcode i := by
  apply BitVec.eq_of_toNat_eq
  rw [wordField_toNat, cmdField, Laws.encode_opcode, Nat.mod_eq_of_lt (opcode i).isLt]

/-- A field of an encoded command, read off its operand area. -/
theorem wordField_encode {i : Instr} {lo n : Nat} {x : BitVec n} (hn : lo + n ≤ 56)
    (hx : operandArea i / 2 ^ lo % 2 ^ n = x.toNat) : wordField (encode i) lo n = x := by
  apply BitVec.eq_of_toNat_eq
  have hsplit : 2 ^ 56 = 2 ^ lo * 2 ^ (56 - lo) := by rw [← pow_add]; congr 1; omega
  rw [wordField_toNat, ← hx, cmdField, ← Laws.encode_area i, hsplit, Nat.mod_mul_right_div_self,
    Nat.mod_mod_of_dvd _ (pow_dvd_pow 2 (by omega))]

/-- A command whose operand area ends at bit `used` passes the reserved-zero check of its word. -/
theorem ifReservedZero_encode {i : Instr} {used : Nat} (j : Instr) (hu : used ≤ 56) (ha : operandArea i < 2 ^ used) :
    ifReservedZero (encode i) used j = .ok j :=
  if_pos (wordField_encode (by omega) (by rw [Nat.div_eq_of_lt ha]; simp))

theorem eventOfCode_eventCode (e : Event) : eventOfCode (eventCode e) = e := by cases e <;> rfl

theorem eventCode_eventOfCode : ∀ c : BitVec 2, eventCode (eventOfCode c) = c := by decide

/-- Settles O2: the opcode field selects the command's own arm, and that arm reads every operand back from the operand area. -/
theorem decodeOfEncode : Obligations.DecodeOfEncode := by
  intro i hw
  have hop := wordField_opcode_encode i
  have field {lo n : Nat} {x : BitVec n} := @wordField_encode i lo n x
  have zero {used : Nat} := @ifReservedZero_encode i used
  cases i <;> simp only [opcode, operandArea] at hop field zero <;> simp only [decode, hop, BitVec.reduceToNat]
  case setSeconds v | setMinutes v | setHours v | setWeekday v | setDay v | setMonth v | setYear v | enableWakeup v |
      wakeupTimer v | pendLine v | unpendLine v | isPendingLine v =>
    rw [zero, field (x := v)] <;> omega
  case getDatetime | disableWakeup => rw [zero] <;> omega
  case listen e | unpendEvent e => rw [zero, field (x := eventCode e), eventOfCode_eventCode] <;> omega
  case setDate y m d => rw [zero, field (x := y), field (x := m), field (x := d)] <;> omega
  case setDatetime y m d h mi sec =>
    rw [field (x := y), field (x := m), field (x := d), field (x := h), field (x := mi), field (x := sec)] <;> omega
  case setPrescalers sync async | bringupLsi sync async => rw [zero, field (x := sync), field (x := async)] <;> omega
  case bringupLse bypass sync async =>
    rw [zero, field (x := bypass), field (x := sync), field (x := async)] <;> omega
  case bcdDecode t u => rw [zero, field (x := t), field (x := u)] <;> omega
  case bcdEncode f v =>
    have hf : fieldSelectDefined f = true := hw
    rw [zero, field (x := f), field (x := v), if_pos hf] <;> omega

/-- Settles O1: each word is the encoding of its command. -/
theorem tableWordsDecode : Obligations.TableWordsDecode :=
  ⟨decodeOfEncode (.setSeconds 59) rfl, decodeOfEncode (.setYear 2069) rfl, decodeOfEncode (.setDate 2024 2 29) rfl,
    decodeOfEncode (.setDatetime 2024 2 29 23 59 58) rfl, decodeOfEncode .getDatetime rfl,
    decodeOfEncode (.setPrescalers 249 127) rfl, decodeOfEncode (.enableWakeup 65537) rfl, decodeOfEncode (.listen .wakeup) rfl,
    decodeOfEncode (.pendLine 17) rfl, decodeOfEncode (.bcdEncode 6 99) rfl, decodeOfEncode (.bcdDecode 9 5) rfl,
    decodeOfEncode (.bringupLse 0 255 127) rfl, decodeOfEncode (.bringupLsi 249 127) rfl⟩

/-- Settles O6: every operand of the expansions fits its field. -/
theorem pseudoInstructionsExpand : Obligations.PseudoInstructionsExpand := by
  refine ⟨fun b => ?_, rfl, rfl⟩
  show (fitsField 1 b).map Instr.bringupLseDefault = (fitsField 1 b).bind fun c => some (.bringupLse c 255 127)
  exact Option.map_eq_bind

/-! ### What a word that decodes says of its command (R72, R77) -/

/-- The latches that a format's fields load from a word (R72): each its field zero-extended, every other no value. -/
def latchesOf (w : Cmd) (fields : List (Nat × Nat × Nat)) : Latches :=
  let load (j : Nat) : Option Word := (fields.lookup j).map fun f => BitVec.ofNat 32 (cmdField w f.1 f.2)
  ⟨load 0, load 1, load 2, load 3, load 4, load 5, load 6, load 7⟩

theorem lookup_eq_none_of_lt {fields : List (Nat × Nat × Nat)} {n j : Nat} (hf : ∀ f ∈ fields, f.1 < n) (hj : n ≤ j) :
    fields.lookup j = none := by
  rw [List.lookup_eq_none_iff]
  intro f hm
  have := hf f hm
  simp; omega

theorem getLatch_latchesOf (w : Cmd) {fields : List (Nat × Nat × Nat)} (hf : ∀ f ∈ fields, f.1 < 8) (j : Nat) :
    getLatch (latchesOf w fields) j = (fields.lookup j).map fun f => BitVec.ofNat 32 (cmdField w f.1 f.2) := by
  match j with
  | 0 | 1 | 2 | 3 | 4 | 5 | 6 | 7 => rfl
  | j + 8 => rw [lookup_eq_none_of_lt hf (by omega)]; rfl

theorem commandRows_latches : ∀ r ∈ commandRows, ∀ f ∈ r.fields, f.1 < 8 := by decide

theorem commandRows_used : ∀ r ∈ commandRows, r.used ≤ 56 := by decide

/-- Word `w` is read by row `r` of the command table as the command `i`. -/
structure ReadBy (r : CommandRow) (w : Cmd) (i : Instr) : Prop where
  row : rowOf w = some r
  reserved : cmdField w r.used (56 - r.used) = 0
  wellFormed : i.wellFormed = true
  code : (opcode i).toNat = cmdField w 56 8
  area : operandArea i = w.toNat % 2 ^ r.used
  latches : loadedLatches i = latchesOf w r.fields

theorem rowOf_eq {w : Cmd} {n : Nat} (h : (wordField w 56 8).toNat = n) :
    rowOf w = commandRows.find? fun r => r.opcode == n := by
  rw [rowOf, ← h, wordField_toNat]

theorem ifReservedZero_ok {w : Cmd} {used : Nat} {i j : Instr} (h : ifReservedZero w used i = .ok j) :
    cmdField w used (56 - used) = 0 ∧ i = j := by
  unfold ifReservedZero at h
  split at h
  case isTrue hz => cases h; exact ⟨by rw [← wordField_toNat, hz]; rfl, rfl⟩
  case isFalse => cases h

/-- An arm of the decoder that reads a command of one row. -/
theorem ReadBy.of_reservedZero {w : Cmd} {n used : Nat} {fields : List (Nat × Nat × Nat)} {i j : Instr}
    (h : ifReservedZero w used i = .ok j) (hn : (wordField w 56 8).toNat = n)
    (hr : (commandRows.find? fun r => r.opcode == n) = some ⟨n, used, fields⟩) (hw : i.wellFormed = true)
    (ho : (opcode i).toNat = n) (ha : operandArea i = w.toNat % 2 ^ used) (hl : loadedLatches i = latchesOf w fields) :
    ∃ r, ReadBy r w j := by
  obtain ⟨hz, rfl⟩ := ifReservedZero_ok h
  exact ⟨_, (rowOf_eq hn).trans hr, hz, hw, by rw [ho, ← hn, wordField_toNat], ha, hl⟩

/-- A format without reserved-zero bits. -/
theorem ifReservedZero_all (w : Cmd) (i : Instr) : ifReservedZero w 56 i = .ok i := by
  rw [ifReservedZero, if_pos (BitVec.eq_nil _)]

/-- The arms of the decoder are the rows of the command table. -/
theorem decode_readBy {w : Cmd} {i : Instr} (h : decode w = .ok i) : ∃ r, ReadBy r w i := by
  unfold decode at h
  split at h
  case h_24 => cases h
  case h_20 hn =>
    split at h
    case isFalse => cases h
    case isTrue hf =>
      refine ReadBy.of_reservedZero h hn rfl hf rfl ?_ ?_
      · simp only [operandArea, wordField_toNat, cmdField]; omega
      · simp only [loadedLatches, wordField_setWidth]; rfl
  case' h_9 hn => rw [← ifReservedZero_all w] at h
  all_goals
    refine ReadBy.of_reservedZero h ‹_› rfl rfl rfl ?_ ?_
    · simp only [operandArea, wordField_toNat, eventCode_eventOfCode, cmdField]; omega
    · simp only [loadedLatches, wordField_setWidth, wordField_latch, eventCode_eventOfCode]; rfl

/-- Settles O3: the row that reads the word gives the opcode and the operand area of its command, and these are the whole
word. -/
theorem encodeOfDecode : Obligations.EncodeOfDecode := by
  intro w i h
  obtain ⟨r, hr⟩ := decode_readBy h
  refine ⟨hr.wellFormed, BitVec.eq_of_toNat_eq ?_⟩
  have hused : r.used ≤ 56 := commandRows_used r (List.mem_of_find?_eq_some hr.row)
  have hsplit : 2 ^ 56 = 2 ^ r.used * 2 ^ (56 - r.used) := by rw [← pow_add]; congr 1; omega
  have harea : w.toNat % 2 ^ r.used = w.toNat % 2 ^ 56 := by
    rw [hsplit, Nat.mod_mul, show w.toNat / 2 ^ r.used % 2 ^ (56 - r.used) = 0 from hr.reserved, Nat.mul_zero, Nat.add_zero]
  have hw := w.isLt
  rw [Laws.encode_toNat, hr.code, hr.area, harea, cmdField]
  omega

/-- Settles O5: the row that reads the word. -/
theorem latchesHoldTheFormatFields : Obligations.LatchesHoldTheFormatFields := by
  intro w i h
  obtain ⟨r, hr⟩ := decode_readBy h
  refine ⟨r, hr.row, hr.reserved, fun j => ?_⟩
  rw [hr.latches, getLatch_latchesOf w (commandRows_latches r (List.mem_of_find?_eq_some hr.row))]

/-! ### Legal words (R77) -/

theorem ifReservedZero_isOk (w : Cmd) (used : Nat) (i : Instr) :
    (ifReservedZero w used i).isOk = (cmdField w used (56 - used) == 0) := by
  have e : wordField w used (56 - used) = 0 ↔ cmdField w used (56 - used) = 0 := by
    rw [← wordField_toNat, ← BitVec.toNat_inj]; rfl
  by_cases h : cmdField w used (56 - used) = 0
  · rw [ifReservedZero, if_pos (e.mpr h), h]; rfl
  · rw [ifReservedZero, if_neg (mt e.mp h), beq_eq_false_iff_ne.mpr h]; rfl

theorem fieldSelectDefined_wordField (w : Cmd) : fieldSelectDefined (wordField w 8 3) = !(cmdField w 8 3 == 7) := by
  rw [← wordField_toNat]
  generalize wordField w 8 3 = f
  revert f; decide

/-- An opcode of the table whose format has no enumerated field with an undefined value. -/
theorem legalWord_of_row {w : Cmd} {r : CommandRow} (h : rowOf w = some r) (hn : r.opcode ≠ 0x30) :
    legalWord w = (cmdField w r.used (56 - r.used) == 0) := by
  simp [legalWord, h, hn]

/-- The decoder accepts the legal words and no other. -/
theorem decode_isOk (w : Cmd) : (decode w).isOk = legalWord w := by
  unfold decode
  split
  case h_24 =>
    have hr : rowOf w = none := by
      rw [rowOf_eq rfl, List.find?_eq_none]
      intro r hr e
      fin_cases hr <;> exact absurd (beq_iff_eq.mp e).symm ‹_›
    rw [legalWord, hr]; rfl
  case h_20 hn =>
    have hr : rowOf w = some ⟨0x30, 11, [(0, 0, 8), (1, 8, 3)]⟩ := rowOf_eq hn
    rw [fieldSelectDefined_wordField, legalWord, hr]
    cases cmdField w 8 3 == 7
    · exact (ifReservedZero_isOk w 11 _).trans (Bool.and_true _).symm
    · exact (Bool.and_false _).symm
  case' h_9 => rw [← ifReservedZero_all w]
  all_goals rw [ifReservedZero_isOk, legalWord_of_row ((rowOf_eq ‹_›).trans rfl) (by decide)]

/-- Settles O4: the decoder accepts exactly the legal words, and a function answers one command. -/
theorem everyWordIsACommandOrIllegal : Obligations.EveryWordIsACommandOrIllegal := by
  intro w
  rw [← decode_isOk]
  cases h : decode w with
  | ok i => exact .inl ⟨rfl, i, rfl, fun j hj => (Except.ok.inj hj).symm⟩
  | error e => exact .inr ⟨rfl, e, rfl⟩

end Sys2Proof

namespace Sys2Proof.Machine

/-! ### Acceptance (R74) -/

/-- The commands that the interrupt context may issue (R164). -/
theorem contextAllows_irq (i : Instr) : contextAllows .irq i = decide ((opcode i).toNat ∈ irqOpcodes) := by
  cases i <;> rfl

/-- The construction need by opcode (R73): the rows up to LISTEN, the bring-ups, and the others. -/
theorem needOf_eq (i : Instr) : needOf i =
    if (opcode i).toNat ≤ 0x20 then .constructed else if 0x40 ≤ (opcode i).toNat then .notConstructed else .any := by
  cases i <;> rfl

theorem decoded_ok {w : Cmd} {i : Instr} (h : decode w = .ok i) : decoded w = some i := by rw [decoded, h]

theorem decoded_error {w : Cmd} {e : DecodeError} (h : decode w = .error e) : decoded w = none := by rw [decoded, h]

theorem presentWord_noStep {q : SeqId} {w : Cmd} {s : State} (h : verdict q (decoded w) s = .noStep) :
    presentWord q w s = s := by rw [presentWord, h]

theorem presentWord_refuse {q : SeqId} {w : Cmd} {s : State} {r : RefusalReason} (h : verdict q (decoded w) s = .refuse r) :
    presentWord q w s = refuseWord r w s := by rw [presentWord, h]

theorem presentWord_accept {q : SeqId} {w : Cmd} {s : State} {i : Instr} (h : verdict q (some i) s = .accept)
    (hd : decode w = .ok i) : presentWord q w s = loadCommand q i w s := by rw [presentWord, decoded_ok hd, h]

section
variable {q : SeqId} {s : State} {i : Instr}

/-- Check (0). -/
theorem verdict_marked (d : Option Instr) (h : s.faultCode ≠ 0#8 ∨ s.refusedReason ≠ 0#8) : verdict q d s = .noStep :=
  if_pos (by simpa [faulted, refusedMark] using h)

/-- Check (1). -/
theorem verdict_busy (d : Option Instr) (hf : s.faultCode = 0#8) (hr : s.refusedReason = 0#8) (hb : (seqOf s q).busy = true) :
    verdict q d s = .refuse .busy := by
  simp [verdict, faulted, refusedMark, hf, hr, hb]

/-- Checks (2) to (4), for an idle sequencer and no mark. -/
theorem verdict_illegal (hf : s.faultCode = 0#8) (hr : s.refusedReason = 0#8) (hb : (seqOf s q).busy = false) :
    verdict q none s = .refuse .illegalCommand := by
  simp [verdict, faulted, refusedMark, hf, hr, hb]

theorem verdict_wellFormed (hf : s.faultCode = 0#8) (hr : s.refusedReason = 0#8) (hb : (seqOf s q).busy = false)
    (hw : i.wellFormed = true) : verdict q (some i) s =
      if contextAllows q i then constructionVerdict (needOf i) s else .refuse .contextViolation := by
  cases h : contextAllows q i <;> simp [verdict, faulted, refusedMark, hf, hr, hb, hw, h]

end

/-- Settles O8: the verdict is computed check by check; for a legal word the context and the construction need are read off the
opcode. -/
theorem acceptanceChecksInOrder : Obligations.AcceptanceChecksInOrder := by
  intro q w s
  refine ⟨fun h => presentWord_noStep (verdict_marked _ h), fun hf hr => ⟨fun hb => presentWord_refuse (verdict_busy _ hf hr hb),
    fun hb => ⟨fun hl => ?illegal, fun hl => ?legal⟩⟩⟩
  case illegal =>
    rw [← decode_isOk] at hl
    cases hd : decode w with
    | ok i => rw [hd] at hl; cases hl
    | error e => exact presentWord_refuse (decoded_error hd ▸ verdict_illegal hf hr hb)
  case legal =>
    rw [← decode_isOk] at hl
    obtain ⟨i, hd⟩ : ∃ i, decode w = .ok i := by
      cases hd : decode w with
      | ok i => exact ⟨i, rfl⟩
      | error e => rw [hd] at hl; cases hl
    obtain ⟨r, hi⟩ := decode_readBy hd
    have hv := verdict_wellFormed hf hr hb hi.wellFormed
    have refused {r : RefusalReason} (h : verdict q (some i) s = .refuse r) : presentWord q w s = refuseWord r w s :=
      presentWord_refuse (decoded_ok hd ▸ h)
    rw [← hi.code]
    refine ⟨fun hq hc => ?context, fun hc => ?allowed⟩
    case context =>
      subst hq
      exact refused (by rw [hv, contextAllows_irq, if_neg (by simpa using hc)])
    case allowed =>
      have ha : contextAllows q i = true := by
        cases q
        · rfl
        · simpa [contextAllows_irq] using hc
      rw [if_pos ha, needOf_eq] at hv
      refine ⟨fun hn hcon => ?notConstructed, fun hn hcon => ?constructed, fun hlo hhi => ⟨i, hd, ?accepted⟩⟩
      case notConstructed => exact refused (r := .notConstructed) (by simp [hv, hn, constructionVerdict, hcon])
      case constructed =>
        have hlo : ¬(opcode i).toNat ≤ 0x20 := by omega
        exact refused (r := .alreadyConstructed) (by simp [hv, hlo, hn, constructionVerdict, hcon])
      case accepted =>
        rw [presentWord_accept _ hd, loadCommand, BitVec.ofNat_toNat, BitVec.setWidth_eq]
        rw [hv]
        split
        · simp [constructionVerdict, hlo ‹_›]
        · split
          · simp [constructionVerdict, hhi ‹_›]
          · rfl

/-- Settles O9: a command is one issue, and its verdict is the refusal. -/
theorem refusedCommandOnlyMarks : Obligations.RefusedCommandOnlyMarks := by
  intro i s r h
  rw [exec_eq_issue, issue, h]
  rfl

/-! ### The command port (R70, R166) -/

/-- Settles O7: the parameters pass, the port holds the word, and the word is legal. -/
theorem stepRunsTheDecodedCommand : Obligations.StepRunsTheDecodedCommand := by
  intro s w i hp hw hd
  simp only [step, hp, if_true, hw, takePort, hd, clearPort]

/-- With the port empty, a step is a tick. -/
theorem step_eq_tick {s : State} (hp : paramsOk s.par = true) (hw : s.port.word = none) : step s = tick s := by
  simp only [step, hp, if_true, hw]

@[simp] theorem presentWord_port (q : SeqId) (w : Cmd) (s : State) : (presentWord q w s).port = s.port := by
  unfold presentWord
  split
  · exact setSeq_port _ _ _
  · rfl
  · rfl

@[simp] theorem envStep_port (d : Draw) (s : State) : (envStep d s).port = s.port := by
  rw [envStep, settle_port]; cases d <;> rfl

/-- No move of the machine touches the command port. -/
theorem takeMove_port {m : Move} {s t : State} (h : takeMove m s = .next t) : t.port = s.port := by
  cases m <;> simp only [takeMove, Host.Outcome.next.injEq] at h
  case micro q => exact (seqStep_frame h).port
  case systemReset d => subst h; rw [systemReset, settle_port]; rfl
  case powerOn d => subst h; rw [powerOnReset, settle_port]; rfl
  case blockReset => subst h; rfl
  all_goals subst h; simp

theorem tick_port {s t : State} (h : tick s = .next t) : t.port = s.port := by
  unfold tick at h
  split at h
  · exact (takeMove_port h).trans rfl
  · split at h
    · exact (seqStep_frame h).port
    · cases h; rfl

theorem core_run_succ {M : Host.Core} {k : Nat} {s u : M.State} (h : M.step s = .next u) : M.run (k + 1) s = M.run k u := by
  rw [Host.Core.run, h]

/-- A drain is a run of the machine's steps. -/
theorem drain_run {q : SeqId} {n : Nat} {s t : State} (hp : paramsOk s.par = true) (hw : s.port.word = none)
    (h : drain q n s = .next t) : ∃ k, core.run k s = .next t := by
  induction n generalizing s with
  | zero => exact ⟨0, h⟩
  | succ n ih =>
    rw [drain] at h
    split at h
    · exact ⟨0, h⟩
    · split at h
      case h_1 u hu =>
        obtain ⟨k, hk⟩ := ih (by rw [tick_par hu]; exact hp) (by rw [tick_port hu]; exact hw) h
        have hs : core.step s = .next u := (step_eq_tick hp hw).trans hu
        exact ⟨k + 1, by rw [core_run_succ hs]; exact hk⟩
      all_goals cases h

/-- Settles O47: what the verdict on the command is, it is on the presentation of its word; after acceptance the drain is a run
of steps. -/
theorem commandIsPresentationThenTicks : Obligations.CommandIsPresentationThenTicks := by
  intro s t i hp hw hwf h
  have hd : decode (encode i) = .ok i := decodeOfEncode i hwf
  rw [exec_eq_issue, issue] at h
  split at h
  case h_1 hv => exact ⟨0, by rw [presentWord_noStep (by rwa [decoded_ok hd])]; exact h⟩
  case h_2 r hv => exact ⟨0, by rw [presentWord_refuse (by rwa [decoded_ok hd])]; exact h⟩
  case h_3 hv =>
    rw [presentWord_accept hv hd]
    exact drain_run (by simpa using hp) (by rw [loadCommand, setSeq_port]; exact hw) h

end Sys2Proof.Machine
end

section
/-! SUPPORT. Init transactions with other bodies than one field write: the prescalers (R136) and the combined setters (R130,
R131). -/

namespace Sys2Proof.Machine

/-! ### The prescalers (R135, R136) -/

/-- `PRER_WRITE` in init mode, its operands in `x[0]` and `x[1]`. -/
theorem Running.prerWrite {b : State} {prog rest : List MicroOp} {k : Nat} {sync : BitVec 16} {async : BitVec 8}
    (h : Running .owner b prog) (hc : Calm b) (hs : Silent .owner b) (hu : b.wp = .unlocked) (hf : initf b = true)
    (hx : b.rtcPrer &&& ~~~prerMask b.par = 0#32) (h0 : b.owner.x.x0 = some (sync.setWidth 32))
    (h1 : b.owner.x.x1 = some (async.setWidth 32)) (hg : ∀ j, prog[k + j]? = (Machine.prerWrite b.par ++ rest)[j]?) :
    Leads .owner 2 (atPc .owner b k) (atPc .owner { b with rtcPrer := prerOf b.par sync async } (k + 2)) := by
  have hS : prescalerSMask b.par &&& ~~~prerMask b.par = 0#32 := or_left_inside _ _
  have hA : prescalerAMask b.par &&& ~~~prerMask b.par = 0#32 := or_right_inside _ _
  have r0 := h.rmw hs (hg 0) rfl (by simp [lx0, h0]; rfl) (rmw_prer hc hu hf hx hS)
  let b' : State :=
    { b with rtcPrer := blend (prescalerSMask b.par) b.rtcPrer (sync.setWidth 32 &&& prescalerSMask b.par) }
  have hc' : Calm b' := hc.congr rfl rfl rfl rfl
  have r1 := Running.rmw (s := b') (h.congr rfl rfl rfl rfl fun _ => rfl) (hs.congr rfl rfl rfl rfl fun e => e) (hg 1) rfl
    (by simp [lx1, b', h1]; rfl) (rmw_prer hc' hu hf (blend_inside hx hS) hA)
  rw [show blend (prescalerAMask b'.par) b'.rtcPrer _ = prerOf b.par sync async from
    prer_two_writes h.params hx sync async] at r1
  exact r0.then r1

/-- Settles O30: an init transaction around `PRER_WRITE`, with no check before it. -/
theorem setPrescalersCompletes : Obligations.SetPrescalersCompletes := by
  intro s rest sync async hr hc hm
  let i : Instr := .setPrescalers sync async
  rw [exec_eq_issue]
  refine issue_initBody (k := 0) (x := loadedLatches i) (body := prerWrite s.par) (tail := [])
    (t := { inBody s i (loadedLatches i) rest with rtcPrer := prerOf s.par sync async })
    hr hm (hr.accepts hc rfl rfl) rfl rfl ?nothing ?body ⟨rfl, rfl, rfl, rfl⟩ rfl rfl rfl
  case nothing =>
    intro s' _ _ ho
    have e : { s' with owner := { s'.owner with x := loadedLatches i } } = s' := by
      have hx : loadedLatches i = s'.owner.x := by rw [ho]; rfl
      rw [hx]
    rw [e]
    exact (Leads.refl _ _).mono (by decide)
  case body =>
    rintro b rfl hR hcb hsil hub hfb hget
    exact ⟨(hR.prerWrite hcb hsil hub hfb hr.regs.prer rfl rfl hget).mono (by decide), hcb.congr rfl rfl rfl rfl⟩

/-! ### The combined setters (R130, R131) -/

/-- A run of `n` checks that all hold. -/
theorem Running.checksHold {q : SeqId} {s : State} {prog : List MicroOp} {k : Nat} (h : Running q s prog) (hs : Silent q s)
    (n : Nat) (hp : ∀ j, j < n → ∃ c, prog[k + j]? = some (.check c) ∧ c (seqOf s q).x = some true) :
    Leads q n (atPc q s k) (atPc q s (k + n)) := by
  induction n with
  | zero => exact Leads.refl _ _
  | succ n ih =>
    obtain ⟨c, hm, hc⟩ := hp n (by omega)
    exact (ih fun j hj => hp j (by omega)).then (h.check hs hm hc)

/-- What the checks of a combined setter ask of a date (R120, R121, R115), and what its word is then (R37). -/
structure DateOk (y m d : Nat) : Prop where
  year : yearOk y = true
  month : monthOk m = true
  day : dayOk d = true
  inMonth : d ≤ daysIn y m
  encodes : (encOk (y - epoch) 4 4 && encOk m 1 4 && encOk d 2 4) = true
  inside : toWord (dateWord y m d) &&& ~~~drMask = 0#32

theorem dateOk_of {y m d : Nat} (hy : 1970 ≤ y) (hy' : y ≤ 2069) (hm : 1 ≤ m) (hm' : m ≤ 12) (hd : 1 ≤ d)
    (hd' : d ≤ daysIn y m) : DateOk y m d := by
  have h31 : d ≤ 31 := hd'.trans (daysIn_le y m)
  have h99 : y - epoch ≤ 99 := by unfold epoch; omega
  exact {
    year := by simp [yearOk, hy, hy'], month := by simp [monthOk, hm, hm'], day := by simp [dayOk, hd, h31]
    inMonth := hd', encodes := by rw [encOk_year h99, encOk_month hm', encOk_day h31]; rfl
    inside := dateWord_inside h99 hm' h31 }

/-- The same of a time (R120, R115, R36). -/
structure TimeOk (h mi sec : Nat) : Prop where
  hour : hourOk h = true
  minute : sixtyOk mi = true
  second : sixtyOk sec = true
  encodes : (encOk h 2 4 && encOk mi 3 4 && encOk sec 3 4) = true
  inside : toWord (timeWord h mi sec) &&& ~~~trMask = 0#32

theorem timeOk_of {h mi sec : Nat} (hh : h ≤ 23) (hmi : mi ≤ 59) (hs : sec ≤ 59) : TimeOk h mi sec where
  hour := by simp [hourOk, hh]
  minute := by simp [sixtyOk, hmi]
  second := by simp [sixtyOk, hs]
  encodes := by rw [encOk_hour hh, encOk_sixty hmi, encOk_sixty hs]; rfl
  inside := timeWord_inside hh hmi hs

section
variable {s : State} {rest : List Move} {y : BitVec 16} {m d : BitVec 8} (hr : OwnerReady s) (hc : s.constructed = true)
  (hm : InitServed s rest) (hd : DateOk y.toNat m.toNat d.toNat)
include hr hc hm hd

/-- SET_DATE on an existing date (R130). -/
theorem exec_setDate : ∃ c, Finished c (.setDate y m d) 0x00#8 s.owner.res ∧
    exec (.setDate y m d) s = .next { s with
      owner := c, calDr := toWord (dateWord y.toNat m.toNat d.toNat), drLock := none
      rtcIsr := isrAfterInit s, wp := .locked, moves := rest } := by
  let i : Instr := .setDate y m d
  let date : Word := toWord (dateWord y.toNat m.toNat d.toNat)
  let x : Latches := { loadedLatches i with x6 := some date }
  rw [exec_eq_issue]
  refine issue_initBody (k := 6) (x := x) (body := [.wr .dr (lx6 id)]) (tail := [])
    (t := { inBody s i x rest with calDr := date, drLock := none })
    hr hm (hr.accepts hc rfl rfl) rfl rfl ?pre ?body ⟨rfl, rfl, rfl, rfl⟩ rfl rfl rfl
  case pre =>
    intro s' hR hsil ho
    have hx : s'.owner.x = loadedLatches i := by rw [ho]; rfl
    have checks := hR.checksHold (k := 0) hsil 5 fun j hj => by
      simp only [seqOf_owner, hx]
      interval_cases j
      · exact ⟨_, rfl, congrArg some ((congrArg yearOk (zext16 y)).trans hd.year)⟩
      · exact ⟨_, rfl, congrArg some ((congrArg monthOk (zext8 m)).trans hd.month)⟩
      · exact ⟨_, rfl, congrArg some ((congrArg dayOk (zext8 d)).trans hd.day)⟩
      · exact ⟨_, rfl, by simp only [lx012, loadedLatches, i, zext8, zext16, hd.inMonth, decide_true]⟩
      · exact ⟨_, rfl, by simp only [lx012, loadedLatches, i, zext8, zext16, hd.encodes]⟩
    have calcDate := hR.calc (k := 5) (v := date) hsil rfl
      (by simp only [lx012, loadedLatches, i, date, seqOf_owner, hx, zext8, zext16])
    simp only [seqOf_owner, setSeq_owner, hx] at calcDate
    exact (checks.then calcDate).mono (by decide)
  case body =>
    rintro b rfl hR hcb hsil hub hfb hget
    exact ⟨(hR.wr hsil (hget 0) rfl (wr_dr hcb hub hfb hd.inside)).mono (by decide), hcb.congr rfl rfl rfl rfl⟩

/-- SET_DATETIME on an existing date and time (R131). -/
theorem exec_setDatetime {h mi sec : BitVec 8} (ht : TimeOk h.toNat mi.toNat sec.toNat) :
    ∃ c, Finished c (.setDatetime y m d h mi sec) 0x00#8 s.owner.res ∧
      exec (.setDatetime y m d h mi sec) s = .next { s with
        owner := c, calDr := toWord (dateWord y.toNat m.toNat d.toNat), calTr := toWord (timeWord h.toNat mi.toNat sec.toNat)
        drLock := none, rtcIsr := isrAfterInit s, wp := .locked, moves := rest } := by
  let i : Instr := .setDatetime y m d h mi sec
  let date : Word := toWord (dateWord y.toNat m.toNat d.toNat)
  let time : Word := toWord (timeWord h.toNat mi.toNat sec.toNat)
  let x : Latches := { loadedLatches i with x6 := some date, x7 := some time }
  rw [exec_eq_issue]
  refine issue_initBody (k := 10) (x := x) (body := [.wr .dr (lx6 id), .wr .tr (lx7 id)]) (tail := [])
    (t := { inBody s i x rest with calDr := date, calTr := time, drLock := none })
    hr hm (hr.accepts hc rfl rfl) rfl rfl ?pre ?body ⟨rfl, rfl, rfl, rfl⟩ rfl rfl rfl
  case pre =>
    intro s' hR hsil ho
    have hx : s'.owner.x = loadedLatches i := by rw [ho]; rfl
    have checks := hR.checksHold (k := 0) hsil 8 fun j hj => by
      simp only [seqOf_owner, hx]
      interval_cases j
      · exact ⟨_, rfl, congrArg some ((congrArg yearOk (zext16 y)).trans hd.year)⟩
      · exact ⟨_, rfl, congrArg some ((congrArg monthOk (zext8 m)).trans hd.month)⟩
      · exact ⟨_, rfl, congrArg some ((congrArg dayOk (zext8 d)).trans hd.day)⟩
      · exact ⟨_, rfl, by simp only [lx012, loadedLatches, i, zext8, zext16, hd.inMonth, decide_true]⟩
      · exact ⟨_, rfl, congrArg some ((congrArg hourOk (zext8 h)).trans ht.hour)⟩
      · exact ⟨_, rfl, congrArg some ((congrArg sixtyOk (zext8 mi)).trans ht.minute)⟩
      · exact ⟨_, rfl, congrArg some ((congrArg sixtyOk (zext8 sec)).trans ht.second)⟩
      · have he := ht.encodes
        rw [Bool.and_assoc] at he
        exact ⟨_, rfl, by simp only [lx05, loadedLatches, i, zext8, zext16, hd.encodes, Bool.true_and, Bool.and_assoc, he]⟩
    have calcDate := hR.calc (k := 8) (v := date) hsil rfl
      (by simp only [lx012, loadedLatches, i, date, seqOf_owner, hx, zext8, zext16])
    have calcTime := Running.calc (k := 9) (v := time) (hR.congr rfl rfl rfl rfl fun _ => rfl)
      (hsil.congr rfl rfl rfl rfl fun e => e) (s := setSeq s' .owner { s'.owner with x := { loadedLatches i with x6 := some date } })
      rfl (by simp only [lx05, loadedLatches, i, time, seqOf_owner, setSeq_owner, zext8])
    simp only [seqOf_owner, setSeq_owner, hx] at calcDate calcTime
    exact ((checks.then calcDate).then calcTime).mono (by decide)
  case body =>
    rintro b rfl hR hcb hsil hub hfb hget
    have r0 := hR.wr hsil (hget 0) rfl (wr_dr hcb hub hfb hd.inside)
    have r1 := Running.wr (s := { inBody s i x rest with calDr := date, drLock := none }) (v := time)
      (hR.congr rfl rfl rfl rfl fun _ => rfl) (hsil.congr rfl rfl rfl rfl fun e => e) (hget 1) rfl
      (wr_tr (hcb.congr rfl rfl rfl rfl) hub hfb ht.inside)
    exact ⟨(r0.then r1).mono (by decide), hcb.congr rfl rfl rfl rfl⟩

end

/-- Settles O28: on an existing date and time both commands' checks hold, and their transaction writes the whole words. -/
theorem combinedSettersComplete : Obligations.CombinedSettersComplete := by
  intro s rest y m d h mi sec hr hc hm hy hy' hmo hmo' hd hd'
  have date := dateOk_of hy hy' hmo hmo' hd hd'
  exact ⟨exec_setDate hr hc hm date, fun hh hmi hs => exec_setDatetime hr hc hm date (timeOk_of hh hmi hs)⟩

end Sys2Proof.Machine
end

section
/-! SUPPORT. Fields of RTC_CR and flags of RTC_ISR under an open bracket, the edge that follows them (R38, R39, R92, R170), and
the run of ENABLE_WAKEUP (R143). -/

namespace Sys2Proof.Machine

/-! ### Blends (R22) -/

/-- Writing a blended word through a wider mask changes the blended bits only. -/
theorem blend_blend {M m x v : Word} (hm : m &&& ~~~M = 0#32) : blend M x (blend m x v) = blend m x v := by
  apply BitVec.eq_of_getLsbD_eq
  intro i hi
  have h := congrArg (fun w => w.getLsbD i) hm
  simp only [blend, BitVec.getLsbD_and, BitVec.getLsbD_or, BitVec.getLsbD_not, BitVec.getLsbD_zero, hi, decide_true,
    Bool.true_and] at h ⊢
  cases x.getLsbD i <;> cases hM : M.getLsbD i <;> simp_all

theorem blend_self (m x : Word) : blend m x m = x ||| m := by
  apply BitVec.eq_of_getLsbD_eq
  intro i hi
  simp only [blend, BitVec.getLsbD_and, BitVec.getLsbD_or, BitVec.getLsbD_not, hi, decide_true, Bool.true_and]
  cases x.getLsbD i <;> cases m.getLsbD i <;> rfl

theorem blend_zero (m x : Word) : blend m x 0#32 = x &&& ~~~m := by
  rw [blend, BitVec.zero_and, BitVec.or_zero]

/-- Setting a bit that is set. -/
theorem or_bit_of_getLsbD {x : Word} {n : Nat} (hn : n < 32) (h : x.getLsbD n = true) : x ||| bit n = x := by
  apply BitVec.eq_of_getLsbD_eq
  intro i _
  by_cases e : i = n
  · subst e; simp [h]
  · exact getLsbD_or_bit_ne hn e

/-- Bits cleared before a blend and set after it leave no trace of the clearing. -/
theorem blend_andNot_or (m b x v : Word) : blend m (x &&& ~~~b) v ||| b = blend m x v ||| b := by
  apply BitVec.eq_of_getLsbD_eq
  intro i hi
  simp only [blend, BitVec.getLsbD_and, BitVec.getLsbD_or, BitVec.getLsbD_not, hi, decide_true, Bool.true_and]
  cases b.getLsbD i <;> simp

/-- The blended field, read back under its mask beside other bits. -/
theorem blend_or_and {m b v : Word} (x : Word) (hv : v &&& ~~~m = 0#32) (hb : b &&& m = 0#32) : (blend m x v ||| b) &&& m = v := by
  apply BitVec.eq_of_getLsbD_eq
  intro i hi
  have h1 := congrArg (fun w => w.getLsbD i) hv
  have h2 := congrArg (fun w => w.getLsbD i) hb
  simp only [blend, BitVec.getLsbD_and, BitVec.getLsbD_or, BitVec.getLsbD_not, BitVec.getLsbD_zero, hi, decide_true,
    Bool.true_and] at h1 h2 ⊢
  cases hm : m.getLsbD i <;> simp_all

theorem inside_trans {x m M : Word} (hx : x &&& ~~~m = 0#32) (hm : m &&& ~~~M = 0#32) : x &&& ~~~M = 0#32 := by
  rw [← and_mask_id hx]; exact inside_and_right hm x

/-! ### RTC_CR and RTC_ISR under an open bracket (R42, R43, R92) -/

/-- A blend leaves the bits outside its mask. -/
theorem blend_getLsbD_outside {m : Word} (x v : Word) {n : Nat} (hn : n < 32) (h : m.getLsbD n = false) :
    (blend m x v).getLsbD n = x.getLsbD n := by
  simp only [blend, BitVec.getLsbD_or, BitVec.getLsbD_and, BitVec.getLsbD_not, hn, h, decide_true, Bool.not_false,
    Bool.and_true, Bool.and_false, Bool.or_false]

/-- RMW of a field of RTC_CR whose bits can be written now. -/
theorem writeReg_cr_field {s : State} {m v : Word} (hu : s.wp = .unlocked) (hm : m &&& ~~~crWritable s = 0#32) :
    writeReg .cr (blend m (readReg .cr s).1 v) (readReg .cr s).2 = { s with rtcCr := blend m s.rtcCr v } := by
  have h : unlocked s = true := by simp [unlocked, hu]
  show writeCr (blend m s.rtcCr v) s = _
  rw [writeCr, if_pos h, blend_blend hm]

/-- Bits of RTC_CR that no guard of R43 covers. -/
theorem crWritable_unguarded (s : State) {m : Word} (hm : m &&& ~~~(crMask &&& ~~~0x000000D7#32) = 0#32) :
    m &&& ~~~crWritable s = 0#32 := by
  refine inside_trans hm ?_
  unfold crWritable
  split <;> split <;> decide

/-- WUCKSEL, its guard open. -/
theorem crWritable_wucksel {s : State} (he : wute s = false) (hw : wutwf s = true) : 0x00000007#32 &&& ~~~crWritable s = 0#32 := by
  rw [crWritable, he, hw]
  split <;> decide

/-- `ISR_CLR(m)` in an unlocked state, of rc_w0 flags (R92). -/
theorem writeIsr_clear {s : State} {m : Word} (hu : s.wp = .unlocked) (hm : m &&& ~~~isrKeep = 0#32) :
    writeIsr (isrClearWord m s.rtcIsr) s = { s with rtcIsr := s.rtcIsr &&& ~~~m } := by
  have e : blend (bit 7) (s.rtcIsr &&& ~~~(isrKeep &&& ~~~isrClearWord m s.rtcIsr)) (isrClearWord m s.rtcIsr) =
      s.rtcIsr &&& ~~~m := by
    apply BitVec.eq_of_getLsbD_eq
    intro i hi
    have h7 : isrKeep.getLsbD 7 = false := by decide
    have h := congrArg (fun w => w.getLsbD i) hm
    simp only [blend, isrClearWord, BitVec.getLsbD_and, BitVec.getLsbD_or, BitVec.getLsbD_not, BitVec.getLsbD_zero,
      bit_getLsbD 7 i (by decide), hi, decide_true, Bool.true_and] at h ⊢
    by_cases e : i = 7
    · subst e; simp_all
    · cases s.rtcIsr.getLsbD i <;> cases hk : isrKeep.getLsbD i <;> simp_all
  simp only [writeIsr, unlocked, isrClearable, hu, BEq.rfl, if_true, e]

/-- The levels depend on bits 15:12 of RTC_CR and on the event flags of RTC_ISR only. -/
theorem levelsOf_eq_of_bits {s t : State} (hc : ∀ n, 12 ≤ n → n ≤ 15 → t.rtcCr.getLsbD n = s.rtcCr.getLsbD n)
    (hi : ∀ n, 8 ≤ n → n ≤ 11 → t.rtcIsr.getLsbD n = s.rtcIsr.getLsbD n) : levelsOf t = levelsOf s := by
  simp only [levelsOf, alraf, alrbf, wutf, tsf, alraie, alrbie, wutie, tsie, hc 12 (by omega) (by omega),
    hc 13 (by omega) (by omega), hc 14 (by omega) (by omega), hc 15 (by omega) (by omega), hi 8 (by omega) (by omega),
    hi 9 (by omega) (by omega), hi 10 (by omega) (by omega), hi 11 (by omega) (by omega)]

/-- In a live domain a register change that moves levels is settled by its edges. -/
theorem settle_of_live {s : State} (h : domainHeld s = false) : settle s = detectEdges s := by
  rw [settle, holdDomain_of_live h]

theorem Calm.detectEdges {s : State} (h : domainHeld s = false) : Calm (detectEdges s) := ⟨h, rfl⟩

/-! ### The wakeup counter switched off (R143 to R145) -/

/-- A field of RTC_CR that holds no interrupt enable moves no level. -/
theorem Calm.crField {s : State} (h : Calm s) {m : Word} (hl : m &&& 0x0000F000#32 = 0#32) (v : Word) :
    Calm { s with rtcCr := blend m s.rtcCr v } := by
  refine h.congr rfl rfl rfl (levelsOf_eq_of_bits (fun n h1 h2 => blend_getLsbD_outside _ _ (by omega) ?_) fun _ _ _ => rfl)
  have hn := congrArg (fun w => w.getLsbD n) hl
  have hf : (0x0000F000#32 : Word).getLsbD n = true := by interval_cases n <;> rfl
  simpa only [BitVec.getLsbD_and, hf, Bool.and_true, BitVec.getLsbD_zero] using hn

/-- RMW of such a field under an open bracket, its bits writable now. -/
theorem Running.rmwCr {s : State} {prog : List MicroOp} {k : Nat} {em ev : LExpr Word} {m v : Word} (h : Running .owner s prog)
    (hc : Calm s) (hs : Silent .owner s) (hu : s.wp = .unlocked) (hm : prog[k]? = some (.rmw .cr em ev))
    (hem : em s.owner.x = some m) (hev : ev s.owner.x = some v) (hw : m &&& ~~~crWritable s = 0#32)
    (hl : m &&& 0x0000F000#32 = 0#32) :
    Leads .owner 1 (atPc .owner s k) (atPc .owner { s with rtcCr := blend m s.rtcCr v } (k + 1)) :=
  h.rmw hs hm hem hev (by rw [writeReg_cr_field hu hw]; exact (hc.crField hl v).settle)

/-- `WUTE <- 0` under an open bracket. -/
theorem Running.clearWute {s : State} {prog : List MicroOp} {k : Nat} (h : Running .owner s prog) (hc : Calm s)
    (hs : Silent .owner s) (hu : s.wp = .unlocked) (hm : prog[k]? = some (.rmw .cr (lconst (bit 10)) (lconst 0#32))) :
    Leads .owner 1 (atPc .owner s k) (atPc .owner { s with rtcCr := s.rtcCr &&& ~~~bit 10 } (k + 1)) := by
  have r := h.rmwCr hc hs hu hm rfl rfl (crWritable_unguarded s (by decide)) (by decide)
  rwa [blend_zero] at r

/-- `WUTWF <- 1` in a calm state (R177). -/
theorem envStep_wutwfSet {s : State} (h : Calm s) : envStep .wutwfSet s = { s with rtcIsr := s.rtcIsr ||| bit 2 } :=
  Calm.settle (h.isr (t := { s with rtcIsr := s.rtcIsr ||| bit 2 }) rfl rfl rfl rfl fun _ _ _ =>
    getLsbD_or_bit_ne (by omega) (by omega))

/-- The bracket open, WUTE cleared and WUTWF served. -/
def wakeupOff (s : State) (rest : List Move) : State :=
  { s with wp := .unlocked, rtcCr := s.rtcCr &&& ~~~bit 10, rtcIsr := s.rtcIsr ||| bit 2, moves := rest }

theorem Calm.wakeupOff {s : State} (h : Calm s) (rest : List Move) : Calm (wakeupOff s rest) :=
  h.congr rfl rfl rfl (levelsOf_eq_of_bits
    (fun n _ _ => getLsbD_andNot_bit_ne (by decide) (by omega) (by omega)) fun _ _ _ => getLsbD_or_bit_ne (by omega) (by omega))

section
variable {s : State} {prog : List MicroOp} {k : Nat} (h : Running .owner s prog) (hc : Calm s)
  (h0 : prog[k]? = some (.wr .wpr (lconst 0x000000CA#32))) (h1 : prog[k + 1]? = some (.wr .wpr (lconst 0x00000053#32)))
  (h2 : prog[k + 2]? = some (.rmw .cr (lconst (bit 10)) (lconst 0#32)))
include h hc h0 h1 h2

/-- UNLOCK and `WUTE <- 0`, the schedule silent. -/
theorem Running.unlockClearWute (hs : Silent .owner s) : Leads .owner 3 (atPc .owner s k)
    (atPc .owner { s with wp := .unlocked, rtcCr := s.rtcCr &&& ~~~bit 10 } (k + 3)) :=
  (h.unlock hc hs h0 h1).then (n := 1)
    (Running.clearWute (s := { s with wp := .unlocked }) (h.congr rfl rfl rfl rfl fun _ => rfl) (hc.congr rfl rfl rfl rfl)
      (hs.congr rfl rfl rfl rfl fun e => e) rfl h2)

/-- The same with the draw of WUTWF wherever it falls: none where the flag is 1, at once where WUTE is 0, else after WUTE. -/
theorem Running.wakeupOff {rest : List Move} (hm : WakeServed s rest) :
    Leads .owner 4 (atPc .owner s k) (atPc .owner (Machine.wakeupOff s rest) (k + 3)) := by
  have hmv := hm.moves
  cases hw : wutwf s with
  | true =>
    rw [hw, if_pos rfl, List.nil_append] at hmv
    have r := h.unlockClearWute hc h0 h1 h2 (.of_waits (hmv ▸ hm.quiet) h.busy)
    have e : s.rtcIsr ||| bit 2 = s.rtcIsr := or_bit_of_getLsbD (by decide) hw
    rw [Machine.wakeupOff, e, ← hmv]
    exact r.mono (by decide)
  | false =>
    rw [hw, if_neg (by decide), List.singleton_append] at hmv
    cases he : wute s with
    | false =>
      let s' : State := { s with rtcIsr := s.rtcIsr ||| bit 2, moves := rest }
      have hc' : Calm s' := hc.isr rfl rfl rfl rfl fun _ _ _ => getLsbD_or_bit_ne (by omega) (by omega)
      have r0 := h.draw (k := k) (t := s') hmv (by simp [drawEnabled, hw, he])
        (envStep_wutwfSet (s := { s with moves := rest }) (hc.congr rfl rfl rfl rfl))
      have r1 := Running.unlockClearWute (s := s') (h.congr rfl rfl rfl rfl fun _ => rfl) hc' h0 h1 h2
        (.of_waits hm.quiet h.busy)
      exact r0.then r1
    | true =>
      let s' : State := { s with wp := .unlocked, rtcCr := s.rtcCr &&& ~~~bit 10 }
      have r0 := h.unlockClearWute hc h0 h1 h2 (.draw _ _ hmv (by simp [drawEnabled, he]))
      have he' : wute s' = false := by simp [wute, s', bit]
      have r1 := Running.draw (s := s') (k := k + 3) (t := Machine.wakeupOff s rest) (h.congr rfl rfl rfl rfl fun _ => rfl)
        hmv (by simp [drawEnabled, he', show wutwf s' = false from hw])
        (envStep_wutwfSet (s := { s' with moves := rest }) (hc.congr rfl rfl rfl (levelsOf_eq_of_bits
          (fun n _ _ => getLsbD_andNot_bit_ne (by decide) (by omega) (by omega)) fun _ _ _ => rfl)))
      exact r0.then r1

end

/-! ### ENABLE_WAKEUP (R143, R140, R142) -/

/-- The pending edges depend on the trigger selections, the recorded levels and the levels only (R170). -/
theorem edgePending_congr {s t : State} (hr : t.extiRtsr = s.extiRtsr) (hf : t.extiFtsr = s.extiFtsr) (hl : t.lvl = s.lvl)
    (hv : levelsOf t = levelsOf s) : edgePending t = edgePending s := by
  have he (n : Nat) (a b : Bool) : edgeSets t n a b = edgeSets s n a b := by simp only [edgeSets, hr, hf]
  simp only [edgePending, he, hl, hv]

/-- Edges taken before later changes that touch neither EXTI nor a level are the edges taken after them. -/
theorem detectEdges_later {s t : State} (hp : t.extiPr = s.extiPr) (hr : t.extiRtsr = s.extiRtsr) (hf : t.extiFtsr = s.extiFtsr)
    (hl : t.lvl = s.lvl) (hv : levelsOf t = levelsOf s) :
    { t with extiPr := s.extiPr ||| edgePending s, lvl := levelsOf s } = detectEdges t := by
  rw [detectEdges, edgePending_congr hr hf hl hv, hp, hv]

/-- `WK_SEL` and `WK_VAL` of a representable interval (R140). -/
theorem wkSel_eq (n : Nat) : wkSel n = if n ≤ 65536 then 4 else 6 := by
  unfold wkSel; split <;> split <;> omega

theorem wkVal_eq {n : Nat} (h : 1 ≤ n) (h' : n ≤ 131072) : wkVal n = if n ≤ 65536 then n - 1 else n - 65537 := by
  have h0 : n ≠ 0 := by omega
  unfold wkVal wkEnc
  by_cases hn : n ≤ 65536
  · simp [hn, Nat.not_lt.mpr hn, h0]
  · have hv : n - 65537 ≤ 65535 := by omega
    simp [hn, Nat.lt_of_not_le hn, hv]

theorem wkOk_iff (n : Nat) : wkOk n = true ↔ 1 ≤ n ∧ n ≤ 131072 := by
  unfold wkOk wkEnc
  split
  · split <;> simp <;> omega
  · split <;> simp <;> omega

/-- The state after `WUTF <- 0` (R143 d), with the edge it makes. -/
def wakeupCleared (s : State) (rest : List Move) : State :=
  detectEdges { wakeupOff s rest with rtcIsr := (s.rtcIsr ||| bit 2) &&& ~~~bit 10 }

theorem Running.wakeupCleared {s : State} {prog : List MicroOp} {k : Nat} {rest : List Move} (h : Running .owner s prog)
    (hc : Calm s) (hm : Waits .owner rest) (h0 : prog[k]? = some (.isrClr (lconst (bit 10)))) :
    Leads .owner 1 (atPc .owner (Machine.wakeupOff s rest) k) (atPc .owner (Machine.wakeupCleared s rest) (k + 1)) := by
  refine Running.isrClr (h.congr rfl rfl rfl rfl fun _ => rfl) (.of_waits hm h.busy) h0 rfl ?_
  rw [writeIsr_clear rfl (by decide)]
  exact settle_of_live hc.live

theorem wutwf_wakeupCleared (s : State) (rest : List Move) : wutwf (wakeupCleared s rest) = true := by
  simp [wutwf, wakeupCleared, bit]

theorem writeReg_wutr_open {s : State} (hu : s.wp = .unlocked) (hf : wutwf s = true) {v : Word} (hv : v &&& ~~~wutrMask = 0#32) :
    writeReg .wutr v s = { s with rtcWutr := v } := by
  show writeWutr v s = _
  rw [writeWutr, if_pos (by simp [unlocked, hu, hf]), and_mask_id hv]

/-- The reload value fits RTC_WUTR (R41, R140). -/
theorem wkVal_inside {n : Nat} (h : 1 ≤ n) (h' : n ≤ 131072) : toWord (wkVal n) &&& ~~~wutrMask = 0#32 := by
  have hv : wkVal n < 65536 := by rw [wkVal_eq h h']; split <;> omega
  apply BitVec.eq_of_getLsbD_eq
  intro i hi
  simp only [BitVec.getLsbD_and, BitVec.getLsbD_not, getLsbD_toWord _ i hi, BitVec.getLsbD_zero, hi, decide_true,
    Bool.true_and, wutrMask]
  interval_cases i <;> simp <;> omega

/-- With WUTE = 0 and WUTWF = 1 the clock-select code, the reload value and WUTE are written (R143 e to i). -/
theorem Running.programWakeup {u : State} {n : BitVec 32} (h : Running .owner u progEnableWakeup) (hc : Calm u)
    (hw : Waits .owner u.moves) (hu : u.wp = .unlocked) (he : wute u = false) (hf : wutwf u = true)
    (hx : u.owner.x = loadedLatches (.enableWakeup n)) (hn : wkOk n.toNat = true) :
    ∃ x, Leads .owner 7 (atPc .owner u 4) (atPc .owner { u with
      owner := { u.owner with x := x }, rtcCr := blend 0x00000007#32 u.rtcCr (toWord (wkSel n.toNat)) ||| bit 10
      rtcWutr := toWord (wkVal n.toNat) } 11) ∧
      Calm { u with
        owner := { u.owner with x := x }, rtcCr := blend 0x00000007#32 u.rtcCr (toWord (wkSel n.toNat)) ||| bit 10
        rtcWutr := toWord (wkVal n.toNat) } := by
  obtain ⟨h1, h2⟩ := (wkOk_iff _).mp hn
  let sel : Word := toWord (wkSel n.toNat)
  let val : Word := toWord (wkVal n.toNat)
  let x6 : Latches := { loadedLatches (.enableWakeup n) with x6 := some sel }
  let x7 : Latches := { x6 with x7 := some val }
  have hs : Silent .owner u := .of_waits hw h.busy
  have wait := h.poll (k := 4) hs rfl (by decide) (by decide) ((and_bit_eq_bit (by decide)).mpr hf)
  have calcSel := h.calc (k := 5) (v := sel) hs rfl (by rw [seqOf_owner, hx]; rfl)
  rw [seqOf_owner, hx] at calcSel
  have calcVal := Running.calc (s := { u with owner := { u.owner with x := x6 } }) (k := 6) (v := val)
    (h.congr rfl rfl rfl rfl fun _ => rfl) (hs.congr rfl rfl rfl rfl fun e => e) rfl rfl
  let u2 : State := { u with owner := { u.owner with x := x7 } }
  have hc2 : Calm u2 := hc.setSeq .owner _
  have writeSel := Running.rmwCr (s := u2) (k := 7) (m := 0x00000007#32) (v := sel) (h.congr rfl rfl rfl rfl fun _ => rfl) hc2
    (hs.congr rfl rfl rfl rfl fun e => e) hu rfl rfl rfl (crWritable_wucksel he hf) (by decide)
  let u3 : State := { u2 with rtcCr := blend 0x00000007#32 u.rtcCr sel }
  have h3 : Running .owner u3 progEnableWakeup := h.congr rfl rfl rfl rfl fun _ => rfl
  have hc3 : Calm u3 := hc2.crField (by decide) sel
  have hs3 : Silent .owner u3 := .of_waits hw h.busy
  have noFault := h3.faultIfNot (k := 8) hs3 rfl (by show some (!wkOk n.toNat) = some false; rw [hn]; rfl)
  let u4 : State := { u3 with rtcWutr := val }
  have hc4 : Calm u4 := hc3.congr rfl rfl rfl rfl
  have writeVal := h3.wr (k := 9) (v := val) (t := u4) hs3 rfl rfl
    (by rw [writeReg_wutr_open (s := u3) hu hf (wkVal_inside h1 h2)]; exact hc4.settle)
  have writeWute := Running.rmwCr (s := u4) (k := 10) (m := bit 10) (v := bit 10) (h.congr rfl rfl rfl rfl fun _ => rfl) hc4
    (.of_waits hw h.busy) hu rfl rfl rfl (crWritable_unguarded _ (by decide)) (by decide)
  have hc5 := hc4.crField (m := bit 10) (by decide) (bit 10)
  rw [blend_self] at writeWute hc5
  exact ⟨x7, ((((wait.then calcSel).then calcVal).then writeSel).then noFault).then (writeVal.then writeWute), hc5⟩

/-- ENABLE_WAKEUP of a representable interval. -/
theorem exec_enableWakeup {s : State} {rest : List Move} {n : BitVec 32} (hr : OwnerReady s) (hc : s.constructed = true)
    (hm : WakeServed s rest) (hn : wkOk n.toNat = true) :
    ∃ c, Finished c (.enableWakeup n) 0x00#8 s.owner.res ∧
      exec (.enableWakeup n) s = .next (detectEdges { s with
        owner := c
        rtcCr := blend 0x00000007#32 s.rtcCr (toWord (wkSel n.toNat)) ||| bit 10
        rtcIsr := (s.rtcIsr ||| bit 2) &&& ~~~bit 10
        rtcWutr := toWord (wkVal n.toNat)
        wp := .locked, moves := rest }) := by
  let i : Instr := .enableWakeup n
  let s0 : State := { s with owner := loadedSeq s.owner i }
  have hcalm : Calm s0 := (hr.regs.calm hr.live).setSeq .owner _
  have h : Running .owner s0 progEnableWakeup := running_loaded hr.regs.params hr.noFault hr.irqIdle rfl
  have off := (h.wakeupOff (k := 0) hcalm rfl rfl rfl ⟨hm.moves, hm.quiet⟩).then (h.wakeupCleared (k := 3) hcalm hm.quiet rfl)
  let u : State := wakeupCleared s0 rest
  have cu : Calm u := Calm.detectEdges (s := { wakeupOff s0 rest with rtcIsr := _ }) hcalm.live
  have hu : Running .owner u progEnableWakeup := h.congr rfl rfl rfl rfl fun _ => rfl
  have hwute : wute u = false := by
    show (s.rtcCr &&& ~~~bit 10).getLsbD 10 = false
    simp [bit]
  obtain ⟨x, program, cv⟩ := hu.programWakeup cu hm.quiet rfl hwute (wutwf_wakeupCleared s0 rest) rfl hn
  let v : State := { u with
    owner := { u.owner with x := x }, rtcCr := blend 0x00000007#32 u.rtcCr (toWord (wkSel n.toNat)) ||| bit 10
    rtcWutr := toWord (wkVal n.toNat) }
  have hv : Running .owner v progEnableWakeup := hu.congr rfl rfl rfl rfl fun _ => rfl
  have close := (hv.lock (k := 11) cv (.of_waits hm.quiet h.busy) rfl).then
    (Running.done (k := 12) (s := { v with wp := .locked }) (hv.congr rfl rfl rfl rfl fun _ => rfl)
    (.of_waits hm.quiet h.busy) rfl)
  let c : Seq := { v.owner with pc := 13, status := 0x00#8, busy := false }
  refine ⟨c, ⟨rfl, rfl, rfl, rfl, rfl⟩, ?_⟩
  have hcr : v.rtcCr = blend 0x00000007#32 s.rtcCr (toWord (wkSel n.toNat)) ||| bit 10 := blend_andNot_or _ _ _ _
  let t : State := { s with
    owner := c, rtcCr := v.rtcCr, rtcIsr := (s.rtcIsr ||| bit 2) &&& ~~~bit 10, rtcWutr := toWord (wkVal n.toNat)
    wp := .locked, moves := rest }
  have hend : complete .owner 0x00#8 (atPc .owner { v with wp := .locked } 12) = detectEdges t :=
    detectEdges_later (s := { wakeupOff s0 rest with rtcIsr := (s.rtcIsr ||| bit 2) &&& ~~~bit 10 }) (t := t)
      rfl rfl rfl rfl (cv.levels.symm.trans cu.levels)
  rw [exec_eq_issue, ← hcr]
  show issue i s = .next (detectEdges t)
  rw [← hend]
  refine issue_of_leads (n := 30) (by rw [hr.port]; exact hr.accepts hc rfl rfl) ?_ (by decide) ?_
  · rw [hr.port, loadCommand_eq]
    exact ((off.then program).then close).mono (by decide)
  · rw [hr.port]
    exact drain_idle rfl

/-- Settles O37: the code that `WK_SEL` gives selects the period formula whose reload value `WK_VAL` gives. -/
theorem wakeupPeriodIsExact : Obligations.WakeupPeriodIsExact := by
  intro s t rest n hr hc hm hn ht
  obtain ⟨c, -, hex⟩ := exec_enableWakeup hr hc hm hn
  rw [hex] at ht
  cases ht
  obtain ⟨h1, h2⟩ := (wkOk_iff _).mp hn
  have hval : wkVal n.toNat < 2 ^ 32 := by rw [wkVal_eq h1 h2]; split <;> omega
  have code (k : Nat) (hk : toWord k &&& ~~~0x00000007#32 = 0#32) :
      (blend 0x00000007#32 s.rtcCr (toWord k) ||| bit 10) &&& 0x00000007#32 = toWord k := blend_or_and _ hk (by decide)
  simp only [detectEdges_rtcCr, detectEdges_rtcWutr]
  rw [show (toWord (wkVal n.toNat)).toNat = wkVal n.toNat from Nat.mod_eq_of_lt hval, wkVal_eq h1 h2, wkSel_eq]
  by_cases hs : n.toNat ≤ 65536
  · rw [if_pos hs, if_pos hs]
    exact .inl ⟨code 4 (by decide), by omega⟩
  · rw [if_neg hs, if_neg hs]
    exact .inr ⟨code 6 (by decide), by omega⟩

end Sys2Proof.Machine
end

section
/-! SUPPORT. The two bring-up commands (R110 to R112) as runs: the gates, the domain reset by named micro-ops, and what both
commands do from the clock mux on. -/

namespace Sys2Proof.Machine

/-! ### A micro-op that the schedule lets run (R167) -/

/-- OWNER's next micro-op is taken now and leaves the schedule `ms`: the schedule is silent, or it names the micro-op. -/
inductive Turn (s : State) (ms : List Move) : Prop where
  | silent (h : Silent .owner s) (hm : s.moves = ms)
  | named (h : s.moves = .micro .owner :: ms)

/-- A micro-op that the schedule names. -/
theorem SeqAt.named {q : SeqId} {s t : State} {prog : List MicroOp} {k : Nat} {m : MicroOp} {ms : List Move}
    (h : SeqAt q s prog k) (hv : s.moves = .micro q :: ms) (hm : prog[k]? = some m) (hp : ∀ r a b, m ≠ .poll r a b)
    (ht : runMicroOp q m { s with moves := ms } = .next t) : Reaches q 1 s t := by
  have hturn : Machine.turn s = some q := h.turn (not_held (h.next.trans hm) hp)
  refine reaches_move h.busy h.notFaulted (m := .micro q) (rest := ms) (by simp [readyMove, hv, moveEnabled, hturn]) ?_
  have hpc : (seqOf { s with moves := ms } q).pc = k := by cases q <;> exact h.pc
  have hg : progOf s.par (seqOf { s with moves := ms } q).op = some prog := by cases q <;> exact h.program
  simp only [takeMove, seqStep, hg, hpc, hm, ht]

section
variable {s : State} {prog : List MicroOp} {k : Nat} {ms : List Move}

/-- A micro-op other than a poll, silent or named. -/
theorem Running.turn {t : State} {m : MicroOp} (h : Running .owner s prog) (hT : Turn s ms) (hm : prog[k]? = some m)
    (hp : ∀ r a b, m ≠ .poll r a b) (ht : runMicroOp .owner m (atPc .owner { s with moves := ms } k) = .next t) :
    Leads .owner 1 (atPc .owner s k) t := by
  cases hT with
  | silent hs hms =>
    subst hms
    exact ((h.seqAt k).reaches (hs.atPc k) hm (not_held ((h.seqAt k).next.trans hm) hp) ht).leads
  | named hv => exact ((h.seqAt k).named hv hm hp ht).leads

/-- `RMW`, silent or named. -/
theorem Running.turnRmw {t : State} {r : Reg} {em ev : LExpr Word} {m v : Word} (h : Running .owner s prog) (hT : Turn s ms)
    (hm : prog[k]? = some (.rmw r em ev)) (hem : em s.owner.x = some m) (hev : ev s.owner.x = some v)
    (ht : settle (writeReg r (blend m (readReg r { s with moves := ms }).1 v) (readReg r { s with moves := ms }).2) = t) :
    Leads .owner 1 (atPc .owner s k) (atPc .owner t (k + 1)) := by
  have hp : paramsOk (atPc .owner { s with moves := ms } k).par = true := h.params
  refine h.turn hT hm (by simp) ?_
  rw [runMicroOp, withValue_eq (a := m) hem, withValue_eq (a := v) hev, withRead_eq hp,
    withWrite_eq (by simpa using hp), readReg_fst_atPc, readReg_snd_atPc, writeReg_atPc, settle_atPc, ht, advance_atPc]

/-- `SKIPIF` that does not skip, silent or named. -/
theorem Running.turnSkipsNot {r : Reg} {a b : Word} {n : Nat} (h : Running .owner s prog) (hT : Turn s ms)
    (hm : prog[k]? = some (.skipIf r a b n)) (hr : r ≠ .tr) (hd : r ≠ .dr)
    (hv : ¬(readReg r { s with moves := ms }).1 &&& a = b) :
    Leads .owner 1 (atPc .owner s k) (atPc .owner { s with moves := ms } (k + 1)) := by
  have hp : paramsOk (atPc .owner { s with moves := ms } k).par = true := h.params
  refine h.turn hT hm (by simp) ?_
  rw [runMicroOp, withRead_eq hp, readReg_fst_atPc, if_neg hv, readReg_pure hr hd, advance_atPc]

end

/-! ### The gates (R109) -/

/-- The gates of the bring-up open: PWREN and DBP. -/
def gatesOpen (s : State) (ms : List Move) : State :=
  { s with apb1enr := s.apb1enr ||| bit 28, pwrCr := s.pwrCr ||| bit 8, moves := ms }

/-- The gates, the power control word and the schedule are no part of the backup domain and move no level. -/
theorem settle_gates {s : State} (hh : holdDomain s = s) (hl : s.lvl = levelsOf s) (a p : Word) (ms : List Move) :
    settle { s with apb1enr := a, pwrCr := p, moves := ms } = { s with apb1enr := a, pwrCr := p, moves := ms } := by
  refine settle_of_regs ?_ hl
  by_cases hd : domainHeld s = true
  · rw [holdDomain, if_pos hd] at hh
    rw [holdDomain, if_pos (show domainHeld { s with apb1enr := a, pwrCr := p, moves := ms } = true from hd)]
    exact congrArg (fun u : State => { u with apb1enr := a, pwrCr := p, moves := ms }) hh
  · exact holdDomain_of_live (Bool.eq_false_iff.mpr hd)

theorem writeReg_apb1enr_pwren (s : State) :
    writeReg .apb1enr (blend (bit 28) (readReg .apb1enr s).1 (bit 28)) (readReg .apb1enr s).2 =
      { s with apb1enr := s.apb1enr ||| bit 28 } := by
  show { s with apb1enr := blend (bit 28) s.apb1enr (blend (bit 28) s.apb1enr (bit 28)) } = _
  rw [blend_blend (by decide), blend_self]

theorem writeReg_pwrCr_dbp {s : State} (hp : pwren s = true) (hc : s.pwrCr.getLsbD 2 = false) :
    writeReg .pwrCr (blend (bit 8) (readReg .pwrCr s).1 (bit 8)) (readReg .pwrCr s).2 =
      { s with pwrCr := s.pwrCr ||| bit 8 } := by
  show writePwrCr (blend (bit 8) s.pwrCr (bit 8)) s = _
  have h2 : (blend (bit 8) s.pwrCr (bit 8)).getLsbD 2 = false := (blend_bit_other (by decide) (by decide) _ _).trans hc
  rw [writePwrCr, if_pos hp, h2, blend_blend (by decide), blend_self]
  rfl

/-- The first two micro-ops of a bring-up. -/
theorem Running.openGates {s : State} {prog : List MicroOp} {ms ms' : List Move} (h : Running .owner s prog)
    (hh : holdDomain s = s) (hl : s.lvl = levelsOf s) (hc : s.pwrCr.getLsbD 2 = false) (h0 : Turn s ms)
    (h1 : Turn { s with apb1enr := s.apb1enr ||| bit 28, moves := ms } ms')
    (p0 : prog[0]? = some (.rmw .apb1enr (lconst (bit 28)) (lconst (bit 28))))
    (p1 : prog[1]? = some (.rmw .pwrCr (lconst (bit 8)) (lconst (bit 8)))) :
    Leads .owner 2 (atPc .owner s 0) (atPc .owner (gatesOpen s ms') 2) := by
  let s1 : State := { s with apb1enr := s.apb1enr ||| bit 28, moves := ms }
  have r0 := h.turnRmw (k := 0) (t := s1) h0 p0 rfl rfl
    (by rw [writeReg_apb1enr_pwren]; exact settle_gates hh hl _ s.pwrCr ms)
  have hp : pwren { s1 with moves := ms' } = true := by
    show (s.apb1enr ||| bit 28).getLsbD 28 = true
    simp [bit]
  have r1 := Running.turnRmw (s := s1) (k := 1) (t := gatesOpen s ms') (h.congr rfl rfl rfl rfl fun _ => rfl) h1 p1 rfl rfl
    (by rw [writeReg_pwrCr_dbp (s := { s1 with moves := ms' }) hp hc]; exact settle_gates hh hl _ _ ms')
  exact r0.then r1

theorem dbp_gatesOpen (s : State) (ms : List Move) : dbp (gatesOpen s ms) = true := by
  show (s.pwrCr ||| bit 8).getLsbD 8 = true
  simp [bit]

/-! ### Fields of RCC_CSR while DBP = 1 (R47, R109) -/

/-- RMW of writable fields of RCC_CSR. -/
theorem writeReg_csr_field {s : State} {m v : Word} (hd : dbp s = true) (hm : m &&& ~~~(bit 0 ||| csrGatedMask s.par) = 0#32) :
    writeReg .csr (blend m (readReg .csr s).1 v) (readReg .csr s).2 = { s with rccCsr := blend m s.rccCsr v } := by
  show writeCsr (blend m s.rccCsr v) s = _
  rw [writeCsr, if_pos hd, blend_blend hm]

/-- RMW of such fields other than the domain-reset bit, in a calm state. -/
theorem Running.rmwCsr {s : State} {prog : List MicroOp} {k : Nat} {em ev : LExpr Word} {m v : Word} (h : Running .owner s prog)
    (hc : Calm s) (hs : Silent .owner s) (hd : dbp s = true) (hm : prog[k]? = some (.rmw .csr em ev))
    (hem : em s.owner.x = some m) (hev : ev s.owner.x = some v) (hw : m &&& ~~~(bit 0 ||| csrGatedMask s.par) = 0#32)
    (hD : m.getLsbD s.par.domrstBit = false) :
    Leads .owner 1 (atPc .owner s k) (atPc .owner { s with rccCsr := blend m s.rccCsr v } (k + 1)) ∧
      Calm { s with rccCsr := blend m s.rccCsr v } := by
  have hlt : s.par.domrstBit < 32 := (paramsFacts h.params).csrWidth _ (by simp [csrFieldBits])
  have c : Calm { s with rccCsr := blend m s.rccCsr v } := ⟨(blend_getLsbD_outside _ _ hlt hD).trans hc.live, hc.levels⟩
  exact ⟨h.rmw hs hm hem hev (by rw [writeReg_csr_field hd hw]; exact c.settle), c⟩

/-! ### The places of the fields of RCC_CSR (R47, R108) -/

/-- The fields of RCC_CSR stand apart, and RTCSEL has two bits inside the word. -/
structure CsrPlaces (p : Params) : Prop where
  domrst : p.domrstBit < 32
  rtcsel : p.rtcselLsb + 1 < 32
  domrst_ne : p.domrstBit ≠ 0 ∧ p.domrstBit ≠ 1 ∧ p.domrstBit ≠ 8 ∧ p.domrstBit ≠ 9 ∧ p.domrstBit ≠ 10 ∧ p.domrstBit ≠ 22 ∧
    p.domrstBit ≠ p.rtcselLsb ∧ p.domrstBit ≠ p.rtcselLsb + 1
  rtcsel_ne : ∀ n, n = p.rtcselLsb ∨ n = p.rtcselLsb + 1 → n ≠ 0 ∧ n ≠ 1 ∧ n ≠ 8 ∧ n ≠ 9 ∧ n ≠ 10 ∧ n ≠ 22

theorem csrPlaces {p : Params} (h : paramsOk p = true) : CsrPlaces p := by
  have hn := (paramsFacts h).csrBits
  have hw := (paramsFacts h).csrWidth
  simp only [csrFieldBits, List.nodup_cons, List.mem_cons, List.not_mem_nil, or_false, not_or] at hn
  simp only [csrFieldBits, List.mem_cons, List.not_mem_nil, or_false] at hw
  exact ⟨hw _ (by simp), hw _ (by simp), by omega, by omega⟩

theorem rtcselCode_three {p : Params} (h : p.rtcselLsb + 1 < 32) : rtcselCode p 3 = rtcselMask p := by
  have all : ∀ l < 31, BitVec.ofNat 32 (3 * 2 ^ l) = bit l ||| bit (l + 1) := by decide
  exact all _ (by omega)

theorem rtcselCode_one (p : Params) : rtcselCode p 1 = bit p.rtcselLsb := by rw [rtcselCode, Nat.one_mul]; rfl

theorem rtcselCode_two (p : Params) : rtcselCode p 2 = bit (p.rtcselLsb + 1) := by rw [rtcselCode, bit, Nat.pow_succ, Nat.mul_comm]

/-! ### Masks of RCC_CSR -/

theorem inside_refl (x : Word) : x &&& ~~~x = 0#32 := BitVec.and_not_self x

theorem inside_or_left {x y : Word} (z : Word) (h : x &&& ~~~y = 0#32) : x &&& ~~~(y ||| z) = 0#32 :=
  inside_trans h (or_left_inside y z)

theorem inside_or_right {x z : Word} (y : Word) (h : x &&& ~~~z = 0#32) : x &&& ~~~(y ||| z) = 0#32 :=
  inside_trans h (or_right_inside y z)

/-- The fields that a bring-up writes can be written while DBP = 1. -/
theorem csrField_writable (p : Params) {m : Word} (hm : m ∈ [bit 0, bit 8, bit 10, rtcselMask p, bit 22, bit p.domrstBit]) :
    m &&& ~~~(bit 0 ||| csrGatedMask p) = 0#32 := by
  simp only [List.mem_cons, List.not_mem_nil, or_false] at hm
  unfold csrGatedMask
  rcases hm with rfl | rfl | rfl | rfl | rfl | rfl
  · exact inside_or_left _ (inside_refl _)
  all_goals refine inside_or_right _ ?_
  · exact inside_or_left _ (inside_or_left _ (inside_or_left _ (inside_or_left _ (inside_refl _))))
  · exact inside_or_left _ (inside_or_left _ (inside_or_left _ (inside_or_right _ (inside_refl _))))
  · exact inside_or_left _ (inside_or_left _ (inside_or_right _ (inside_refl _)))
  · exact inside_or_left _ (inside_or_right _ (inside_refl _))
  · exact inside_or_right _ (inside_refl _)

theorem rtcselMask_domrst {p : Params} (h : CsrPlaces p) : (rtcselMask p).getLsbD p.domrstBit = false := by
  obtain ⟨hD, hl, hne, -⟩ := h
  rw [rtcselMask, BitVec.getLsbD_or, bit_getLsbD _ _ (by omega), bit_getLsbD _ _ hl]
  simp only [decide_eq_false hne.2.2.2.2.2.2.1, decide_eq_false hne.2.2.2.2.2.2.2, Bool.or_self]

theorem bit_domrst {p : Params} (n : Nat) (hn : n < 32) (h : p.domrstBit ≠ n) : (bit n).getLsbD p.domrstBit = false := by
  rw [bit_getLsbD n _ hn, decide_eq_false h]

/-! ### From the clock mux on (R110 to R112) -/

/-- An init transaction with a body whose run ends in `t`, under a schedule that serves it. -/
theorem Running.initTxn {s t : State} {prog body tail : List MicroOp} {rest : List Move} {k n : Nat} (h : Running .owner s prog)
    (hc : Calm s) (hm : InitServed s rest) (hprog : prog.drop k = Machine.initTxn body ++ tail)
    (hbody : Running .owner (inInit s rest) prog → Calm (inInit s rest) → Silent .owner (inInit s rest) →
      (∀ j, prog[k + 5 + j]? = (body ++ (initExitOps ++ (lockOps ++ tail)))[j]?) →
      Leads .owner n (atPc .owner (inInit s rest) (k + 5)) (atPc .owner t (k + 5 + body.length)) ∧ Calm t)
    (hR : Running .owner t prog) (hu : t.wp = .unlocked) (hs : t.rtcIsr = isrInInit s)
    (hq : t.moves = .env .initfClear :: rest) :
    Leads .owner (6 + n + 4) (atPc .owner s k)
      (atPc .owner { t with wp := .locked, rtcIsr := isrAfterInit s, moves := rest } (k + 5 + body.length + 3)) := by
  have get (j : Nat) : prog[k + j]? = (Machine.initTxn body ++ tail)[j]? := by rw [← hprog, List.getElem?_drop]
  have get5 (j : Nat) : prog[k + 5 + j]? = (body ++ (initExitOps ++ (lockOps ++ tail)))[j]? := by
    rw [Nat.add_assoc, get, Machine.initTxn, unlockOps, initEnterOps]
    simp only [List.cons_append, List.nil_append, Nat.add_comm 5 j, List.getElem?_cons_succ, List.append_assoc]
  have getl (j : Nat) : prog[k + 5 + body.length + j]? = (initExitOps ++ (lockOps ++ tail))[j]? := by
    rw [Nat.add_assoc (k + 5), get5, List.getElem?_append_right (by omega), Nat.add_sub_cancel_left]
  have enter := h.initOpen hc hm (get 0) (get 1) (get 2) (get 3) (get 4)
  have hb7 : initBit (inInit s rest) = true := isrInInit_init s
  obtain ⟨body, hct⟩ := hbody (h.congr rfl rfl rfl rfl fun _ => rfl)
    (hc.isr (t := inInit s rest) rfl rfl rfl rfl fun n h h' => isrInInit_flags s h h')
    (.draw _ _ rfl (by simp [drawEnabled, hb7])) get5
  have hft : initf t = true := by rw [initf, hs]; exact isrInInit_initf s
  have hbt : initBit t = true := by rw [initBit, hs]; exact isrInInit_init s
  have leave := hR.initClose hct hq hm.quiet hu hft hbt (getl 0) (getl 1) (getl 2)
  rw [show (t.rtcIsr &&& ~~~bit 7) &&& ~~~bit 6 = isrAfterInit s by rw [hs]; exact isrInInit_close s] at leave
  exact (enter.then body).then leave

/-- FMT in init mode (R43). -/
theorem crWritable_fmt {s : State} (hf : initf s = true) : bit 6 &&& ~~~crWritable s = 0#32 := by
  rw [crWritable, hf, if_pos rfl]
  split <;> decide

/-- STEP5 (R112) in an init transaction. -/
theorem Running.step5Txn {s : State} {prog tail : List MicroOp} {rest : List Move} {k : Nat} {sync : BitVec 16} {async : BitVec 8}
    (h : Running .owner s prog) (hc : Calm s) (hm : InitServed s rest) (hx : s.rtcPrer &&& ~~~prerMask s.par = 0#32)
    (h0 : s.owner.x.x0 = some (sync.setWidth 32)) (h1 : s.owner.x.x1 = some (async.setWidth 32))
    (hprog : prog.drop k = Machine.initTxn (step5 s.par) ++ tail) :
    Leads .owner 13 (atPc .owner s k) (atPc .owner { s with
      rtcCr := s.rtcCr &&& ~~~bit 6, rtcPrer := prerOf s.par sync async, wp := .locked, rtcIsr := isrAfterInit s
      moves := rest } (k + 11)) := by
  let t : State := { inInit s rest with rtcCr := s.rtcCr &&& ~~~bit 6, rtcPrer := prerOf s.par sync async }
  refine h.initTxn (t := t) (n := 3) hc hm hprog ?_ (h.congr rfl rfl rfl rfl fun _ => rfl) rfl rfl rfl
  intro hR hcb hsil hget
  have hf : initf (inInit s rest) = true := isrInInit_initf s
  have fmt := hR.rmwCr hcb hsil rfl (hget 0) rfl rfl (crWritable_fmt hf) (by decide)
  have hc1 := hcb.crField (m := bit 6) (by decide) 0#32
  rw [blend_zero] at fmt hc1
  let u : State := { inInit s rest with rtcCr := s.rtcCr &&& ~~~bit 6 }
  have hb7 : initBit u = true := isrInInit_init s
  have prer := Running.prerWrite (b := u) (k := k + 6) (rest := initExitOps ++ (lockOps ++ tail)) (hR.congr rfl rfl rfl rfl fun _ => rfl)
    hc1 (.draw _ _ rfl (by simp [drawEnabled, hb7])) rfl hf hx h0 h1 (fun j => by
      rw [show k + 6 + j = k + 5 + (j + 1) by omega, hget]; rfl)
  exact ⟨fmt.then prer, hc1.congr rfl rfl rfl rfl⟩

/-- What both bring-ups do from the clock mux on: RTCSEL, RTC enable, STEP5 in an init transaction, construction, END. -/
theorem Running.bringupEnd {w : State} {prog : List MicroOp} {rest : List Move} {k code : Nat} {src : ClkSrc}
    {sync : BitVec 16} {async : BitVec 8} (h : Running .owner w prog) (hc : Calm w) (hm : InitServed w rest)
    (hs : ∀ v : State, v.moves = w.moves → v.rtcIsr = w.rtcIsr → v.owner = w.owner → Silent .owner v)
    (hd : dbp w = true) (hx : w.rtcPrer &&& ~~~prerMask w.par = 0#32) (h0 : w.owner.x.x0 = some (sync.setWidth 32))
    (h1 : w.owner.x.x1 = some (async.setWidth 32))
    (hprog : prog.drop k = [.rmw .csr (lconst (rtcselCode w.par 3)) (lconst (rtcselCode w.par code)),
      .rmw .csr (lconst (bit 22)) (lconst (bit 22))] ++ (Machine.initTxn (step5 w.par) ++ [.construct src, .done])) :
    Leads .owner 17 (atPc .owner w k) { w with
      owner := { w.owner with pc := k + 15, status := 0x00#8, busy := false }
      rccCsr := blend (rtcselMask w.par) w.rccCsr (rtcselCode w.par code) ||| bit 22
      rtcCr := w.rtcCr &&& ~~~bit 6, rtcPrer := prerOf w.par sync async, wp := .locked, rtcIsr := isrAfterInit w
      constructed := true, clkSrc := some src, moves := rest } := by
  have places := csrPlaces h.params
  have get {j : Nat} {m : MicroOp} (hj : (prog.drop k)[j]? = some m) : prog[k + j]? = some m := by
    rw [← hj, List.getElem?_drop]
  have hdrop : prog.drop (k + 2) = Machine.initTxn (step5 w.par) ++ [.construct src, .done] := by
    rw [← List.drop_drop, hprog]; rfl
  obtain ⟨mux, c1⟩ := h.rmwCsr (k := k) hc (hs w rfl rfl rfl) hd (get (j := 0) (by rw [hprog]; rfl)) rfl rfl
    (by rw [rtcselCode_three places.rtcsel]; exact csrField_writable _ (by simp))
    (by rw [rtcselCode_three places.rtcsel]; exact rtcselMask_domrst places)
  rw [rtcselCode_three places.rtcsel] at mux c1
  let w1 : State := { w with rccCsr := blend (rtcselMask w.par) w.rccCsr (rtcselCode w.par code) }
  obtain ⟨enable, c2⟩ := Running.rmwCsr (s := w1) (k := k + 1) (h.congr rfl rfl rfl rfl fun _ => rfl) c1 (hs w1 rfl rfl rfl) hd
    (get (j := 1) (by rw [hprog]; rfl)) rfl rfl (csrField_writable _ (by simp)) (bit_domrst 22 (by decide) places.domrst_ne.2.2.2.2.2.1)
  rw [blend_self] at enable c2
  let w2 : State := { w1 with rccCsr := w1.rccCsr ||| bit 22 }
  have txn := Running.step5Txn (s := w2) (k := k + 2) (h.congr rfl rfl rfl rfl fun _ => rfl) c2 ⟨hm.moves, hm.quiet, hm.holdsInit⟩
    hx h0 h1 hdrop
  let w3 : State := { w2 with
    rtcCr := w.rtcCr &&& ~~~bit 6, rtcPrer := prerOf w.par sync async, wp := .locked, rtcIsr := isrAfterInit w, moves := rest }
  have h3 : Running .owner w3 prog := h.congr rfl rfl rfl rfl fun _ => rfl
  have q3 : Silent .owner w3 := .of_waits hm.quiet h.busy
  have construct := h3.construct (k := k + 13) q3 (get (j := 13) (by rw [hprog]; rfl))
  have done := Running.done (s := { w3 with constructed := true, clkSrc := some src }) (k := k + 14)
    (h3.congr rfl rfl rfl rfl fun _ => rfl) (q3.congr rfl rfl rfl rfl fun e => e) (get (j := 14) (by rw [hprog]; rfl))
  exact ((mux.then enable).then txn).then (construct.then done)

/-- What the micro-programs of the two bring-ups share (R110, R111): the gates, a skip of `n` micro-ops where the oscillator's
ready flag `rdy` is 1, the domain reset first among those skipped, and from the clock mux on RTCSEL code `code` and source
`src`. -/
structure BringupProgram (p : Params) (prog : List MicroOp) (rdy n code : Nat) (src : ClkSrc) : Prop where
  gate0 : prog[0]? = some (.rmw .apb1enr (lconst (bit 28)) (lconst (bit 28)))
  gate1 : prog[1]? = some (.rmw .pwrCr (lconst (bit 8)) (lconst (bit 8)))
  skip : prog[2]? = some (.skipIf .csr (bit rdy) (bit rdy) n)
  set : prog[3]? = some (.rmw .csr (lconst (bit p.domrstBit)) (lconst (bit p.domrstBit)))
  clear : prog[4]? = some (.rmw .csr (lconst (bit p.domrstBit)) (lconst 0#32))
  mux : prog.drop (3 + n) = [.rmw .csr (lconst (rtcselCode p 3)) (lconst (rtcselCode p code)),
    .rmw .csr (lconst (bit 22)) (lconst (bit 22))] ++ (initTxn (step5 p) ++ [.construct src, .done])

theorem bringupProgram_lse (p : Params) : BringupProgram p (progBringupLse p) 9 5 1 .lse := ⟨rfl, rfl, rfl, rfl, rfl, rfl⟩

theorem bringupProgram_lsi (p : Params) : BringupProgram p (progBringupLsi p) 1 4 2 .lsi := ⟨rfl, rfl, rfl, rfl, rfl, rfl⟩

/-! ### Bring-up with the oscillator ready -/

/-- A silent schedule that serves an init transaction stays silent while RTC_ISR does not change. -/
theorem InitServed.silent_congr {s v : State} {rest : List Move} (hm : InitServed s rest) (hs : Silent .owner s)
    (h1 : v.moves = s.moves) (h2 : v.rtcIsr = s.rtcIsr) : Silent .owner v := by
  have hi : initf v = initf s := by rw [initf, h2, initf]
  have hb : initBit v = initBit s := by rw [initBit, h2, initBit]
  have hmv := hm.moves
  cases hf : initf s with
  | true =>
    rw [initDraws, hf, if_pos rfl, List.nil_append, List.singleton_append] at hmv
    exact .draw _ _ (h1.trans hmv) (by simp [drawEnabled, hb, hm.holdsInit hf])
  | false =>
    rw [initDraws, hf, if_neg (by decide)] at hmv
    refine .draw .initfSet (.env .initfClear :: rest) (h1.trans hmv) ?_
    cases hs with
    | empty h => rw [h] at hmv; cases hmv
    | waits r h _ => rw [h] at hmv; cases hmv
    | draw d r h hd => rw [h] at hmv; cases hmv; simpa [drawEnabled, hb, hi] using hd

theorem verdict_bringup {s : State} {i : Instr} (hr : ContextReady .owner s) (hcon : s.constructed = false)
    (hw : i.wellFormed = true) (hn : needOf i = .notConstructed) : verdict .owner (some i) s = .accept :=
  verdict_owner hw hr.noFault hr.noRefusal hr.idle (by simp [hn, constructionVerdict, hcon])

/-! ### The domain reset (R107, R110, R111) -/

/-- RCC_CSR after the domain reset: the backup fields and the domain-reset bit are clear. -/
def csrReset (s : State) : Word := s.rccCsr &&& ~~~(csrBackupMask s.par ||| bit s.par.domrstBit)

/-- The state after a bring-up's domain reset, before the edges that the reset makes. -/
def freshDomain (s : State) (ms : List Move) : State :=
  { gatesOpen s ms with
    rccCsr := csrReset s
    calTr := 0x00000000#32, calDr := 0x00002101#32, rtcCr := 0x00000000#32, rtcIsr := 0x00000007#32
    rtcPrer := 0x007F00FF#32 &&& prerMask s.par, rtcWutr := 0x0000FFFF#32, wp := .locked, drLock := none }

theorem csr_afterDomainReset (x b d : Word) : ((x ||| d) &&& ~~~b) &&& ~~~d = x &&& ~~~(b ||| d) := by
  apply BitVec.eq_of_getLsbD_eq
  intro i hi
  simp only [BitVec.getLsbD_and, BitVec.getLsbD_or, BitVec.getLsbD_not, hi, decide_true, Bool.true_and]
  cases x.getLsbD i <;> cases b.getLsbD i <;> cases d.getLsbD i <;> rfl

theorem Calm.freshDomain {s : State} (hp : paramsOk s.par = true) (ms : List Move) :
    Calm (Machine.detectEdges (Machine.freshDomain s ms)) := by
  refine Calm.detectEdges ?_
  have hlt := (csrPlaces hp).domrst
  show (s.rccCsr &&& ~~~(csrBackupMask s.par ||| bit s.par.domrstBit)).getLsbD s.par.domrstBit = false
  simp [BitVec.getLsbD_and, BitVec.getLsbD_not, BitVec.getLsbD_or, bit_getLsbD _ _ hlt]

/-- The write that sets the domain-reset bit puts the backup domain at its reset values (R107). -/
theorem settle_setDomrst {s : State} (hd : dbp s = true) (hp : paramsOk s.par = true) :
    settle (writeReg .csr (blend (bit s.par.domrstBit) (readReg .csr s).1 (bit s.par.domrstBit)) (readReg .csr s).2) =
      detectEdges (backupDomainReset { s with rccCsr := s.rccCsr ||| bit s.par.domrstBit }) := by
  have hheld : domainHeld { s with rccCsr := s.rccCsr ||| bit s.par.domrstBit } = true := by
    show (s.rccCsr ||| bit s.par.domrstBit).getLsbD s.par.domrstBit = true
    simp [BitVec.getLsbD_or, bit_getLsbD _ _ (csrPlaces hp).domrst]
  rw [writeReg_csr_field hd (csrField_writable _ (by simp)), blend_self, settle, holdDomain, if_pos hheld]

/-- The write that clears it changes nothing else. -/
theorem settle_clearDomrst {s : State} (hd : dbp s = true) (hp : paramsOk s.par = true) (hl : s.lvl = levelsOf s) :
    settle (writeReg .csr (blend (bit s.par.domrstBit) (readReg .csr s).1 0#32) (readReg .csr s).2) =
      { s with rccCsr := s.rccCsr &&& ~~~bit s.par.domrstBit } := by
  have hlive : domainHeld { s with rccCsr := s.rccCsr &&& ~~~bit s.par.domrstBit } = false := by
    show (s.rccCsr &&& ~~~bit s.par.domrstBit).getLsbD s.par.domrstBit = false
    simp [BitVec.getLsbD_and, BitVec.getLsbD_not, bit_getLsbD _ _ (csrPlaces hp).domrst]
  rw [writeReg_csr_field hd (csrField_writable _ (by simp)), blend_zero]
  exact settle_of_calm hlive hl

/-- The first five micro-ops of a bring-up whose oscillator is not ready, each named by the schedule. -/
theorem Running.domainReset {s : State} {prog : List MicroOp} {ms : List Move} {rdy n code : Nat} {src : ClkSrc}
    (h : Running .owner s prog) (hp : BringupProgram s.par prog rdy n code src) (hh : holdDomain s = s)
    (hl : s.lvl = levelsOf s) (hc : s.pwrCr.getLsbD 2 = false) (hrdy : rdy < 32) (hoff : s.rccCsr.getLsbD rdy = false)
    (hm : s.moves = List.replicate 5 (.micro .owner) ++ ms) :
    Leads .owner 5 (atPc .owner s 0) (atPc .owner (detectEdges (freshDomain s ms)) 5) := by
  let left (j : Nat) : List Move := List.replicate j (.micro .owner) ++ ms
  have gates := h.openGates (ms := left 4) (ms' := left 3) hh hl hc (.named hm) (.named rfl) hp.gate0 hp.gate1
  let s2 : State := gatesOpen s (left 3)
  have skip := Running.turnSkipsNot (s := s2) (k := 2) (ms := left 2) (h.congr rfl rfl rfl rfl fun _ => rfl) (.named rfl) hp.skip
    (by decide) (by decide) (fun e => by
      rw [and_bit_eq_bit hrdy] at e
      exact absurd (hoff.symm.trans e) (by decide))
  let s3 : State := { gatesOpen s (left 1) with rccCsr := s.rccCsr ||| bit s.par.domrstBit }
  have set := Running.turnRmw (s := { s2 with moves := left 2 }) (k := 3) (ms := left 1) (t := detectEdges (backupDomainReset s3))
    (h.congr rfl rfl rfl rfl fun _ => rfl) (.named rfl) hp.set rfl rfl
    (settle_setDomrst (s := gatesOpen s (left 1)) (dbp_gatesOpen _ _) h.params)
  have clear := Running.turnRmw (s := detectEdges (backupDomainReset s3)) (k := 4) (ms := ms) (t := detectEdges (freshDomain s ms))
    (h.congr rfl rfl rfl rfl fun _ => rfl) (.named rfl) hp.clear rfl rfl
    ((settle_clearDomrst (s := { detectEdges (backupDomainReset s3) with moves := ms }) (dbp_gatesOpen s ms) h.params rfl).trans
      (congrArg (fun csr : Word => { detectEdges (freshDomain s ms) with rccCsr := csr }) (csr_afterDomainReset _ _ _)))
  exact (gates.then skip).then (set.then clear)

section
variable {s : State} {i : Instr} {prog : List MicroOp} {rest : List Move} {rdy n code : Nat} {src : ClkSrc} {sync : BitVec 16}
  {async : BitVec 8} (hr : ContextReady .owner s) (hcon : s.constructed = false) (hw : i.wellFormed = true)
  (hn : needOf i = .notConstructed) (hg : progOf s.par (opcode i) = some prog) (hp : BringupProgram s.par prog rdy n code src)
  (h0 : (loadedLatches i).x0 = some (sync.setWidth 32)) (h1 : (loadedLatches i).x1 = some (async.setWidth 32))
include hr hcon hw hn hg hp h0 h1

/-- A bring-up whose oscillator is ready: the domain is not reset. -/
theorem exec_bringupReady (hl : domainHeld s = false) (hm : InitServed s rest) (hrdy : rdy < 32)
    (hon : s.rccCsr.getLsbD rdy = true) : ∃ c, Finished c i 0x00#8 s.owner.res ∧
      exec i s = .next { s with
        owner := c, apb1enr := s.apb1enr ||| bit 28, pwrCr := s.pwrCr ||| bit 8
        rccCsr := blend (rtcselMask s.par) s.rccCsr (rtcselCode s.par code) ||| bit 22
        rtcCr := s.rtcCr &&& ~~~bit 6, rtcPrer := prerOf s.par sync async
        rtcIsr := isrAfterInit s, wp := .locked, constructed := true, clkSrc := some src, moves := rest } := by
  let s0 : State := { s with owner := loadedSeq s.owner i }
  have h : Running .owner s0 prog := running_loaded hr.regs.params hr.noFault hr.irqIdle hg
  obtain ⟨s', start, q, m, calm, e, -, ei⟩ := InitServed.start h ((hr.regs.calm hl).setSeq .owner _) (hm.setOwner _) 0
  obtain ⟨isr, ms, rfl⟩ : ∃ isr ms, s' = { s0 with rtcIsr := isr, moves := ms } := ⟨_, _, e⟩
  let s1 : State := { s0 with rtcIsr := isr, moves := ms }
  have h' : Running .owner s1 prog := h.congr rfl rfl rfl rfl fun _ => rfl
  have hsil (v : State) (h1 : v.moves = ms) (h2 : v.rtcIsr = isr) : Silent .owner v := m.silent_congr q h1 h2
  have gates := h'.openGates (ms := ms) (ms' := ms) (holdDomain_of_live calm.live) calm.levels hr.regs.cwuf
    (.silent q rfl) (.silent (hsil _ rfl rfl) rfl) hp.gate0 hp.gate1
  let w : State := gatesOpen s1 ms
  have hW : Running .owner w prog := h.congr rfl rfl rfl rfl fun _ => rfl
  have skip := hW.skips (k := 2) (hsil w rfl rfl) hp.skip (by decide) (by decide) ((and_bit_eq_bit hrdy).mpr hon)
  rw [show 2 + (1 + n) = 3 + n by omega] at skip
  have fin := hW.bringupEnd (calm.congr rfl rfl rfl rfl) ⟨m.moves, m.quiet, m.holdsInit⟩ (fun v h1 h2 _ => hsil v h1 h2)
    (dbp_gatesOpen _ _) hr.regs.prer h0 h1 hp.mux
  rw [show isrAfterInit w = isrAfterInit s from ei] at fin
  refine ⟨{ loadedSeq s.owner i with pc := 3 + n + 15, status := 0x00#8, busy := false }, ⟨rfl, rfl, rfl, rfl, rfl⟩, ?_⟩
  rw [exec_eq_issue]
  refine issue_of_leads (n := 30) (by rw [hr.port]; exact verdict_bringup hr hcon hw hn) ?_ (by decide) ?_
  · rw [hr.port, loadCommand_eq]
    exact (((start.then gates).then skip).then fin).mono (by decide)
  · rw [hr.port]
    exact drain_idle rfl

/-- A bring-up whose oscillator is not ready: the domain reset named by the schedule, then the micro-ops of the oscillator, which
leave RCC_CSR at `csr`. -/
theorem exec_bringupReset {ms : List Move} {csr : Word} (hrest : Waits .owner rest)
    (hm : s.moves = List.replicate 5 (.micro .owner) ++ ms) (hrdy : rdy < 32) (hoff : s.rccCsr.getLsbD rdy = false)
    (hosc : ∀ f, f = detectEdges (freshDomain { s with owner := loadedSeq s.owner i } ms) → Running .owner f prog → Calm f →
      Leads .owner 20 (atPc .owner f 5)
        (atPc .owner { f with rccCsr := csr, moves := .env .initfSet :: .env .initfClear :: rest } (3 + n)) ∧
      Calm { f with rccCsr := csr, moves := .env .initfSet :: .env .initfClear :: rest }) :
    ∃ c, Finished c i 0x00#8 s.owner.res ∧ exec i s = .next (detectEdges { s with
      owner := c, apb1enr := s.apb1enr ||| bit 28, pwrCr := s.pwrCr ||| bit 8
      rccCsr := blend (rtcselMask s.par) csr (rtcselCode s.par code) ||| bit 22
      calTr := 0#32, calDr := 0x00002101#32, drLock := none, rtcCr := 0#32, rtcIsr := 0x00000007#32
      rtcPrer := prerOf s.par sync async, rtcWutr := 0x0000FFFF#32, wp := .locked
      constructed := true, clkSrc := some src, moves := rest }) := by
  let s0 : State := { s with owner := loadedSeq s.owner i }
  have h : Running .owner s0 prog := running_loaded hr.regs.params hr.noFault hr.irqIdle hg
  have hh : holdDomain s0 = s0 := (hr.regs.congr (t := s0) rfl).held
  have reset := h.domainReset hp hh hr.regs.levels hr.regs.cwuf hrdy hoff hm
  have cf : Calm (detectEdges (freshDomain s0 ms)) := Calm.freshDomain (s := s0) hr.regs.params ms
  obtain ⟨oscillator, cw⟩ := hosc _ rfl (h.congr rfl rfl rfl rfl fun _ => rfl) cf
  let w : State := { detectEdges (freshDomain s0 ms) with rccCsr := csr, moves := .env .initfSet :: .env .initfClear :: rest }
  have hW : Running .owner w prog := h.congr rfl rfl rfl rfl fun _ => rfl
  have idle : initf w = false := (by decide : (0x00000007#32 : Word).getLsbD 6 = false)
  have served : InitServed w rest := ⟨by rw [initDraws, idle]; rfl, hrest, fun e => by rw [idle] at e; cases e⟩
  have noInit : initBit w = false := (by decide : (0x00000007#32 : Word).getLsbD 7 = false)
  have quiet : Silent .owner w := .draw .initfSet _ rfl (by simp [drawEnabled, noInit])
  have fin := hW.bringupEnd cw served
    (fun v h1 h2 _ => served.silent_congr quiet h1 h2) (dbp_gatesOpen s0 ms) (inside_mask _ _) h0 h1 hp.mux
  have hisr : isrAfterInit w = 0x00000007#32 := by
    show (0x00000007#32 : Word) &&& ~~~(bit 7 ||| bit 6 ||| (if (0x00000007#32 : Word).getLsbD 6 then 0#32 else bit 5)) = _
    decide
  rw [hisr, show w.rtcCr &&& ~~~bit 6 = 0#32 from BitVec.zero_and] at fin
  let c : Seq := { loadedSeq s.owner i with pc := 3 + n + 15, status := 0x00#8, busy := false }
  let t : State := { s with
      owner := c, apb1enr := s.apb1enr ||| bit 28, pwrCr := s.pwrCr ||| bit 8
      rccCsr := blend (rtcselMask s.par) csr (rtcselCode s.par code) ||| bit 22
      calTr := 0#32, calDr := 0x00002101#32, drLock := none, rtcCr := 0#32, rtcIsr := 0x00000007#32
      rtcPrer := prerOf s.par sync async, rtcWutr := 0x0000FFFF#32, wp := .locked
      constructed := true, clkSrc := some src, moves := rest }
  have hend := detectEdges_later (s := freshDomain s0 ms) (t := t) rfl rfl rfl rfl
    (levelsOf_eq_of_bits (fun _ _ _ => rfl) fun _ _ _ => rfl)
  refine ⟨c, ⟨rfl, rfl, rfl, rfl, rfl⟩, ?_⟩
  rw [exec_eq_issue]
  show issue i s = .next (detectEdges t)
  rw [← hend]
  refine issue_of_leads (n := 42) (by rw [hr.port]; exact verdict_bringup hr hcon hw hn) ?_ (by decide) ?_
  · rw [hr.port, loadCommand_eq]
    exact (reset.then oscillator).then fin
  · rw [hr.port]
    exact drain_idle rfl

end

/-! ### The two commands -/

/-- A blend into a field that is clear. -/
theorem blend_of_clear {m x : Word} (h : x &&& m = 0#32) (v : Word) : blend m x v = x ||| (v &&& m) := by
  apply BitVec.eq_of_getLsbD_eq
  intro i hi
  have hx := congrArg (fun w => w.getLsbD i) h
  simp only [blend, BitVec.getLsbD_and, BitVec.getLsbD_or, BitVec.getLsbD_not, BitVec.getLsbD_zero, hi, decide_true,
    Bool.true_and] at hx ⊢
  cases h1 : x.getLsbD i <;> cases h2 : m.getLsbD i <;> simp_all

theorem or_and_eq_zero {x y m : Word} (hx : x &&& m = 0#32) (hy : y &&& m = 0#32) : (x ||| y) &&& m = 0#32 := by
  rw [BitVec.and_comm, BitVec.and_or_distrib_left, BitVec.and_comm _ x, BitVec.and_comm _ y, hx, hy, BitVec.or_zero]

theorem andNot_and_of_inside {m M : Word} (x : Word) (h : m &&& ~~~M = 0#32) : (x &&& ~~~M) &&& m = 0#32 := by
  rw [BitVec.and_assoc, BitVec.and_comm _ m, h, BitVec.and_zero]

/-- The fields of RCC_CSR that the domain reset clears. -/
theorem inside_csrBackupMask (p : Params) {m : Word} (h : m ∈ [bit 8, bit 9, bit 10, rtcselMask p, bit 22]) :
    m &&& ~~~csrBackupMask p = 0#32 := by
  simp only [List.mem_cons, List.not_mem_nil, or_false] at h
  unfold csrBackupMask
  rcases h with rfl | rfl | rfl | rfl | rfl
  · exact inside_or_left _ (inside_or_left _ (inside_or_left _ (inside_or_left _ (inside_refl _))))
  · exact inside_or_left _ (inside_or_left _ (inside_or_left _ (inside_or_right _ (inside_refl _))))
  · exact inside_or_left _ (inside_or_left _ (inside_or_right _ (inside_refl _)))
  · exact inside_or_left _ (inside_or_right _ (inside_refl _))
  · exact inside_or_right _ (inside_refl _)

theorem csrReset_and (s : State) {m : Word} (h : m ∈ [bit 8, bit 9, bit 10, rtcselMask s.par, bit 22]) : csrReset s &&& m = 0#32 :=
  andNot_and_of_inside _ (inside_or_left _ (inside_csrBackupMask s.par h))

/-- A bit that is none of a mask's. -/
theorem bit_and_eq_zero {m : Word} {n : Nat} (hn : n < 32) (h : m.getLsbD n = false) : bit n &&& m = 0#32 := by
  rw [BitVec.and_comm]; exact (and_bit_eq_zero hn).mpr h

theorem bit_and_rtcselMask {p : Params} (h : CsrPlaces p) {n : Nat} (hn : n < 32) (h1 : n ≠ p.rtcselLsb) (h2 : n ≠ p.rtcselLsb + 1) :
    bit n &&& rtcselMask p = 0#32 := by
  refine bit_and_eq_zero hn ?_
  rw [rtcselMask, BitVec.getLsbD_or, bit_getLsbD _ _ (by have := h.rtcsel; omega), bit_getLsbD _ _ h.rtcsel,
    decide_eq_false h1, decide_eq_false h2]
  rfl

/-- LSEBYP written from the one-bit operand (R110). -/
theorem bypass_field (b : BitVec 1) : (b.setWidth 32 <<< 10) &&& bit 10 = if b = 1#1 then bit 10 else 0#32 := by
  revert b; decide

/-- `LSERDY <- 1` in a calm state (R183). -/
theorem envStep_lserdySet {s : State} (h : Calm s) (hD : s.par.domrstBit ≠ 9) :
    envStep .lserdySet s = { s with rccCsr := s.rccCsr ||| bit 9 } :=
  settle_of_calm (s := { s with rccCsr := s.rccCsr ||| bit 9 }) ((getLsbD_or_bit_ne (by decide) hD).trans h.live) h.levels

/-- The oscillator's micro-ops of BRINGUP_LSE after the domain reset: LSEON, LSERDY drawn, LSEBYP. -/
theorem Running.startLse {f : State} {p : Params} {bypass : BitVec 1} {rest : List Move}
    (h : Running .owner f (progBringupLse p)) (hc : Calm f)
    (hd : dbp f = true) (hm : f.moves = .env .lserdySet :: .env .initfSet :: .env .initfClear :: rest)
    (hon : f.rccCsr.getLsbD 8 = false) (hrdy : f.rccCsr.getLsbD 9 = false) (hi : initBit f = false)
    (hx : f.owner.x.x2 = some (bypass.setWidth 32)) :
    Leads .owner 20 (atPc .owner f 5) (atPc .owner { f with
      rccCsr := blend (bit 10) (f.rccCsr ||| bit 8 ||| bit 9) (bypass.setWidth 32 <<< 10)
      moves := .env .initfSet :: .env .initfClear :: rest } 8) ∧ Calm { f with
      rccCsr := blend (bit 10) (f.rccCsr ||| bit 8 ||| bit 9) (bypass.setWidth 32 <<< 10)
      moves := .env .initfSet :: .env .initfClear :: rest } := by
  have places := csrPlaces h.params
  obtain ⟨-, -, hD8, hD9, hD10, -, -, -⟩ := places.domrst_ne
  have off : lseon f = false := hon
  obtain ⟨on, c1⟩ := h.rmwCsr (k := 5) hc (.draw _ _ hm (by simp [drawEnabled, off])) hd rfl rfl rfl
    (csrField_writable _ (by simp)) (bit_domrst 8 (by decide) hD8)
  rw [blend_self] at on c1
  let f1 : State := { f with rccCsr := f.rccCsr ||| bit 8 }
  have l8 : lseon f1 = true := by simp [lseon, f1, bit]
  have l9 : lserdy f1 = false := (getLsbD_or_bit_ne (by decide) (by decide)).trans hrdy
  let f2 : State := { f1 with rccCsr := f1.rccCsr ||| bit 9, moves := .env .initfSet :: .env .initfClear :: rest }
  have ready := Running.draw (s := f1) (k := 6) (t := f2) (h.congr rfl rfl rfl rfl fun _ => rfl) hm (by simp [drawEnabled, l8, l9])
    (envStep_lserdySet (s := { f1 with moves := .env .initfSet :: .env .initfClear :: rest }) (c1.congr rfl rfl rfl rfl) hD9)
  have quiet (csr : Word) : Silent .owner { f2 with rccCsr := csr } := by
    have hi' : initBit { f2 with rccCsr := csr } = false := hi
    exact .draw .initfSet _ rfl (by simp [drawEnabled, hi'])
  have c2 : Calm f2 := ⟨(getLsbD_or_bit_ne (by decide) hD9).trans c1.live, c1.levels⟩
  obtain ⟨byp, c3⟩ := Running.rmwCsr (s := f2) (k := 6) (v := bypass.setWidth 32 <<< 10)
    (h.congr rfl rfl rfl rfl fun _ => rfl) c2 (quiet _) hd rfl rfl (by show Option.map _ f.owner.x.x2 = _; rw [hx]; rfl) (csrField_writable _ (by simp)) (bit_domrst 10 (by decide) hD10)
  have wait := Running.poll (s := { f2 with rccCsr := blend (bit 10) f2.rccCsr (bypass.setWidth 32 <<< 10) }) (k := 7)
    (h.congr rfl rfl rfl rfl fun _ => rfl) (quiet _) rfl (by decide) (by decide) ((and_bit_eq_bit (by decide)).mpr (by
      show (blend (bit 10) (f.rccCsr ||| bit 8 ||| bit 9) (bypass.setWidth 32 <<< 10)).getLsbD 9 = true
      rw [blend_bit_other (by decide) (by decide)]
      simp [bit]))
  exact ⟨(((on.then ready).then byp).then wait).mono (by decide), c3⟩

/-- `LSIRDY <- 1` in a calm state (R183). -/
theorem envStep_lsirdySet {s : State} (h : Calm s) (hD : s.par.domrstBit ≠ 1) :
    envStep .lsirdySet s = { s with rccCsr := s.rccCsr ||| bit 1 } :=
  settle_of_calm (s := { s with rccCsr := s.rccCsr ||| bit 1 }) ((getLsbD_or_bit_ne (by decide) hD).trans h.live) h.levels

/-- The oscillator's micro-ops of BRINGUP_LSI after the domain reset: LSION, and LSIRDY drawn, at once where LSION was set. -/
theorem Running.startLsi {f : State} {p : Params} {rest : List Move} (h : Running .owner f (progBringupLsi p)) (hc : Calm f)
    (hd : dbp f = true) (hm : f.moves = .env .lsirdySet :: .env .initfSet :: .env .initfClear :: rest)
    (hrdy : lsirdy f = false) (hi : initBit f = false) :
    Leads .owner 20 (atPc .owner f 5) (atPc .owner { f with
      rccCsr := f.rccCsr ||| bit 0 ||| bit 1, moves := .env .initfSet :: .env .initfClear :: rest } 7) ∧ Calm { f with
      rccCsr := f.rccCsr ||| bit 0 ||| bit 1, moves := .env .initfSet :: .env .initfClear :: rest } := by
  obtain ⟨hD0, hD1, -, -, -, -, -, -⟩ := (csrPlaces h.params).domrst_ne
  let ms : List Move := .env .initfSet :: .env .initfClear :: rest
  let f2 : State := { f with rccCsr := f.rccCsr ||| bit 0 ||| bit 1, moves := ms }
  have quiet (csr : Word) : Silent .owner { f2 with rccCsr := csr } := by
    have hi' : initBit { f2 with rccCsr := csr } = false := hi
    exact .draw .initfSet _ rfl (by simp [drawEnabled, hi'])
  have on : Leads .owner 2 (atPc .owner f 5) (atPc .owner f2 6) := by
    cases hon : lsion f with
    | true =>
      let f1 : State := { f with rccCsr := f.rccCsr ||| bit 1, moves := ms }
      have ready := h.draw (k := 5) (t := f1) hm (by simp [drawEnabled, hon, hrdy])
        (envStep_lsirdySet (s := { f with moves := ms }) (hc.congr rfl rfl rfl rfl) hD1)
      have c1 : Calm f1 := ⟨(getLsbD_or_bit_ne (by decide) hD1).trans hc.live, hc.levels⟩
      obtain ⟨set, -⟩ := Running.rmwCsr (s := f1) (k := 5) (h.congr rfl rfl rfl rfl fun _ => rfl) c1 (quiet _) hd rfl rfl rfl
        (csrField_writable _ (by simp)) (bit_domrst 0 (by decide) hD0)
      have e : blend (bit 0) (f.rccCsr ||| bit 1) (bit 0) = f.rccCsr ||| bit 0 ||| bit 1 := by
        rw [blend_self, BitVec.or_assoc, BitVec.or_comm (bit 1), ← BitVec.or_assoc]
      rw [show blend (bit 0) f1.rccCsr (bit 0) = _ from e] at set
      exact ready.then set
    | false =>
      obtain ⟨set, c1⟩ := h.rmwCsr (k := 5) hc (.draw _ _ hm (by simp [drawEnabled, hon])) hd rfl rfl rfl
        (csrField_writable _ (by simp)) (bit_domrst 0 (by decide) hD0)
      rw [blend_self] at set c1
      let f1 : State := { f with rccCsr := f.rccCsr ||| bit 0 }
      have l0 : lsion f1 = true := by simp [lsion, f1, bit]
      have l1 : lsirdy f1 = false := (getLsbD_or_bit_ne (by decide) (by decide)).trans hrdy
      exact set.then (Running.draw (s := f1) (k := 6) (t := f2) (h.congr rfl rfl rfl rfl fun _ => rfl) hm
        (by simp [drawEnabled, l0, l1])
        (envStep_lsirdySet (s := { f1 with moves := ms }) (c1.congr rfl rfl rfl rfl) hD1))
  have wait := Running.poll (s := f2) (k := 6) (h.congr rfl rfl rfl rfl fun _ => rfl) (quiet _) rfl (by decide) (by decide)
    ((and_bit_eq_bit (by decide)).mpr (by
      show (f.rccCsr ||| bit 0 ||| bit 1).getLsbD 1 = true
      simp [bit]))
  have live : (f.rccCsr ||| bit 0 ||| bit 1).getLsbD f.par.domrstBit = false :=
    (getLsbD_or_bit_ne (by decide) hD1).trans ((getLsbD_or_bit_ne (by decide) hD0).trans hc.live)
  exact ⟨(on.then wait).mono (by decide), live, hc.levels⟩

/-- A ready external oscillator shows that the backup domain is not held in reset (R107). -/
theorem RegsOk.live_of_lserdy {s : State} (h : RegsOk s) (hl : lserdy s = true) : domainHeld s = false := by
  cases hd : domainHeld s with
  | false => rfl
  | true =>
    have hh := h.held
    rw [holdDomain, if_pos hd] at hh
    have cleared : s.rccCsr &&& ~~~csrBackupMask s.par = s.rccCsr := congrArg State.rccCsr hh
    have h9 := andNot_and_of_inside s.rccCsr (inside_csrBackupMask s.par (m := bit 9) (by simp))
    rw [cleared, and_bit_eq_zero (by decide)] at h9
    exact Bool.noConfusion (h9.symm.trans hl)

/-- The clock mux written over an RTCSEL field that is clear. -/
theorem blend_rtcsel_of_clear {p : Params} {x : Word} {n : Nat} (h : CsrPlaces p) (hx : x &&& rtcselMask p = 0#32)
    (hn : n = p.rtcselLsb ∨ n = p.rtcselLsb + 1) : blend (rtcselMask p) x (bit n) = x ||| bit n := by
  rw [blend_of_clear hx]
  congr 1
  rw [BitVec.and_comm, and_bit_eq_bit (by have := h.rtcsel; omega), rtcselMask, BitVec.getLsbD_or]
  have := h.rtcsel
  rw [bit_getLsbD _ _ (by omega), bit_getLsbD _ _ (by omega)]
  rcases hn with rfl | rfl <;> simp

/-- RCC_CSR at the clock mux of BRINGUP_LSE (R110): LSEON, LSERDY and LSEBYP over the reset fields. -/
theorem csr_lse (s : State) (bypass : BitVec 1) :
    blend (bit 10) (csrReset s ||| bit 8 ||| bit 9) (bypass.setWidth 32 <<< 10) =
      csrReset s ||| bit 8 ||| bit 9 ||| (if bypass = 1#1 then bit 10 else 0#32) := by
  rw [blend_of_clear (or_and_eq_zero (or_and_eq_zero (csrReset_and s (by simp)) (by decide)) (by decide)), bypass_field]

theorem csr_lse_rtcsel {s : State} (h : CsrPlaces s.par) (bypass : BitVec 1) :
    (csrReset s ||| bit 8 ||| bit 9 ||| (if bypass = 1#1 then bit 10 else 0#32)) &&& rtcselMask s.par = 0#32 := by
  obtain ⟨-, -, a8, a9, a10, -⟩ := h.rtcsel_ne _ (.inl rfl)
  obtain ⟨-, -, b8, b9, b10, -⟩ := h.rtcsel_ne _ (.inr rfl)
  have bypassBit : (if bypass = 1#1 then bit 10 else 0#32) &&& rtcselMask s.par = 0#32 := by
    split
    · exact bit_and_rtcselMask h (by decide) a10.symm b10.symm
    · exact BitVec.zero_and
  exact or_and_eq_zero (or_and_eq_zero (or_and_eq_zero (csrReset_and s (by simp))
    (bit_and_rtcselMask h (by decide) a8.symm b8.symm)) (bit_and_rtcselMask h (by decide) a9.symm b9.symm)) bypassBit

theorem csr_lsi_rtcsel {s : State} (h : CsrPlaces s.par) : (csrReset s ||| bit 0 ||| bit 1) &&& rtcselMask s.par = 0#32 := by
  obtain ⟨a0, a1, -⟩ := h.rtcsel_ne _ (.inl rfl)
  obtain ⟨b0, b1, -⟩ := h.rtcsel_ne _ (.inr rfl)
  exact or_and_eq_zero (or_and_eq_zero (csrReset_and s (by simp)) (bit_and_rtcselMask h (by decide) a0.symm b0.symm))
    (bit_and_rtcselMask h (by decide) a1.symm b1.symm)

/-- The domain reset leaves the gates open. -/
theorem dbp_freshDomain (s : State) (ms : List Move) : dbp (detectEdges (freshDomain s ms)) = true := dbp_gatesOpen s ms

/-- INIT is 0 at RTC_ISR's reset value. -/
theorem isrReset_init : (0x00000007#32 : Word).getLsbD 7 = false := by decide

/-- Settles O45: the two bring-ups are one program up to the oscillator's micro-ops (`BringupProgram`). With LSERDY = 1 those are
skipped; with LSERDY = 0 they start from the reset domain, where LSEON, LSERDY, LSEBYP and RTCSEL are clear, so each write adds its
bits to RCC_CSR. -/
theorem bringupLseCompletes : Obligations.BringupLseCompletes := by
  intro s rest bypass sync async hr hcon
  have places := csrPlaces hr.regs.params
  have prog := bringupProgram_lse s.par
  refine ⟨fun hrdy hm => ?ready, fun hrdy hrest hm => ?reset⟩
  case ready =>
    rw [← rtcselCode_one]
    exact exec_bringupReady hr hcon rfl rfl rfl prog rfl rfl (hr.regs.live_of_lserdy hrdy) hm (by decide) hrdy
  case reset =>
    have h := exec_bringupReset (i := .bringupLse bypass sync async)
      (csr := blend (bit 10) (csrReset s ||| bit 8 ||| bit 9) (bypass.setWidth 32 <<< 10))
      hr hcon rfl rfl rfl prog rfl rfl hrest hm (by decide) hrdy
      fun f hf hR hc => by
        subst hf
        exact hR.startLse (bypass := bypass) hc (dbp_freshDomain _ _) rfl
          ((and_bit_eq_zero (by decide)).mp (csrReset_and s (by simp)))
          ((and_bit_eq_zero (by decide)).mp (csrReset_and s (by simp))) isrReset_init rfl
    rw [csr_lse, rtcselCode_one, blend_rtcsel_of_clear places (csr_lse_rtcsel places bypass) (.inl rfl)] at h
    exact h

/-- Settles O46: as O45, with LSION and LSIRDY for the oscillator and no bypass; LSIRDY is no field of the backup domain, so that it
is 0 there comes from the state before the reset. -/
theorem bringupLsiCompletes : Obligations.BringupLsiCompletes := by
  intro s rest sync async hr hcon
  have places := csrPlaces hr.regs.params
  have prog := bringupProgram_lsi s.par
  refine ⟨fun hrdy hl hm => ?ready, fun hrdy hrest hm => ?reset⟩
  case ready =>
    rw [← rtcselCode_two]
    exact exec_bringupReady hr hcon rfl rfl rfl prog rfl rfl hl hm (by decide) hrdy
  case reset =>
    have off : (csrReset s).getLsbD 1 = false := by
      rw [csrReset, BitVec.getLsbD_and, show s.rccCsr.getLsbD 1 = false from hrdy, Bool.false_and]
    have h := exec_bringupReset (i := .bringupLsi sync async) (csr := csrReset s ||| bit 0 ||| bit 1)
      hr hcon rfl rfl rfl prog rfl rfl hrest hm (by decide) hrdy
      fun f hf hR hc => by
        subst hf
        exact hR.startLsi hc (dbp_freshDomain _ _) rfl off isrReset_init
    rw [rtcselCode_two, blend_rtcsel_of_clear places (csr_lsi_rtcsel places) (.inr rfl)] at h
    exact h

end Sys2Proof.Machine
end

section
/-! SUPPORT. The two write forms of RTC_ISR (R91, R92), the time setters (R122 to R124), and operands outside their domains
(R100, R120). -/

namespace Sys2Proof.Machine

/-! ### The two write forms of RTC_ISR (R91, R92) -/

/-- An open bracket shows that the backup domain is not held in reset (R107). -/
theorem RegsOk.live_of_unlocked {s : State} (h : RegsOk s) (hu : s.wp = .unlocked) : domainHeld s = false := by
  cases hd : domainHeld s with
  | false => rfl
  | true =>
    have hh := h.held
    rw [holdDomain, if_pos hd] at hh
    have locked : WpState.locked = s.wp := congrArg State.wp hh
    rw [hu] at locked
    cases locked

/-- Settling a change of RTC_ISR that a held domain does not see, RTC_ISR being 7 there (R52, R107). -/
theorem RegsOk.settle_isr {s : State} (h : RegsOk s) {x : Word} (hx : s.rtcIsr = 0x00000007#32 → x = 0x00000007#32) :
    settle { s with rtcIsr := x } = detectEdges { s with rtcIsr := x } := by
  cases hd : domainHeld s with
  | false => exact settle_of_live hd
  | true =>
    have hh := h.held
    rw [holdDomain, if_pos hd] at hh
    have reset : 0x00000007#32 = s.rtcIsr := congrArg State.rtcIsr hh
    rw [hx reset.symm, reset]
    exact congrArg detectEdges h.held

/-- A blend with a word that agrees on the mask changes nothing. -/
theorem blend_of_agree {m x v : Word} (h : v &&& m = x &&& m) : blend m x v = x := by
  rw [blend, h, ← BitVec.and_or_distrib_left, BitVec.or_comm, BitVec.or_not_self, BitVec.and_allOnes]

/-- The flags that a write can clear are rc_w0 flags (R39, R42). -/
theorem isrClearable_inside (s : State) : isrClearable s &&& ~~~isrKeep = 0#32 := by
  unfold isrClearable
  split
  · decide
  · cases s.par.rsfProtected <;> decide

theorem isrClearable_eq (s : State) : isrClearable s =
    if s.wp = .unlocked then isrKeep else 0x00003F00#32 ||| if s.par.rsfProtected then 0#32 else 0x00000020#32 := by
  simp only [isrClearable, unlocked, beq_iff_eq]
  rfl

/-- The word of `ISR_CLR(m)` holds 0, of the rc_w0 flags, in those of `m` (R92). -/
theorem clear_isrClearWord {c : Word} (hc : c &&& ~~~isrKeep = 0#32) (m x v : Word) :
    x &&& ~~~(c &&& ~~~isrClearWord m v) = x &&& ~~~(m &&& c) := by
  apply BitVec.eq_of_getLsbD_eq
  intro i hi
  have hci := congrArg (fun w => w.getLsbD i) hc
  have h7 : isrKeep.getLsbD 7 = false := by decide
  simp only [isrClearWord, BitVec.getLsbD_and, BitVec.getLsbD_or, BitVec.getLsbD_not, BitVec.getLsbD_zero,
    bit_getLsbD 7 i (by decide), hi, decide_true, Bool.true_and] at hci ⊢
  by_cases e : i = 7
  · subst e; simp_all
  · cases hk : isrKeep.getLsbD i <;> cases hm : c.getLsbD i <;> simp_all

/-- The word of `ISR_CLR(m)` writes INIT back as read (R92). -/
theorem isrClearWord_init (m v : Word) : isrClearWord m v &&& bit 7 = v &&& bit 7 := by
  rw [isrClearWord, BitVec.and_comm, BitVec.and_or_distrib_left, BitVec.and_comm _ (v &&& bit 7), BitVec.and_assoc v,
    BitVec.and_self, ← BitVec.and_assoc, show bit 7 &&& isrKeep = 0#32 by decide, BitVec.zero_and, BitVec.zero_or]

/-- `ISR_CLR(m)` after any read with the same INIT: the flags of `m` that can be cleared now, and nothing else (R42, R92). -/
theorem writeIsr_isrClearWord {s : State} {m v : Word} (hm : m &&& ~~~isrKeep = 0#32) (hv : v &&& bit 7 = s.rtcIsr &&& bit 7) :
    writeIsr (isrClearWord m v) s = { s with rtcIsr := s.rtcIsr &&& ~~~(m &&& isrClearable s) } := by
  have m7 : m.getLsbD 7 = false := by
    rw [← and_mask_id hm, BitVec.getLsbD_and, show isrKeep.getLsbD 7 = false by decide, Bool.and_false]
  have h7 : (s.rtcIsr &&& ~~~(m &&& isrClearable s)) &&& bit 7 = s.rtcIsr &&& bit 7 := by
    rw [BitVec.and_assoc, BitVec.and_comm (~~~_), and_mask_id (x := bit 7)]
    rw [BitVec.not_not, BitVec.and_comm, and_bit_eq_zero (by decide), BitVec.getLsbD_and, m7, Bool.false_and]
  simp only [writeIsr, clear_isrClearWord (isrClearable_inside s)]
  rw [blend_of_agree ((isrClearWord_init m v).trans (hv.trans h7.symm)), ite_self]

/-- Settles O14: each word's write is computed on RTC_ISR; an open bracket means a live domain, and a held one keeps RTC_ISR at 7,
where `ISR_CLR` finds no rc_w0 flag to clear. -/
theorem isrWriteForms : Obligations.IsrWriteForms := by
  intro s hr
  refine ⟨fun hu b => ?setInit, fun m v hm hv => ?clear⟩
  case setInit =>
    have hc : Calm s := hr.calm (hr.live_of_unlocked hu)
    rw [memWrite_regAddr hr.params]
    cases b
    · rw [show writeReg .isr _ s = _ from writeIsr_setInit_false hu]
      exact congrArg some (hc.isr (t := { s with rtcIsr := s.rtcIsr &&& ~~~bit 7 }) rfl rfl rfl rfl fun n _ _ =>
        getLsbD_andNot_bit_ne (by decide) (by omega) (by omega)).settle
    · rw [show writeReg .isr _ s = _ from writeIsr_setInit_true hu]
      exact congrArg some (hc.isr (t := { s with rtcIsr := s.rtcIsr ||| bit 7 }) rfl rfl rfl rfl fun n _ _ =>
        getLsbD_or_bit_ne (by decide) (by omega)).settle
  case clear =>
    rw [memWrite_regAddr hr.params, show writeReg .isr _ s = _ from writeIsr_isrClearWord hm hv, ← isrClearable_eq]
    refine congrArg some (hr.settle_isr fun h7 => ?_)
    rw [h7, and_mask_id]
    rw [BitVec.not_not, ← and_mask_id (inside_and hm (isrClearable s)), BitVec.and_comm (m &&& _), ← BitVec.and_assoc,
      show 0x00000007#32 &&& isrKeep = 0#32 by decide, BitVec.zero_and]

/-! ### The time setters (R122 to R124) -/

section
variable {i : Instr} {s : State} {ok enc : Nat → Bool} {val : Nat → Nat} {m w : Word} {n : Nat} {rest : List Move}

/-- A field setter of RTC_TR: the other bits of the register stay, and its read captures the date (R61). -/
theorem exec_timeSetter (hr : OwnerReady s) (hc : s.constructed = true) (hm : InitServed s rest)
    (hwf : i.wellFormed = true) (hn : needOf i = .constructed)
    (hg : progOf s.par (opcode i) = some (fieldSetter ok enc val .tr m)) (hmask : m &&& ~~~trMask = 0#32)
    (hx : (loadedLatches i).x0 = some w) (hw : w.toNat = n) (hok : ok n = true) (henc : enc n = true) :
    ∃ c, Finished c i 0x00#8 s.owner.res ∧ exec i s = .next { s with
      owner := c, calTr := blend m s.calTr (toWord (val n)), drLock := some s.calDr
      rtcIsr := isrAfterInit s, wp := .locked, moves := rest } := by
  refine exec_fieldSetter
    (t := { inBody s i { loadedLatches i with x6 := some (toWord (val n)) } rest with
      calTr := blend m s.calTr (toWord (val n)), drLock := some s.calDr })
    hr hc hm hwf hn hg hx hw hok henc ?_ ⟨rfl, rfl, rfl, rfl⟩ rfl rfl rfl
  rintro b rfl hcb hub hfb
  exact ⟨rmw_tr hcb hub hfb hr.regs.tr hmask, hcb.congr rfl rfl rfl rfl⟩

end

/-- Settles O26: the three time setters are field setters of RTC_TR, and both checks of each pass on its operand's domain. -/
theorem timeSettersComplete : Obligations.TimeSettersComplete := by
  intro s rest v hr hc hm
  refine ⟨fun hi => ?seconds, fun hi => ?minutes, fun hi => ?hours⟩
  case seconds =>
    exact exec_timeSetter (ok := sixtyOk) (enc := fun n => encOk n 3 4) (val := bcdPair)
      hr hc hm rfl rfl rfl (by decide) rfl (zext8 v) (by simp [sixtyOk, hi]) (encOk_sixty hi)
  case minutes =>
    exact exec_timeSetter (ok := sixtyOk) (enc := fun n => encOk n 3 4) (val := fun n => bcdPair n * 2 ^ 8)
      hr hc hm rfl rfl rfl (by decide) rfl (zext8 v) (by simp [sixtyOk, hi]) (encOk_sixty hi)
  case hours =>
    exact exec_timeSetter (ok := hourOk) (enc := fun n => encOk n 2 4) (val := fun n => bcdPair n * 2 ^ 16)
      hr hc hm rfl rfl rfl (by decide) rfl (zext8 v) (by simp [hourOk, hi]) (encOk_hour hi)

/-! ### The seven field setters as one (R122 to R128) -/

/-- Command `i` is the field setter of these checks, value, register and mask, its operand the word `w` of value `n`. Its first
check is its domain (R120), inside which the second never fails (R119). -/
structure IsFieldSetter (i : Instr) (ok enc : Nat → Bool) (val : Nat → Nat) (r : Reg) (m w : Word) (n : Nat) : Prop where
  wellFormed : i.wellFormed = true
  need : needOf i = .constructed
  program : ∀ p, progOf p (opcode i) = some (fieldSetter ok enc val r m)
  operand : (loadedLatches i).x0 = some w
  value : w.toNat = n
  domain : operandsInDomain i = ok n
  encodes : ok n = true → enc n = true

/-- The commands whose poll for INITF is micro-op 7 are the field setters. -/
theorem isFieldSetter_of_initWaitPc {i : Instr} (h : initWaitPc i = some 7) :
    ∃ ok enc val r m w n, IsFieldSetter i ok enc val r m w n := by
  have range {lo hi n : Nat} (hn : (decide (lo ≤ n) && decide (n ≤ hi)) = true) : n ≤ hi := by
    simp only [Bool.and_eq_true, decide_eq_true_eq] at hn
    exact hn.2
  cases i <;> cases h
  case setSeconds v =>
    exact ⟨sixtyOk, fun n => encOk n 3 4, bcdPair, .tr, 0x0000007F#32, _, v.toNat,
      rfl, rfl, fun _ => rfl, rfl, zext8 v, rfl, fun h => encOk_sixty (of_decide_eq_true h)⟩
  case setMinutes v =>
    exact ⟨sixtyOk, fun n => encOk n 3 4, fun n => bcdPair n * 2 ^ 8, .tr, 0x00007F00#32, _, v.toNat,
      rfl, rfl, fun _ => rfl, rfl, zext8 v, rfl, fun h => encOk_sixty (of_decide_eq_true h)⟩
  case setHours v =>
    exact ⟨hourOk, fun n => encOk n 2 4, fun n => bcdPair n * 2 ^ 16, .tr, 0x007F0000#32, _, v.toNat,
      rfl, rfl, fun _ => rfl, rfl, zext8 v, rfl, fun h => encOk_hour (of_decide_eq_true h)⟩
  case setWeekday v =>
    exact ⟨weekdayOk, fun n => encOk n 0 3, fun n => n * 2 ^ 13, .dr, 0x0000E000#32, _, v.toNat,
      rfl, rfl, fun _ => rfl, rfl, zext8 v, Bool.decide_and _ _, fun h => encOk_weekday (range h)⟩
  case setDay v =>
    exact ⟨dayOk, fun n => encOk n 2 4, bcdPair, .dr, 0x0000003F#32, _, v.toNat,
      rfl, rfl, fun _ => rfl, rfl, zext8 v, Bool.decide_and _ _, fun h => encOk_day (range h)⟩
  case setMonth v =>
    exact ⟨monthOk, fun n => encOk n 1 4, fun n => bcdPair n * 2 ^ 8, .dr, 0x00001F00#32, _, v.toNat,
      rfl, rfl, fun _ => rfl, rfl, zext8 v, Bool.decide_and _ _, fun h => encOk_month (range h)⟩
  case setYear y =>
    exact ⟨yearOk, fun n => encOk (n - epoch) 4 4, fun n => bcdPair (n - epoch) * 2 ^ 16, .dr, 0x00FF0000#32, _, y.toNat,
      rfl, rfl, fun _ => rfl, rfl, zext16 y, Bool.decide_and _ _, fun h => encOk_year (Nat.sub_le_of_le_add (range h))⟩

/-! ### Operands outside their domains (R100, R120) -/

/-- A ready OWNER's command whose first micro-ops are checks, the checks answering `bs` on its operands, one of them false. -/
theorem exec_badOperand {i : Instr} {s : State} {prog : List MicroOp} {cs : List (LExpr Bool)} {bs : List Bool} (hr : OwnerReady s)
    (hw : Waits .owner s.moves) (hv : verdict .owner (some i) s = .accept) (hg : progOf s.par (opcode i) = some prog)
    (hn : cs.length ≤ 20) (hc : ∀ j, j < cs.length → prog[j]? = cs[j]?.map .check)
    (hx : cs.map (fun c => c (loadedLatches i)) = bs.map some) (hb : false ∈ bs) :
    ∃ c, Finished c i 0x01#8 s.owner.res ∧ exec i s = .next { s with owner := c } := by
  rw [exec_eq_issue]
  refine issue_checksFail hr.port hr.regs.params hr.noFault hr.irqIdle hw hv hg cs hn hc (fun c hcs => ?answers) ?fails
  case answers =>
    have h : c (loadedLatches i) ∈ bs.map some := hx ▸ List.mem_map_of_mem hcs
    obtain ⟨b, -, e⟩ := List.mem_map.mp h
    exact ⟨b, e.symm⟩
  case fails =>
    have h : some false ∈ cs.map (fun c => c (loadedLatches i)) := hx ▸ List.mem_map_of_mem hb
    exact List.mem_map.mp h

/-- A field setter whose operand fails the first check. -/
theorem IsFieldSetter.exec_badOperand {i : Instr} {s : State} {ok enc : Nat → Bool} {val : Nat → Nat} {r : Reg} {m w : Word}
    {n : Nat} (h : IsFieldSetter i ok enc val r m w n) (hr : OwnerReady s) (hc : s.constructed = true) (hw : Waits .owner s.moves)
    (hbad : operandsInDomain i = false) :
    ∃ c, Finished c i 0x01#8 s.owner.res ∧ exec i s = .next { s with owner := c } :=
  Machine.exec_badOperand (cs := [lx0 fun v => ok v.toNat]) (bs := [ok n]) hr hw (hr.accepts hc h.wellFormed h.need) (h.program _)
    (Nat.le_add_left 1 19) (fun j hj => by obtain rfl : j = 0 := Nat.lt_one_iff.mp hj; rfl)
    (by simp [lx0_toNat h.operand h.value ok]) (by simp [← h.domain, hbad])

/-- The checks of SET_DATE, in order (R130). -/
def setDateChecks : List (LExpr Bool) :=
  [ lx0 fun y => yearOk y.toNat, lx1 fun m => monthOk m.toNat, lx2 fun d => dayOk d.toNat
  , lx012 fun y m d => decide (d.toNat ≤ daysIn y.toNat m.toNat)
  , lx012 fun y m d => encOk (y.toNat - epoch) 4 4 && encOk m.toNat 1 4 && encOk d.toNat 2 4 ]

/-- What they answer. -/
theorem setDateChecks_answer (y : BitVec 16) (m d : BitVec 8) :
    setDateChecks.map (fun c => c (loadedLatches (.setDate y m d))) =
      [ yearOk y.toNat, monthOk m.toNat, dayOk d.toNat, decide (d.toNat ≤ daysIn y.toNat m.toNat)
      , encOk (y.toNat - epoch) 4 4 && encOk m.toNat 1 4 && encOk d.toNat 2 4 ].map some := by
  simp only [setDateChecks, List.map, lx0, lx1, lx2, lx012, loadedLatches, Option.map_some, zext8, zext16]

/-- The checks of SET_DATETIME, in order (R131). -/
def setDatetimeChecks : List (LExpr Bool) :=
  [ lx0 fun y => yearOk y.toNat, lx1 fun m => monthOk m.toNat, lx2 fun d => dayOk d.toNat
  , lx012 fun y m d => decide (d.toNat ≤ daysIn y.toNat m.toNat)
  , lx3 fun h => hourOk h.toNat, lx4 fun mi => sixtyOk mi.toNat, lx5 fun s => sixtyOk s.toNat
  , lx05 fun y m d h mi s => encOk (y.toNat - epoch) 4 4 && encOk m.toNat 1 4 && encOk d.toNat 2 4
      && encOk h.toNat 2 4 && encOk mi.toNat 3 4 && encOk s.toNat 3 4 ]

/-- What they answer. -/
theorem setDatetimeChecks_answer (y : BitVec 16) (m d h mi sec : BitVec 8) :
    setDatetimeChecks.map (fun c => c (loadedLatches (.setDatetime y m d h mi sec))) =
      [ yearOk y.toNat, monthOk m.toNat, dayOk d.toNat, decide (d.toNat ≤ daysIn y.toNat m.toNat)
      , hourOk h.toNat, sixtyOk mi.toNat, sixtyOk sec.toNat
      , encOk (y.toNat - epoch) 4 4 && encOk m.toNat 1 4 && encOk d.toNat 2 4
        && encOk h.toNat 2 4 && encOk mi.toNat 3 4 && encOk sec.toNat 3 4 ].map some := by
  simp only [setDatetimeChecks, List.map, lx0, lx1, lx2, lx3, lx4, lx5, lx012, lx05, loadedLatches, Option.map_some, zext8, zext16]

/-- A value outside the domain of its field fails the check of BCD_ENCODE (R137, R115). -/
theorem encodeCheck_fails {f : BitVec 3} {v : BitVec 8} (h : operandsInDomain (.bcdEncode f v) = false) :
    f ≠ 7#3 ∧ encodeCheck (loadedLatches (.bcdEncode f v)) = some false := by
  have fields : ∀ f : BitVec 3,
      f = 0#3 ∨ f = 1#3 ∨ f = 2#3 ∨ f = 3#3 ∨ f = 4#3 ∨ f = 5#3 ∨ f = 6#3 ∨ f = 7#3 := by decide
  rcases fields f with rfl | rfl | rfl | rfl | rfl | rfl | rfl | rfl <;>
    simp [operandsInDomain, encodeCheck, loadedLatches, tensWidth, unitsWidth, encOk] at h ⊢ <;> omega

/-- Settles O29: every command with a domain begins with checks; on an operand outside the domain one of them answers false. -/
theorem invalidInputTouchesNothing : Obligations.InvalidInputTouchesNothing := by
  intro s i hr hc hw hbad
  have field (h7 : initWaitPc i = some 7) : ∃ c, Finished c i 0x01#8 s.owner.res ∧ exec i s = .next { s with owner := c } := by
    obtain ⟨ok, enc, val, r, m, w, n, h⟩ := isFieldSetter_of_initWaitPc h7
    exact h.exec_badOperand hr hc hw hbad
  cases i
  case setSeconds | setMinutes | setHours | setWeekday | setDay | setMonth | setYear => exact field rfl
  case setDate y m d =>
    refine exec_badOperand hr hw (hr.accepts hc rfl rfl) rfl (by decide) (fun j hj => ?_) (setDateChecks_answer y m d) ?_
    · change j < 5 at hj
      interval_cases j <;> rfl
    · simp [operandsInDomain, yearOk, monthOk, dayOk] at hbad ⊢
      omega
  case setDatetime y m d h mi sec =>
    refine exec_badOperand hr hw (hr.accepts hc rfl rfl) rfl (by decide) (fun j hj => ?_)
      (setDatetimeChecks_answer y m d h mi sec) ?_
    · change j < 8 at hj
      interval_cases j <;> rfl
    · simp [operandsInDomain, yearOk, monthOk, dayOk, hourOk, sixtyOk] at hbad ⊢
      omega
  case bcdEncode f v =>
    obtain ⟨hf, hx⟩ := encodeCheck_fails hbad
    exact exec_badOperand (cs := [encodeCheck]) (bs := [false]) hr hw
      (hr.context.accepts (by simpa [Instr.wellFormed, fieldSelectDefined] using hf) rfl rfl) rfl (by decide)
      (fun j hj => by obtain rfl : j = 0 := Nat.lt_one_iff.mp hj; rfl) (congrArg (fun b => [b]) hx) (by decide)
  all_goals cases hbad

end Sys2Proof.Machine
end

section
/-! SUPPORT. ENABLE_WAKEUP of an interval that cannot be represented (R143, R157), and the block reset after it (R206). -/

namespace Sys2Proof.Machine

/-- A bit outside a blend's mask can be cleared before the blend or after it. -/
theorem blend_andNot {m b v : Word} (x : Word) (hv : v &&& b = 0#32) : blend m (x &&& ~~~b) v = blend m x v &&& ~~~b := by
  apply BitVec.eq_of_getLsbD_eq
  intro i hi
  have h := congrArg (fun w => w.getLsbD i) hv
  simp only [blend, BitVec.getLsbD_and, BitVec.getLsbD_or, BitVec.getLsbD_not, BitVec.getLsbD_zero, hi, decide_true,
    Bool.true_and] at h ⊢
  cases hb : b.getLsbD i <;> simp_all

/-- With WUTE = 0 and WUTWF = 1 the clock-select code is written and the interval's reload value computed, whether or not there is
one (R143 e to g). -/
theorem Running.selectWakeup {u : State} {n : BitVec 32} (h : Running .owner u progEnableWakeup) (hc : Calm u)
    (hw : Waits .owner u.moves) (hu : u.wp = .unlocked) (he : wute u = false) (hf : wutwf u = true)
    (hx : u.owner.x = loadedLatches (.enableWakeup n)) :
    ∃ x, x.x0 = some n ∧ Leads .owner 4 (atPc .owner u 4) (atPc .owner { u with
      owner := { u.owner with x := x }, rtcCr := blend 0x00000007#32 u.rtcCr (toWord (wkSel n.toNat)) } 8) := by
  let sel : Word := toWord (wkSel n.toNat)
  let val : Word := toWord (wkVal n.toNat)
  let x6 : Latches := { loadedLatches (.enableWakeup n) with x6 := some sel }
  let x7 : Latches := { x6 with x7 := some val }
  have hs : Silent .owner u := .of_waits hw h.busy
  have wait := h.poll (k := 4) hs rfl (by decide) (by decide) ((and_bit_eq_bit (by decide)).mpr hf)
  have calcSel := h.calc (k := 5) (v := sel) hs rfl (by rw [seqOf_owner, hx]; rfl)
  rw [seqOf_owner, hx] at calcSel
  have calcVal := Running.calc (s := { u with owner := { u.owner with x := x6 } }) (k := 6) (v := val)
    (h.congr rfl rfl rfl rfl fun _ => rfl) (hs.congr rfl rfl rfl rfl fun e => e) rfl rfl
  let u2 : State := { u with owner := { u.owner with x := x7 } }
  have writeSel := Running.rmwCr (s := u2) (k := 7) (m := 0x00000007#32) (v := sel) (h.congr rfl rfl rfl rfl fun _ => rfl)
    (hc.setSeq .owner _) (hs.congr rfl rfl rfl rfl fun e => e) hu rfl rfl rfl (crWritable_wucksel he hf) (by decide)
  exact ⟨x7, rfl, ((wait.then calcSel).then calcVal).then writeSel⟩

/-- ENABLE_WAKEUP of an interval with no representation stops at its `FAULTIF`, the bracket open (R101, R143, R157). -/
theorem exec_enableWakeup_faults {s : State} {rest : List Move} {n : BitVec 32} (hr : OwnerReady s) (hc : s.constructed = true)
    (hm : WakeServed s rest) (hn : wkOk n.toNat = false) :
    ∃ c, FaultedAt c s.owner (.enableWakeup n) 8 ∧
      exec (.enableWakeup n) s = .next (detectEdges { s with
        owner := c
        rtcCr := blend 0x00000007#32 s.rtcCr (toWord (wkSel n.toNat)) &&& ~~~bit 10
        rtcIsr := (s.rtcIsr ||| bit 2) &&& ~~~bit 10
        wp := .unlocked, moves := rest
        faultCode := 0x01#8, faultSeq := .owner, faultWord := encode (.enableWakeup n) }) := by
  let i : Instr := .enableWakeup n
  let s0 : State := { s with owner := loadedSeq s.owner i }
  have hcalm : Calm s0 := (hr.regs.calm hr.live).setSeq .owner _
  have h : Running .owner s0 progEnableWakeup := running_loaded hr.regs.params hr.noFault hr.irqIdle rfl
  have off := (h.wakeupOff (k := 0) hcalm rfl rfl rfl ⟨hm.moves, hm.quiet⟩).then (h.wakeupCleared (k := 3) hcalm hm.quiet rfl)
  let u : State := wakeupCleared s0 rest
  have cu : Calm u := Calm.detectEdges (s := { wakeupOff s0 rest with rtcIsr := _ }) hcalm.live
  have hu : Running .owner u progEnableWakeup := h.congr rfl rfl rfl rfl fun _ => rfl
  have hwute : wute u = false := by
    show (s.rtcCr &&& ~~~bit 10).getLsbD 10 = false
    simp [bit]
  obtain ⟨x, hx, select⟩ := hu.selectWakeup cu hm.quiet rfl hwute (wutwf_wakeupCleared s0 rest) rfl
  let v : State := { u with
    owner := { u.owner with x := x }, rtcCr := blend 0x00000007#32 u.rtcCr (toWord (wkSel n.toNat)) }
  have cv : Calm v := (cu.setSeq .owner { u.owner with x := x }).crField (by decide) _
  have fault := Running.faultIf (s := v) (k := 8) (c := lx0 fun n => !wkOk n.toNat) (code := .wakeupUnrepresentable)
    (hu.congr rfl rfl rfl rfl fun _ => rfl) (.of_waits hm.quiet h.busy) rfl (by
      show x.x0.map _ = _
      rw [hx, Option.map_some, hn]; rfl)
  let c : Seq := { v.owner with pc := 8 }
  refine ⟨c, ⟨rfl, rfl, rfl, rfl, rfl, rfl⟩, ?_⟩
  have code : toWord (wkSel n.toNat) &&& bit 10 = 0#32 := by
    rw [wkSel_eq]; split <;> decide
  have hcr : v.rtcCr = blend 0x00000007#32 s.rtcCr (toWord (wkSel n.toNat)) &&& ~~~bit 10 := blend_andNot _ code
  let t : State := { s with
    owner := c, rtcCr := v.rtcCr, rtcIsr := (s.rtcIsr ||| bit 2) &&& ~~~bit 10, wp := .unlocked, moves := rest
    faultCode := 0x01#8, faultSeq := .owner, faultWord := encode i }
  have hend : raiseFault .owner .wakeupUnrepresentable (atPc .owner v 8) = detectEdges t :=
    detectEdges_later (s := { wakeupOff s0 rest with rtcIsr := (s.rtcIsr ||| bit 2) &&& ~~~bit 10 }) (t := t)
      rfl rfl rfl rfl (cv.levels.symm.trans cu.levels)
  rw [exec_eq_issue, ← hcr]
  show issue i s = .next (detectEdges t)
  rw [← hend]
  refine issue_of_leads (n := 10) (by rw [hr.port]; exact hr.accepts hc rfl rfl) ?_ (by decide) ?_
  · rw [hr.port, loadCommand_eq]
    exact (off.then select).then fault
  · rw [hr.port]
    exact drain_faulted rfl

/-- Settles O36: 0 and the intervals above 131072 have no representation, and their clock-select codes are 4 and 6 (R140). -/
theorem enableWakeupFaults : Obligations.EnableWakeupFaults := by
  intro s rest n hr hc hm hn
  have unrepresentable : wkOk n.toNat = false := by
    rw [← Bool.not_eq_true, wkOk_iff]; omega
  have code : toWord (wkSel n.toNat) = if n.toNat = 0 then 4#32 else 6#32 := by
    rw [wkSel_eq]
    rcases hn with h | h
    · rw [if_pos (by omega), if_pos h]; rfl
    · rw [if_neg (by omega), if_neg (by omega)]; rfl
  rw [← code]
  exact exec_enableWakeup_faults hr hc hm unrepresentable

/-- A block reset at the head of the schedule is taken at once (R190). -/
theorem tick_blockReset (s : State) (rest : List Move) :
    tick { s with moves := .blockReset :: rest } = .next (blockReset { s with moves := rest }) := rfl

/-- Settles O53: the fault leaves the key FSM UNLOCKED (O36), and a block reset does not touch it (R51). -/
theorem blockResetKeepsTheOpenBracket : Obligations.BlockResetKeepsTheOpenBracket := by
  intro s t rest n hr hc hm hn ht
  obtain ⟨c, -, hex⟩ := enableWakeupFaults s rest n hr hc hm hn
  cases hex.symm.trans ht
  exact ⟨_, tick_blockReset _ [], rfl, rfl, rfl, rfl⟩

end Sys2Proof.Machine
end

section
/-! SUPPORT. How long a command run can be (R27, R167): every tick takes a move from the schedule or moves a sequencer on, so a
drain is never cut short by its fuel. -/

namespace Sys2Proof.Machine

/-! ### Every micro-op moves its sequencer on (R27, R88) -/

/-- No micro-program is longer than that of BRINGUP_LSE (R110). -/
theorem progOf_length {p : Params} {op : Byte} {prog : List MicroOp} (h : progOf p op = some prog) : prog.length ≤ 23 := by
  unfold progOf at h
  split at h <;> cases h <;> exact Nat.le_of_ble_eq_true rfl

/-- A bound on the micro-ops a busy sequencer has still to take: one more than those before number 30, so that a step past the
last micro-op, which idles it (R27), lowers it too. -/
def toGo (c : Seq) : Nat := if c.busy then 30 - c.pc + 1 else 0

theorem toGo_le (c : Seq) : toGo c ≤ 31 := by
  unfold toGo; split <;> omega

/-- What a micro-op does for the end of its command: the command ends, it faults, or it moves on. -/
def Progress (q : SeqId) (s t : State) : Prop :=
  (seqOf t q).busy = false ∨ faulted t = true ∨ (seqOf s q).pc < (seqOf t q).pc

theorem progress_advance {q : SeqId} {s u : State} (h : seqOf u q = seqOf s q) {n : Nat} (hn : 0 < n) :
    Progress q s (advance q n u) :=
  .inr (.inr (by simp [h, hn]))

theorem progress_setLatch {q : SeqId} {s u : State} (h : seqOf u q = seqOf s q) (i : Nat) (v : Word) :
    Progress q s (setLatchAdvance q i v u) :=
  .inr (.inr (by simp [setLatchAdvance, h]))

theorem seqOf_memRead {q : SeqId} {s t : State} {a v : Word} (e : memRead a s = some (v, t)) : seqOf t q = seqOf s q := by
  simp only [memRead, Option.map_eq_some_iff] at e
  obtain ⟨r, -, e⟩ := e
  rw [show t = (readReg r s).2 by rw [e], seqOf_readReg]

theorem seqOf_memWrite {q : SeqId} {s t : State} {a v : Word} (e : memWrite a v s = some t) : seqOf t q = seqOf s q := by
  simp only [memWrite, Option.map_eq_some_iff] at e
  obtain ⟨r, -, rfl⟩ := e
  rw [seqOf_settle, seqOf_writeReg]

/-- A micro-op that does not hold makes progress, whatever its kind. -/
theorem runMicroOp_progress {q : SeqId} {m : MicroOp} {s t : State} (hm : nextMicroOp s q = some m) (hh : held s q = false)
    (h : runMicroOp q m s = .next t) : Progress q s t := by
  match m, hm, h with
  | .check c, _, h =>
    simp only [runMicroOp] at h
    obtain ⟨ok, -, h⟩ := withValue_next h
    cases h
    cases ok
    · exact .inl (by simp)
    · exact progress_advance rfl Nat.one_pos
  | .calc i e, _, h =>
    simp only [runMicroOp] at h
    obtain ⟨v, -, h⟩ := withValue_next h
    cases h
    exact progress_setLatch rfl i v
  | .wr r e, _, h =>
    simp only [runMicroOp] at h
    obtain ⟨v, -, h⟩ := withValue_next h
    obtain ⟨u, hu, h⟩ := withWrite_next h
    cases h
    exact progress_advance (seqOf_memWrite hu) Nat.one_pos
  | .rd i r, _, h =>
    simp only [runMicroOp] at h
    obtain ⟨v, u, hu, h⟩ := withRead_next h
    cases h
    exact progress_setLatch (seqOf_memRead hu) i v
  | .rmw r em ev, _, h =>
    simp only [runMicroOp] at h
    obtain ⟨m, -, h⟩ := withValue_next h
    obtain ⟨v, -, h⟩ := withValue_next h
    obtain ⟨old, u, hu, h⟩ := withRead_next h
    obtain ⟨w, hw, h⟩ := withWrite_next h
    cases h
    exact progress_advance ((seqOf_memWrite hw).trans (seqOf_memRead hu)) Nat.one_pos
  | .isrSetInit b, _, h =>
    simp only [runMicroOp] at h
    obtain ⟨u, hu, h⟩ := withWrite_next h
    cases h
    exact progress_advance (seqOf_memWrite hu) Nat.one_pos
  | .isrClr e, _, h =>
    simp only [runMicroOp] at h
    obtain ⟨m, -, h⟩ := withValue_next h
    obtain ⟨old, u, hu, h⟩ := withRead_next h
    obtain ⟨w, hw, h⟩ := withWrite_next h
    cases h
    exact progress_advance ((seqOf_memWrite hw).trans (seqOf_memRead hu)) Nat.one_pos
  | .poll r a b, hm, h =>
    simp only [runMicroOp] at h
    obtain ⟨v, u, hu, h⟩ := withRead_next h
    have met : v &&& a = b := by simpa [held, hm, hu] using hh
    rw [if_pos met] at h
    cases h
    exact progress_advance (seqOf_memRead hu) Nat.one_pos
  | .skipIf r a b n, _, h =>
    simp only [runMicroOp] at h
    obtain ⟨v, u, hu, h⟩ := withRead_next h
    cases h
    exact progress_advance (seqOf_memRead hu) (by split <;> omega)
  | .faultIf c code, _, h =>
    simp only [runMicroOp] at h
    obtain ⟨bad, -, h⟩ := withValue_next h
    cases h
    cases bad
    · exact progress_advance rfl Nat.one_pos
    · exact .inr (.inl (by cases code <;> rfl))
  | .res e, _, h =>
    simp only [runMicroOp] at h
    obtain ⟨v, -, h⟩ := withValue_next h
    cases h
    exact .inr (.inr (by simp))
  | .construct src, _, h =>
    simp only [runMicroOp] at h
    cases h
    exact progress_advance (by cases q <;> rfl) Nat.one_pos
  | .done, _, h =>
    simp only [runMicroOp] at h
    cases h
    exact .inl (by simp)

/-- A step of a busy sequencer that does not hold faults, or leaves it less to go. -/
theorem seqStep_toGo {q : SeqId} {s t : State} (hb : (seqOf s q).busy = true) (hh : held s q = false)
    (h : seqStep q s = .next t) : faulted t = true ∨ toGo (seqOf t q) < toGo (seqOf s q) := by
  have idle (hi : (seqOf t q).busy = false) : toGo (seqOf t q) < toGo (seqOf s q) := by simp [toGo, hi, hb]
  unfold seqStep at h
  split at h
  case h_1 => cases h
  case h_2 prog hp =>
    split at h
    case h_1 m hm =>
      have inside : (seqOf s q).pc < 23 := Nat.lt_of_lt_of_le (List.getElem?_eq_some_iff.mp hm).1 (progOf_length hp)
      rcases runMicroOp_progress (by simp [nextMicroOp, hp, hm]) hh h with hi | hf | hpc
      · exact .inr (idle hi)
      · exact .inl hf
      · refine .inr ?_
        simp only [toGo, hb, if_true]
        split <;> omega
    case h_2 =>
      cases h
      exact .inr (idle (by simp))

/-! ### Every tick takes a move or moves a sequencer on (R167) -/

@[simp] theorem presentWord_moves (q : SeqId) (w : Cmd) (s : State) : (presentWord q w s).moves = s.moves := by
  unfold presentWord
  split
  · exact setSeq_moves _ _ _
  · rfl
  · rfl

@[simp] theorem envStep_moves (d : Draw) (s : State) : (envStep d s).moves = s.moves := by
  rw [envStep, settle_moves]; cases d <;> rfl

/-- A move does not touch the moves after it. -/
theorem takeMove_moves {m : Move} {s t : State} (h : takeMove m s = .next t) : t.moves = s.moves := by
  cases m <;> simp only [takeMove, Host.Outcome.next.injEq] at h
  case micro q => exact (seqStep_frame h).moves
  case systemReset d => subst h; rw [systemReset, settle_moves]; rfl
  case powerOn d => subst h; rw [powerOnReset, settle_moves]; rfl
  case blockReset => subst h; rfl
  all_goals subst h; simp

theorem readyMove_moves {s : State} {m : Move} {rest : List Move} (h : readyMove s = some (m, rest)) : s.moves = m :: rest := by
  unfold readyMove at h
  split at h
  · cases h
  · split at h <;> cases h
    assumption

/-- The sequencer whose turn it is is busy and does not hold. -/
theorem turn_some {s : State} {q : SeqId} (h : turn s = some q) : (seqOf s q).busy = true ∧ held s q = false := by
  unfold turn at h
  split at h
  · cases h
  · split at h
    · split at h <;> cases h
      exact ⟨‹_›, by simpa using ‹¬held s .irq = true›⟩
    · split at h <;> cases h
      rename_i hb
      simpa using hb

/-- A bound on the ticks a run can still make: a move may load both sequencers anew. -/
def ticksLeft (s : State) : Nat := 64 * s.moves.length + (toGo s.owner + toGo s.irq)

theorem idle_of_ticksLeft {s : State} (h : ticksLeft s = 0) (q : SeqId) : (seqOf s q).busy = false := by
  have idle (c : Seq) (hc : toGo c = 0) : c.busy = false := by
    unfold toGo at hc
    split at hc
    · cases hc
    · simpa using ‹¬c.busy = true›
  unfold ticksLeft at h
  cases q
  · exact idle s.owner (by omega)
  · exact idle s.irq (by omega)

/-- A tick where something can move faults, or leaves less to do. -/
theorem tick_ticksLeft {s t : State} (hs : stalled s = false) (h : tick s = .next t) :
    faulted t = true ∨ ticksLeft t < ticksLeft s := by
  unfold tick at h
  split at h
  case h_1 m rest hm =>
    right
    have len : t.moves.length + 1 = s.moves.length := by
      rw [readyMove_moves hm, List.length_cons, takeMove_moves h]
    have := toGo_le t.owner
    have := toGo_le t.irq
    unfold ticksLeft; omega
  case h_2 hm =>
    split at h
    case h_1 q hq =>
      obtain ⟨hb, hh⟩ := turn_some hq
      have frame := seqStep_frame h
      refine (seqStep_toGo hb hh h).imp_right fun less => ?_
      unfold ticksLeft
      rw [frame.moves]
      cases q
      · have other : t.irq = s.irq := frame.other .irq (by decide)
        rw [other]
        simp only [seqOf_owner] at less
        omega
      · have other : t.owner = s.owner := frame.other .owner (by decide)
        rw [other]
        simp only [seqOf_irq] at less
        omega
    case h_2 hq => simp [stalled, hm, hq] at hs

/-! ### A drain ends by itself (R89, R90, R166) -/

/-- Where a command run ends: its sequencer idle, a fault recorded, or nothing able to move. -/
def RunEnds (q : SeqId) (t : State) : Prop := (seqOf t q).busy = false ∨ faulted t = true ∨ stalled t = true

/-- The condition on which a drain stops. -/
theorem runEnds_iff {q : SeqId} {s : State} : RunEnds q s ↔ (!(seqOf s q).busy || faulted s || stalled s) = true := by
  simp [RunEnds, or_assoc]

theorem RunEnds.drain {q : SeqId} {s t : State} {n : Nat} (he : RunEnds q s) (h : drain q n s = .next t) : t = s := by
  cases n with
  | zero => cases h; rfl
  | succ n =>
    rw [Machine.drain, if_pos (runEnds_iff.mp he)] at h
    cases h; rfl

/-- A drain with enough fuel for the ticks left ends where a run ends. -/
theorem drain_runEnds {q : SeqId} {n : Nat} {s t : State} (hn : ticksLeft s ≤ n) (h : drain q n s = .next t) : RunEnds q t := by
  induction n generalizing s with
  | zero =>
    cases h
    exact .inl (idle_of_ticksLeft (Nat.le_zero.mp hn) q)
  | succ n ih =>
    by_cases he : RunEnds q s
    · exact he.drain h ▸ he
    · rw [drain, if_neg (mt runEnds_iff.mpr he)] at h
      split at h
      case h_1 u hu =>
        have moving : stalled s = false := Bool.eq_false_iff.mpr fun hs => he (.inr (.inr hs))
        rcases tick_ticksLeft moving hu with hf | less
        · have ends : RunEnds q u := .inr (.inl hf)
          exact ends.drain h ▸ ends
        · exact ih (by omega) h
      all_goals cases h

/-- Settles O48: the fuel of a command run exceeds the ticks that the schedule and the two sequencers leave. -/
theorem commandRunsUntilItEndsOrWaits : Obligations.CommandRunsUntilItEndsOrWaits := by
  intro s t i _ hv h
  rw [exec_eq_issue, issue, hv] at h
  refine drain_runEnds ?_ h
  have := toGo_le (loadCommand s.port.seq i (encode i) s).owner
  have := toGo_le (loadCommand s.port.seq i (encode i) s).irq
  simp only [ticksLeft, drainFuel, loadCommand, setSeq_moves] at *
  omega

end Sys2Proof.Machine
end

section
/-! SUPPORT. Waiting for init mode (R90, R95, R103): an init transaction whose poll for INITF is never served. -/

namespace Sys2Proof.Machine

/-! ### A run that waits for ever (R90) -/

/-- OWNER at a poll whose condition is false, with no move that can be taken: nothing can move. -/
theorem SeqAt.stalled_of_poll {s : State} {prog : List MicroOp} {k : Nat} {r : Reg} {a b : Word} (h : SeqAt .owner s prog k)
    (hq : readyMove s = none) (hm : prog[k]? = some (.poll r a b)) (hv : ¬(readReg r s).1 &&& a = b) : stalled s = true := by
  have holds : held s .owner = true := by simp [held, h.next.trans hm, memRead_regAddr h.params, hv]
  have noTurn : Machine.turn s = none := by simp [Machine.turn, h.notFaulted, h.irqIdle rfl, holds]
  simp [stalled, hq, noTurn]

/-- Where nothing can move and no word is presented, the machine stays. -/
theorem step_of_stalled {s : State} (hp : paramsOk s.par = true) (hw : s.port.word = none) (hs : stalled s = true) :
    step s = .next s := by
  simp only [stalled, Bool.and_eq_true, Option.isNone_iff_eq_none] at hs
  obtain ⟨noMove, noTurn⟩ := hs
  rw [step_eq_tick hp hw, tick, noMove, noTurn]

/-- A state that a step keeps is kept for ever. -/
theorem core_run_of_fixed {s : State} (h : step s = .next s) (n : Nat) : core.run n s = .next s := by
  induction n with
  | zero => rfl
  | succ n ih => rw [core_run_succ (M := core) h]; exact ih

/-! ### An init transaction that waits for INITF (R95, INITWAIT) -/

/-- OWNER at the poll for INITF of its command `i`, at micro-op `pc`: the bracket open, INIT set. -/
def initWait (s : State) (i : Instr) (x : Latches) (pc : Nat) : State :=
  atPc .owner { s with owner := { loadedSeq s.owner i with x := x }, wp := .unlocked, rtcIsr := s.rtcIsr ||| bit 7 } pc

section
variable {s : State} {i : Instr}

/-- UNLOCK and INIT_ENTER up to the poll, with init mode not active and no move to come. -/
theorem Running.initRequest {prog : List MicroOp} {k : Nat} (h : Running .owner s prog) (hc : Calm s) (hs : Silent .owner s)
    (hf : initf s = false)
    (h0 : prog[k]? = some (.wr .wpr (lconst 0x000000CA#32))) (h1 : prog[k + 1]? = some (.wr .wpr (lconst 0x00000053#32)))
    (h2 : prog[k + 2]? = some (.skipIf .isr (bit 6) (bit 6) 2)) (h3 : prog[k + 3]? = some (.isrSetInit true)) :
    Leads .owner 4 (atPc .owner s k) (atPc .owner { s with wp := .unlocked, rtcIsr := s.rtcIsr ||| bit 7 } (k + 4)) := by
  let u : State := { s with wp := .unlocked }
  have hu : Running .owner u prog := h.congr rfl rfl rfl rfl fun _ => rfl
  have hsu : Silent .owner u := hs.congr rfl rfl rfl rfl fun e => e
  have requested : Calm { u with rtcIsr := s.rtcIsr ||| bit 7 } :=
    hc.isr rfl rfl rfl rfl fun n _ _ => getLsbD_or_bit_ne (by decide) (by omega)
  have unlock := h.unlock hc hs h0 h1
  have enter := hu.skipsNot hsu h2 (by decide) (by decide) (fun e => by
    rw [and_bit_eq_bit (by decide)] at e
    exact Bool.noConfusion (hf.symm.trans e))
  have request := hu.isrSetInit (t := { u with rtcIsr := s.rtcIsr ||| bit 7 }) hsu h3
    (by rw [writeIsr_setInit_true rfl]; exact requested.settle)
  exact (unlock.then enter).then request

/-- A command that opens an init transaction after `k` checks and calculations, under an empty schedule. -/
theorem exec_initWait {prog body tail : List MicroOp} {x : Latches} {k : Nat} (hr : OwnerReady s) (hmv : s.moves = [])
    (hf : initf s = false) (hv : verdict .owner (some i) s = .accept) (hg : progOf s.par (opcode i) = some prog)
    (hprog : prog.drop k = initTxn body ++ tail)
    (hpre : ∀ s', Running .owner s' prog → Silent .owner s' → s'.owner = loadedSeq s.owner i →
      Leads .owner 20 (atPc .owner s' 0) (atPc .owner { s' with owner := { s'.owner with x := x } } k)) :
    exec i s = .next (initWait s i x (k + 4)) ∧ stalled (initWait s i x (k + 4)) = true := by
  have get (j : Nat) : prog[k + j]? = (initTxn body ++ tail)[j]? := by rw [← hprog, List.getElem?_drop]
  let s0 : State := { s with owner := loadedSeq s.owner i }
  have h : Running .owner s0 prog := running_loaded hr.regs.params hr.noFault hr.irqIdle hg
  have pre := hpre s0 h (.empty hmv) rfl
  let s1 : State := { s with owner := { loadedSeq s.owner i with x := x } }
  have h1 : Running .owner s1 prog := h.congr rfl rfl rfl rfl fun _ => rfl
  have request := h1.initRequest ((hr.regs.calm hr.live).setSeq .owner _) (.empty hmv) hf (get 0) (get 1) (get 2) (get 3)
  have atPoll : SeqAt .owner (initWait s i x (k + 4)) prog (k + 4) :=
    Running.seqAt (s := { s1 with wp := .unlocked, rtcIsr := s.rtcIsr ||| bit 7 }) (h1.congr rfl rfl rfl rfl fun _ => rfl) (k + 4)
  have waits : stalled (initWait s i x (k + 4)) = true := by
    refine atPoll.stalled_of_poll (by simp [readyMove, initWait, atPc, hmv]) (get 4) ?_
    have stillOff : (s.rtcIsr ||| bit 7).getLsbD 6 = false := (getLsbD_or_bit_ne (by decide) (by decide)).trans hf
    intro e
    exact Bool.noConfusion (stillOff.symm.trans ((and_bit_eq_bit (by decide)).mp e))
  refine ⟨?_, waits⟩
  rw [exec_eq_issue]
  refine issue_of_leads (n := 24) (by rw [hr.port]; exact hv) ?_ (by decide) ?_
  · rw [hr.port, loadCommand_eq]
    exact pre.then request
  · rw [hr.port]
    exact drain_stalled waits

/-- A field setter with its operand in the domain. -/
theorem IsFieldSetter.exec_initWait {ok enc : Nat → Bool} {val : Nat → Nat} {r : Reg} {m w : Word} {n : Nat}
    (h : IsFieldSetter i ok enc val r m w n) (hr : OwnerReady s) (hc : s.constructed = true) (hmv : s.moves = [])
    (hf : initf s = false) (hd : operandsInDomain i = true) :
    ∃ x, exec i s = .next (initWait s i x 7) ∧ stalled (initWait s i x 7) = true := by
  have hok : ok n = true := h.domain ▸ hd
  exact ⟨_, Machine.exec_initWait (k := 3) hr hmv hf (hr.accepts hc h.wellFormed h.need) (h.program _) rfl fun _ hR hsil ho =>
    hR.twoChecks hsil ho rfl rfl rfl ((lx0_toNat h.operand h.value ok).trans (congrArg some hok))
      ((lx0_toNat h.operand h.value enc).trans (congrArg some (h.encodes hok)))
      (lx0_toNat h.operand h.value fun k => toWord (val k))⟩

end

/-! ### The other commands that wait there (R130, R131, R135) -/

/-- A run of checks that all answer true. -/
theorem Running.checksPass {q : SeqId} {s : State} {prog : List MicroOp} {k : Nat} {cs : List (LExpr Bool)} {bs : List Bool}
    (h : Running q s prog) (hs : Silent q s) (hp : ∀ j, j < cs.length → prog[k + j]? = cs[j]?.map .check)
    (hx : cs.map (fun c => c (seqOf s q).x) = bs.map some) (hb : ∀ b ∈ bs, b = true) :
    Leads q cs.length (atPc q s k) (atPc q s (k + cs.length)) := by
  refine h.checksHold hs cs.length fun j hj => ⟨cs[j], by rw [hp j hj, List.getElem?_eq_getElem hj]; rfl, ?_⟩
  have answer : cs[j] (seqOf s q).x ∈ bs.map some := hx ▸ List.mem_map_of_mem (List.getElem_mem hj)
  obtain ⟨b, hmem, e⟩ := List.mem_map.mp answer
  rw [← e, hb b hmem]

section
variable {s : State} (hr : OwnerReady s) (hc : s.constructed = true) (hmv : s.moves = []) (hf : initf s = false)
include hr hc hmv hf

theorem exec_setPrescalers_initWait (sync : BitVec 16) (async : BitVec 8) :
    ∃ x, exec (.setPrescalers sync async) s = .next (initWait s (.setPrescalers sync async) x 4) ∧
      stalled (initWait s (.setPrescalers sync async) x 4) = true := by
  refine ⟨loadedLatches (.setPrescalers sync async), exec_initWait (k := 0) (body := prerWrite s.par) (tail := [.done]) hr hmv hf
    (hr.accepts hc rfl rfl) rfl rfl fun s' _ _ ho => ?_⟩
  have e : { s' with owner := { s'.owner with x := loadedLatches (.setPrescalers sync async) } } = s' := by
    rw [show loadedLatches (.setPrescalers sync async) = s'.owner.x by rw [ho]; rfl]
  rw [e]
  exact (Leads.refl _ _).mono (by decide)

theorem exec_setDate_initWait {y : BitVec 16} {m d : BitVec 8} (hd : DateOk y.toNat m.toNat d.toNat) :
    ∃ x, exec (.setDate y m d) s = .next (initWait s (.setDate y m d) x 10) ∧
      stalled (initWait s (.setDate y m d) x 10) = true := by
  let i : Instr := .setDate y m d
  let date : Word := toWord (dateWord y.toNat m.toNat d.toNat)
  refine ⟨{ loadedLatches i with x6 := some date }, exec_initWait (k := 6) (body := [.wr .dr (lx6 id)]) (tail := [.done])
    hr hmv hf (hr.accepts hc rfl rfl) rfl rfl fun s' hR hsil ho => ?_⟩
  have hx : s'.owner.x = loadedLatches i := by rw [ho]; rfl
  have checks := hR.checksPass (k := 0) (cs := setDateChecks) hsil (fun j hj => by change j < 5 at hj; interval_cases j <;> rfl)
    (by rw [seqOf_owner, hx]; exact setDateChecks_answer y m d) (by simp [hd.year, hd.month, hd.day, hd.inMonth, hd.encodes])
  have calcDate := hR.calc (k := 5) (v := date) hsil rfl
    (by simp only [lx012, loadedLatches, i, date, seqOf_owner, hx, zext8, zext16])
  simp only [seqOf_owner, setSeq_owner, hx] at calcDate
  exact (checks.then calcDate).mono (by decide)

theorem exec_setDatetime_initWait {y : BitVec 16} {m d h mi sec : BitVec 8} (hd : DateOk y.toNat m.toNat d.toNat)
    (ht : TimeOk h.toNat mi.toNat sec.toNat) :
    ∃ x, exec (.setDatetime y m d h mi sec) s = .next (initWait s (.setDatetime y m d h mi sec) x 14) ∧
      stalled (initWait s (.setDatetime y m d h mi sec) x 14) = true := by
  let i : Instr := .setDatetime y m d h mi sec
  let date : Word := toWord (dateWord y.toNat m.toNat d.toNat)
  let time : Word := toWord (timeWord h.toNat mi.toNat sec.toNat)
  let xd : Latches := { loadedLatches i with x6 := some date }
  refine ⟨{ xd with x7 := some time }, exec_initWait (k := 10) (body := [.wr .dr (lx6 id), .wr .tr (lx7 id)]) (tail := [.done])
    hr hmv hf (hr.accepts hc rfl rfl) rfl rfl fun s' hR hsil ho => ?_⟩
  have hx : s'.owner.x = loadedLatches i := by rw [ho]; rfl
  have checks := hR.checksPass (k := 0) (cs := setDatetimeChecks) hsil
    (fun j hj => by change j < 8 at hj; interval_cases j <;> rfl)
    (by rw [seqOf_owner, hx]; exact setDatetimeChecks_answer y m d h mi sec) (by
      have he := ht.encodes
      simp only [Bool.and_eq_true] at he
      simp [hd.year, hd.month, hd.day, hd.inMonth, hd.encodes, ht.hour, ht.minute, ht.second, he])
  have calcDate := hR.calc (k := 8) (v := date) hsil rfl
    (by simp only [lx012, loadedLatches, i, date, seqOf_owner, hx, zext8, zext16])
  simp only [seqOf_owner, setSeq_owner, hx] at calcDate
  have calcTime := Running.calc (s := { s' with owner := { s'.owner with x := xd } }) (k := 9) (v := time)
    (hR.congr rfl rfl rfl rfl fun _ => rfl) (hsil.congr rfl rfl rfl rfl fun e => e) rfl
    (by simp only [lx05, loadedLatches, i, xd, time, seqOf_owner, zext8])
  exact ((checks.then calcDate).then calcTime).mono (by decide)

/-- Every command that opens an init transaction at once after its checks waits there, its operands in their domains. -/
theorem exec_initWaitPc {i : Instr} {k : Nat} (hk : initWaitPc i = some k) (hd : operandsInDomain i = true) :
    ∃ x, exec i s = .next (initWait s i x k) ∧ stalled (initWait s i x k) = true := by
  have field (h7 : initWaitPc i = some 7) : ∃ x, exec i s = .next (initWait s i x 7) ∧ stalled (initWait s i x 7) = true := by
    obtain ⟨ok, enc, val, r, m, w, n, h⟩ := isFieldSetter_of_initWaitPc h7
    exact h.exec_initWait hr hc hmv hf hd
  cases i <;> cases hk
  case setSeconds | setMinutes | setHours | setWeekday | setDay | setMonth | setYear => exact field rfl
  case setDate y m d =>
    obtain ⟨hy, hy', hm, hm', hdd, hdd'⟩ := of_decide_eq_true hd
    exact exec_setDate_initWait hr hc hmv hf (dateOk_of hy hy' hm hm' hdd hdd')
  case setDatetime y m d h mi sec =>
    obtain ⟨hy, hy', hm, hm', hdd, hdd', hh, hmi, hs⟩ := of_decide_eq_true hd
    exact exec_setDatetime_initWait hr hc hmv hf (dateOk_of hy hy' hm hm' hdd hdd') (timeOk_of hh hmi hs)
  case setPrescalers sync async => exact exec_setPrescalers_initWait hr hc hmv hf sync async

end

/-- Settles O49: the command stops at its poll for INITF, where nothing can move, so that no later step changes anything. -/
theorem setterWaitsForInitf : Obligations.SetterWaitsForInitf := by
  intro s i k hr hc hmv hport hf hk hd
  obtain ⟨x, hex, waits⟩ := exec_initWaitPc hr hc hmv hf hk hd
  exact ⟨_, hex, rfl, rfl, rfl, rfl, rfl, rfl, rfl, rfl, rfl,
    core_run_of_fixed (step_of_stalled hr.regs.params hport waits)⟩

end Sys2Proof.Machine
end

section
/-! SUPPORT. Construction (R32, R106) and INITF (R39, R174) along a tick: what one tick and one micro-op can do, said once, and
what each of these does to the two. -/

namespace Sys2Proof.Machine

/-! ### What one tick can do (R167) -/

/-- What a tick from `s` to `t` was: nothing, a micro-op of the sequencer whose turn it is (the schedule may have named it), or
the first move of the schedule, which is none of a sequencer. -/
inductive TickStep (s t : State) : Prop where
  | still (same : t = s)
  | micro (q : SeqId) (ms : List Move) (u : State) (hturn : turn s = some q) (hstep : seqStep q s = .next u)
      (result : t = withMoves ms u)
  | move (m : Move) (rest : List Move) (head : s.moves = m :: rest) (enabled : moveEnabled m s = true)
      (other : ∀ q, m ≠ .micro q) (taken : takeMove m (withMoves rest s) = .next t)

/-- A step of a sequencer under another schedule, taken back to the present one. -/
theorem seqStep_of_withMoves {q : SeqId} {ms : List Move} {s t : State} (h : seqStep q (withMoves ms s) = .next t) :
    ∃ u, seqStep q s = .next u ∧ t = withMoves ms u := by
  rw [seqStep_withMoves] at h
  cases e : seqStep q s <;> rw [e] at h <;> cases h
  exact ⟨_, rfl, rfl⟩

theorem readyMove_enabled {s : State} {m : Move} {rest : List Move} (h : readyMove s = some (m, rest)) :
    moveEnabled m s = true := by
  unfold readyMove at h
  split at h
  · cases h
  · split at h <;> cases h
    assumption

theorem tickStep_of_tick {s t : State} (h : tick s = .next t) : TickStep s t := by
  unfold tick at h
  split at h
  case h_1 m rest hm =>
    by_cases hq : ∃ q, m = .micro q
    · obtain ⟨q, rfl⟩ := hq
      obtain ⟨u, hu, rfl⟩ := seqStep_of_withMoves h
      exact .micro q rest u (beq_iff_eq.mp (readyMove_enabled hm)) hu rfl
    · exact .move m rest (readyMove_moves hm) (readyMove_enabled hm) (not_exists.mp hq) h
  case h_2 =>
    split at h
    case h_1 q hq => exact .micro q t.moves t hq h rfl
    case h_2 => cases h; exact .still rfl

/-! ### What one micro-op can do (R88) -/

/-- The registers after the bus accesses of one micro-op: none, a read, a write, or a write after a read. -/
inductive RegAccess (s : State) : State → Prop where
  | none : RegAccess s s
  | read (r : Reg) : RegAccess s (readReg r s).2
  | write (r : Reg) (v : Word) : RegAccess s (settle (writeReg r v s))
  | readWrite (r r' : Reg) (v : Word) : RegAccess s (settle (writeReg r' v (readReg r s).2))

/-- What a step of sequencer `q` does: its register accesses and then a change of its own state, a fault, or construction. -/
inductive StepEffect (q : SeqId) (s : State) : State → Prop where
  | access {u : State} (c : Seq) (acc : RegAccess s u) : StepEffect q s (setSeq u q c)
  | fault (code : FaultCode) : StepEffect q s (raiseFault q code s)
  | construct (src : ClkSrc) (c : Seq) (hnext : nextMicroOp s q = some (.construct src)) :
      StepEffect q s (setSeq { s with constructed := true, clkSrc := some src } q c)

theorem RegAccess.of_memRead {s u : State} {a v : Word} (h : memRead a s = some (v, u)) : RegAccess s u := by
  simp only [memRead, Option.map_eq_some_iff] at h
  obtain ⟨r, -, h⟩ := h
  rw [show u = (readReg r s).2 by rw [h]]
  exact .read r

theorem RegAccess.of_memWrite {s u : State} {a v : Word} (h : memWrite a v s = some u) : RegAccess s u := by
  simp only [memWrite, Option.map_eq_some_iff] at h
  obtain ⟨r, -, rfl⟩ := h
  exact .write r v

theorem RegAccess.of_memReadWrite {s u w : State} {a b v x : Word} (hr : memRead a s = some (v, u))
    (hw : memWrite b x u = some w) : RegAccess s w := by
  simp only [memRead, memWrite, Option.map_eq_some_iff] at hr hw
  obtain ⟨r, -, hr⟩ := hr
  obtain ⟨r', -, rfl⟩ := hw
  rw [show u = (readReg r s).2 by rw [hr]]
  exact .readWrite r r' x

theorem runMicroOp_effect {q : SeqId} {m : MicroOp} {s t : State} (hm : nextMicroOp s q = some m)
    (h : runMicroOp q m s = .next t) : StepEffect q s t := by
  match m, hm, h with
  | .check c, _, h =>
    simp only [runMicroOp] at h
    obtain ⟨ok, -, h⟩ := withValue_next h
    cases h
    cases ok <;> exact .access _ .none
  | .calc i e, _, h =>
    simp only [runMicroOp] at h
    obtain ⟨v, -, h⟩ := withValue_next h
    cases h
    exact .access _ .none
  | .wr r e, _, h =>
    simp only [runMicroOp] at h
    obtain ⟨v, -, h⟩ := withValue_next h
    obtain ⟨u, hu, h⟩ := withWrite_next h
    cases h
    exact .access _ (.of_memWrite hu)
  | .rd i r, _, h =>
    simp only [runMicroOp] at h
    obtain ⟨v, u, hu, h⟩ := withRead_next h
    cases h
    exact .access _ (.of_memRead hu)
  | .rmw r em ev, _, h =>
    simp only [runMicroOp] at h
    obtain ⟨m, -, h⟩ := withValue_next h
    obtain ⟨v, -, h⟩ := withValue_next h
    obtain ⟨old, u, hu, h⟩ := withRead_next h
    obtain ⟨w, hw, h⟩ := withWrite_next h
    cases h
    exact .access _ (.of_memReadWrite hu hw)
  | .isrSetInit b, _, h =>
    simp only [runMicroOp] at h
    obtain ⟨u, hu, h⟩ := withWrite_next h
    cases h
    exact .access _ (.of_memWrite hu)
  | .isrClr e, _, h =>
    simp only [runMicroOp] at h
    obtain ⟨m, -, h⟩ := withValue_next h
    obtain ⟨old, u, hu, h⟩ := withRead_next h
    obtain ⟨w, hw, h⟩ := withWrite_next h
    cases h
    exact .access _ (.of_memReadWrite hu hw)
  | .poll r a b, _, h =>
    simp only [runMicroOp] at h
    obtain ⟨v, u, hu, h⟩ := withRead_next h
    cases h
    split
    · exact .access _ (.of_memRead hu)
    · have still : StepEffect q s (setSeq s q (seqOf s q)) := .access _ .none
      rwa [setSeq_seqOf] at still
  | .skipIf r a b n, _, h =>
    simp only [runMicroOp] at h
    obtain ⟨v, u, hu, h⟩ := withRead_next h
    cases h
    exact .access _ (.of_memRead hu)
  | .faultIf c code, _, h =>
    simp only [runMicroOp] at h
    obtain ⟨bad, -, h⟩ := withValue_next h
    cases h
    cases bad
    · exact .access _ .none
    · exact .fault code
  | .res e, _, h =>
    simp only [runMicroOp] at h
    obtain ⟨v, -, h⟩ := withValue_next h
    cases h
    exact .access _ .none
  | .construct src, hm, h =>
    simp only [runMicroOp] at h
    cases h
    exact .construct src _ hm
  | .done, _, h =>
    simp only [runMicroOp] at h
    cases h
    exact .access _ .none

theorem seqStep_effect {q : SeqId} {s t : State} (h : seqStep q s = .next t) : StepEffect q s t := by
  unfold seqStep at h
  split at h
  case h_1 => cases h
  case h_2 prog hp =>
    split at h
    case h_1 m hm => exact runMicroOp_effect (by simp [nextMicroOp, hp, hm]) h
    case h_2 => cases h; exact .access _ .none

/-! ### Construction (R32, R106) -/

theorem RegAccess.constructed {s u : State} (h : RegAccess s u) : u.constructed = s.constructed := by
  cases h <;> simp

@[simp] theorem presentWord_constructed (q : SeqId) (w : Cmd) (s : State) :
    (presentWord q w s).constructed = s.constructed := by
  unfold presentWord
  split
  · exact setSeq_constructed _ _ _
  · rfl
  · rfl

@[simp] theorem envStep_constructed (d : Draw) (s : State) : (envStep d s).constructed = s.constructed := by
  rw [envStep, settle_constructed]; cases d <;> rfl

/-- A move that is not a sequencer's leaves construction as it is or resets it (R51). -/
theorem takeMove_constructed {m : Move} {s t : State} (hm : ∀ q, m ≠ .micro q) (h : takeMove m s = .next t) :
    t.constructed = s.constructed ∨ t.constructed = false := by
  cases m <;> simp only [takeMove, Host.Outcome.next.injEq] at h
  case micro q => exact absurd rfl (hm q)
  case present q w => subst h; exact .inl (presentWord_constructed q w s)
  case await | hostRead => subst h; exact .inl rfl
  case env d => subst h; exact .inl (envStep_constructed d s)
  case blockReset => subst h; exact .inr rfl
  case systemReset d => subst h; exact .inr (settle_constructed _)
  case powerOn d => subst h; exact .inr (settle_constructed _)

/-- A step that turns construction on is a `CONSTRUCT`, and the clock source is its operand. -/
theorem StepEffect.construct_of_turned {q : SeqId} {s t : State} (h : StepEffect q s t) (hs : s.constructed = false)
    (ht : t.constructed = true) : ∃ src, nextMicroOp s q = some (.construct src) ∧ t.clkSrc = some src := by
  cases h with
  | access c acc => rw [setSeq_constructed, acc.constructed, hs] at ht; cases ht
  | fault code =>
    have same : s.constructed = true := ht
    rw [hs] at same; cases same
  | construct src c hnext => exact ⟨src, hnext, setSeq_clkSrc _ _ _⟩

/-- The clock source that a micro-op records, if any. -/
def MicroOp.source : MicroOp → Option ClkSrc
  | .construct src => some src
  | _ => none

/-- The clock sources that a micro-program records are those of the two bring-ups (R110, R111). -/
theorem progOf_sources {p : Params} {op : Byte} {prog : List MicroOp} (h : progOf p op = some prog) {src : ClkSrc}
    (hs : src ∈ prog.filterMap MicroOp.source) : (op = 0x40#8 ∧ src = .lse) ∨ (op = 0x41#8 ∧ src = .lsi) := by
  unfold progOf at h
  split at h <;> cases h
  case h_22 hop => exact .inl ⟨BitVec.eq_of_toNat_eq hop, List.mem_singleton.mp hs⟩
  case h_23 hop => exact .inr ⟨BitVec.eq_of_toNat_eq hop, List.mem_singleton.mp hs⟩
  all_goals exact absurd hs List.not_mem_nil

theorem construct_opcode {q : SeqId} {s : State} {src : ClkSrc} (h : nextMicroOp s q = some (.construct src)) :
    ((seqOf s q).op = 0x40#8 ∧ src = .lse) ∨ ((seqOf s q).op = 0x41#8 ∧ src = .lsi) := by
  obtain ⟨prog, hp, hm⟩ := Option.bind_eq_some_iff.mp h
  exact progOf_sources hp (List.mem_filterMap.mpr ⟨_, List.mem_of_getElem? hm, rfl⟩)

/-- A sound IRQ sequencer has only the commands of its context in flight (R164). -/
theorem SeqOk.irq_opcode {p : Params} {c : Seq} (h : SeqOk p .irq c) (hb : c.busy = true) : c.op.toNat ∈ irqOpcodes := by
  obtain ⟨i, prog, flight⟩ := h.flight hb
  rw [flight.op]
  exact of_decide_eq_true ((contextAllows_irq i).symm.trans flight.context)

/-- What acceptance says of a command: its context and its construction need (R74). -/
theorem verdict_accept {q : SeqId} {s : State} {i : Instr} (h : verdict q (some i) s = .accept) :
    contextAllows q i = true ∧ constructionVerdict (needOf i) s = .accept := by
  unfold verdict at h
  dsimp only at h
  split_ifs at h with marked busy illegal context
  exact ⟨by simpa using context, h⟩

/-- A command that only OWNER may issue, before construction. -/
theorem accept_owner_unconstructed {q : SeqId} {s : State} {i : Instr} (hc : contextAllows .irq i = false)
    (hn : needOf i = .notConstructed) (h : verdict q (some i) s = .accept) : q = .owner ∧ s.constructed = false := by
  obtain ⟨context, need⟩ := verdict_accept h
  constructor
  · cases q
    · rfl
    · rw [hc] at context; cases context
  · cases e : s.constructed
    · rfl
    · simp [constructionVerdict, hn, e] at need

/-- Settles O10: of all that a tick can do only a `CONSTRUCT` turns construction on; it stands in the two bring-ups, whose opcodes
are none of those that a sound IRQ sequencer has in flight. -/
theorem onlyBringupConstructs : Obligations.OnlyBringupConstructs := by
  refine ⟨fun s t hok h hs ht => ?_, fun q s bypass sync async =>
    ⟨accept_owner_unconstructed rfl rfl, accept_owner_unconstructed rfl rfl⟩⟩
  cases tickStep_of_tick h with
  | still same => rw [same, hs] at ht; cases ht
  | move m rest head enabled other taken =>
    rcases takeMove_constructed other taken with same | reset
    · rw [same] at ht; exact absurd (hs.symm.trans ht) Bool.false_ne_true
    · rw [reset] at ht; cases ht
  | micro q ms u hturn hstep result =>
    subst result
    obtain ⟨src, hnext, clock⟩ := (seqStep_effect hstep).construct_of_turned hs ht
    have busy := (turn_some hturn).1
    have opcode := construct_opcode hnext
    cases q with
    | owner => exact ⟨busy, opcode.imp (fun ⟨op, e⟩ => ⟨op, e ▸ clock⟩) (fun ⟨op, e⟩ => ⟨op, e ▸ clock⟩)⟩
    | irq =>
      have allowed := hok.irq.irq_opcode busy
      rcases opcode with ⟨op, -⟩ | ⟨op, -⟩ <;> rw [seqOf_irq] at op <;> rw [op] at allowed
      · exact absurd allowed (by decide)
      · exact absurd allowed (by decide)

/-! ### INITF (R39, R174) -/

@[simp] theorem initf_setSeq (s : State) (q : SeqId) (c : Seq) : initf (setSeq s q c) = initf s := by simp [initf]
@[simp] theorem domainHeld_setSeq (s : State) (q : SeqId) (c : Seq) : domainHeld (setSeq s q c) = domainHeld s := by
  simp [domainHeld]
@[simp] theorem initf_readReg (r : Reg) (s : State) : initf (readReg r s).2 = initf s := by cases r <;> rfl

/-- RTC_ISR is written by its own register only. -/
theorem writeReg_rtcIsr {r : Reg} (h : r ≠ .isr) (v : Word) (s : State) : (writeReg r v s).rtcIsr = s.rtcIsr := by
  cases r
  case isr => exact absurd rfl h
  all_goals
    simp only [writeReg, writeTr, writeDr, writeCr, writePrer, writeWutr, writeWpr, writeSwier, writePr, writePwrCr, writeCsr]
      <;> (try split) <;> rfl

/-- INITF is neither an rc_w0 flag nor INIT, so no write changes it (R39, R42). -/
@[simp] theorem initf_writeReg (r : Reg) (v : Word) (s : State) : initf (writeReg r v s) = initf s := by
  by_cases hr : r = .isr
  · subst hr
    have kept : (isrClearable s).getLsbD 6 = false := by
      rw [← and_mask_id (isrClearable_inside s), BitVec.getLsbD_and, show isrKeep.getLsbD 6 = false by decide, Bool.and_false]
    have cleared : (s.rtcIsr &&& ~~~(isrClearable s &&& ~~~v)).getLsbD 6 = s.rtcIsr.getLsbD 6 := by
      rw [BitVec.getLsbD_and, BitVec.getLsbD_not, BitVec.getLsbD_and, kept]
      simp
    simp only [initf, writeReg, writeIsr]
    split
    · rw [blend_bit_other (by decide) (by decide), cleared]
    · exact cleared
  · rw [initf, writeReg_rtcIsr hr, initf]

/-- What settles keeps INITF, or ends with the backup domain held in reset (R107). -/
theorem initf_settle {s : State} (hp : paramsOk s.par = true) : initf (settle s) = initf s ∨ domainHeld (settle s) = true := by
  cases hd : domainHeld s with
  | false => rw [settle_of_live hd]; exact .inl rfl
  | true =>
    right
    rw [settle, holdDomain, if_pos hd]
    exact (domainHeld_backup hp).trans hd

theorem RegAccess.initf {s u : State} (hp : paramsOk s.par = true) (h : RegAccess s u) :
    initf u = initf s ∨ domainHeld u = true := by
  cases h with
  | none => exact .inl rfl
  | read r => exact .inl (initf_readReg r s)
  | write r v => simpa using initf_settle (s := writeReg r v s) (by simpa using hp)
  | readWrite r r' v => simpa using initf_settle (s := writeReg r' v (readReg r s).2) (by simpa using hp)

theorem StepEffect.initf {q : SeqId} {s t : State} (hp : paramsOk s.par = true) (h : StepEffect q s t) :
    initf t = initf s ∨ domainHeld t = true := by
  cases h with
  | access c acc => simpa using acc.initf hp
  | fault code => exact .inl rfl
  | construct src c hnext => exact .inl (initf_setSeq _ q c)

@[simp] theorem initf_presentWord (q : SeqId) (w : Cmd) (s : State) : initf (presentWord q w s) = initf s := by
  unfold presentWord
  split
  · exact initf_setSeq _ _ _
  · rfl
  · rfl

/-- A draw other than the two of R174 leaves INITF alone. -/
theorem initf_drawEffect {d : Draw} (hset : d ≠ .initfSet) (hclear : d ≠ .initfClear) (s : State) :
    initf (drawEffect d s) = initf s := by
  cases d
  case initfSet => exact absurd rfl hset
  case initfClear => exact absurd rfl hclear
  case calendarTick | lserdySet | lserdyClear | lsirdySet | lsirdyClear => rfl
  case wutwfClear => exact getLsbD_andNot_bit_ne (by decide) (by decide) (by decide)
  all_goals exact getLsbD_or_bit_ne (by decide) (by decide)

/-- A move that is no micro-op, no draw of R174 and no power-on. -/
theorem takeMove_initf {m : Move} {s t : State} (hp : paramsOk s.par = true) (hm : ∀ q, m ≠ .micro q)
    (hset : m ≠ .env .initfSet) (hclear : m ≠ .env .initfClear) (hpower : ∀ d, m ≠ .powerOn d)
    (h : takeMove m s = .next t) : initf t = initf s ∨ domainHeld t = true := by
  cases m <;> simp only [takeMove, Host.Outcome.next.injEq] at h
  case micro q => exact absurd rfl (hm q)
  case powerOn d => exact absurd rfl (hpower d)
  case present q w => subst h; exact .inl (initf_presentWord q w s)
  case await | hostRead | blockReset => subst h; exact .inl rfl
  case env d =>
    subst h
    have drawn := initf_drawEffect (fun e => hset (congrArg _ e)) (fun e => hclear (congrArg _ e)) s
    rw [← drawn]
    exact initf_settle (by simpa using hp)
  case systemReset d => subst h; exact initf_settle hp

/-- Settles O22: micro-ops, presentations, the other draws and the resets that keep the backup domain keep INITF, or end with the
domain held in reset. -/
theorem initfChangesOnlyByItsDraws : Obligations.InitfChangesOnlyByItsDraws := by
  intro s t hok h changed
  have hp := hok.regs.params
  have heldAfter (kept : initf t = initf s ∨ domainHeld t = true) : domainHeld t = true := kept.resolve_left changed
  cases tickStep_of_tick h with
  | still same => exact absurd (congrArg initf same) changed
  | micro q ms u hturn hstep result =>
    subst result
    have kept : initf u = initf s ∨ domainHeld u = true := (seqStep_effect hstep).initf hp
    exact .inr (.inr (.inl (heldAfter kept)))
  | move m rest head enabled other taken =>
    by_cases hset : m = .env .initfSet
    · subst hset
      have cond : initBit s = true ∧ initf s = false := by simpa [moveEnabled, drawEnabled] using enabled
      exact .inl ⟨rest, head, cond⟩
    by_cases hclear : m = .env .initfClear
    · subst hclear
      have cond : initBit s = false ∧ initf s = true := by simpa [moveEnabled, drawEnabled] using enabled
      exact .inr (.inl ⟨rest, head, cond⟩)
    by_cases hpower : ∃ d, m = .powerOn d
    · obtain ⟨d, rfl⟩ := hpower
      exact .inr (.inr (.inr ⟨d, rest, head⟩))
    · exact .inr (.inr (.inl (heldAfter
        (takeMove_initf (s := withMoves rest s) hp other hset hclear (not_exists.mp hpower) taken))))

end Sys2Proof.Machine
end

section
/-! SUPPORT. The codec commands in either context (R137, R138): what their checks and results are on the loaded latches, and
their runs. -/

namespace Sys2Proof.Machine

@[simp] theorem zext4 (v : BitVec 4) : (v.setWidth 32).toNat = v.toNat := by
  rw [BitVec.toNat_setWidth]; exact Nat.mod_eq_of_lt (by have := v.isLt; omega)

/-- A sequencer ready for a command stays so under any idle state of its own. -/
theorem ContextReady.setSeq {q : SeqId} {s : State} {c : Seq} (h : ContextReady q s) (hc : c.busy = false) :
    ContextReady q (Machine.setSeq s q c) where
  regs := h.regs.congr (by cases q <;> rfl)
  noFault := by simpa using h.noFault
  noRefusal := by simpa using h.noRefusal
  port := by simpa using h.port
  idle := by simpa using hc
  irqIdle := by
    cases q with
    | owner => exact h.irqIdle
    | irq => exact hc

/-- `RES`, then `END`: the command completes with that result. -/
theorem Running.resThenDone {q : SeqId} {s : State} {prog : List MicroOp} {k : Nat} {e : LExpr (BitVec 64)} {r : BitVec 64}
    (h : Running q s prog) (hs : Silent q s) (h0 : prog[k]? = some (.res e)) (h1 : prog[k + 1]? = some .done)
    (he : e (seqOf s q).x = some r) :
    Leads q 2 (atPc q s k) (complete q 0x00#8 (atPc q (Machine.setSeq s q { seqOf s q with res := r }) (k + 1))) :=
  (h.resOp hs h0 he).then (Running.done
    (h.congr (by simp) (by simp) (by simp) (by simp) fun e => by subst e; rfl)
    (hs.congr (by simp) (by simp) (by simp) (by simp) (by simp)) h1)

/-- A value inside the domain of its field passes the check of BCD_ENCODE (R137, R115). -/
theorem encodeCheck_holds {f : BitVec 3} {v : BitVec 8} (hf : f ≠ 7#3) (h : operandsInDomain (.bcdEncode f v) = true) :
    encodeCheck (loadedLatches (.bcdEncode f v)) = some true := by
  have fields : ∀ f : BitVec 3, f ≠ 7#3 →
      f = 0#3 ∨ f = 1#3 ∨ f = 2#3 ∨ f = 3#3 ∨ f = 4#3 ∨ f = 5#3 ∨ f = 6#3 := by decide
  rcases fields f hf with rfl | rfl | rfl | rfl | rfl | rfl | rfl <;>
    simp [operandsInDomain, encodeCheck, loadedLatches, tensWidth, unitsWidth, encOk] at h ⊢ <;> omega

theorem wellFormed_bcdEncode {f : BitVec 3} (v : BitVec 8) (hf : f ≠ 7#3) : (Instr.bcdEncode f v).wellFormed = true := by
  simpa [Instr.wellFormed, fieldSelectDefined] using hf

section
variable {q : SeqId} {s : State} (hr : ContextReady q s) (hw : Waits q s.moves)
include hr hw

/-- A command of either context whose run, the schedule silent, reaches a `RES` and `END` with its latches as loaded. -/
theorem exec_result {i : Instr} {prog : List MicroOp} {e : LExpr (BitVec 64)} {r : BitVec 64} {k n : Nat}
    (hv : verdict q (some i) s = .accept) (hg : progOf s.par (opcode i) = some prog) (hn : n ≤ 190)
    (h0 : prog[k]? = some (.res e)) (h1 : prog[k + 1]? = some .done) (he : e (loadedLatches i) = some r)
    (h : Running q (setSeq s q (loadedSeq (seqOf s q) i)) prog → Silent q (setSeq s q (loadedSeq (seqOf s q) i)) →
      Leads q n (atPc q (setSeq s q (loadedSeq (seqOf s q) i)) 0) (atPc q (setSeq s q (loadedSeq (seqOf s q) i)) k)) :
    ∃ c, Finished c i 0x00#8 r ∧ exec i s = .next (setSeq s q c) := by
  refine ⟨{ loadedSeq (seqOf s q) i with res := r, pc := k + 2, status := 0x00#8, busy := false },
    ⟨rfl, rfl, rfl, rfl, rfl⟩, ?_⟩
  rw [exec_eq_issue]
  refine issue_of_run (n := n + 2) hr hw hv hg (by omega) (fun hR hs => ?_) (.inl (by simp))
  have result := hR.resThenDone hs h0 h1 (by rw [seqOf_setSeq_self]; exact he)
  simpa [complete, atPc] using (h hR hs).then result

/-- BCD_ENCODE of a value that fits its field (R137). -/
theorem exec_bcdEncode {f : BitVec 3} {v : BitVec 8} (hf : f ≠ 7#3) (h : operandsInDomain (.bcdEncode f v) = true) :
    ∃ c, Finished c (.bcdEncode f v) 0x00#8 (BitVec.ofNat 64 (bcdPair v.toNat)) ∧
      exec (.bcdEncode f v) s = .next (setSeq s q c) :=
  exec_result (k := 1) (n := 1) hr hw (hr.accepts (wellFormed_bcdEncode v hf) (by cases q <;> rfl) rfl) rfl (by decide) rfl rfl
    (lx0_toNat rfl (zext8 v) fun n => BitVec.ofNat 64 (bcdPair n)) fun hR hs =>
    hR.check hs rfl (by rw [seqOf_setSeq_self]; exact encodeCheck_holds hf h)

/-- BCD_ENCODE of a value that does not (R137, R115). -/
theorem exec_bcdEncode_fails {f : BitVec 3} {v : BitVec 8} (h : operandsInDomain (.bcdEncode f v) = false) :
    ∃ c, Finished c (.bcdEncode f v) 0x01#8 (seqOf s q).res ∧ exec (.bcdEncode f v) s = .next (setSeq s q c) := by
  obtain ⟨hf, bad⟩ := encodeCheck_fails h
  rw [exec_eq_issue]
  exact issue_checksFail hr.port hr.regs.params hr.noFault hr.irqIdle hw
    (hr.accepts (wellFormed_bcdEncode v hf) (by cases q <;> rfl) rfl) rfl [encodeCheck] (by decide)
    (fun j hj => by obtain rfl : j = 0 := Nat.lt_one_iff.mp hj; rfl)
    (fun c hc => by obtain rfl := List.mem_singleton.mp hc; exact ⟨false, bad⟩)
    ⟨_, List.mem_singleton_self _, bad⟩

/-- BCD_DECODE of any digits (R138). -/
theorem exec_bcdDecode (t u : BitVec 4) :
    ∃ c, Finished c (.bcdDecode t u) 0x00#8 (BitVec.ofNat 64 (dec t.toNat u.toNat)) ∧
      exec (.bcdDecode t u) s = .next (setSeq s q c) :=
  exec_result (k := 0) (n := 0) hr hw (hr.accepts rfl (by cases q <;> rfl) rfl) rfl (by decide) rfl rfl
    (by simp only [loadedLatches, lx01, zext4]) fun _ _ => Leads.refl _ _

end

/-- Settles O33: the check of BCD_ENCODE answers as its field's domain says; the results are the codec's functions. -/
theorem codecCommandsComplete : Obligations.CodecCommandsComplete := fun _ _ _ _ t u hr hw hf =>
  ⟨exec_bcdEncode hr hw hf, exec_bcdEncode_fails hr hw, exec_bcdDecode hr hw t u⟩

/-- The nibbles of the pair of digits are its digits (R116, R117). -/
theorem dec_nibbles_bcdPair {n : Nat} (hn : n ≤ 99) :
    dec ((BitVec.ofNat 64 (bcdPair n)).extractLsb' 4 4).toNat ((BitVec.ofNat 64 (bcdPair n)).extractLsb' 0 4).toNat = n := by
  simp only [dec, bcdPair, BitVec.extractLsb'_toNat, BitVec.toNat_ofNat, Nat.shiftRight_eq_div_pow]
  omega

/-- Settles O34: BCD_ENCODE changes its own sequencer only, so BCD_DECODE runs from a ready context on the digits it left. -/
theorem bcdRoundTrip : Obligations.BcdRoundTrip := by
  intro q s n hr hw hn
  obtain ⟨c, hc, encoded⟩ := exec_bcdEncode (f := 6) (v := n) hr hw (by decide) (decide_eq_true hn)
  obtain ⟨d, hd, decoded⟩ := exec_bcdDecode (hr.setSeq hc.idle) (by simpa using hw)
    (c.res.extractLsb' 4 4) (c.res.extractLsb' 0 4)
  refine ⟨_, _, encoded, by rw [seqOf_setSeq_self]; exact decoded, ?_⟩
  rw [seqOf_setSeq_self, hd.res, hc.res, dec_nibbles_bcdPair hn, BitVec.toNat_ofNat]
  exact Nat.mod_eq_of_lt (by omega)

end Sys2Proof.Machine
end

section
/-! SUPPORT. The snapshot of GET_DATETIME (R132, R133): what its calculations read off the two registers, its run up to the
result, and the date and time that a combined setter wrote read back (R134). -/

namespace Sys2Proof.Machine

/-! ### Every step keeps the registers sound -/

theorem tick_regs {s t : State} (h : tick s = .next t) (hr : RegsOk s) : RegsOk t := by
  unfold tick at h
  split at h
  · exact takeMove_regs (hr.congr rfl) h
  · split at h
    · exact (seqStep_frame h).regs hr
    · cases h; exact hr

theorem exec_regs {i : Instr} {s t : State} (hr : RegsOk s) (h : exec i s = .next t) : RegsOk t := by
  rw [exec_eq_issue, issue] at h
  split at h
  · cases h; exact hr
  · cases h; exact hr.congr rfl
  · exact drain_keeps tick_regs h (hr.congr (by rw [loadCommand]; cases s.port.seq <;> rfl))

/-! ### A run of calculations -/

/-- The latches after the micro-ops `CALC(x[i] <- e)` of a list, or nothing where one of them reads a latch without a value. -/
def calcLatches : List (Nat × LExpr Word) → Latches → Option Latches
  | [], x => some x
  | (i, e) :: es, x => (e x).bind fun v => calcLatches es (setLatch x i v)

/-- A list of calculations at micro-op `k`, the schedule silent, leaves their latches. -/
theorem Running.calcs {q : SeqId} {prog tail : List MicroOp} {y : Latches} {es : List (Nat × LExpr Word)} {k : Nat} {s : State}
    (h : Running q s prog) (hs : Silent q s) (hprog : prog.drop k = es.map (fun e => .calc e.1 e.2) ++ tail)
    (hy : calcLatches es (seqOf s q).x = some y) :
    Leads q es.length (atPc q s k) (atPc q (setSeq s q { seqOf s q with x := y }) (k + es.length)) := by
  induction es generalizing s k with
  | nil =>
    cases hy
    rw [setSeq_seqOf]
    exact Leads.refl _ _
  | cons e es ih =>
    obtain ⟨v, hv, hy⟩ := Option.bind_eq_some_iff.mp hy
    have hm : prog[k]? = some (.calc e.1 e.2) := by rw [← Nat.add_zero k, ← List.getElem?_drop, hprog]; rfl
    have first := h.calc hs hm hv
    have rest := ih (s := setSeq s q { seqOf s q with x := setLatch (seqOf s q).x e.1 v }) (k := k + 1)
      (h.congr (by simp) (by simp) (by simp) (by simp) fun e => by subst e; rfl)
      (hs.congr (by simp) (by simp) (by simp) (by simp) (by simp))
      (by rw [← List.drop_drop, hprog]; rfl) (by simpa using hy)
    rw [setSeq_setSeq, seqOf_setSeq_self, Nat.add_assoc, Nat.add_comm 1] at rest
    exact (first.then rest).mono (by simp [Nat.add_comm])

/-! ### What the registers read as (R117, R132) -/

theorem toNat_toWord {n : Nat} (h : n < 2 ^ 32) : (toWord n).toNat = n := by
  rw [toWord, BitVec.toNat_ofNat, Nat.mod_eq_of_lt h]

theorem regField_lt (v : Word) (lo width : Nat) : regField v lo width < 2 ^ width := Nat.mod_lt _ (Nat.two_pow_pos _)

/-- Two digits of four bits at most. -/
theorem dec_regField_le (v : Word) (lo lo' : Nat) {width : Nat} (hw : width ≤ 4) :
    dec (regField v lo width) (regField v lo' 4) ≤ 165 := by
  have tens : regField v lo width < 2 ^ 4 := (regField_lt v lo width).trans_le (Nat.pow_le_pow_right (by decide) hw)
  have units := regField_lt v lo' 4
  unfold dec; omega

/-- The six values that GET_DATETIME decodes from the words of RTC_TR and RTC_DR (R132). -/
structure Decodes (tr dr : Word) (y mo d h mi sec : Nat) : Prop where
  year : y = epoch + dec (regField dr 20 4) (regField dr 16 4)
  month : mo = dec (regField dr 12 1) (regField dr 8 4)
  day : d = dec (regField dr 4 2) (regField dr 0 4)
  hour : h = dec (regField tr 20 2) (regField tr 16 4)
  minute : mi = dec (regField tr 12 3) (regField tr 8 4)
  second : sec = dec (regField tr 4 3) (regField tr 0 4)

/-- They are small, so the word of each is its value. -/
theorem Decodes.words {tr dr : Word} {y mo d h mi sec : Nat} (hd : Decodes tr dr y mo d h mi sec) :
    (toWord y).toNat = y ∧ (toWord mo).toNat = mo ∧ (toWord d).toNat = d ∧ (toWord h).toNat = h ∧ (toWord mi).toNat = mi ∧
      (toWord sec).toNat = sec := by
  have digits (v : Word) (lo lo' : Nat) {width : Nat} (hw : width ≤ 4) :
      (toWord (dec (regField v lo width) (regField v lo' 4))).toNat = dec (regField v lo width) (regField v lo' 4) :=
    toNat_toWord ((dec_regField_le v lo lo' hw).trans_lt (by decide))
  have year := dec_regField_le dr 20 16 (width := 4) (by decide)
  obtain ⟨rfl, rfl, rfl, rfl, rfl, rfl⟩ := hd
  exact ⟨toNat_toWord (by unfold epoch; omega), digits _ _ _ (by decide), digits _ _ _ (by decide), digits _ _ _ (by decide),
    digits _ _ _ (by decide), digits _ _ _ (by decide)⟩

/-- The latches of GET_DATETIME after its calculations. -/
def snapshotLatches (tr dr : Word) (y mo d h mi sec : Nat) : Latches :=
  ⟨some (toWord y), some (toWord mo), some (toWord d), some (toWord h), some (toWord mi), some (toWord sec), some tr, some dr⟩

/-- The calculations of GET_DATETIME, RTC_TR being in `x[6]` and RTC_DR in `x[7]` (R132). -/
def snapshotCalcs : List (Nat × LExpr Word) :=
  [ (0, lx7 fun d => toWord (epoch + dec (regField d 20 4) (regField d 16 4)))
  , (1, lx7 fun d => toWord (dec (regField d 12 1) (regField d 8 4)))
  , (2, lx7 fun d => toWord (dec (regField d 4 2) (regField d 0 4)))
  , (3, lx6 fun t => toWord (dec (regField t 20 2) (regField t 16 4)))
  , (4, lx6 fun t => toWord (dec (regField t 12 3) (regField t 8 4)))
  , (5, lx6 fun t => toWord (dec (regField t 4 3) (regField t 0 4))) ]

theorem calcLatches_snapshotCalcs {tr dr : Word} {y mo d h mi sec : Nat} (hd : Decodes tr dr y mo d h mi sec) (x : Latches) :
    calcLatches snapshotCalcs { x with x6 := some tr, x7 := some dr } = some (snapshotLatches tr dr y mo d h mi sec) := by
  obtain ⟨rfl, rfl, rfl, rfl, rfl, rfl⟩ := hd
  rfl

/-- A function of the six decoded values. -/
theorem lx05_snapshotLatches {α : Type} {tr dr : Word} {y mo d h mi sec : Nat} (hd : Decodes tr dr y mo d h mi sec)
    (f : Nat → Nat → Nat → Nat → Nat → Nat → α) :
    lx05 (fun y mo d h mi s => f y.toNat mo.toNat d.toNat h.toNat mi.toNat s.toNat) (snapshotLatches tr dr y mo d h mi sec) =
      some (f y mo d h mi sec) := by
  obtain ⟨h0, h1, h2, h3, h4, h5⟩ := hd.words
  simp only [lx05, snapshotLatches, h0, h1, h2, h3, h4, h5]

/-! ### The run of GET_DATETIME (R132) -/

/-- `RSF <- 1` in a calm state (R175). -/
theorem envStep_rsfSet {s : State} (h : Calm s) : envStep .rsfSet s = { s with rtcIsr := s.rtcIsr ||| bit 5 } :=
  Calm.settle (h.isr (t := { s with rtcIsr := s.rtcIsr ||| bit 5 }) rfl rfl rfl rfl fun _ _ _ =>
    getLsbD_or_bit_ne (by decide) (by omega))

/-- The state once RSF is served. -/
def rsfServed (s : State) (rest : List Move) : State := { s with rtcIsr := s.rtcIsr ||| bit 5, moves := rest }

theorem Calm.rsfServed {s : State} (h : Calm s) (rest : List Move) : Calm (rsfServed s rest) :=
  h.isr rfl rfl rfl rfl fun _ _ _ => getLsbD_or_bit_ne (by decide) (by omega)

/-- The poll for RSF, with the draw that serves it where RSF is 0. -/
theorem Running.awaitRsf {s : State} {prog : List MicroOp} {k : Nat} {rest : List Move} (h : Running .owner s prog) (hc : Calm s)
    (hm : SnapServed s rest) (h0 : prog[k]? = some (.poll .isr (bit 5) (bit 5))) :
    Leads .owner 2 (atPc .owner s k) (atPc .owner (rsfServed s rest) (k + 1)) := by
  have hmv := hm.moves
  have served : Leads .owner 1 (atPc .owner s k) (atPc .owner (rsfServed s rest) k) := by
    cases hf : rsf s with
    | true =>
      rw [hf, if_pos rfl, List.nil_append] at hmv
      rw [rsfServed, or_bit_of_getLsbD (by decide) hf, ← hmv]
      exact (Leads.refl _ _).mono (by decide)
    | false =>
      rw [hf, if_neg (by decide), List.singleton_append] at hmv
      obtain ⟨hi, he⟩ := hm.runs hf
      exact h.draw hmv (by simp [drawEnabled, hi, he])
        (envStep_rsfSet (s := { s with moves := rest }) (hc.congr rfl rfl rfl rfl))
  have flag : (rsfServed s rest).rtcIsr.getLsbD 5 = true := by simp [rsfServed, bit]
  exact served.then (Running.poll (s := rsfServed s rest) (h.congr rfl rfl rfl rfl fun _ => rfl) (.of_waits hm.quiet h.busy) h0
    (by decide) (by decide) ((and_bit_eq_bit (by decide)).mpr flag))

/-- The state of GET_DATETIME once its snapshot is decoded: the date lock released, RSF cleared where it is writable (R42). -/
def snapshotTaken (s : State) (rest : List Move) (x : Latches) : State :=
  { s with
    owner := { s.owner with x := x }, drLock := none, moves := rest
    rtcIsr := (s.rtcIsr ||| bit 5) &&& ~~~(bit 5 &&& isrClearable s) }

/-- GET_DATETIME up to its `FAULTIF`. -/
theorem Running.snapshot {s : State} {rest : List Move} {y mo d h mi sec : Nat} (hR : Running .owner s progGetDatetime)
    (hc : Calm s) (hm : SnapServed s rest) (hd : Decodes s.calTr s.calDr y mo d h mi sec) :
    Leads .owner 11 (atPc .owner s 0)
      (atPc .owner (snapshotTaken s rest (snapshotLatches s.calTr s.calDr y mo d h mi sec)) 10) := by
  have await := hR.awaitRsf (k := 0) hc hm rfl
  let s1 := rsfServed s rest
  have c1 : Calm s1 := hc.rsfServed rest
  have q1 : Silent .owner s1 := .of_waits hm.quiet hR.busy
  have R1 : Running .owner s1 progGetDatetime := hR.congr rfl rfl rfl rfl fun _ => rfl
  have readTime := R1.rd (k := 1) q1 rfl (congrArg Prod.snd (readReg_tr_of_live c1.live))
  let s2 : State := { s1 with
    owner := { s.owner with x := { s.owner.x with x6 := some s.calTr } }, drLock := some s.calDr }
  have R2 : Running .owner s2 progGetDatetime := hR.congr rfl rfl rfl rfl fun _ => rfl
  have q2 : Silent .owner s2 := .of_waits hm.quiet hR.busy
  have readDate := R2.rd (k := 2) q2 rfl (congrArg Prod.snd (readReg_dr_of_captured (v := s.calDr) rfl))
  let s3 : State := { s1 with
    owner := { s.owner with x := { s.owner.x with x6 := some s.calTr, x7 := some s.calDr } }, drLock := none }
  have R3 : Running .owner s3 progGetDatetime := hR.congr rfl rfl rfl rfl fun _ => rfl
  have q3 : Silent .owner s3 := .of_waits hm.quiet hR.busy
  let s4 := snapshotTaken s rest { s.owner.x with x6 := some s.calTr, x7 := some s.calDr }
  have c4 : Calm s4 := c1.isr rfl rfl rfl rfl fun n h8 h11 => by
    simp only [s4, s1, snapshotTaken, rsfServed, BitVec.getLsbD_and, BitVec.getLsbD_or, BitVec.getLsbD_not,
      bit_getLsbD 5 n (by decide)]
    simp [show n ≠ 5 by omega, show n < 32 by omega]
  have clear := R3.isrClr (k := 3) (t := s4) q3 rfl rfl (by
    rw [writeIsr_isrClearWord (by decide) rfl]; exact c4.settle)
  have calcs := Running.calcs (s := s4) (k := 4) (es := snapshotCalcs) (prog := progGetDatetime)
    (hR.congr rfl rfl rfl rfl fun _ => rfl) (.of_waits hm.quiet hR.busy) rfl (calcLatches_snapshotCalcs hd s.owner.x)
  exact (((await.then readTime).then readDate).then clear).then calcs

/-- GET_DATETIME with RSF served and a valid snapshot (R132, R133, R80). -/
theorem exec_getDatetime {s : State} {rest : List Move} {y mo d h mi sec : Nat} (hr : OwnerReady s) (hc : s.constructed = true)
    (hm : SnapServed s rest) (hd : Decodes s.calTr s.calDr y mo d h mi sec) (valid : snapOk y mo d h mi sec = true) :
    ∃ c, Finished c .getDatetime 0x00#8 (datetimeResult y mo d h mi sec) ∧
      exec .getDatetime s = .next { s with
        owner := c, drLock := none, moves := rest
        rtcIsr := (s.rtcIsr ||| bit 5) &&& ~~~(bit 5 &&& isrClearable s) } := by
  let s0 : State := { s with owner := loadedSeq s.owner .getDatetime }
  let v : State := snapshotTaken s0 rest (snapshotLatches s.calTr s.calDr y mo d h mi sec)
  have hR : Running .owner s0 progGetDatetime := running_loaded hr.regs.params hr.noFault hr.irqIdle rfl
  have Rv : Running .owner v progGetDatetime := hR.congr rfl rfl rfl rfl fun _ => rfl
  have qv : Silent .owner v := .of_waits hm.quiet hR.busy
  have snapshot := hR.snapshot ((hr.regs.calm hr.live).setSeq .owner _) ⟨hm.moves, hm.quiet, hm.runs⟩ hd
  have noFault := Rv.faultIfNot (k := 10) qv rfl ((lx05_snapshotLatches hd fun y mo d h mi s => !snapOk y mo d h mi s).trans
    (by rw [valid]; rfl))
  have result := Rv.resThenDone (k := 11) qv rfl rfl (lx05_snapshotLatches hd datetimeResult)
  refine ⟨{ v.owner with res := datetimeResult y mo d h mi sec, pc := 13, status := 0x00#8, busy := false },
    ⟨rfl, rfl, rfl, rfl, rfl⟩, ?_⟩
  rw [exec_eq_issue]
  refine issue_of_leads (n := 14) (by rw [hr.port]; exact hr.accepts hc rfl rfl) ?_ (by decide) ?_
  · rw [hr.port, loadCommand_eq]
    exact (snapshot.then noFault).then result
  · rw [hr.port]
    exact drain_idle rfl

/-! ### What a combined setter wrote, read back (R134) -/

/-- A pair of digits, by its digits. -/
theorem bcdPair_digits {v n : Nat} (h : v ≤ n) :
    ∃ t u, v = dec t u ∧ (t ≤ n / 10 ∧ u ≤ 9) ∧ bcdPair v = t * 16 + u :=
  ⟨v / 10, v % 10, (Nat.div_add_mod' v 10).symm, ⟨Nat.div_le_div_right h, by omega⟩, rfl⟩

/-- The digits of a date word (R37, R86). -/
theorem regField_date {v : Word} {yt yu mt mu dt du : Nat}
    (hv : v.toNat = (yt * 16 + yu) * 2 ^ 16 + 2 ^ 13 + (mt * 16 + mu) * 2 ^ 8 + (dt * 16 + du))
    (hy : yt ≤ 9 ∧ yu ≤ 9) (hm : mt ≤ 1 ∧ mu ≤ 9) (hd : dt ≤ 3 ∧ du ≤ 9) :
    (regField v 20 4 = yt ∧ regField v 16 4 = yu) ∧ (regField v 12 1 = mt ∧ regField v 8 4 = mu) ∧
      (regField v 4 2 = dt ∧ regField v 0 4 = du) := by
  simp only [regField, hv]
  refine ⟨⟨?_, ?_⟩, ⟨?_, ?_⟩, ⟨?_, ?_⟩⟩ <;> omega

/-- The digits of a time word (R36, R85). -/
theorem regField_time {v : Word} {ht hu mt mu st su : Nat}
    (hv : v.toNat = (ht * 16 + hu) * 2 ^ 16 + (mt * 16 + mu) * 2 ^ 8 + (st * 16 + su))
    (hh : ht ≤ 2 ∧ hu ≤ 9) (hm : mt ≤ 5 ∧ mu ≤ 9) (hs : st ≤ 5 ∧ su ≤ 9) :
    (regField v 20 2 = ht ∧ regField v 16 4 = hu) ∧ (regField v 12 3 = mt ∧ regField v 8 4 = mu) ∧
      (regField v 4 3 = st ∧ regField v 0 4 = su) := by
  simp only [regField, hv]
  refine ⟨⟨?_, ?_⟩, ⟨?_, ?_⟩, ⟨?_, ?_⟩⟩ <;> omega

/-- The words that SET_DATETIME writes decode to its operands (R131, R119). -/
theorem decodes_written {y mo d h mi sec : Nat} (hy : 1970 ≤ y) (hy' : y ≤ 2069) (hmo : mo ≤ 12) (hd : d ≤ 31) (hh : h ≤ 23)
    (hmi : mi ≤ 59) (hs : sec ≤ 59) : Decodes (toWord (timeWord h mi sec)) (toWord (dateWord y mo d)) y mo d h mi sec := by
  obtain ⟨yt, yu, ey, yearDigits, py⟩ := bcdPair_digits (Nat.sub_le_sub_right hy' epoch)
  obtain ⟨mt, mu, em, monthDigits, pm⟩ := bcdPair_digits hmo
  obtain ⟨dt, du, ed, dayDigits, pd⟩ := bcdPair_digits hd
  obtain ⟨ht, hu, eh, hourDigits, ph⟩ := bcdPair_digits hh
  obtain ⟨it, iu, ei, minuteDigits, pmi⟩ := bcdPair_digits hmi
  obtain ⟨st, su, es, secondDigits, ps⟩ := bcdPair_digits hs
  have date := regField_date (v := toWord (dateWord y mo d))
    (by rw [dateWord, py, pm, pd]; exact toNat_toWord (by omega)) yearDigits monthDigits dayDigits
  have time := regField_time (v := toWord (timeWord h mi sec))
    (by rw [timeWord, ph, pmi, ps]; exact toNat_toWord (by omega)) hourDigits minuteDigits secondDigits
  obtain ⟨⟨f1, f2⟩, ⟨f3, f4⟩, ⟨f5, f6⟩⟩ := date
  obtain ⟨⟨g1, g2⟩, ⟨g3, g4⟩, ⟨g5, g6⟩⟩ := time
  exact {
    year := by rw [f1, f2, ← ey]; exact (Nat.add_sub_cancel' hy).symm
    month := by rw [f3, f4, ← em]
    day := by rw [f5, f6, ← ed]
    hour := by rw [g1, g2, ← eh]
    minute := by rw [g3, g4, ← ei]
    second := by rw [g5, g6, ← es] }

/-- The result word of GET_DATETIME as a number (R80). -/
theorem datetimeResult_toNat (y : BitVec 16) (mo d h mi sec : BitVec 8) :
    (datetimeResult y.toNat mo.toNat d.toNat h.toNat mi.toNat sec.toNat).toNat =
      y.toNat + mo.toNat * 2 ^ 16 + d.toNat * 2 ^ 24 + h.toNat * 2 ^ 32 + mi.toNat * 2 ^ 40 + sec.toNat * 2 ^ 48 := by
  rw [datetimeResult, BitVec.toNat_ofNat]
  exact Nat.mod_eq_of_lt (by omega)

/-- Settles O32: the registers hold the operands' digits, OWNER is ready again with INITF = 0, and a valid snapshot is returned. -/
theorem dateTimeRoundTrip : Obligations.DateTimeRoundTrip := by
  intro s y m d h mi sec hr hc he hm hdom
  obtain ⟨hy, hy', hmo, hmo', hd, hd', hh, hmi, hs⟩ := of_decide_eq_true hdom
  obtain ⟨c, hset, written⟩ := exec_setDatetime hr hc hm (dateOk_of hy hy' hmo hmo' hd hd') (timeOk_of hh hmi hs)
  refine ⟨_, written, fun t' ht' => ?_⟩
  have closed : (isrAfterInit s).getLsbD 6 = false := by simp [isrAfterInit, bit]
  have ready : OwnerReady t' ∧ t'.constructed = true ∧ SnapServed t' [] ∧
      Decodes t'.calTr t'.calDr y.toNat m.toNat d.toNat h.toNat mi.toNat sec.toNat := by
    subst ht'
    exact ⟨⟨(exec_regs hr.regs written).congr rfl, hr.live, hr.noFault, hr.noRefusal, hr.port, hset.idle, hr.irqIdle⟩, hc,
      ⟨(List.append_nil _).symm, .inl rfl, fun _ => ⟨closed, he⟩⟩,
      decodes_written hy hy' hmo' (hd'.trans (daysIn_le _ _)) hh hmi hs⟩
  obtain ⟨idle, constructed, served, decodes⟩ := ready
  obtain ⟨u, hget, read⟩ := exec_getDatetime idle constructed served decodes
    (by simp [snapOk, hmo, hmo', hd, hd', hh, hmi, hs])
  exact ⟨_, read, hget.idle, hget.status, (congrArg BitVec.toNat hget.res).trans (datetimeResult_toNat y m d h mi sec)⟩

end Sys2Proof.Machine
end

section
/-! SUPPORT. The runs of ENABLE_WAKEUP, DISABLE_WAKEUP and WAKEUP_TIMER to their ends (R143 to R145). -/

namespace Sys2Proof.Machine

/-! ### From an open bracket to the end of a command (R94) -/

/-- OWNER's command has ended with success after micro-op `k`, the key FSM locked. -/
def endLocked (s : State) (k : Nat) : State :=
  { s with owner := { s.owner with pc := k + 1, status := 0x00#8, busy := false }, wp := .locked }

/-- A ready OWNER's command whose run comes to LOCK and END in a calm state answers that state, locked. -/
theorem exec_endLocked {i : Instr} {s v : State} {prog : List MicroOp} {n k : Nat} (hr : OwnerReady s)
    (hv : verdict .owner (some i) s = .accept) (hn : n ≤ 100)
    (run : Leads .owner n (atPc .owner { s with owner := loadedSeq s.owner i } 0) (atPc .owner v k))
    (h : Running .owner v prog) (hc : Calm v) (hw : Waits .owner v.moves)
    (hlock : prog[k]? = some (.wr .wpr (lconst 0x000000FF#32))) (hdone : prog[k + 1]? = some .done) :
    exec i s = .next (endLocked v (k + 1)) := by
  have hs : Silent .owner v := .of_waits hw h.busy
  have lock := h.lock hc hs hlock
  have done := Running.done (s := { v with wp := .locked }) (h.congr rfl rfl rfl rfl fun _ => rfl)
    (hs.congr rfl rfl rfl rfl fun e => e) hdone
  rw [exec_eq_issue]
  refine issue_of_leads (n := 102) (by rw [hr.port]; exact hv) ?_ (by decide) ?_
  · rw [hr.port, loadCommand_eq]
    exact ((run.then lock).then done).mono (by omega)
  · rw [hr.port]
    exact drain_idle rfl

/-! ### ENABLE_WAKEUP of a representable interval (R140, R143) -/

/-- The code of WUCKSEL (R140) as a register value. -/
theorem toWord_wkSel (n : Nat) : toWord (wkSel n) = if n ≤ 65536 then 4#32 else 6#32 := by
  rw [wkSel_eq]; split <;> rfl

/-- The reload value of an interval in range (R140) as a register value. -/
theorem toWord_wkVal {n : BitVec 32} (h : 1 ≤ n.toNat) (h' : n.toNat ≤ 131072) :
    toWord (wkVal n.toNat) = if n.toNat ≤ 65536 then n - 1#32 else n - 65537#32 := by
  rw [wkVal_eq h h']
  split <;> apply BitVec.eq_of_toNat_eq <;> rw [toNat_toWord (by omega)] <;> bv_omega

/-- Settles O35: the run of `exec_enableWakeup`, with `WK_SEL` and `WK_VAL` written out for an interval in range. -/
theorem enableWakeupCompletes : Obligations.EnableWakeupCompletes := by
  intro s rest n hr hc hm h1 h2
  rw [← toWord_wkSel, ← toWord_wkVal h1 h2]
  exact exec_enableWakeup hr hc hm ((wkOk_iff _).mpr ⟨h1, h2⟩)

/-! ### DISABLE_WAKEUP (R144) -/

/-- The state after UNLOCK, `WUTE <- 0` and `WUTF <- 0`, with the edge this makes. -/
def wakeupDisabled (s : State) : State :=
  detectEdges { s with wp := .unlocked, rtcCr := s.rtcCr &&& ~~~bit 10, rtcIsr := s.rtcIsr &&& ~~~bit 10 }

/-- DISABLE_WAKEUP up to its LOCK (R144): it waits for no flag, so no draw need serve it. -/
theorem Running.disableWakeup {s : State} (h : Running .owner s progDisableWakeup) (hc : Calm s)
    (hw : Waits .owner s.moves) : Leads .owner 4 (atPc .owner s 0) (atPc .owner (wakeupDisabled s) 4) := by
  have clearWute := h.unlockClearWute (k := 0) hc rfl rfl rfl (.of_waits hw h.busy)
  have clearWutf := Running.isrClr (s := { s with wp := .unlocked, rtcCr := s.rtcCr &&& ~~~bit 10 }) (k := 3) (m := bit 10)
    (t := wakeupDisabled s) (h.congr rfl rfl rfl rfl fun _ => rfl) (.of_waits hw h.busy) rfl rfl
    (by rw [writeIsr_clear rfl (by decide)]; exact settle_of_live hc.live)
  exact clearWute.then clearWutf

/-- Settles O38: the edge is that of `WUTF <- 0`; LOCK and END come after it and move no level. -/
theorem disableWakeupCompletes : Obligations.DisableWakeupCompletes := by
  intro s hr hc hw
  let s0 : State := { s with owner := loadedSeq s.owner .disableWakeup }
  have h : Running .owner s0 progDisableWakeup := running_loaded hr.regs.params hr.noFault hr.irqIdle rfl
  have hcalm : Calm s0 := (hr.regs.calm hr.live).setSeq .owner _
  have run := h.disableWakeup hcalm hw
  have hex := exec_endLocked hr (hr.accepts hc rfl rfl) (by decide) run (h.congr rfl rfl rfl rfl fun _ => rfl)
    (Calm.detectEdges hr.live) hw rfl rfl
  exact ⟨(endLocked (wakeupDisabled s0) 5).owner, ⟨rfl, rfl, rfl, rfl, rfl⟩, hex⟩

/-! ### WAKEUP_TIMER (R145) -/

/-- `blend_andNot_or` with further bits set in the same write. -/
theorem blend_andNot_or_or (m b c x v : Word) : blend m (x &&& ~~~b) v ||| (c ||| b) = blend m x v ||| (c ||| b) := by
  rw [BitVec.or_comm c, ← BitVec.or_assoc, blend_andNot_or, BitVec.or_assoc]

theorem wute_wakeupCleared (s : State) (rest : List Move) : wute (wakeupCleared s rest) = false := by
  simp [wute, wakeupCleared, wakeupOff, bit]

theorem wutf_wakeupCleared (s : State) (rest : List Move) : wutf (wakeupCleared s rest) = false := by
  simp [wutf, wakeupCleared, bit]

/-- With WUTF = 0, bits 14 and 10 of RTC_CR (WUTIE and WUTE) move no level (R170). -/
theorem Calm.enableWut {s : State} (h : Calm s) (hf : wutf s = false) :
    Calm { s with rtcCr := s.rtcCr ||| (bit 14 ||| bit 10) } := by
  let t : State := { s with rtcCr := s.rtcCr ||| (bit 14 ||| bit 10) }
  have others (n : Nat) (hn : n = 12 ∨ n = 13 ∨ n = 15) : t.rtcCr.getLsbD n = s.rtcCr.getLsbD n := by
    show (s.rtcCr ||| (bit 14 ||| bit 10)).getLsbD n = _
    rw [← BitVec.or_assoc, getLsbD_or_bit_ne (by decide) (by omega), getLsbD_or_bit_ne (by decide) (by omega)]
  have hf' : wutf t = false := hf
  refine h.congr rfl rfl rfl ?_
  show levelsOf t = levelsOf s
  simp only [levelsOf, hf, hf', Bool.false_and, alraie, alrbie, tsie, others 12 (by decide), others 13 (by decide),
    others 15 (by decide)]
  rfl

/-- What WAKEUP_TIMER programs once the counter is off: code 0b100, the raw low 16 bits, WUTIE and WUTE. -/
def timerProgrammed (u : State) (v : Word) : State :=
  { u with rtcCr := blend 0x00000007#32 u.rtcCr 4#32 ||| (bit 14 ||| bit 10), rtcWutr := v &&& 0x0000FFFF#32 }

/-- With WUTE = 0, WUTWF = 1 and WUTF = 0 both polls hold and the three writes take effect (R145 c to g). -/
theorem Running.programTimer {u : State} {v : BitVec 32} (h : Running .owner u progWakeupTimer) (hc : Calm u)
    (hw : Waits .owner u.moves) (hu : u.wp = .unlocked) (he : wute u = false) (hf : wutwf u = true) (hz : wutf u = false)
    (hx : u.owner.x = loadedLatches (.wakeupTimer v)) :
    Leads .owner 5 (atPc .owner u 4) (atPc .owner (timerProgrammed u v) 9) ∧ Calm (timerProgrammed u v) := by
  have hs : Silent .owner u := .of_waits hw h.busy
  have flagClear := h.poll (k := 4) hs rfl (by decide) (by decide) ((and_bit_eq_zero (by decide)).mpr hz)
  have writable := h.poll (k := 5) hs rfl (by decide) (by decide) ((and_bit_eq_bit (by decide)).mpr hf)
  have writeSel := h.rmwCr (k := 6) (m := 0x00000007#32) (v := 4#32) hc hs hu rfl rfl rfl (crWritable_wucksel he hf) (by decide)
  let u1 : State := { u with rtcCr := blend 0x00000007#32 u.rtcCr 4#32 }
  have hc1 : Calm u1 := hc.crField (by decide) _
  have h1 : Running .owner u1 progWakeupTimer := h.congr rfl rfl rfl rfl fun _ => rfl
  let u2 : State := { u1 with rtcWutr := v &&& 0x0000FFFF#32 }
  have hc2 : Calm u2 := hc1.congr rfl rfl rfl rfl
  have writeVal := h1.wr (k := 7) (v := v &&& 0x0000FFFF#32) (t := u2) (.of_waits hw h.busy) rfl
    (by rw [seqOf_owner, show u1.owner.x = _ from hx]; rfl)
    (by rw [writeReg_wutr_open (s := u1) hu hf (by rw [BitVec.and_assoc]; exact BitVec.and_zero)]; exact hc2.settle)
  have hc3 : Calm (timerProgrammed u v) := hc2.enableWut hz
  have enable := Running.rmw (s := u2) (k := 8) (m := bit 14 ||| bit 10) (v := bit 14 ||| bit 10) (t := timerProgrammed u v)
    (h.congr rfl rfl rfl rfl fun _ => rfl) (.of_waits hw h.busy) rfl rfl rfl
    (by rw [writeReg_cr_field (s := u2) hu (crWritable_unguarded _ (by decide)), blend_self]; exact hc3.settle)
  exact ⟨(((flagClear.then writable).then writeSel).then writeVal).then enable, hc3⟩

/-- Settles O39: the edge is that of `WUTF <- 0`; with WUTF = 0 nothing that the command writes after it moves a level. -/
theorem wakeupTimerCompletes : Obligations.WakeupTimerCompletes := by
  intro s rest v hr hc hm
  let s0 : State := { s with owner := loadedSeq s.owner (.wakeupTimer v) }
  have h : Running .owner s0 progWakeupTimer := running_loaded hr.regs.params hr.noFault hr.irqIdle rfl
  have hcalm : Calm s0 := (hr.regs.calm hr.live).setSeq .owner _
  have off := (h.wakeupOff (k := 0) hcalm rfl rfl rfl ⟨hm.moves, hm.quiet⟩).then (h.wakeupCleared (k := 3) hcalm hm.quiet rfl)
  let u : State := wakeupCleared s0 rest
  have cu : Calm u := Calm.detectEdges (s := { wakeupOff s0 rest with rtcIsr := _ }) hcalm.live
  have hu : Running .owner u progWakeupTimer := h.congr rfl rfl rfl rfl fun _ => rfl
  obtain ⟨program, cv⟩ := hu.programTimer cu hm.quiet rfl (wute_wakeupCleared s0 rest) (wutwf_wakeupCleared s0 rest)
    (wutf_wakeupCleared s0 rest) rfl
  have hex := exec_endLocked hr (hr.accepts hc rfl rfl) (by decide) (off.then program)
    (hu.congr rfl rfl rfl rfl fun _ => rfl) cv hm.quiet rfl rfl
  let t : State := { endLocked (timerProgrammed u v) 10 with extiPr := s.extiPr, lvl := s.lvl }
  have hend : endLocked (timerProgrammed u v) 10 = detectEdges t :=
    detectEdges_later (s := { wakeupOff s0 rest with rtcIsr := (s.rtcIsr ||| bit 2) &&& ~~~bit 10 }) (t := t)
      rfl rfl rfl rfl (cv.levels.symm.trans cu.levels)
  rw [← blend_andNot_or_or]
  exact ⟨t.owner, ⟨rfl, rfl, rfl, rfl, rfl⟩, hex.trans (congrArg _ hend)⟩

end Sys2Proof.Machine
end

section
/-! SUPPORT. The line commands on a line that does not exist (R151), the RMW of PWR_CR and the EXTI writes of the event router,
what a micro-op of the interrupt context may change (R155), and the run of UNPEND_EVENT (R150). -/

namespace Sys2Proof.Machine

/-! ### A line at or above N_LINES (R151) -/

/-- A command that begins with the line check, on a line that does not exist: it faults at micro-op 0 (R151, R157). -/
theorem exec_lineOutOfRange {q : SeqId} {s : State} {i : Instr} {l : BitVec 8} {tail : List MicroOp} (hr : ContextReady q s)
    (hw : Waits q s.moves) (hl : s.par.nLines ≤ l.toNat) (hv : verdict q (some i) s = .accept)
    (hg : progOf s.par (opcode i) = some (lineFault s.par :: tail)) (hx : (loadedLatches i).x0 = some (l.setWidth 32)) :
    ∃ c, FaultedAt c (seqOf s q) i 0 ∧
      exec i s = .next (setSeq { s with faultCode := 0x03#8, faultSeq := q, faultWord := encode i } q c) := by
  refine ⟨loadedSeq (seqOf s q) i, ⟨rfl, rfl, rfl, rfl, rfl, rfl⟩, ?_⟩
  rw [exec_eq_issue]
  refine issue_of_run (n := 1) hr hw hv hg (by decide) (fun hR hs => ?_) (.inr (by simp [faulted]))
  have outOfRange := lx0_toNat hx (zext8 l) fun n => decide (s.par.nLines ≤ n)
  rw [decide_eq_true hl] at outOfRange
  have fault := hR.faultIf (k := 0) hs rfl (by rw [seqOf_setSeq_self]; exact outOfRange)
  cases q <;> exact fault

/-- Settles O44: the three line commands begin with the line check, and either context may issue them. -/
theorem lineOutOfRangeFaults : Obligations.LineOutOfRangeFaults := by
  intro q s l hr hw hl i hi
  have accepted (hwf : i.wellFormed = true) (hc : contextAllows .irq i = true) (hn : needOf i = .any) :
      verdict q (some i) s = .accept := hr.accepts hwf (by cases q; exacts [rfl, hc]) hn
  rcases hi with rfl | rfl | rfl <;> exact exec_lineOutOfRange hr hw hl (accepted rfl rfl rfl) rfl rfl

/-! ### The register writes of the event router (R150, R152, R153) -/

/-- EXTI_SWIER, EXTI_PR and PWR_CSR lie outside the backup domain and move no level: in a sound state nothing follows a change
of theirs (R107, R170). -/
theorem RegsOk.settle_router {s : State} (h : RegsOk s) (swier pr csr : Word) :
    settle { s with extiSwier := swier, extiPr := pr, pwrCsr := csr } =
      { s with extiSwier := swier, extiPr := pr, pwrCsr := csr } := by
  have outside : holdDomain { s with extiSwier := swier, extiPr := pr, pwrCsr := csr } =
      { holdDomain s with extiSwier := swier, extiPr := pr, pwrCsr := csr } := by
    cases hd : s.rccCsr.getLsbD s.par.domrstBit <;> simp only [holdDomain, domainHeld, hd] <;> rfl
  rw [h.held] at outside
  exact settle_of_regs outside h.levels

/-- The state after WUF is cleared through CWUF, where PWREN lets the write through (R46, R109). -/
def wufCleared (s : State) : State := { s with pwrCsr := if pwren s then s.pwrCsr &&& ~~~bit 0 else s.pwrCsr }

/-- The RMW of PWR_CR in UNPEND_EVENT clears WUF and writes every other bit back as read (R46, R150). -/
theorem RegsOk.settle_clearWuf {s : State} (h : RegsOk s) :
    settle (writeReg .pwrCr (blend (bit 2) s.pwrCr (bit 2)) s) = wufCleared s := by
  have written : writeReg .pwrCr (blend (bit 2) s.pwrCr (bit 2)) s = wufCleared s := by
    have cwuf : (blend (bit 2) s.pwrCr (bit 2)).getLsbD 2 = true := by
      rw [blend_self, BitVec.getLsbD_or]; simp [bit]
    have rest : blend (bit 8) s.pwrCr (blend (bit 2) s.pwrCr (bit 2)) = s.pwrCr := by
      refine blend_of_agree ?_
      rw [blend_self, BitVec.and_comm, BitVec.and_or_distrib_left, show bit 8 &&& bit 2 = 0#32 by decide, BitVec.or_zero,
        BitVec.and_comm]
    show writePwrCr _ s = _
    rw [writePwrCr, wufCleared, cwuf, rest]
    split <;> rfl
  rw [written]
  exact h.settle_router s.extiSwier s.extiPr _

/-- An event's flag is one of RTC_ISR[11:8] (R44). -/
theorem eventFlagBit_inside (e : Event) : bit (eventFlagBit e) &&& ~~~0x00000F00#32 = 0#32 := by cases e <;> decide

/-- The event flags can be cleared in every write-protection state (R42). -/
theorem eventFlag_clearable (s : State) (e : Event) : bit (eventFlagBit e) &&& ~~~isrClearable s = 0#32 := by
  refine inside_trans (eventFlagBit_inside e) ?_
  unfold isrClearable
  split
  · decide
  · cases s.par.rsfProtected <;> decide

/-- The state after an event's flag is cleared, with the edge this makes (R150, R181). -/
def flagCleared (s : State) (e : Event) : State :=
  detectEdges { s with rtcIsr := s.rtcIsr &&& ~~~bit (eventFlagBit e) }

/-- `ISR_CLR` of an event's flag in any write-protection state (R42, R92). -/
theorem RegsOk.settle_clearFlag {s : State} (h : RegsOk s) (e : Event) :
    settle (writeReg .isr (isrClearWord (bit (eventFlagBit e)) s.rtcIsr) s) = flagCleared s e := by
  have cleared := (isrWriteForms s h).2 (bit (eventFlagBit e)) s.rtcIsr (inside_trans (eventFlagBit_inside e) (by decide)) rfl
  rw [memWrite_regAddr h.params, ← isrClearable_eq, and_mask_id (eventFlag_clearable s e)] at cleared
  exact Option.some.inj cleared

/-! ### What a micro-op of the interrupt context may change (R155, R164) -/

/-- The micro-ops that the commands of the interrupt context consist of (R137, R138, R150 to R154). -/
inductive IrqOp : MicroOp → Prop where
  | check (c : LExpr Bool) : IrqOp (.check c)
  | faultIf (c : LExpr Bool) (code : FaultCode) : IrqOp (.faultIf c code)
  | res (e : LExpr (BitVec 64)) : IrqOp (.res e)
  | done : IrqOp .done
  | readPr (i : Nat) : IrqOp (.rd i .pr)
  | writePr (e : LExpr Word) : IrqOp (.wr .pr e)
  | writeSwier (e : LExpr Word) : IrqOp (.wr .swier e)
  | clearWuf : IrqOp (.rmw .pwrCr (lconst (bit 2)) (lconst (bit 2)))
  | clearFlag : IrqOp (.isrClr flagBit)

theorem progOf_irqOps {p : Params} {i : Instr} {prog : List MicroOp} (hc : contextAllows .irq i = true)
    (hp : progOf p (opcode i) = some prog) : ∀ m ∈ prog, IrqOp m := by
  rw [← List.forall_iff_forall_mem]
  cases i <;> cases hc <;> cases hp
  case unpendEvent => exact ⟨.clearWuf, .clearFlag, .writePr _, .done⟩
  case pendLine => exact ⟨.faultIf _ _, .writeSwier _, .done⟩
  case unpendLine => exact ⟨.faultIf _ _, .writePr _, .done⟩
  case isPendingLine => exact ⟨.faultIf _ _, .readPr _, .res _, .done⟩
  case bcdEncode => exact ⟨.check _, .res _, .done⟩
  case bcdDecode => exact ⟨.res _, .done⟩

/-- What the interrupt context may change in a state (R155): its own sequencer, the fault register, EXTI_SWIER, EXTI_PR, WUF, the
event flags of RTC_ISR and the recorded levels. -/
inductive IrqChange (s : State) : State → Prop where
  | intro (irq : Seq) (code : Byte) (seq : SeqId) (word : Cmd) (swier pr csr isr : Word) (lvl : Levels)
      (flags : isr &&& ~~~0x00000F00#32 = s.rtcIsr &&& ~~~0x00000F00#32) (wuf : csr &&& ~~~bit 0 = s.pwrCsr &&& ~~~bit 0) :
      IrqChange s { s with
        irq := irq, faultCode := code, faultSeq := seq, faultWord := word
        extiSwier := swier, extiPr := pr, pwrCsr := csr, rtcIsr := isr, lvl := lvl }

theorem IrqChange.refl (s : State) : IrqChange s s := .intro _ _ _ _ _ _ _ _ _ rfl rfl

/-- Beside the registers the sequencer's own state may change. -/
theorem IrqChange.setIrq {s t : State} (h : IrqChange s t) (c : Seq) : IrqChange s (setSeq t .irq c) := by
  cases h with
  | intro irq code seq word swier pr csr isr lvl flags wuf => exact .intro c _ _ _ _ _ _ _ _ flags wuf

theorem IrqChange.fault (s : State) (code : FaultCode) : IrqChange s (raiseFault .irq code s) :=
  .intro _ _ _ _ _ _ _ _ _ rfl rfl

/-- Clearing bits of a mask is not seen outside it. -/
theorem andNot_and_not {b m : Word} (x : Word) (h : b &&& ~~~m = 0#32) : (x &&& ~~~b) &&& ~~~m = x &&& ~~~m := by
  apply BitVec.eq_of_getLsbD_eq
  intro i hi
  have hb := congrArg (fun w => w.getLsbD i) h
  simp only [BitVec.getLsbD_and, BitVec.getLsbD_not, BitVec.getLsbD_zero, hi, decide_true, Bool.true_and] at hb ⊢
  cases hm : m.getLsbD i <;> simp_all

theorem irqChange_exti {s : State} (h : RegsOk s) (swier pr : Word) :
    IrqChange s (settle { s with extiSwier := swier, extiPr := pr }) := by
  rw [show settle { s with extiSwier := swier, extiPr := pr } = _ from h.settle_router swier pr s.pwrCsr]
  exact .intro _ _ _ _ _ _ _ _ _ rfl rfl

theorem irqChange_clearWuf {s : State} (h : RegsOk s) :
    IrqChange s (settle (writeReg .pwrCr (blend (bit 2) s.pwrCr (bit 2)) s)) := by
  rw [h.settle_clearWuf]
  refine .intro _ _ _ _ _ _ _ _ _ rfl ?_
  split
  · exact andNot_and_not _ (by decide)
  · rfl

theorem irqChange_clearFlag {s : State} (h : RegsOk s) (e : Event) :
    IrqChange s (settle (writeReg .isr (isrClearWord (bit (eventFlagBit e)) s.rtcIsr) s)) := by
  rw [h.settle_clearFlag]
  exact .intro _ _ _ _ _ _ _ _ _ (andNot_and_not _ (eventFlagBit_inside e)) rfl

/-- A micro-op of the interrupt context's commands changes only what that context may (R155). -/
theorem IrqOp.irqChange {m : MicroOp} {s t : State} (hm : IrqOp m) (hr : RegsOk s) (h : runMicroOp .irq m s = .next t) :
    IrqChange s t := by
  have hp := hr.params
  cases hm <;> simp only [runMicroOp, withRead_eq hp, readReg] at h
  case check c =>
    obtain ⟨ok, -, h⟩ := withValue_next h
    cases h
    cases ok <;> exact (IrqChange.refl s).setIrq _
  case faultIf c code =>
    obtain ⟨bad, -, h⟩ := withValue_next h
    cases h
    cases bad
    · exact (IrqChange.refl s).setIrq _
    · exact .fault s code
  case res e =>
    obtain ⟨v, -, h⟩ := withValue_next h
    cases h
    exact (IrqChange.refl s).setIrq _
  case done | readPr i =>
    cases h
    exact (IrqChange.refl s).setIrq _
  case writePr e | writeSwier e =>
    obtain ⟨v, -, h⟩ := withValue_next h
    rw [withWrite_eq hp] at h
    cases h
    exact (irqChange_exti hr _ _).setIrq _
  case clearWuf =>
    obtain ⟨m, hm, h⟩ := withValue_next h
    obtain ⟨v, hv, h⟩ := withValue_next h
    cases hm
    cases hv
    rw [withWrite_eq hp] at h
    cases h
    exact (irqChange_clearWuf hr).setIrq _
  case clearFlag =>
    obtain ⟨m, hm, h⟩ := withValue_next h
    obtain ⟨w, -, rfl⟩ := Option.map_eq_some_iff.mp hm
    rw [withWrite_eq hp] at h
    cases h
    exact (irqChange_clearFlag hr _).setIrq _

/-- Settles O52: a sound IRQ sequencer has a command of its context in flight, whose micro-ops are those of `IrqOp`. -/
theorem interruptContextKeepsOwnerState : Obligations.InterruptContextKeepsOwnerState := by
  intro s t hok busy h
  obtain ⟨i, prog, flight⟩ := hok.irq.flight busy
  have change : IrqChange s t := by
    simp only [seqStep, seqOf_irq, flight.program, List.getElem?_eq_getElem flight.inside] at h
    have ops := progOf_irqOps flight.context (flight.op ▸ flight.program)
    exact (ops _ (List.getElem_mem flight.inside)).irqChange hok.regs h
  cases change with
  | intro irq code seq word swier pr csr isr lvl flags wuf => exact ⟨rfl, flags, wuf⟩

/-! ### UNPEND_EVENT (R150) -/

/-- The registers as UNPEND_EVENT leaves them: WUF, the event's flag and the pending bit of its line cleared, in this order. -/
def unpended (s : State) (e : Event) : State := writePr (bit (eventLine e)) (flagCleared (wufCleared s) e)

theorem unpended_setSeq (s : State) (q : SeqId) (c : Seq) (e : Event) : unpended (setSeq s q c) e = setSeq (unpended s e) q c := by
  cases q <;> rfl

theorem lx0_eventCode {α : Type} {x : Latches} {e : Event} (hx : x = loadedLatches (.unpendEvent e)) (f : Event → α) :
    lx0 (fun v => f (latchEvent v)) x = some (f e) := by
  subst hx; cases e <;> rfl

/-- The run of UNPEND_EVENT (R150): it needs no open bracket and waits for nothing. -/
theorem Running.unpendEvent {q : SeqId} {s : State} {e : Event} (h : Running q s progUnpendEvent) (hr : RegsOk s)
    (hw : Waits q s.moves) (hx : (seqOf s q).x = loadedLatches (.unpendEvent e)) :
    Leads q 4 (atPc q s 0) (complete q 0x00#8 (atPc q (unpended s e) 3)) := by
  have r1 : RegsOk (wufCleared s) := hr.settle_clearWuf ▸ hr.write .pwrCr _
  have r2 : RegsOk (flagCleared (wufCleared s) e) := r1.settle_clearFlag e ▸ r1.write .isr _
  have clearWuf := h.rmw (k := 0) (.of_waits hw h.busy) rfl rfl rfl hr.settle_clearWuf
  have h1 : Running q (wufCleared s) progUnpendEvent := h.congr rfl rfl rfl rfl fun _ => rfl
  have clearFlag := h1.isrClr (k := 1) (.of_waits hw h1.busy) rfl (lx0_eventCode hx fun e => bit (eventFlagBit e))
    (r1.settle_clearFlag e)
  have h2 : Running q (flagCleared (wufCleared s) e) progUnpendEvent := h1.congr rfl rfl rfl rfl fun _ => rfl
  have clearPr := h2.wr (k := 2) (t := unpended s e) (.of_waits hw h2.busy) rfl
    (lx0_eventCode hx fun e => bit (eventLine e)) (r2.settle_router _ _ _)
  have h3 : Running q (unpended s e) progUnpendEvent := h2.congr rfl rfl rfl rfl fun _ => rfl
  exact ((clearWuf.then clearFlag).then clearPr).then (h3.done (k := 3) (.of_waits hw h3.busy) rfl)

/-- UNPEND_EVENT completes in either context (R150). -/
theorem exec_unpendEvent {q : SeqId} {s : State} (e : Event) (hr : ContextReady q s) (hw : Waits q s.moves) :
    ∃ c, Finished c (.unpendEvent e) 0x00#8 (seqOf s q).res ∧ exec (.unpendEvent e) s = .next (setSeq (unpended s e) q c) := by
  refine ⟨{ loadedSeq (seqOf s q) (.unpendEvent e) with pc := 4, status := 0x00#8, busy := false }, ⟨rfl, rfl, rfl, rfl, rfl⟩, ?_⟩
  rw [exec_eq_issue]
  refine issue_of_run (n := 4) hr hw (hr.accepts rfl (by cases q <;> rfl) rfl) rfl (by decide) (fun hR _ => ?_) (.inl (by simp))
  have run := hR.unpendEvent (e := e) (hr.regs.congr (by cases q <;> rfl)) (by rw [setSeq_moves]; exact hw)
    (by rw [seqOf_setSeq_self]; rfl)
  simpa [complete, atPc, unpended_setSeq] using run

/-- A cleared bit reads 0. -/
theorem getLsbD_andNot_bit_self {n : Nat} (x : Word) (hn : n < 32) : (x &&& ~~~bit n).getLsbD n = false := by
  simp [bit_getLsbD n n hn]

/-- Settles O42: UNPEND_EVENT clears ALRAF and, after the edge, PR[17]; ALRBF with its enable holds the level of line 17. -/
theorem sharedAlarmLine : Obligations.SharedAlarmLine := by
  intro q s hr hw _ hb hbie
  obtain ⟨c, -, hex⟩ := exec_unpendEvent .alarmA hr hw
  let u : State := flagCleared (wufCleared s) .alarmA
  have flagA : alraf u = false := getLsbD_andNot_bit_self (n := 8) _ (by decide)
  have flagB : alrbf u = true := (getLsbD_andNot_bit_ne (n := 8) (i := 9) (by decide) (by decide) (by decide)).trans hb
  have level : u.lvl.l17 = true := by
    show ((alraf u && alraie u) || (alrbf u && alrbie u)) = true
    rw [flagB, show alrbie u = true from hbie, Bool.and_self, Bool.or_true]
  have pending : (writePr (bit 17) u).extiPr.getLsbD 17 = false := getLsbD_andNot_bit_self _ (by decide)
  have request : interruptRequest (writePr (bit 17) u) 17 = false := by rw [interruptRequest, pending, Bool.false_and]
  refine ⟨_, hex, ?_⟩
  cases q <;> exact ⟨flagA, flagB, level, pending, request⟩

end Sys2Proof.Machine
end

section
/-! SUPPORT. Software pending (R182) and the edge detector (R170, R181), bit by bit. -/

namespace Sys2Proof.Machine

/-! ### A write to EXTI_SWIER (R182) -/

theorem writeSwier_extiSwier_getLsbD (v : Word) (s : State) {n : Nat} (hn : n < 32) :
    (writeSwier v s).extiSwier.getLsbD n = (s.extiSwier.getLsbD n || (v.getLsbD n && decide (n < s.par.nLines))) := by
  simp only [writeSwier, lineMask, BitVec.getLsbD_or, BitVec.getLsbD_and, BitVec.getLsbD_not, lowMask_getLsbD _ _ hn, hn,
    decide_true, Bool.true_and]
  cases s.extiSwier.getLsbD n <;> simp

theorem writeSwier_extiPr_getLsbD (v : Word) (s : State) {n : Nat} (hn : n < 32) :
    (writeSwier v s).extiPr.getLsbD n = (s.extiPr.getLsbD n || (v.getLsbD n && decide (n < s.par.nLines)
      && !s.extiSwier.getLsbD n && (s.extiImr.getLsbD n || !s.par.swierNeedsImr))) := by
  have risen : (v &&& ~~~s.extiSwier &&& lineMask s.par).getLsbD n =
      (v.getLsbD n && decide (n < s.par.nLines) && !s.extiSwier.getLsbD n) := by
    simp only [lineMask, BitVec.getLsbD_and, BitVec.getLsbD_not, lowMask_getLsbD _ _ hn, hn, decide_true, Bool.true_and]
    rw [Bool.and_right_comm]
  simp only [writeSwier, BitVec.getLsbD_or]
  cases s.par.swierNeedsImr <;> simp [risen]

/-- Settles O16: in a sound state nothing follows the register's own rule, which is read off bit by bit. -/
theorem softwarePend : Obligations.SoftwarePend := by
  intro s v hr
  refine ⟨(writeSwier v s).extiSwier, (writeSwier v s).extiPr, ?write, fun n hn =>
    ⟨writeSwier_extiSwier_getLsbD v s hn, writeSwier_extiPr_getLsbD v s hn⟩⟩
  rw [memWrite_regAddr hr.params]
  exact congrArg some (hr.settle_router _ _ s.pwrCsr)

/-! ### The edge detector (R170, R181) -/

theorem getLsbD_ite_bit (c : Bool) {k n : Nat} (hk : k < 32) :
    (if c then bit k else 0#32).getLsbD n = (decide (n = k) && c) := by
  cases c <;> simp [bit_getLsbD k n hk]

theorem edgePending_getLsbD (s : State) (n : Nat) : (edgePending s).getLsbD n =
    ((decide (n = 17) && edgeSets s 17 s.lvl.l17 (levelsOf s).l17) ||
      (decide (n = 19) && edgeSets s 19 s.lvl.l19 (levelsOf s).l19) ||
      (decide (n = 20) && edgeSets s 20 s.lvl.l20 (levelsOf s).l20)) := by
  simp only [edgePending, BitVec.getLsbD_or, getLsbD_ite_bit, Nat.reduceLT]

/-- Settles O19: the recorded levels are the present ones, and the detector adds `edgePending` to EXTI_PR. -/
theorem edgeDetector : Obligations.EdgeDetector := by
  refine fun s => ⟨rfl, rfl, rfl, fun n _ => ?_⟩
  rw [detectEdges_extiPr, BitVec.getLsbD_or, edgePending_getLsbD, ← Bool.or_assoc, ← Bool.or_assoc]
  rfl

end Sys2Proof.Machine
end

section
/-! SUPPORT. The environment's draws at the head of the schedule (R174 to R184): one that is enabled has its effect and the edges
of it, and one that is not leaves the step to the sequencers. -/

namespace Sys2Proof.Machine

/-! ### What shows that the backup domain is not held in reset (R107) -/

/-- In a held domain RTC_CR, RTC_ISR and the backup fields of RCC_CSR are at their reset values (R52). -/
theorem RegsOk.of_held {s : State} (h : RegsOk s) (hd : domainHeld s = true) :
    s.rtcCr = 0x00000000#32 ∧ s.rtcIsr = 0x00000007#32 ∧ s.rccCsr &&& csrBackupMask s.par = 0#32 := by
  have reset := h.held
  rw [holdDomain, if_pos hd] at reset
  have csr : s.rccCsr &&& ~~~csrBackupMask s.par = s.rccCsr := congrArg State.rccCsr reset
  exact ⟨(congrArg State.rtcCr reset).symm, (congrArg State.rtcIsr reset).symm, csr ▸ andNot_and_of_inside _ (inside_refl _)⟩

theorem RegsOk.live_of_cr {s : State} (h : RegsOk s) {n : Nat} (hn : s.rtcCr.getLsbD n = true) : domainHeld s = false := by
  refine Bool.eq_false_iff.mpr fun hd => ?_
  obtain ⟨cr, -⟩ := h.of_held hd
  rw [cr, BitVec.getLsbD_zero] at hn
  cases hn

theorem RegsOk.live_of_isr {s : State} (h : RegsOk s) {n : Nat} (hn : s.rtcIsr.getLsbD n ≠ (0x00000007#32).getLsbD n) :
    domainHeld s = false := by
  refine Bool.eq_false_iff.mpr fun hd => ?_
  obtain ⟨-, isr, -⟩ := h.of_held hd
  exact hn (by rw [isr])

theorem RegsOk.live_of_csr {s : State} (h : RegsOk s) {n : Nat} (hn : n = 8 ∨ n = 9 ∨ n = 22)
    (hs : s.rccCsr.getLsbD n = true) : domainHeld s = false := by
  refine Bool.eq_false_iff.mpr fun hd => ?_
  have inside : bit n &&& ~~~csrBackupMask s.par = 0#32 :=
    inside_csrBackupMask s.par (by rcases hn with rfl | rfl | rfl <;> simp)
  obtain ⟨-, -, fields⟩ := h.of_held hd
  have clear : s.rccCsr &&& bit n = 0#32 := by
    rw [← and_mask_id inside, BitVec.and_comm (bit n), ← BitVec.and_assoc, fields, BitVec.zero_and]
  rw [and_bit_eq_zero (by omega), hs] at clear
  cases clear

/-- The draws of the internal oscillator, whose bits of RCC_CSR lie outside the backup domain (R47, R107). -/
def Draw.isLsi : Draw → Bool
  | .lsirdySet | .lsirdyClear => true
  | .initfSet | .initfClear | .rsfSet | .calendarTick | .wutwfSet | .wutwfClear | .wutfSet _ | .alrafSet _ | .alrbfSet _
  | .tsfSet _ | .lserdySet | .lserdyClear => false

/-- Every other draw has a condition that no held domain meets. -/
theorem RegsOk.live_of_draw {s : State} {d : Draw} (h : RegsOk s) (hd : drawEnabled d s = true) (hl : d.isLsi = false) :
    domainHeld s = false := by
  cases d <;> simp only [drawEnabled, Bool.and_eq_true, Bool.not_eq_true'] at hd
  case initfSet => exact h.live_of_isr (n := 7) (by rw [show s.rtcIsr.getLsbD 7 = true from hd.1]; decide)
  case initfClear => exact h.live_of_isr (n := 6) (by rw [show s.rtcIsr.getLsbD 6 = true from hd.2]; decide)
  case wutwfSet => exact h.live_of_isr (n := 2) (by rw [show s.rtcIsr.getLsbD 2 = false from hd.2]; decide)
  case rsfSet | calendarTick | lserdyClear => exact h.live_of_csr (by decide) hd.2
  case lserdySet => exact h.live_of_csr (by decide) hd.1
  case wutwfClear => exact h.live_of_cr hd.1
  case wutfSet | alrafSet | alrbfSet | tsfSet => exact h.live_of_cr hd
  case lsirdySet | lsirdyClear => cases hl

/-! ### What follows a draw in the same step (R107, R170) -/

/-- No draw touches the domain-reset bit. -/
theorem domainHeld_drawEffect {s : State} (hp : paramsOk s.par = true) (d : Draw) :
    domainHeld (drawEffect d s) = domainHeld s := by
  have places := csrPlaces hp
  obtain ⟨-, h1, -, h9, -⟩ := places.domrst_ne
  cases d
  case lserdySet => exact getLsbD_or_bit_ne (by decide) h9
  case lserdyClear => exact getLsbD_andNot_bit_ne (by decide) places.domrst h9
  case lsirdySet => exact getLsbD_or_bit_ne (by decide) h1
  case lsirdyClear => exact getLsbD_andNot_bit_ne (by decide) places.domrst h1
  all_goals rfl

/-- LSIRDY is no field of the backup domain. -/
theorem lsirdy_and_csrBackupMask {p : Params} (hp : paramsOk p = true) : bit 1 &&& csrBackupMask p = 0#32 := by
  have places := csrPlaces hp
  obtain ⟨-, low, -⟩ := places.rtcsel_ne p.rtcselLsb (.inl rfl)
  obtain ⟨-, high, -⟩ := places.rtcsel_ne (p.rtcselLsb + 1) (.inr rfl)
  have rtcsel := bit_and_rtcselMask places (n := 1) (by decide) low.symm high.symm
  simp only [csrBackupMask, BitVec.and_or_distrib_left, rtcsel]
  decide

/-- A held domain stays at its reset values under a change of RCC_CSR outside the backup fields. -/
theorem RegsOk.hold_csr {s : State} (h : RegsOk s) {x : Word} (hd : domainHeld { s with rccCsr := x } = domainHeld s)
    (hx : s.rccCsr &&& csrBackupMask s.par = 0#32 → x &&& csrBackupMask s.par = 0#32) :
    holdDomain { s with rccCsr := x } = { s with rccCsr := x } := by
  cases held : domainHeld s with
  | false => exact holdDomain_of_live (hd.trans held)
  | true =>
    have reset := h.held
    rw [holdDomain, if_pos held] at reset
    obtain ⟨-, -, fields⟩ := h.of_held held
    have kept : x &&& ~~~csrBackupMask s.par = x := and_mask_id (by simpa using hx fields)
    rw [holdDomain, if_pos (hd.trans held)]
    calc backupDomainReset { s with rccCsr := x }
        = { backupDomainReset s with rccCsr := x &&& ~~~csrBackupMask s.par } := rfl
      _ = { s with rccCsr := x } := by rw [reset, kept]

/-- After an enabled draw the held domain has nothing to undo. -/
theorem RegsOk.hold_drawEffect {s : State} {d : Draw} (h : RegsOk s) (hd : drawEnabled d s = true) :
    holdDomain (drawEffect d s) = drawEffect d s := by
  have same := domainHeld_drawEffect h.params d
  cases hl : d.isLsi with
  | false => exact holdDomain_of_live (same.trans (h.live_of_draw hd hl))
  | true =>
    cases d <;> simp only [Draw.isLsi, Bool.false_eq_true] at hl
    case lsirdySet => exact h.hold_csr same fun clear => or_and_eq_zero clear (lsirdy_and_csrBackupMask h.params)
    case lsirdyClear =>
      exact h.hold_csr same fun clear => by
        rw [BitVec.and_assoc, BitVec.and_comm _ (csrBackupMask _), ← BitVec.and_assoc, clear, BitVec.zero_and]

/-- An enabled draw has its effect, with the edges of it. -/
theorem RegsOk.envStep_of_enabled {s : State} {d : Draw} (h : RegsOk s) (hd : drawEnabled d s = true) :
    Machine.envStep d s = detectEdges (drawEffect d s) := by
  rw [Machine.envStep, settle, h.hold_drawEffect hd]

/-- The draws that set an event flag (R178 to R180), which are those that can move a level. -/
def Draw.isEvent : Draw → Bool
  | .wutfSet _ | .alrafSet _ | .alrbfSet _ | .tsfSet _ => true
  | .initfSet | .initfClear | .rsfSet | .calendarTick | .wutwfSet | .wutwfClear | .lserdySet | .lserdyClear | .lsirdySet
  | .lsirdyClear => false

theorem levelsOf_drawEffect {d : Draw} (hd : d.isEvent = false) (s : State) : levelsOf (drawEffect d s) = levelsOf s := by
  cases d
  case initfSet =>
    exact levelsOf_congr rfl fun n _ _ => (getLsbD_andNot_bit_ne (by decide) (by omega) (by omega)).trans
      (getLsbD_or_bit_ne (by decide) (by omega))
  case initfClear | wutwfClear =>
    exact levelsOf_congr rfl fun n _ _ => getLsbD_andNot_bit_ne (by decide) (by omega) (by omega)
  case rsfSet | wutwfSet => exact levelsOf_congr rfl fun n _ _ => getLsbD_or_bit_ne (by decide) (by omega)
  case wutfSet | alrafSet | alrbfSet | tsfSet => cases hd
  all_goals rfl

theorem drawEffect_lvl (d : Draw) (s : State) : (drawEffect d s).lvl = s.lvl := by cases d <;> rfl

/-! ### A draw at the head of the schedule (R167) -/

section
variable {s : State} {d : Draw} {rest : List Move}

/-- An enabled draw is the step. -/
theorem step_draw (hr : RegsOk s) (hw : s.port.word = none) (hm : s.moves = .env d :: rest) (hd : drawEnabled d s = true) :
    step s = .next (detectEdges (drawEffect d { s with moves := rest })) := by
  have hr' : RegsOk { s with moves := rest } := hr.congr rfl
  rw [step_eq_tick hr.params hw, tick_draw hm hd, hr'.envStep_of_enabled]
  exact (drawEnabled_congr d rfl rfl rfl).trans hd

/-- One that sets no event flag makes no edge. -/
theorem step_quietDraw (hr : RegsOk s) (hw : s.port.word = none) (hm : s.moves = .env d :: rest)
    (hd : drawEnabled d s = true) (he : d.isEvent = false) : step s = .next (drawEffect d { s with moves := rest }) := by
  rw [step_draw hr hw hm hd, detectEdges_of_levels]
  rw [drawEffect_lvl, levelsOf_drawEffect he]
  exact hr.levels

/-- A step in which the schedule makes no move is that of the machine with an empty schedule. -/
theorem step_of_notReady (hr : RegsOk s) (hw : s.port.word = none) (hq : readyMove s = none) {t : State}
    (h : step s = .next t) : t.moves = s.moves ∧ step (withMoves [] s) = .next (withMoves [] t) := by
  have empty : readyMove (withMoves [] s) = none := rfl
  rw [step_eq_tick hr.params hw] at h
  rw [step_eq_tick (s := withMoves [] s) hr.params hw]
  simp only [tick, hq, empty, turn_withMoves] at h ⊢
  cases ht : turn s with
  | none => rw [ht] at h; cases h; exact ⟨rfl, rfl⟩
  | some q =>
    rw [ht] at h
    dsimp only at h ⊢
    rw [seqStep_withMoves, h]
    exact ⟨(seqStep_frame h).moves, rfl⟩

end

/-- Settles O20: the conditions are those of `drawEnabled`. An enabled draw has its effect, with an edge only where it sets an
event flag; of one that is not enabled the machine sees nothing. -/
theorem environmentDraws : Obligations.EnvironmentDraws := by
  intro s d rest hr hw hm
  have event (hd : drawEnabled d s = true) := step_draw hr hw hm hd
  have quiet (he : d.isEvent = false) (hd : drawEnabled d s = true) := step_quietDraw hr hw hm hd he
  refine ⟨?blocked, ?_, ?_, ?_, ?_, ?_, ?_, fun w => ?events, ?_, ?_, ?_, ?_⟩
  case blocked =>
    intro failed t h
    have disabled : drawEnabled d s = false := by
      refine Bool.eq_false_iff.mpr fun enabled => ?_
      cases d <;> simp only [drawEnabled, Bool.and_eq_true, Bool.not_eq_true'] at enabled <;> simp [enabled] at failed
    exact step_of_notReady hr hw (Silent.draw (q := .owner) d rest hm disabled).ready h
  case events => refine ⟨?_, ?_, ?_, ?_⟩ <;> (rintro rfl enable; exact event enable)
  all_goals
    rintro rfl h h'
    exact quiet rfl (by simp [drawEnabled, h, h'])

end Sys2Proof.Machine
end

section
/-! SUPPORT. The end of an interrupt command (R167): its micro-ops find every latch they read and none of them waits, so that each
of the machine's steps is the next one of them. -/

namespace Sys2Proof.Machine

/-! ### Micro-ops that run to their END (R26, R88) -/

/-- From the latches `x` the micro-ops of a list run to the `END` that closes it: each finds the latches it reads, whatever the
registers read before answered, and none waits. The kinds are those of the interrupt context's commands. -/
inductive EndsFrom : Latches → List MicroOp → Prop
  | done {x : Latches} : EndsFrom x [.done]
  | check {x : Latches} {ops : List MicroOp} {c : LExpr Bool} {ok : Bool} (value : c x = some ok) (rest : EndsFrom x ops) :
      EndsFrom x (.check c :: ops)
  | faultIf {x : Latches} {ops : List MicroOp} {c : LExpr Bool} {bad : Bool} {code : FaultCode} (value : c x = some bad)
      (rest : EndsFrom x ops) : EndsFrom x (.faultIf c code :: ops)
  | res {x : Latches} {ops : List MicroOp} {e : LExpr (BitVec 64)} {v : BitVec 64} (value : e x = some v)
      (rest : EndsFrom x ops) : EndsFrom x (.res e :: ops)
  | wr {x : Latches} {ops : List MicroOp} {r : Reg} {e : LExpr Word} {v : Word} (value : e x = some v)
      (rest : EndsFrom x ops) : EndsFrom x (.wr r e :: ops)
  | rmw {x : Latches} {ops : List MicroOp} {r : Reg} {em ev : LExpr Word} {m v : Word} (mask : em x = some m)
      (value : ev x = some v) (rest : EndsFrom x ops) : EndsFrom x (.rmw r em ev :: ops)
  | isrClr {x : Latches} {ops : List MicroOp} {em : LExpr Word} {m : Word} (mask : em x = some m) (rest : EndsFrom x ops) :
      EndsFrom x (.isrClr em :: ops)
  | rd {x : Latches} {ops : List MicroOp} {i : Nat} {r : Reg} (rest : ∀ v, EndsFrom (setLatch x i v) ops) :
      EndsFrom x (.rd i r :: ops)

theorem setLatch_of_getLatch {x : Latches} {i : Nat} {v : Word} (h : getLatch x i = some v) : setLatch x i v = x := by
  match i with
  | 0 | 1 | 2 | 3 | 4 | 5 | 6 | 7 => cases x; cases h; rfl
  | _ + 8 => cases h

/-- The micro-ops after one whose latch is written already. -/
theorem EndsFrom.tail {x : Latches} {m : MicroOp} {ops : List MicroOp} (h : EndsFrom x (m :: ops)) (hne : ops ≠ [])
    (hw : ∀ i, writtenLatch m = some i → (getLatch x i).isSome = true) : EndsFrom x ops := by
  cases h
  case done => exact absurd rfl hne
  case rd rest =>
    obtain ⟨v, hv⟩ := Option.isSome_iff_exists.mp (hw _ rfl)
    exact setLatch_of_getLatch hv ▸ rest v
  all_goals assumption

/-- The micro-ops from any place on, where the latches hold what the earlier ones write. -/
theorem EndsFrom.drop {x : Latches} {prog : List MicroOp} (h : EndsFrom x prog) {k : Nat} (hk : k < prog.length)
    (hw : ∀ j m i, j < k → prog[j]? = some m → writtenLatch m = some i → (getLatch x i).isSome = true) :
    EndsFrom x (prog.drop k) := by
  induction k with
  | zero => exact h
  | succ k ih =>
    have before : k < prog.length := Nat.lt_of_succ_lt hk
    have here := ih before fun j m i hj => hw j m i (Nat.lt_succ_of_lt hj)
    rw [List.drop_eq_getElem_cons before] at here
    exact here.tail (List.ne_nil_of_length_pos (by rw [List.length_drop]; omega)) fun i =>
      hw k _ i (Nat.lt_succ_self k) (List.getElem?_eq_getElem before)

/-! ### The commands of the interrupt context (R137, R138, R150 to R154) -/

/-- The check of BCD_ENCODE answers for every defined field select (R76, R137). -/
theorem encodeCheck_answers {f : BitVec 3} (hf : f ≠ 7#3) (v : BitVec 8) :
    ∃ ok, encodeCheck (loadedLatches (.bcdEncode f v)) = some ok := by
  cases h : operandsInDomain (.bcdEncode f v) with
  | false => exact ⟨_, (encodeCheck_fails h).2⟩
  | true => exact ⟨_, encodeCheck_holds hf h⟩

/-- An interrupt command in flight runs to its END from its first micro-op, on the latches it has now. -/
theorem InFlight.endsFrom {p : Params} {c : Seq} {i : Instr} {prog : List MicroOp} (h : InFlight p .irq c i prog) :
    EndsFrom c.x prog := by
  have program : progOf p (opcode i) = some prog := h.op ▸ h.program
  have context := h.context
  have one {α : Type} {f : Word → α} {w : Word} (hx : getLatch (loadedLatches i) 0 = some w) : lx0 f c.x = some (f w) :=
    congrArg (Option.map f) (h.loaded 0 w hx)
  cases i <;> cases context <;> cases program
  case unpendEvent e => exact .rmw rfl rfl (.isrClr (one rfl) (.wr (one rfl) .done))
  case pendLine l | unpendLine l => exact .faultIf (one rfl) (.wr (one rfl) .done)
  case isPendingLine l =>
    have line : c.x.x0 = some (l.setWidth 32) := h.loaded 0 _ rfl
    refine .faultIf (one rfl) (.rd fun v => .res (v := if v.getLsbD (l.setWidth 32).toNat then 1#64 else 0#64) ?_ .done)
    simp only [lx06, setLatch, line]
  case bcdEncode f v =>
    have value : c.x.x0 = some (v.setWidth 32) := h.loaded 0 _ rfl
    have select : c.x.x1 = some (f.setWidth 32) := h.loaded 1 _ rfl
    have defined : f ≠ 7#3 := by simpa [Instr.wellFormed, fieldSelectDefined] using (encodeOfDecode _ _ h.word).1
    obtain ⟨ok, answer⟩ := encodeCheck_answers defined v
    have answer' : encodeCheck c.x = some ok := by rw [← answer]; simp only [encodeCheck, value, select, loadedLatches]
    exact .check answer' (.res (one rfl) .done)
  case bcdDecode t u =>
    have units : c.x.x0 = some (u.setWidth 32) := h.loaded 0 _ rfl
    have tens : c.x.x1 = some (t.setWidth 32) := h.loaded 1 _ rfl
    exact .res (v := BitVec.ofNat 64 (dec (t.setWidth 32).toNat (u.setWidth 32).toNat)) (by simp only [lx01, units, tens]) .done

/-- No program of the interrupt context has more than four micro-ops (R167). -/
theorem progOf_irq_length {p : Params} {i : Instr} {prog : List MicroOp} (hc : contextAllows .irq i = true)
    (hp : progOf p (opcode i) = some prog) : prog.length ≤ 4 := by
  cases i <;> cases hc <;> cases hp <;> exact Nat.le_of_ble_eq_true rfl

/-! ### One micro-op of such a run -/

/-- A sequencer moved on by one micro-op, to other latches and another result. -/
def movedOn (c : Seq) (x : Latches) (res : BitVec 64) : Seq := { c with x := x, res := res, pc := c.pc + 1 }

/-- The first micro-op of a run to the END answers: the command ends, it faults, or the rest of the run is still to come. -/
theorem EndsFrom.runMicroOp {q : SeqId} {s : State} {m : MicroOp} {ops : List MicroOp} (h : EndsFrom (seqOf s q).x (m :: ops))
    (hp : paramsOk s.par = true) : ∃ t, runMicroOp q m s = .next t ∧
      ((seqOf t q).busy = false ∨ faulted t = true ∨
        ∃ x res, seqOf t q = movedOn (seqOf s q) x res ∧ EndsFrom x ops) := by
  have written (r : Reg) (v : Word) (u : State) (hu : seqOf u q = seqOf s q) (rest : EndsFrom (seqOf s q).x ops) :
      ∃ x res, seqOf (advance q 1 (settle (writeReg r v u))) q = movedOn (seqOf s q) x res ∧ EndsFrom x ops :=
    ⟨_, _, by rw [seqOf_advance, seqOf_settle, seqOf_writeReg, hu]; rfl, rest⟩
  cases h
  case done => exact ⟨_, rfl, .inl (by simp)⟩
  case check ok value rest =>
    refine ⟨_, withValue_eq value _, ?_⟩
    cases ok
    · exact .inl (by simp)
    · exact .inr (.inr ⟨_, _, seqOf_advance q 1 s, rest⟩)
  case faultIf bad code value rest =>
    refine ⟨_, withValue_eq value _, ?_⟩
    cases bad
    · exact .inr (.inr ⟨_, _, seqOf_advance q 1 s, rest⟩)
    · exact .inr (.inl (by cases code <;> rfl))
  case res value rest => exact ⟨_, withValue_eq value _, .inr (.inr ⟨_, _, seqOf_setSeq_self s q _, rest⟩)⟩
  case wr value rest =>
    exact ⟨_, by rw [Machine.runMicroOp, withValue_eq value, withWrite_eq hp], .inr (.inr (written _ _ s rfl rest))⟩
  case rmw r em ev m v mask value rest =>
    exact ⟨_, by rw [Machine.runMicroOp, withValue_eq mask, withValue_eq value, withRead_eq hp, withWrite_eq (by simpa using hp)],
      .inr (.inr (written _ _ _ (seqOf_readReg r s q) rest))⟩
  case isrClr m mask rest =>
    exact ⟨_, by rw [Machine.runMicroOp, withValue_eq mask, withRead_eq hp, withWrite_eq (by simpa using hp)],
      .inr (.inr (written _ _ _ (seqOf_readReg .isr s q) rest))⟩
  case rd i r rest =>
    exact ⟨_, by rw [Machine.runMicroOp, withRead_eq hp], .inr (.inr ⟨_, _,
      by rw [setLatchAdvance, seqOf_setSeq_self, seqOf_readReg]; rfl, rest (readReg r s).1⟩)⟩

theorem EndsFrom.not_poll {x : Latches} {m : MicroOp} {ops : List MicroOp} (h : EndsFrom x (m :: ops)) (r : Reg) (a b : Word) :
    m ≠ .poll r a b := by
  rintro rfl; cases h

/-! ### The steps of the machine (R167) -/

/-- With an empty port and schedule the machine's step is the next micro-op of the sequencer that has the turn. -/
theorem SeqAt.step_eq {q : SeqId} {s t : State} {prog : List MicroOp} {k : Nat} {m : MicroOp} (h : SeqAt q s prog k)
    (hmv : s.moves = []) (hw : s.port.word = none) (hm : prog[k]? = some m) (hp : ∀ r a b, m ≠ .poll r a b)
    (ht : runMicroOp q m s = .next t) : step s = .next t := by
  have turn := h.turn (not_held (h.next.trans hm) hp)
  have silent : readyMove s = none := (Silent.empty (q := q) hmv).ready
  rw [step_eq_tick h.params hw]
  simp only [tick, silent, turn, seqStep, h.program, h.pc, hm, ht]

/-- An interrupt command with `ops` still to take ends within as many steps, and OWNER stays as it is. -/
theorem irq_ends {ops prog : List MicroOp} {s : State} {k : Nat} (hs : SeqAt .irq s prog k) (hmv : s.moves = [])
    (hw : s.port.word = none) (hops : prog.drop k = ops) (h : EndsFrom s.irq.x ops) :
    ∃ n t, n ≤ ops.length ∧ core.run n s = .next t ∧ t.owner = s.owner ∧ (t.irq.busy = false ∨ faulted t = true) := by
  induction ops generalizing s k with
  | nil => cases h
  | cons m ops ih =>
    have next : prog[k]? = some m := by rw [← List.head?_drop, hops]; rfl
    have later : prog.drop (k + 1) = ops := by rw [← List.tail_drop, hops]; rfl
    obtain ⟨u, hu, outcome⟩ := EndsFrom.runMicroOp (q := .irq) h hs.params
    have first : core.step s = .next u := hs.step_eq hmv hw next h.not_poll hu
    have frame := runMicroOp_frame hu
    have owner : u.owner = s.owner := frame.other .owner (by decide)
    have run (n : Nat) : core.run (n + 1) s = core.run n u := core_run_succ first
    by_cases ended : u.irq.busy = false ∨ faulted u = true
    · exact ⟨1, u, Nat.succ_le_succ (Nat.zero_le _), run 0, owner, ended⟩
    · obtain idle | fault | ⟨x, res, moved, rest⟩ := outcome
      · exact absurd (.inl idle) ended
      · exact absurd (.inr fault) ended
      · rw [not_or, Bool.not_eq_false, Bool.not_eq_true] at ended
        obtain ⟨busy, unfaulted⟩ := ended
        have moved : u.irq = movedOn s.irq x res := moved
        have next_at : SeqAt .irq u prog (k + 1) := {
          params := frame.par ▸ hs.params
          noFault := by simpa [faulted] using unfaulted
          busy := busy
          irqIdle := fun e => nomatch e
          program := by rw [frame.par, seqOf_irq, moved]; exact hs.program
          pc := by rw [seqOf_irq, moved]; exact congrArg (· + 1) hs.pc }
        obtain ⟨n, t, hn, ht, same, ended⟩ := ih next_at (frame.moves.trans hmv) (frame.port ▸ hw) later (by rw [moved]; exact rest)
        exact ⟨n + 1, t, Nat.succ_le_succ hn, (run n).trans ht, same.trans owner, ended⟩

/-- Settles O51: from where its `pc` stands the command in flight has at most the four micro-ops of its program to take. -/
theorem interruptCommandsAreBounded : Obligations.InterruptCommandsAreBounded := by
  intro s hok busy unfaulted hmv hw
  obtain ⟨i, prog, flight⟩ := hok.irq.flight busy
  have hs : SeqAt .irq s prog s.irq.pc := {
    params := hok.regs.params, noFault := by simpa [faulted] using unfaulted, busy := busy
    irqIdle := (fun e => nomatch e), program := flight.program, pc := rfl }
  have ends := flight.endsFrom.drop flight.inside flight.written
  obtain ⟨n, t, hn, ht, owner, ended⟩ := irq_ends hs hmv hw rfl ends
  have short : prog.length ≤ 4 := progOf_irq_length flight.context (flight.op ▸ flight.program)
  exact ⟨n, t, by rw [List.length_drop] at hn; omega, ht, owner, ended⟩

end Sys2Proof.Machine
end

section
/-! SUPPORT. The micro-program counter (R27): where a sequencer stands after each kind of micro-op, said once, and what every
micro-program has in common: room for the next micro-op after every one but END, and no latch written among those that a SKIPIF
passes over. -/

namespace Sys2Proof.Machine

/-! ### The sequencer after its micro-op (R27, R88) -/

/-- The value that a read of a register by name presents (R59). -/
def presented (s : State) (r : Reg) : Word := ((memRead (regAddr s.par r) s).map Prod.fst).getD 0#32

theorem presented_eq {s : State} (h : paramsOk s.par = true) (r : Reg) : presented s r = (readReg r s).1 := by
  simp [presented, memRead_regAddr h]

theorem presented_of_memRead {s u : State} {r : Reg} {v : Word} (h : memRead (regAddr s.par r) s = some (v, u)) :
    presented s r = v := by
  simp [presented, h]

/-- A sequencer `c` after its micro-op `m`, the registers presenting `value`. -/
def seqAfter (m : MicroOp) (value : Reg → Word) (c : Seq) : Seq :=
  match m with
  | .check e => if e c.x = some true then { c with pc := c.pc + 1 }
      else { c with status := 0x01#8, busy := false, pc := c.pc + 1 }
  | .calc i e => { c with x := setLatch c.x i ((e c.x).getD 0#32), pc := c.pc + 1 }
  | .rd i r => { c with x := setLatch c.x i (value r), pc := c.pc + 1 }
  | .wr _ _ | .rmw _ _ _ | .isrSetInit _ | .isrClr _ | .construct _ => { c with pc := c.pc + 1 }
  | .poll r a b => if value r &&& a = b then { c with pc := c.pc + 1 } else c
  | .skipIf r a b n => { c with pc := c.pc + (if value r &&& a = b then 1 + n else 1) }
  | .faultIf e _ => if e c.x = some true then c else { c with pc := c.pc + 1 }
  | .res e => { c with res := (e c.x).getD 0#64, pc := c.pc + 1 }
  | .done => { c with status := 0x00#8, busy := false, pc := c.pc + 1 }

/-- What a micro-op that answers makes of its own sequencer. -/
theorem seqOf_runMicroOp {q : SeqId} {m : MicroOp} {s t : State} (h : runMicroOp q m s = .next t) :
    seqOf t q = seqAfter m (presented s) (seqOf s q) := by
  match m, h with
  | .check c, h =>
    simp only [runMicroOp] at h
    obtain ⟨ok, hok, h⟩ := withValue_next h
    cases h
    cases ok <;> simp [seqAfter, hok]
  | .calc i e, h =>
    simp only [runMicroOp] at h
    obtain ⟨v, hv, h⟩ := withValue_next h
    cases h
    simp [seqAfter, setLatchAdvance, hv]
  | .wr r e, h =>
    simp only [runMicroOp] at h
    obtain ⟨v, -, h⟩ := withValue_next h
    obtain ⟨u, hu, h⟩ := withWrite_next h
    cases h
    simp [seqAfter, seqOf_memWrite hu]
  | .rd i r, h =>
    simp only [runMicroOp] at h
    obtain ⟨v, u, hu, h⟩ := withRead_next h
    cases h
    simp [seqAfter, setLatchAdvance, seqOf_memRead hu, presented_of_memRead hu]
  | .rmw r em ev, h =>
    simp only [runMicroOp] at h
    obtain ⟨m, -, h⟩ := withValue_next h
    obtain ⟨v, -, h⟩ := withValue_next h
    obtain ⟨old, u, hu, h⟩ := withRead_next h
    obtain ⟨w, hw, h⟩ := withWrite_next h
    cases h
    simp [seqAfter, seqOf_memWrite hw, seqOf_memRead hu]
  | .isrSetInit b, h =>
    simp only [runMicroOp] at h
    obtain ⟨u, hu, h⟩ := withWrite_next h
    cases h
    simp [seqAfter, seqOf_memWrite hu]
  | .isrClr e, h =>
    simp only [runMicroOp] at h
    obtain ⟨m, -, h⟩ := withValue_next h
    obtain ⟨old, u, hu, h⟩ := withRead_next h
    obtain ⟨w, hw, h⟩ := withWrite_next h
    cases h
    simp [seqAfter, seqOf_memWrite hw, seqOf_memRead hu]
  | .poll r a b, h =>
    simp only [runMicroOp] at h
    obtain ⟨v, u, hu, h⟩ := withRead_next h
    cases h
    simp only [seqAfter, presented_of_memRead hu]
    split
    · simp [seqOf_memRead hu]
    · rfl
  | .skipIf r a b n, h =>
    simp only [runMicroOp] at h
    obtain ⟨v, u, hu, h⟩ := withRead_next h
    cases h
    simp [seqAfter, seqOf_memRead hu, presented_of_memRead hu]
  | .faultIf c code, h =>
    simp only [runMicroOp] at h
    obtain ⟨bad, hbad, h⟩ := withValue_next h
    cases h
    cases bad
    · simp [seqAfter, hbad]
    · simp only [seqAfter, hbad, if_true]
      cases q <;> rfl
  | .res e, h =>
    simp only [runMicroOp] at h
    obtain ⟨v, hv, h⟩ := withValue_next h
    cases h
    simp [seqAfter, hv]
  | .construct src, h =>
    simp only [runMicroOp] at h
    cases h
    cases q <;> rfl
  | .done, h =>
    simp only [runMicroOp] at h
    cases h
    simp [seqAfter]

/-- A step of a sequencer inside its micro-program is its next micro-op. -/
theorem seqStep_eq {q : SeqId} {s : State} {prog : List MicroOp} {m : MicroOp} (hp : progOf s.par (seqOf s q).op = some prog)
    (hm : prog[(seqOf s q).pc]? = some m) : seqStep q s = runMicroOp q m s := by
  simp only [seqStep, hp, hm]

/-! ### What every micro-program has in common -/

/-- How many micro-ops beyond the next one a micro-op may pass over. -/
def MicroOp.skips : MicroOp → Nat
  | .skipIf _ _ _ n => n
  | _ => 0

/-- The micro-op is `END`. -/
def MicroOp.isDone : MicroOp → Bool
  | .done => true
  | _ => false

/-- Wherever a micro-op but `END` may go on to, a micro-op stands, and none of those it passes over writes a latch. -/
def wellShaped : List MicroOp → Bool
  | [] => true
  | m :: ops => (m.isDone || decide (m.skips < ops.length)) && ((ops.take m.skips).all fun k => (writtenLatch k).isNone) &&
      wellShaped ops

theorem progOf_wellShaped {p : Params} {op : Byte} {prog : List MicroOp} (h : progOf p op = some prog) : wellShaped prog = true := by
  unfold progOf at h
  split at h <;> cases h <;> rfl

section
variable {prog : List MicroOp} {k : Nat} {m : MicroOp}

theorem wellShaped_drop (h : wellShaped prog = true) (k : Nat) : wellShaped (prog.drop k) = true := by
  induction k generalizing prog with
  | zero => exact h
  | succ k ih =>
    cases prog with
    | nil => rfl
    | cons m ops =>
      simp only [wellShaped, Bool.and_eq_true] at h
      exact ih h.2

theorem drop_of_getElem? (hm : prog[k]? = some m) : prog.drop k = m :: prog.drop (k + 1) := by
  obtain ⟨hk, rfl⟩ := List.getElem?_eq_some_iff.mp hm
  exact List.drop_eq_getElem_cons hk

/-- A micro-op that is not `END` has room to go on, skipping included. -/
theorem room_of_wellShaped (h : wellShaped prog = true) (hm : prog[k]? = some m) (hd : m.isDone = false) :
    k + 1 + m.skips < prog.length := by
  have shape := wellShaped_drop h k
  rw [drop_of_getElem? hm] at shape
  simp only [wellShaped, hd, Bool.false_or, Bool.and_eq_true, decide_eq_true_eq, List.length_drop] at shape
  omega

/-- The micro-ops that another may pass over write no latch. -/
theorem skipped_of_wellShaped (h : wellShaped prog = true) (hm : prog[k]? = some m) {j : Nat} {m' : MicroOp} (hj : k < j)
    (hj' : j ≤ k + m.skips) (hm' : prog[j]? = some m') : writtenLatch m' = none := by
  have shape := wellShaped_drop h k
  rw [drop_of_getElem? hm] at shape
  simp only [wellShaped, Bool.and_eq_true, List.all_eq_true, Option.isNone_iff_eq_none] at shape
  refine shape.1.2 m' (List.mem_of_getElem? (i := j - (k + 1)) ?_)
  rw [List.getElem?_take_of_lt (by omega), List.getElem?_drop, show k + 1 + (j - (k + 1)) = j by omega, hm']

end

/-- A micro-op that does not idle its sequencer leaves it inside the micro-program (R27). -/
theorem seqAfter_inside {m : MicroOp} {value : Reg → Word} {c : Seq} {prog : List MicroOp} (h : wellShaped prog = true)
    (hm : prog[c.pc]? = some m) : (seqAfter m value c).busy = false ∨ (seqAfter m value c).pc < prog.length := by
  have here : c.pc < prog.length := (List.getElem?_eq_some_iff.mp hm).1
  have room := room_of_wellShaped h hm
  cases m
  case done => exact .inl rfl
  case skipIf r a b n =>
    refine .inr ?_
    have := room rfl
    simp only [seqAfter, MicroOp.skips] at this ⊢
    split <;> omega
  case check e => simp only [seqAfter]; split; exacts [.inr (room rfl), .inl rfl]
  case poll r a b => simp only [seqAfter]; split; exacts [.inr (room rfl), .inr here]
  case faultIf e code => simp only [seqAfter]; split; exacts [.inr here, .inr (room rfl)]
  all_goals exact .inr (room rfl)

/-- Settles O59: acceptance loads `pc`; a micro-op leaves it as `seqAfter` says, which is past the last micro-op only at `END`; the
longest micro-program has 23 micro-ops. -/
theorem microProgramCounter : Obligations.MicroProgramCounter := by
  refine ⟨fun q s w i hd hv => ?accepted, fun q s t m hp hm h => ?moved, fun q s t prog hp hk h hlen => ?ended,
    fun p op prog h => (progOf_length h).trans_lt (by decide)⟩
  case accepted =>
    rw [presentWord_accept hv hd, loadCommand, seqOf_setSeq_self]
    exact ⟨rfl, rfl⟩
  case moved =>
    obtain ⟨prog, hprog, hk⟩ := Option.bind_eq_some_iff.mp hm
    rw [seqStep_eq hprog hk] at h
    rw [seqOf_runMicroOp h]
    cases m <;> simp only [seqAfter, presented_eq hp]
    case check | poll | faultIf => split <;> rfl
    case skipIf => split <;> omega
  case ended =>
    have hm := List.getElem?_eq_getElem hk
    rw [seqStep_eq hp hm] at h
    rw [seqOf_runMicroOp h] at hlen ⊢
    exact (seqAfter_inside (progOf_wellShaped hp) hm).resolve_right (Nat.not_lt.mpr hlen)

end Sys2Proof.Machine
end

section
/-! SUPPORT. The invariant `MachineOk` (R26, R164, R170): a micro-op keeps its sequencer's command in flight sound, a presentation
loads a sound one, and so every move, tick and command run keeps the machine sound. -/

namespace Sys2Proof.Machine

/-! ### Latches (R26) -/

theorem getLatch_setLatch_self (x : Latches) {j : Nat} (v : Word) (hj : j < 8) : getLatch (setLatch x j v) j = some v := by
  match j with
  | 0 | 1 | 2 | 3 | 4 | 5 | 6 | 7 => rfl
  | _ + 8 => omega

theorem getLatch_setLatch_ne (x : Latches) {j k : Nat} (v : Word) (h : j ≠ k) : getLatch (setLatch x j v) k = getLatch x k := by
  unfold setLatch
  split
  case h_9 => rfl
  all_goals unfold getLatch; split <;> simp_all

/-- Every latch that the micro-program of a command writes is one of the eight that its format leaves without a value. -/
theorem progOf_writes_free {p : Params} {i : Instr} {prog : List MicroOp} (h : progOf p (opcode i) = some prog) :
    (prog.all fun m => (writtenLatch m).all fun j => decide (j < 8) && (getLatch (loadedLatches i) j).isNone) = true := by
  cases i <;> cases h <;> rfl

/-! ### A command in flight along its micro-ops -/

section
variable {p : Params} {q : SeqId} {c c' : Seq} {i : Instr} {prog : List MicroOp} {m : MicroOp}

theorem InFlight.shape (h : InFlight p q c i prog) : wellShaped prog = true := progOf_wellShaped h.program

theorem InFlight.latch_free (h : InFlight p q c i prog) (hm : prog[c.pc]? = some m) {j : Nat} (hj : writtenLatch m = some j) :
    j < 8 ∧ getLatch (loadedLatches i) j = none := by
  have free := List.all_eq_true.mp (progOf_writes_free (h.op ▸ h.program)) m (List.mem_of_getElem? hm)
  simpa [hj] using free

/-- A command in flight that goes on, possibly over skipped micro-ops, to latches that keep what was loaded and written and
hold what this micro-op writes. -/
theorem InFlight.goesOn (h : InFlight p q c i prog) (hm : prog[c.pc]? = some m) (hd : m.isDone = false) {n : Nat}
    (hn : n ≤ m.skips) (hword : c'.word = c.word) (hop : c'.op = c.op) (hpc : c'.pc = c.pc + 1 + n)
    (loaded : ∀ j v, getLatch (loadedLatches i) j = some v → getLatch c.x j = some v → getLatch c'.x j = some v)
    (kept : ∀ j, (getLatch c.x j).isSome = true → (getLatch c'.x j).isSome = true)
    (new : ∀ j, writtenLatch m = some j → (getLatch c'.x j).isSome = true) : InFlight p q c' i prog where
  word := hword ▸ h.word
  op := hop.trans h.op
  context := h.context
  program := hop ▸ h.program
  inside := by
    have := room_of_wellShaped h.shape hm hd
    omega
  loaded := fun j v hv => loaded j v hv (h.loaded j v hv)
  written := fun k m' j hk hm' hj => by
    rcases Nat.lt_trichotomy k c.pc with before | here | after
    · exact kept j (h.written k m' j before hm' hj)
    · rw [here, hm] at hm'
      cases hm'
      exact new j hj
    · rw [skipped_of_wellShaped h.shape hm after (by omega) hm'] at hj
      cases hj

/-- A command in flight after a micro-op that writes no latch. -/
theorem InFlight.moved (h : InFlight p q c i prog) (hm : prog[c.pc]? = some m) (hd : m.isDone = false) (hw : writtenLatch m = none)
    {n : Nat} (hn : n ≤ m.skips) (hword : c'.word = c.word) (hop : c'.op = c.op) (hpc : c'.pc = c.pc + 1 + n) (hx : c'.x = c.x) :
    InFlight p q c' i prog :=
  h.goesOn hm hd hn hword hop hpc (fun _ _ _ e => hx ▸ e) (fun _ e => hx ▸ e) fun j hj => by rw [hw] at hj; cases hj

/-- A command in flight after a micro-op that writes latch `j`. -/
theorem InFlight.latched (h : InFlight p q c i prog) (hm : prog[c.pc]? = some m) (hd : m.isDone = false) {j : Nat}
    (hw : writtenLatch m = some j) (v : Word) : InFlight p q { c with x := setLatch c.x j v, pc := c.pc + 1 } i prog := by
  obtain ⟨hj, free⟩ := h.latch_free hm hw
  have self := getLatch_setLatch_self c.x v hj
  refine h.goesOn (n := 0) hm hd (Nat.zero_le _) rfl rfl rfl (fun k w hl hk => ?_) (fun k hk => ?_) fun k hk => ?_
  · have ne : j ≠ k := by rintro rfl; rw [free] at hl; cases hl
    rw [getLatch_setLatch_ne _ _ ne]
    exact hk
  · by_cases e : j = k
    · subst e; rw [self]; rfl
    · rw [getLatch_setLatch_ne _ _ e]; exact hk
  · rw [hw] at hk
    cases hk
    rw [self]; rfl

/-- The sequencer after its micro-op is sound: idle with a status of R29, or its command is still in flight. -/
theorem SeqOk.seqAfter (hs : c.status.toNat ≤ 1) (h : InFlight p q c i prog) (hm : prog[c.pc]? = some m) (value : Reg → Word) :
    SeqOk p q (seqAfter m value c) := by
  have flying {c' : Seq} (status : c'.status = c.status) (flight : InFlight p q c' i prog) : SeqOk p q c' :=
    ⟨status ▸ hs, fun _ => ⟨i, prog, flight⟩⟩
  have ended {c' : Seq} (status : c'.status.toNat ≤ 1) (idle : c'.busy = false) : SeqOk p q c' :=
    ⟨status, fun busy => absurd (idle.symm.trans busy) Bool.false_ne_true⟩
  cases m
  case check e =>
    simp only [Machine.seqAfter]
    split
    · exact flying rfl (h.moved (n := 0) hm rfl rfl (Nat.zero_le _) rfl rfl rfl rfl)
    · exact ended (Nat.le_refl 1) rfl
  next j e => exact flying rfl (h.latched hm rfl rfl _)
  case rd j r => exact flying rfl (h.latched hm rfl rfl _)
  case poll r a b =>
    simp only [Machine.seqAfter]
    split
    · exact flying rfl (h.moved (n := 0) hm rfl rfl (Nat.zero_le _) rfl rfl rfl rfl)
    · exact flying rfl h
  case skipIf r a b n =>
    simp only [Machine.seqAfter]
    split
    · exact flying rfl (h.moved (n := n) hm rfl rfl (Nat.le_refl _) rfl rfl (Nat.add_assoc _ _ _).symm rfl)
    · exact flying rfl (h.moved (n := 0) hm rfl rfl (Nat.zero_le _) rfl rfl rfl rfl)
  case faultIf e code =>
    simp only [Machine.seqAfter]
    split
    · exact flying rfl h
    · exact flying rfl (h.moved (n := 0) hm rfl rfl (Nat.zero_le _) rfl rfl rfl rfl)
  case done => exact ended (Nat.zero_le _) rfl
  all_goals exact flying rfl (h.moved (n := 0) hm rfl rfl (Nat.zero_le _) rfl rfl rfl rfl)

end

/-! ### The marks and the construction along a micro-op (R30, R32) -/

theorem faultCodeByte_le (c : FaultCode) : (faultCodeByte c).toNat ≤ 3 := by cases c <;> decide

theorem refusalByte_le (r : RefusalReason) : (refusalByte r).toNat ≤ 5 := by cases r <;> decide

theorem RegAccess.marks {s u : State} (h : RegAccess s u) : u.faultCode = s.faultCode ∧ u.faultSeq = s.faultSeq ∧
    u.faultWord = s.faultWord ∧ u.constructed = s.constructed ∧ u.clkSrc = s.clkSrc := by
  cases h <;> simp

/-- A step of a sequencer keeps the fault register, or raises a fault. -/
theorem StepEffect.fault_or {q : SeqId} {s t : State} (h : StepEffect q s t) :
    (t.faultCode = s.faultCode ∧ t.faultSeq = s.faultSeq ∧ t.faultWord = s.faultWord) ∨ ∃ code, t = raiseFault q code s := by
  cases h with
  | access c acc =>
    obtain ⟨code, seq, word, -⟩ := acc.marks
    exact .inl (by simp [code, seq, word])
  | fault code => exact .inr ⟨code, rfl⟩
  | construct src c => exact .inl (by simp)

theorem StepEffect.clock {q : SeqId} {s t : State} (h : StepEffect q s t) (hc : s.constructed = s.clkSrc.isSome) :
    t.constructed = t.clkSrc.isSome := by
  cases h with
  | access c acc =>
    obtain ⟨-, -, -, constructed, clock⟩ := acc.marks
    rw [setSeq_constructed, setSeq_clkSrc, constructed, clock, hc]
  | fault code => exact hc
  | construct src c => simp

/-! ### Steps of a sequencer -/

theorem MachineOk.seq {s : State} (h : MachineOk s) (q : SeqId) : SeqOk s.par q (seqOf s q) := by
  cases q
  exacts [h.owner, h.irq]

/-- The sequencer that has the turn finds no fault recorded (R157). -/
theorem turn_unfaulted {s : State} {q : SeqId} (h : turn s = some q) : faulted s = false := by
  unfold turn at h
  split at h
  · cases h
  · simpa using ‹¬faulted s = true›

/-- A micro-op of a busy sequencer of a sound machine, no fault being recorded, keeps the machine sound. -/
theorem MachineOk.seqStep {q : SeqId} {s t : State} (hok : MachineOk s) (hb : (seqOf s q).busy = true) (hf : faulted s = false)
    (h : seqStep q s = .next t) : MachineOk t := by
  obtain ⟨i, prog, flight⟩ := (hok.seq q).flight hb
  have hm := List.getElem?_eq_getElem flight.inside
  have frame := seqStep_frame h
  have effect := seqStep_effect h
  rw [seqStep_eq flight.program hm] at h
  have seqs (r : SeqId) : SeqOk t.par r (seqOf t r) := by
    rw [frame.par]
    by_cases hr : r = q
    · subst hr
      rw [seqOf_runMicroOp h]
      exact SeqOk.seqAfter (hok.seq r).status flight hm _
    · rw [frame.other r hr]
      exact hok.seq r
  have unfaulted : s.faultCode = 0#8 := by simpa [faulted] using hf
  refine ⟨frame.regs hok.regs, seqs .owner, seqs .irq, ?code, ?busy, frame.refusedReason ▸ hok.refusedReason, effect.clock hok.clock⟩
  case code =>
    rcases effect.fault_or with ⟨code, -, -⟩ | ⟨code, rfl⟩
    · rw [code]; exact hok.faultCode
    · exact faultCodeByte_le code
  case busy =>
    intro ht
    rcases effect.fault_or with ⟨code, -, -⟩ | ⟨code, rfl⟩
    · simp [faulted, code, unfaulted] at ht
    · cases q <;> exact ⟨hb, rfl⟩

/-! ### What keeps the block's own state -/

/-- The block's own state is the same: parameters, sequencers, marks and construction. -/
structure OwnKept (s t : State) : Prop where
  par : t.par = s.par
  owner : t.owner = s.owner
  irq : t.irq = s.irq
  faultCode : t.faultCode = s.faultCode
  faultSeq : t.faultSeq = s.faultSeq
  faultWord : t.faultWord = s.faultWord
  refusedReason : t.refusedReason = s.refusedReason
  refusedWord : t.refusedWord = s.refusedWord
  constructed : t.constructed = s.constructed
  clkSrc : t.clkSrc = s.clkSrc

/-- No step of the environment touches it (R173). -/
theorem ownKept_envStep (d : Draw) (s : State) : OwnKept s (envStep d s) := by
  unfold envStep
  cases d <;> constructor <;> simp [drawEffect, setEventFlag, tickCalendar]

theorem MachineOk.ownKept {s t : State} (h : MachineOk s) (hk : OwnKept s t) (hr : RegsOk t) : MachineOk t where
  regs := hr
  owner := by rw [hk.par, hk.owner]; exact h.owner
  irq := by rw [hk.par, hk.irq]; exact h.irq
  faultCode := hk.faultCode ▸ h.faultCode
  faultBusy := by
    have kept : seqOf t t.faultSeq = seqOf s s.faultSeq := by
      rw [hk.faultSeq]; cases s.faultSeq; exacts [hk.owner, hk.irq]
    rw [kept, hk.faultWord, faulted, hk.faultCode]
    exact h.faultBusy
  refusedReason := hk.refusedReason ▸ h.refusedReason
  clock := by rw [hk.constructed, hk.clkSrc]; exact h.clock

theorem MachineOk.withMoves {s : State} (h : MachineOk s) (ms : List Move) : MachineOk (withMoves ms s) :=
  h.ownKept ⟨rfl, rfl, rfl, rfl, rfl, rfl, rfl, rfl, rfl, rfl⟩ (h.regs.congr rfl)

/-! ### Presentations (R74) -/

theorem progOf_opcode (p : Params) (i : Instr) : ∃ prog, progOf p (opcode i) = some prog ∧ 0 < prog.length := by
  cases i <;> exact ⟨_, rfl, Nat.le_of_ble_eq_true rfl⟩

/-- The command just accepted is in flight at its first micro-op. -/
theorem inFlight_loaded (p : Params) {q : SeqId} {c : Seq} {w : Cmd} {i : Instr} (hd : decode w = .ok i)
    (hc : contextAllows q i = true) : ∃ prog,
      InFlight p q { c with busy := true, op := opcode i, word := w, pc := 0, x := loadedLatches i } i prog := by
  obtain ⟨prog, hp, inside⟩ := progOf_opcode p i
  exact ⟨prog, hd, rfl, hc, hp, inside, fun _ _ e => e, fun k _ _ hk => absurd hk (Nat.not_lt_zero k)⟩

theorem MachineOk.loadCommand {q : SeqId} {s : State} {w : Cmd} {i : Instr} (hok : MachineOk s) (hd : decode w = .ok i)
    (hv : verdict q (some i) s = .accept) : MachineOk (loadCommand q i w s) := by
  have loaded : SeqOk s.par q { seqOf s q with busy := true, op := opcode i, word := w, pc := 0, x := loadedLatches i } :=
    ⟨(hok.seq q).status, fun _ => ⟨i, inFlight_loaded s.par hd (verdict_accept hv).1⟩⟩
  have unfaulted : faulted s = false := by
    by_contra hf
    rw [verdict_marked _ (.inl (by simpa [faulted] using hf))] at hv
    cases hv
  have faultBusy : faulted (Machine.loadCommand q i w s) = true → (seqOf (Machine.loadCommand q i w s)
      (Machine.loadCommand q i w s).faultSeq).busy = true ∧ (Machine.loadCommand q i w s).faultWord =
      (seqOf (Machine.loadCommand q i w s) (Machine.loadCommand q i w s).faultSeq).word := by
    intro hf
    rw [faulted, Machine.loadCommand, setSeq_faultCode] at hf
    exact absurd (unfaulted.symm.trans hf) Bool.false_ne_true
  have regs : RegsOk (Machine.loadCommand q i w s) := hok.regs.congr (by cases q <;> rfl)
  cases q
  · exact { hok with regs := regs, owner := loaded, faultBusy := faultBusy }
  · exact { hok with regs := regs, irq := loaded, faultBusy := faultBusy }

theorem MachineOk.refuseWord {s : State} (hok : MachineOk s) (r : RefusalReason) (w : Cmd) : MachineOk (refuseWord r w s) :=
  { hok with regs := hok.regs.congr rfl, refusedReason := refusalByte_le r }

theorem decode_of_decoded {w : Cmd} {i : Instr} (h : decoded w = some i) : decode w = .ok i := by
  unfold decoded at h
  split at h <;> cases h
  assumption

theorem MachineOk.presentWord {s : State} (hok : MachineOk s) (q : SeqId) (w : Cmd) : MachineOk (presentWord q w s) := by
  unfold Machine.presentWord
  split
  case h_1 i hv hd => exact hok.loadCommand (decode_of_decoded hd) (hd ▸ hv)
  case h_2 r hv => exact hok.refuseWord r w
  case h_3 => exact hok

/-! ### Resets (R51, R190) -/

theorem SeqReset.seqOk {c : Seq} (h : SeqReset c) (p : Params) (q : SeqId) : SeqOk p q c :=
  ⟨by rw [h.status]; decide, fun busy => absurd (h.busy.symm.trans busy) Bool.false_ne_true⟩

/-- Sound registers with both sequencers, the marks and the construction reset make a sound machine. -/
theorem machineOk_of_reset {t : State} (regs : RegsOk t) (owner : SeqReset t.owner) (irq : SeqReset t.irq)
    (fault : t.faultCode = 0#8) (refused : t.refusedReason = 0#8) (constructed : t.constructed = false) (clock : t.clkSrc = none) :
    MachineOk t where
  regs := regs
  owner := owner.seqOk _ _
  irq := irq.seqOk _ _
  faultCode := by rw [fault]; decide
  faultBusy := fun hf => by simp [faulted, fault] at hf
  refusedReason := by rw [refused]; decide
  clock := by rw [constructed, clock]; rfl

theorem seqReset_resetSeq (c : Seq) : SeqReset (resetSeq c) := ⟨rfl, rfl, rfl, rfl, rfl⟩

/-! ### Moves, ticks, command runs -/

theorem MachineOk.takeMove {m : Move} {s t : State} (hok : MachineOk s) (hm : ∀ q, m ≠ .micro q) (h : takeMove m s = .next t) :
    MachineOk t := by
  have regs := takeMove_regs hok.regs h
  cases m <;> simp only [Machine.takeMove, Host.Outcome.next.injEq] at h
  case micro q => exact absurd rfl (hm q)
  case present q w => subst h; exact hok.presentWord q w
  case await | hostRead => subst h; exact hok
  case env d => subst h; exact hok.ownKept (ownKept_envStep d s) regs
  case blockReset =>
    subst h
    exact machineOk_of_reset regs (seqReset_resetSeq _) (seqReset_resetSeq _) rfl rfl rfl rfl
  case systemReset d | powerOn d =>
    subst h
    refine machineOk_of_reset regs ?_ ?_ (settle_faultCode _) (settle_refusedReason _) (settle_constructed _) (settle_clkSrc _)
    · exact (settle_owner _).symm ▸ seqReset_resetSeq s.owner
    · exact (settle_irq _).symm ▸ seqReset_resetSeq s.irq

theorem MachineOk.tick {s t : State} (h : tick s = .next t) (hok : MachineOk s) : MachineOk t := by
  cases tickStep_of_tick h with
  | still same => exact same ▸ hok
  | micro q ms u hturn hstep result =>
    subst result
    exact (hok.seqStep (turn_some hturn).1 (turn_unfaulted hturn) hstep).withMoves ms
  | move m rest head enabled other taken => exact (hok.withMoves rest).takeMove other taken

theorem verdict_accept_wellFormed {q : SeqId} {s : State} {i : Instr} (h : verdict q (some i) s = .accept) : i.wellFormed = true := by
  unfold verdict at h
  dsimp only at h
  split_ifs at h with marked busy illegal context
  simpa using illegal

theorem MachineOk.exec {i : Instr} {s t : State} (hok : MachineOk s) (h : exec i s = .next t) : MachineOk t := by
  rw [exec_eq_issue, issue] at h
  split at h
  case h_1 => cases h; exact hok
  case h_2 r hv => cases h; exact hok.refuseWord r _
  case h_3 hv =>
    have hd := decodeOfEncode i (verdict_accept_wellFormed hv)
    exact drain_keeps MachineOk.tick h (hok.loadCommand hd hv)

theorem MachineOk.clearPort {s : State} (h : MachineOk s) : MachineOk (clearPort s) :=
  h.ownKept ⟨rfl, rfl, rfl, rfl, rfl, rfl, rfl, rfl, rfl, rfl⟩ (h.regs.congr rfl)

/-- Settles O56: a step is a tick, or a presentation and a drain of ticks; a tick is a move or a micro-op, and each keeps the
registers, the sequencers, the marks and the construction sound. -/
theorem stepKeepsTheMachineSound : Obligations.StepKeepsTheMachineSound := by
  intro s t hok h
  unfold step at h
  split at h
  case isFalse => cases h
  case isTrue =>
    split at h
    case h_2 => exact hok.tick h
    case h_1 w _ =>
      unfold takePort at h
      split at h
      · exact hok.clearPort.exec h
      · cases h; exact hok.clearPort.presentWord _ w

end Sys2Proof.Machine
end

section
/-! SUPPORT. That a sound machine never stops (R26, R54, R157, R162): every micro-op of every micro-program finds the latches it
reads among those its format loads and those that earlier micro-ops write. -/

namespace Sys2Proof.Machine

/-! ### Latch expressions with a value (R26) -/

section
variable {α : Type} (x : Latches)

@[simp] theorem isSome_lconst (a : α) : (lconst a x).isSome = true := rfl
@[simp] theorem isSome_lx0 (f : Word → α) : (lx0 f x).isSome = x.x0.isSome := Option.isSome_map
@[simp] theorem isSome_lx1 (f : Word → α) : (lx1 f x).isSome = x.x1.isSome := Option.isSome_map
@[simp] theorem isSome_lx2 (f : Word → α) : (lx2 f x).isSome = x.x2.isSome := Option.isSome_map
@[simp] theorem isSome_lx3 (f : Word → α) : (lx3 f x).isSome = x.x3.isSome := Option.isSome_map
@[simp] theorem isSome_lx4 (f : Word → α) : (lx4 f x).isSome = x.x4.isSome := Option.isSome_map
@[simp] theorem isSome_lx5 (f : Word → α) : (lx5 f x).isSome = x.x5.isSome := Option.isSome_map
@[simp] theorem isSome_lx6 (f : Word → α) : (lx6 f x).isSome = x.x6.isSome := Option.isSome_map
@[simp] theorem isSome_lx7 (f : Word → α) : (lx7 f x).isSome = x.x7.isSome := Option.isSome_map

variable {x}

@[simp] theorem isSome_lx01 (f : Word → Word → α) (h0 : x.x0.isSome = true) (h1 : x.x1.isSome = true) :
    (lx01 f x).isSome = true := by
  obtain ⟨a, ha⟩ := Option.isSome_iff_exists.mp h0
  obtain ⟨b, hb⟩ := Option.isSome_iff_exists.mp h1
  simp [lx01, ha, hb]

@[simp] theorem isSome_lx06 (f : Word → Word → α) (h0 : x.x0.isSome = true) (h6 : x.x6.isSome = true) :
    (lx06 f x).isSome = true := by
  obtain ⟨a, ha⟩ := Option.isSome_iff_exists.mp h0
  obtain ⟨b, hb⟩ := Option.isSome_iff_exists.mp h6
  simp [lx06, ha, hb]

@[simp] theorem isSome_lx012 (f : Word → Word → Word → α) (h0 : x.x0.isSome = true) (h1 : x.x1.isSome = true)
    (h2 : x.x2.isSome = true) : (lx012 f x).isSome = true := by
  obtain ⟨a, ha⟩ := Option.isSome_iff_exists.mp h0
  obtain ⟨b, hb⟩ := Option.isSome_iff_exists.mp h1
  obtain ⟨c, hc⟩ := Option.isSome_iff_exists.mp h2
  simp [lx012, ha, hb, hc]

@[simp] theorem isSome_lx05 (f : Word → Word → Word → Word → Word → Word → α) (h0 : x.x0.isSome = true)
    (h1 : x.x1.isSome = true) (h2 : x.x2.isSome = true) (h3 : x.x3.isSome = true) (h4 : x.x4.isSome = true)
    (h5 : x.x5.isSome = true) : (lx05 f x).isSome = true := by
  obtain ⟨a, ha⟩ := Option.isSome_iff_exists.mp h0
  obtain ⟨b, hb⟩ := Option.isSome_iff_exists.mp h1
  obtain ⟨c, hc⟩ := Option.isSome_iff_exists.mp h2
  obtain ⟨d, hd⟩ := Option.isSome_iff_exists.mp h3
  obtain ⟨e, he⟩ := Option.isSome_iff_exists.mp h4
  obtain ⟨g, hg⟩ := Option.isSome_iff_exists.mp h5
  simp [lx05, ha, hb, hc, hd, he, hg]

end

/-! ### Micro-ops that answer (R26, R54) -/

/-- Every latch expression of the micro-op has a value on the latches. -/
@[simp] def MicroOp.answers (x : Latches) : MicroOp → Prop
  | .check c => (c x).isSome = true
  | .calc _ e => (e x).isSome = true
  | .wr _ e => (e x).isSome = true
  | .rmw _ em ev => (em x).isSome = true ∧ (ev x).isSome = true
  | .isrClr e => (e x).isSome = true
  | .faultIf c _ => (c x).isSome = true
  | .res e => (e x).isSome = true
  | .rd _ _ | .isrSetInit _ | .poll _ _ _ | .skipIf _ _ _ _ | .construct _ | .done => True

theorem withValue_answers {α : Type} {q : SeqId} {e : LExpr α} {s : State} {k : α → Result}
    (h : (e (seqOf s q).x).isSome = true) (hk : ∀ a, ∃ t, k a = .next t) : ∃ t, withValue q e s k = .next t := by
  obtain ⟨a, ha⟩ := Option.isSome_iff_exists.mp h
  rw [withValue_eq ha]
  exact hk a

/-- Under a configuration such a micro-op answers a next state. -/
theorem runMicroOp_answers {q : SeqId} {m : MicroOp} {s : State} (hp : paramsOk s.par = true) (h : m.answers (seqOf s q).x) :
    ∃ t, runMicroOp q m s = .next t := by
  have written (r : Reg) (v : Word) {u : State} (hu : u.par = s.par) (k : State → State) :
      ∃ t, withWrite r v u (fun w => .next (k w)) = .next t := ⟨_, withWrite_eq (hu ▸ hp) r v _⟩
  cases m
  case check c => exact withValue_answers h fun _ => ⟨_, rfl⟩
  next i e => exact withValue_answers h fun _ => ⟨_, rfl⟩
  case wr r e => exact withValue_answers h fun v => written r v rfl _
  case rmw r em ev =>
    refine withValue_answers h.1 fun m => withValue_answers h.2 fun v => ?_
    rw [withRead_eq hp]
    exact written r _ (readReg_par r s) _
  case isrSetInit b => exact written .isr _ rfl _
  case isrClr e =>
    refine withValue_answers h fun m => ?_
    rw [withRead_eq hp]
    exact written .isr _ (readReg_par .isr s) _
  case faultIf c code => exact withValue_answers h fun _ => ⟨_, rfl⟩
  case res e => exact withValue_answers h fun _ => ⟨_, rfl⟩
  case rd i r | poll r a b | skipIf r a b n => exact ⟨_, withRead_eq hp r _⟩
  case construct | done => exact ⟨_, rfl⟩

/-- Each micro-op of the list answers on the latches, if those that the earlier ones write hold a value. -/
def answersFrom (x : Latches) : List MicroOp → Prop
  | [] => True
  | m :: ops => m.answers x ∧ ((∀ j, writtenLatch m = some j → (getLatch x j).isSome = true) → answersFrom x ops)

theorem answers_of_answersFrom {x : Latches} {prog : List MicroOp} {k : Nat} {m : MicroOp} (h : answersFrom x prog)
    (hm : prog[k]? = some m)
    (hw : ∀ j m' i, j < k → prog[j]? = some m' → writtenLatch m' = some i → (getLatch x i).isSome = true) : m.answers x := by
  induction prog generalizing k with
  | nil => cases hm
  | cons m' ops ih =>
    obtain ⟨here, rest⟩ := h
    cases k with
    | zero => cases hm; exact here
    | succ k =>
      exact ih (rest fun i hi => hw 0 m' i (Nat.succ_pos k) rfl hi) hm fun j m' i hj hm' =>
        hw (j + 1) m' i (Nat.succ_lt_succ hj) hm'

/-! ### Every micro-program answers on the latches of its command -/

/-- The latches hold everything that the command's format loads (R72). -/
def HoldsLoaded (i : Instr) (x : Latches) : Prop := ∀ j v, getLatch (loadedLatches i) j = some v → getLatch x j = some v

@[simp] theorem answersFrom_nil (x : Latches) : answersFrom x [] = True := rfl

@[simp] theorem answersFrom_cons (x : Latches) (m : MicroOp) (ops : List MicroOp) : answersFrom x (m :: ops) =
    (m.answers x ∧ ((∀ j, writtenLatch m = some j → (getLatch x j).isSome = true) → answersFrom x ops)) := rfl

theorem encodeCheck_isSome {f : BitVec 3} {v : BitVec 8} {x : Latches} (hf : f ≠ 7#3) (h0 : x.x0 = some (v.setWidth 32))
    (h1 : x.x1 = some (f.setWidth 32)) : (encodeCheck x).isSome = true := by
  obtain ⟨ok, answer⟩ := encodeCheck_answers hf v
  have same : encodeCheck x = encodeCheck (loadedLatches (.bcdEncode f v)) := by simp only [encodeCheck, h0, h1, loadedLatches]
  rw [same, answer]; rfl

theorem HoldsLoaded.isSome {i : Instr} {x : Latches} {j : Nat} (hx : HoldsLoaded i x)
    (h : (getLatch (loadedLatches i) j).isSome = true) : (getLatch x j).isSome = true := by
  obtain ⟨v, hv⟩ := Option.isSome_iff_exists.mp h
  rw [hx j v hv]; rfl

/-- Whatever the registers answer, each micro-op of a command's program reads only latches that the command's format loads or that
the program has written before it. -/
theorem answersFrom_of_holdsLoaded {p : Params} {i : Instr} {prog : List MicroOp} {x : Latches} (hx : HoldsLoaded i x)
    (hwf : i.wellFormed = true) (hp : progOf p (opcode i) = some prog) : answersFrom x prog := by
  have x0 : (loadedLatches i).x0.isSome = true → x.x0.isSome = true := hx.isSome (j := 0)
  have x1 : (loadedLatches i).x1.isSome = true → x.x1.isSome = true := hx.isSome (j := 1)
  have x2 : (loadedLatches i).x2.isSome = true → x.x2.isSome = true := hx.isSome (j := 2)
  have x3 : (loadedLatches i).x3.isSome = true → x.x3.isSome = true := hx.isSome (j := 3)
  have x4 : (loadedLatches i).x4.isSome = true → x.x4.isSome = true := hx.isSome (j := 4)
  have x5 : (loadedLatches i).x5.isSome = true → x.x5.isSome = true := hx.isSome (j := 5)
  cases i <;> cases hp
  case setSeconds | setMinutes | setHours | setWeekday | setDay | setMonth | setYear =>
    simp [progSetSeconds, progSetMinutes, progSetHours, progSetWeekday, progSetDay, progSetMonth, progSetYear, initTxn,
      unlockOps, initEnterOps, initExitOps, lockOps, writtenLatch, getLatch, x0 rfl]
  case setDate =>
    simp [progSetDate, initTxn, unlockOps, initEnterOps, initExitOps, lockOps, writtenLatch, getLatch, x0 rfl, x1 rfl, x2 rfl]
  case setDatetime =>
    simp +contextual [progSetDatetime, initTxn, unlockOps, initEnterOps, initExitOps, lockOps, writtenLatch, getLatch, x0 rfl,
      x1 rfl, x2 rfl, x3 rfl, x4 rfl, x5 rfl]
  case getDatetime => simp +contextual [progGetDatetime, writtenLatch, getLatch]
  case setPrescalers =>
    simp [progSetPrescalers, prerWrite, initTxn, unlockOps, initEnterOps, initExitOps, lockOps, writtenLatch, x0 rfl, x1 rfl]
  case bringupLse =>
    simp [progBringupLse, step5, prerWrite, initTxn, unlockOps, initEnterOps, initExitOps, lockOps, writtenLatch, x0 rfl, x1 rfl,
      x2 rfl]
  case bringupLsi =>
    simp [progBringupLsi, step5, prerWrite, initTxn, unlockOps, initEnterOps, initExitOps, lockOps, writtenLatch, x0 rfl, x1 rfl]
  case enableWakeup | wakeupTimer =>
    simp +contextual [progEnableWakeup, progWakeupTimer, lightTxn, unlockOps, lockOps, writtenLatch, getLatch, x0 rfl]
  case disableWakeup => simp [progDisableWakeup, lightTxn, unlockOps, lockOps, writtenLatch]
  case listen | unpendEvent =>
    simp [progListen, progUnpendEvent, lightTxn, unlockOps, lockOps, lineBit, enableBit, flagBit, writtenLatch, x0 rfl]
  case pendLine | unpendLine | isPendingLine =>
    simp +contextual [progPendLine, progUnpendLine, progIsPendingLine, lineFault, writtenLatch, getLatch, x0 rfl]
  case bcdEncode f v =>
    have defined : f ≠ 7#3 := by simpa [Instr.wellFormed, fieldSelectDefined] using hwf
    have check := encodeCheck_isSome defined (hx 0 _ rfl) (hx 1 _ rfl)
    simp [progBcdEncode, writtenLatch, check, x0 rfl]
  case bcdDecode => simp [progBcdDecode, writtenLatch, x0 rfl, x1 rfl]

/-! ### From a sound state every step is answered -/

theorem InFlight.answers {p : Params} {q : SeqId} {c : Seq} {i : Instr} {prog : List MicroOp} {m : MicroOp}
    (h : InFlight p q c i prog) (hm : prog[c.pc]? = some m) : m.answers c.x :=
  answers_of_answersFrom (answersFrom_of_holdsLoaded h.loaded (encodeOfDecode _ _ h.word).1 (h.op ▸ h.program)) hm h.written

/-- A busy sequencer of a sound machine takes its next micro-op. -/
theorem MachineOk.seqStep_answers {q : SeqId} {s : State} (hok : MachineOk s) (hb : (seqOf s q).busy = true) :
    ∃ t, Machine.seqStep q s = .next t := by
  obtain ⟨i, prog, flight⟩ := (hok.seq q).flight hb
  have hm := List.getElem?_eq_getElem flight.inside
  rw [seqStep_eq flight.program hm]
  exact runMicroOp_answers hok.regs.params (flight.answers hm)

theorem MachineOk.tick_answers {s : State} (hok : MachineOk s) : ∃ t, Machine.tick s = .next t := by
  unfold Machine.tick
  split
  case h_1 m rest hm =>
    cases m
    case micro q =>
      have hturn : turn s = some q := beq_iff_eq.mp (readyMove_enabled hm)
      have busy : (seqOf (Machine.withMoves rest s) q).busy = true := by rw [seqOf_withMoves]; exact (turn_some hturn).1
      exact (hok.withMoves rest).seqStep_answers busy
    all_goals exact ⟨_, rfl⟩
  case h_2 =>
    split
    case h_1 q hq => exact hok.seqStep_answers (turn_some hq).1
    case h_2 => exact ⟨_, rfl⟩

theorem MachineOk.drain_answers {q : SeqId} {n : Nat} {s : State} (hok : MachineOk s) : ∃ t, drain q n s = .next t := by
  induction n generalizing s with
  | zero => exact ⟨s, rfl⟩
  | succ n ih =>
    obtain ⟨u, hu⟩ := hok.tick_answers
    rw [drain]
    split
    · exact ⟨s, rfl⟩
    · rw [hu]
      exact ih (hok.tick hu)

theorem MachineOk.exec_answers {s : State} (hok : MachineOk s) (i : Instr) : ∃ t, Machine.exec i s = .next t := by
  rw [exec_eq_issue, issue]
  split
  case h_1 | h_2 => exact ⟨_, rfl⟩
  case h_3 hv => exact (hok.loadCommand (decodeOfEncode i (verdict_accept_wellFormed hv)) hv).drain_answers

/-- Settles O57: a step is a tick or a command's run of ticks, each from a sound state; a tick takes a move or a micro-op, and a
micro-op finds every latch it reads and, under a configuration, every register. -/
theorem soundMachineNeverStops : Obligations.SoundMachineNeverStops := by
  intro s hok
  rw [step, if_pos hok.regs.params]
  split
  case h_2 => exact hok.tick_answers
  case h_1 w _ =>
    unfold takePort
    split
    · exact hok.clearPort.exec_answers _
    · exact ⟨_, rfl⟩

end Sys2Proof.Machine
end

section
/-! SUPPORT. The sticky marks (R30, R31, R157, R161) and what may move the calendar registers (R43, R176, R201), along a step. -/

namespace Sys2Proof.Machine

/-! ### Once a mark is recorded (R74 check 0, R157) -/

/-- A word at the port has no step once a fault or a refusal is recorded. -/
theorem takePort_marked {s : State} (w : Cmd) (h : s.faultCode ≠ 0#8 ∨ s.refusedReason ≠ 0#8) : takePort w s = .next s := by
  unfold takePort
  split
  · rw [exec_eq_issue, issue, verdict_marked _ h]
  · rw [presentWord_noStep (verdict_marked _ h)]

/-- Nor has any move but a reset or a micro-op an effect on the block's own state. -/
theorem takeMove_marked {m : Move} {s t : State} (hm : ∀ q, m ≠ .micro q) (hr : isReset m = false)
    (hs : s.faultCode ≠ 0#8 ∨ s.refusedReason ≠ 0#8) (h : takeMove m s = .next t) : OwnKept s t := by
  have kept : OwnKept s s := ⟨rfl, rfl, rfl, rfl, rfl, rfl, rfl, rfl, rfl, rfl⟩
  cases m <;> simp only [takeMove, Host.Outcome.next.injEq] at h
  case micro q => exact absurd rfl (hm q)
  case present q w =>
    rw [presentWord_noStep (verdict_marked _ hs)] at h
    exact h ▸ kept
  case await | hostRead => exact h ▸ kept
  case env d => exact h ▸ ownKept_envStep d s
  all_goals cases hr

section
variable {s t : State} (noReset : ∀ m rest, s.moves = m :: rest → isReset m = false)
include noReset

/-- After a fault no sequencer has the turn, and no move but a reset touches the block's own state. -/
theorem tick_faulted (hf : faulted s = true) (h : tick s = .next t) : OwnKept s t := by
  cases tickStep_of_tick h with
  | still same => subst same; exact ⟨rfl, rfl, rfl, rfl, rfl, rfl, rfl, rfl, rfl, rfl⟩
  | micro q ms u hturn hstep result => exact absurd ((turn_unfaulted hturn).symm.trans hf) Bool.false_ne_true
  | move m rest head enabled other taken =>
    have marked : s.faultCode ≠ 0#8 := by simpa [faulted] using hf
    exact { takeMove_marked (s := withMoves rest s) other (noReset m rest head) (.inl marked) taken with }

/-- After a refusal micro-ops still run, and leave the refusal mark alone. -/
theorem tick_refused (hr : refusedMark s = true) (h : tick s = .next t) :
    t.refusedReason = s.refusedReason ∧ t.refusedWord = s.refusedWord := by
  cases tickStep_of_tick h with
  | still same => subst same; exact ⟨rfl, rfl⟩
  | micro q ms u hturn hstep result =>
    subst result
    have frame := seqStep_frame hstep
    exact ⟨frame.refusedReason, frame.refusedWord⟩
  | move m rest head enabled other taken =>
    have marked : s.refusedReason ≠ 0#8 := by simpa [refusedMark] using hr
    have kept := takeMove_marked (s := withMoves rest s) other (noReset m rest head) (.inr marked) taken
    exact ⟨kept.refusedReason, kept.refusedWord⟩

end

/-- Settles O50: with a mark recorded a word at the port has no step; of a tick's moves only a reset touches the marks, and after a
fault no sequencer has the turn. -/
theorem marksAreSticky : Obligations.MarksAreSticky := by
  intro s t h noReset
  unfold step at h
  split at h
  case isFalse => cases h
  case isTrue =>
    split at h
    case h_1 w _ =>
      have cleared (hs : s.faultCode ≠ 0#8 ∨ s.refusedReason ≠ 0#8) : t = clearPort s := by
        rw [takePort_marked (s := clearPort s) w hs] at h
        cases h; rfl
      refine ⟨fun hf => ?_, fun hr => ?_⟩
      · rw [cleared (.inl (by simpa [faulted] using hf))]
        exact ⟨rfl, rfl, rfl, rfl, rfl⟩
      · rw [cleared (.inr (by simpa [refusedMark] using hr))]
        exact ⟨rfl, rfl⟩
    case h_2 =>
      refine ⟨fun hf => ?_, fun hr => tick_refused noReset hr h⟩
      have kept := tick_faulted noReset hf h
      exact ⟨kept.faultCode, kept.faultSeq, kept.faultWord, kept.owner, kept.irq⟩

/-! ### The calendar registers (R43, R176) -/

/-- RTC_TR and RTC_DR are the same. -/
def CalendarKept (s t : State) : Prop := t.calTr = s.calTr ∧ t.calDr = s.calDr

/-- What settles is its edges only, or ends with the backup domain held in reset (R107). -/
theorem settle_edges_or_held {s : State} (hp : paramsOk s.par = true) :
    settle s = detectEdges s ∨ domainHeld (settle s) = true := by
  cases hd : domainHeld s with
  | false => exact .inl (settle_of_live hd)
  | true =>
    right
    rw [settle, holdDomain, if_pos hd]
    exact (domainHeld_backup hp).trans hd

theorem calendarKept_settle {s u : State} (hp : paramsOk u.par = true) (h : CalendarKept s u) :
    CalendarKept s (settle u) ∨ domainHeld (settle u) = true := by
  rcases settle_edges_or_held hp with edges | held
  · rw [edges]; exact .inl h
  · exact .inr held

/-- A register write leaves the calendar alone, or finds the bracket open in init mode (R42, R43). -/
theorem calendarKept_writeReg (r : Reg) (v : Word) (s : State) :
    CalendarKept s (writeReg r v s) ∨ (s.wp = .unlocked ∧ initf s = true) := by
  cases r
  case tr | dr =>
    simp only [writeReg, writeTr, writeDr]
    split
    case isTrue opened => exact .inr (by simpa [unlocked] using opened)
    case isFalse => exact .inl ⟨rfl, rfl⟩
  all_goals
    left
    simp only [writeReg, writeCr, writeIsr, writePrer, writeWutr, writeWpr, writeSwier, writePr, writePwrCr, writeCsr]
    (try split) <;> exact ⟨rfl, rfl⟩

theorem calendarKept_readReg (r : Reg) (s : State) : CalendarKept s (readReg r s).2 := by cases r <;> exact ⟨rfl, rfl⟩

@[simp] theorem readReg_wp (r : Reg) (s : State) : (readReg r s).2.wp = s.wp := by cases r <;> rfl

theorem regAccess_calendar {s u : State} (hp : paramsOk s.par = true) (h : RegAccess s u) :
    CalendarKept s u ∨ (s.wp = .unlocked ∧ initf s = true) ∨ domainHeld u = true := by
  have written {r : Reg} {v : Word} {w : State} (hw : w.par = s.par) (read : CalendarKept s w)
      (hl : w.wp = s.wp) (hf : initf w = initf s) : CalendarKept s (settle (writeReg r v w)) ∨
        (s.wp = .unlocked ∧ initf s = true) ∨ domainHeld (settle (writeReg r v w)) = true := by
    rcases calendarKept_writeReg r v w with kept | opened
    · rw [or_left_comm]
      exact .inr (calendarKept_settle (by rw [writeReg_par, hw]; exact hp) ⟨kept.1.trans read.1, kept.2.trans read.2⟩)
    · exact .inr (.inl (hl ▸ hf ▸ opened))
  cases h with
  | none => exact .inl ⟨rfl, rfl⟩
  | read r => exact .inl (calendarKept_readReg r s)
  | write r v => exact written rfl ⟨rfl, rfl⟩ rfl rfl
  | readWrite r r' v => exact written (readReg_par r s) (calendarKept_readReg r s) (readReg_wp r s) (initf_readReg r s)

theorem stepEffect_calendar {q : SeqId} {s t : State} (hp : paramsOk s.par = true) (h : StepEffect q s t) :
    CalendarKept s t ∨ (s.wp = .unlocked ∧ initf s = true) ∨ domainHeld t = true := by
  cases h with
  | access c acc => simpa [CalendarKept] using regAccess_calendar hp acc
  | fault code => exact .inl ⟨rfl, rfl⟩
  | construct src c => exact .inl (by simp [CalendarKept])

theorem turn_owner {s : State} (h : turn s = some .owner) : s.irq.busy = false := by
  unfold turn at h
  split at h
  · cases h
  · split at h
    · split at h <;> cases h
    · simpa using ‹¬s.irq.busy = true›

theorem calendarKept_presentWord (q : SeqId) (w : Cmd) (s : State) : CalendarKept s (presentWord q w s) := by
  unfold presentWord
  split
  · exact ⟨setSeq_calTr _ _ _, setSeq_calDr _ _ _⟩
  · exact ⟨rfl, rfl⟩
  · exact ⟨rfl, rfl⟩

theorem calendarKept_drawEffect {d : Draw} (h : d ≠ .calendarTick) (s : State) : CalendarKept s (drawEffect d s) := by
  cases d
  case calendarTick => exact absurd rfl h
  all_goals exact ⟨rfl, rfl⟩

/-- A move that is no micro-op, no calendar tick and no power-on. -/
theorem takeMove_calendar {m : Move} {s t : State} (hp : paramsOk s.par = true) (hm : ∀ q, m ≠ .micro q)
    (hc : m ≠ .env .calendarTick) (hpower : ∀ d, m ≠ .powerOn d) (h : takeMove m s = .next t) :
    CalendarKept s t ∨ domainHeld t = true := by
  cases m <;> simp only [takeMove, Host.Outcome.next.injEq] at h
  case micro q => exact absurd rfl (hm q)
  case powerOn d => exact absurd rfl (hpower d)
  case present q w => exact h ▸ .inl (calendarKept_presentWord q w s)
  case await | hostRead | blockReset => subst h; exact .inl ⟨rfl, rfl⟩
  case env d =>
    subst h
    exact calendarKept_settle (by simpa using hp) (calendarKept_drawEffect (fun e => hc (congrArg _ e)) s)
  case systemReset d => subst h; exact calendarKept_settle hp ⟨rfl, rfl⟩

/-- Settles O21: a register write moves the calendar in the open bracket in init mode only, and the interrupt context makes none
(R155); of the moves only the calendar tick, a power-on and what ends in the held domain do. -/
theorem calendarChangesOnlyByTickOrInitMode : Obligations.CalendarChangesOnlyByTickOrInitMode := by
  intro s t hok h changed
  have hp := hok.regs.params
  have moved : ¬CalendarKept s t := fun kept => changed.elim (absurd kept.1) (absurd kept.2)
  cases tickStep_of_tick h with
  | still same => exact absurd (same ▸ ⟨rfl, rfl⟩) moved
  | micro q ms u hturn hstep result =>
    subst result
    obtain ⟨busy, -⟩ := turn_some hturn
    cases q with
    | irq =>
      obtain ⟨same, -⟩ := interruptContextKeepsOwnerState s u hok busy hstep
      have kept : CalendarKept s u := by rw [same]; exact ⟨rfl, rfl⟩
      exact absurd kept moved
    | owner =>
      rcases stepEffect_calendar hp (seqStep_effect hstep) with kept | ⟨hu, hi⟩ | held
      · exact absurd kept moved
      · exact .inr (.inl ⟨busy, turn_owner hturn, hu, hi⟩)
      · exact .inr (.inr (.inl held))
  | move m rest head enabled other taken =>
    by_cases htick : m = .env .calendarTick
    · subst htick
      have cond : initf s = false ∧ rtcEnabled s = true := by simpa [moveEnabled, drawEnabled] using enabled
      exact .inl ⟨rest, head, cond⟩
    by_cases hpower : ∃ d, m = .powerOn d
    · obtain ⟨d, rfl⟩ := hpower
      exact .inr (.inr (.inr ⟨d, rest, head⟩))
    · exact .inr (.inr (.inl ((takeMove_calendar (s := withMoves rest s) hp other htick (not_exists.mp hpower) taken).resolve_left
        moved)))

end Sys2Proof.Machine
end

section
/-! SUPPORT. The key FSM and the guards of the RTC registers (R35, R42, R43), the gates of PWR_CR and RCC_CSR (R46, R109), and
the backup domain at its reset values (R52, R107). -/

namespace Sys2Proof.Machine

/-! ### The key FSM (R35) -/

/-- No register presents the write-protection state. -/
theorem readReg_fst_withWp (r : Reg) (s : State) (w : WpState) : (readReg r { s with wp := w }).1 = (readReg r s).1 := by
  cases r <;> rfl

/-- Settles O11: a key write moves no level and, the domain being live, is the whole step; its word is `keyStep`. -/
theorem keySequence : Obligations.KeySequence := by
  intro s hr hl
  refine ⟨fun v => ?_, fun r w => readReg_fst_withWp r s w, rfl⟩
  rw [memWrite_regAddr hr.params, settle_writeWpr (hr.calm hl)]
  rfl

/-! ### Locked registers (R42) -/

/-- In a sound state nothing follows a write that changes nothing. -/
theorem RegsOk.settle {s : State} (h : RegsOk s) : settle s = s := settle_of_regs h.held h.levels

/-- The registers whose writes the key FSM gates whole. -/
theorem writeReg_locked {s : State} {r : Reg} (hw : s.wp ≠ .unlocked) (v : Word)
    (hr : r = .tr ∨ r = .dr ∨ r = .cr ∨ r = .prer ∨ r = .wutr) : writeReg r v s = s := by
  have locked : unlocked s = false := by simpa [unlocked] using hw
  rcases hr with rfl | rfl | rfl | rfl | rfl <;> simp [writeReg, writeTr, writeDr, writeCr, writePrer, writeWutr, locked]

/-- A write of RTC_ISR while locked: the clearable flags that the word holds 0 in. -/
theorem writeReg_isr_locked {s : State} (hw : s.wp ≠ .unlocked) (v : Word) :
    writeReg .isr v s = { s with rtcIsr := s.rtcIsr &&& (v ||| ~~~isrClearable s) } := by
  have locked : unlocked s = false := by simpa [unlocked] using hw
  have word : s.rtcIsr &&& ~~~(isrClearable s &&& ~~~v) = s.rtcIsr &&& (v ||| ~~~isrClearable s) := by
    rw [BitVec.not_and, BitVec.not_not, BitVec.or_comm]
  simp only [writeReg, writeIsr, locked, Bool.false_eq_true, if_false, word]

/-- A held domain's RTC_ISR has no flag that a write can clear (R52). -/
theorem isrReset_and_not_clearable (s : State) (v : Word) : 0x00000007#32 &&& (v ||| ~~~isrClearable s) = 0x00000007#32 := by
  refine and_mask_id (inside_or_right v ?_)
  rw [BitVec.not_not, ← and_mask_id (isrClearable_inside s), BitVec.and_comm (isrClearable s), ← BitVec.and_assoc,
    show 0x00000007#32 &&& isrKeep = 0#32 by decide, BitVec.zero_and]

/-- Settles O12: a locked write of a protected register is none; of RTC_ISR it clears unprotected flags, which a held domain does
not have; RTC_WPR is not protected. -/
theorem lockedWritesAreIgnored : Obligations.LockedWritesAreIgnored := by
  intro s v hr hw
  refine ⟨fun r hreg => ?ignored, ?isr, fun hl => ?key⟩
  case ignored => rw [memWrite_regAddr hr.params, writeReg_locked hw v hreg, hr.settle]
  case isr =>
    have clearable := isrClearable_eq s
    rw [if_neg hw] at clearable
    rw [memWrite_regAddr hr.params, writeReg_isr_locked hw, hr.settle_isr fun h7 => by rw [h7, isrReset_and_not_clearable], clearable]
  case key =>
    rw [memWrite_regAddr hr.params, settle_writeWpr (hr.calm hl)]
    rfl

/-! ### Unlocked registers under their guards (R43) -/

theorem writeReg_init_closed {s : State} {r : Reg} (hf : initf s = false) (v : Word) (hr : r = .tr ∨ r = .dr ∨ r = .prer) :
    writeReg r v s = s := by
  rcases hr with rfl | rfl | rfl <;> simp [writeReg, writeTr, writeDr, writePrer, hf]

theorem writeReg_wutr_closed {s : State} (hf : wutwf s = false) (v : Word) : writeReg .wutr v s = s := by
  simp [writeReg, writeWutr, hf]

theorem blend_getLsbD (m x v : Word) {n : Nat} (hn : n < 32) :
    (blend m x v).getLsbD n = if m.getLsbD n then v.getLsbD n else x.getLsbD n := by
  simp only [blend, BitVec.getLsbD_or, BitVec.getLsbD_and, BitVec.getLsbD_not, hn, decide_true, Bool.true_and]
  cases m.getLsbD n <;> simp

/-- Which bits of RTC_CR a write changes now. -/
theorem crWritable_getLsbD (s : State) {n : Nat} (hn : n < 32) : (crWritable s).getLsbD n = true ↔
    ¬24 ≤ n ∧ ¬((n = 7 ∨ n = 6 ∨ n = 4) ∧ initf s = false) ∧ ¬(n ≤ 2 ∧ ¬(wute s = false ∧ wutwf s = true)) := by
  unfold crWritable
  cases initf s <;> cases wute s <;> cases wutwf s <;> interval_cases n <;> decide

/-- Settles O13: each guard open or closed; an open bracket means a live domain, where a calendar, prescaler or reload write is the
whole step and a write of RTC_CR is followed by its edges. -/
theorem guardedWrites : Obligations.GuardedWrites := by
  intro s v hr hu
  have hl := hr.live_of_unlocked hu
  have hc := hr.calm hl
  have write (r : Reg) := memWrite_regAddr hr.params r v
  refine ⟨fun hf r hreg => ?closed, fun hf => ⟨?tr, ?dr, ?prer⟩, fun hf => ?wutrClosed, fun hf => ?wutr, ?_, ?cr, ?crBits⟩
  case closed => rw [write, writeReg_init_closed hf v hreg, hr.settle]
  case tr => rw [write, writeReg_tr_open (initOpen_of hu hf)]; exact congrArg some (Calm.settle (hc.congr rfl rfl rfl rfl))
  case dr => rw [write, settle_writeReg_dr_open hc (initOpen_of hu hf)]
  case prer => rw [write, writeReg_prer_open (initOpen_of hu hf)]; exact congrArg some (Calm.settle (hc.congr rfl rfl rfl rfl))
  case wutrClosed => rw [write, writeReg_wutr_closed hf, hr.settle]
  case wutr =>
    have opened : writeReg .wutr v s = { s with rtcWutr := v &&& wutrMask } := if_pos (by simp [unlocked, hu, hf])
    rw [write, opened]; exact congrArg some (Calm.settle (hc.congr rfl rfl rfl rfl))
  case cr =>
    have opened : writeReg .cr v s = { s with rtcCr := blend (crWritable s) s.rtcCr v } := if_pos (by simp [unlocked, hu])
    rw [write, opened, settle_of_live (by exact hl)]
  case crBits =>
    intro n hn
    rw [blend_getLsbD _ _ _ hn]
    simp only [crWritable_getLsbD s hn]
    by_cases h24 : 24 ≤ n
    · rw [if_neg (fun h => h.1 h24), if_pos h24, ← and_mask_id hr.cr, BitVec.getLsbD_and, show crMask = lowMask 24 by decide,
        lowMask_getLsbD 24 n hn, decide_eq_false (Nat.not_lt.mpr h24), Bool.and_false]
    · by_cases init : (n = 7 ∨ n = 6 ∨ n = 4) ∧ initf s = false
      · rw [if_neg (fun h => h.2.1 init), if_neg h24, if_pos init]
      · by_cases sel : n ≤ 2 ∧ ¬(wute s = false ∧ wutwf s = true)
        · rw [if_neg (fun h => h.2.2 sel), if_neg h24, if_neg init, if_pos sel]
        · rw [if_pos ⟨h24, init, sel⟩, if_neg h24, if_neg init, if_neg sel]

/-! ### The backup domain at its reset values (R52, R107) -/

/-- Every part of the backup domain holds its reset value. -/
structure DomainReset (s : State) : Prop where
  tr : s.calTr = 0x00000000#32
  dr : s.calDr = 0x00002101#32
  cr : s.rtcCr = 0x00000000#32
  isr : s.rtcIsr = 0x00000007#32
  prer : s.rtcPrer = 0x007F00FF#32 &&& prerMask s.par
  wutr : s.rtcWutr = 0x0000FFFF#32
  wp : s.wp = .locked
  lock : s.drLock = none
  csr : s.rccCsr &&& csrBackupMask s.par = 0#32

theorem domainReset_backup (s : State) : DomainReset (backupDomainReset s) :=
  ⟨rfl, rfl, rfl, rfl, rfl, rfl, rfl, rfl, andNot_and_of_inside _ (inside_refl _)⟩

/-- A domain at its reset values is not changed by being held there. -/
theorem DomainReset.hold {s : State} (h : DomainReset s) : holdDomain s = s := by
  have csr : s.rccCsr &&& ~~~csrBackupMask s.par = s.rccCsr := and_mask_id (by rw [BitVec.not_not]; exact h.csr)
  have reset : backupDomainReset s = s := by
    rw [backupDomainReset, csr, ← h.tr, ← h.dr, ← h.isr, ← h.prer, ← h.wutr, ← h.wp, ← h.lock]
    exact congrArg (fun w => { s with rtcCr := w }) (h.tr.trans h.cr.symm)
  unfold holdDomain
  split
  · exact reset
  · rfl

theorem RegsOk.domainReset {s : State} (h : RegsOk s) (hd : domainHeld s = true) : DomainReset s := by
  have held := h.held
  rw [holdDomain, if_pos hd] at held
  exact held ▸ domainReset_backup s

/-- With up-to-date levels nothing follows a change that a held domain does not see. -/
theorem settle_of_domainReset {s : State} (hd : domainHeld s = true → DomainReset s) (hl : s.lvl = levelsOf s) : settle s = s := by
  refine settle_of_regs ?_ hl
  cases held : domainHeld s with
  | false => exact holdDomain_of_live held
  | true => exact (hd held).hold

/-! ### The gates of PWR_CR and RCC_CSR (R46, R109) -/

/-- The fields of RCC_CSR in the backup domain, bit by bit (R107). -/
theorem csrBackupMask_getLsbD {p : Params} (h : paramsOk p = true) (n : Nat) : (csrBackupMask p).getLsbD n =
    decide (n = 8 ∨ n = 9 ∨ n = 10 ∨ n = p.rtcselLsb ∨ n = p.rtcselLsb + 1 ∨ n = 22) := by
  have hl := (csrPlaces h).rtcsel
  simp only [csrBackupMask, rtcselMask, BitVec.getLsbD_or, bit_getLsbD 8 n (by decide), bit_getLsbD 9 n (by decide),
    bit_getLsbD 10 n (by decide), bit_getLsbD 22 n (by decide), bit_getLsbD (p.rtcselLsb + 1) n hl,
    bit_getLsbD p.rtcselLsb n (by omega), Bool.decide_or, Bool.or_assoc]

theorem csrBackupMask_lsi {p : Params} (h : paramsOk p = true) {n : Nat} (hn : n < 8) (hl : n ≠ p.rtcselLsb)
    (hl' : n ≠ p.rtcselLsb + 1) : (csrBackupMask p).getLsbD n = false := by
  rw [csrBackupMask_getLsbD h, decide_eq_false]
  omega

theorem csrBackupMask_lsion {p : Params} (h : paramsOk p = true) : (csrBackupMask p).getLsbD 0 = false :=
  csrBackupMask_lsi h (by decide) (Ne.symm ((csrPlaces h).rtcsel_ne _ (.inl rfl)).1)
    (Ne.symm ((csrPlaces h).rtcsel_ne _ (.inr rfl)).1)

/-- The bits of RCC_CSR outside the backup domain are not touched by what follows a write. -/
theorem settle_rccCsr_getLsbD (u : State) {n : Nat} (hn : n < 32) (hb : (csrBackupMask u.par).getLsbD n = false) :
    (settle u).rccCsr.getLsbD n = u.rccCsr.getLsbD n := by
  show (holdDomain u).rccCsr.getLsbD n = _
  unfold holdDomain
  split
  · rw [backupDomainReset, BitVec.getLsbD_and, BitVec.getLsbD_not, hb, decide_eq_true hn]
    simp only [Bool.not_false, Bool.and_self, Bool.and_true]
  · rfl

/-- The mask of RCC_CSR that a write changes while DBP = 1 has LSION and the domain-reset bit. -/
theorem csrOpen_getLsbD {p : Params} (h : paramsOk p = true) {n : Nat} (hn : n = 0 ∨ n = p.domrstBit) :
    (bit 0 ||| csrGatedMask p).getLsbD n = true := by
  have hd := (csrPlaces h).domrst
  rw [csrGatedMask]
  rcases hn with rfl | rfl
  · rw [BitVec.getLsbD_or, bit_getLsbD 0 0 (by decide), decide_eq_true rfl, Bool.true_or]
  · rw [BitVec.getLsbD_or, BitVec.getLsbD_or, bit_getLsbD p.domrstBit _ hd, decide_eq_true rfl, Bool.or_true, Bool.or_true]

/-- A write of RCC_CSR while DBP = 1. -/
theorem writeReg_csr_dbp {s : State} (hd : dbp s = true) (v : Word) :
    writeReg .csr v s = { s with rccCsr := blend (bit 0 ||| csrGatedMask s.par) s.rccCsr v } := by
  simp only [writeReg, writeCsr, hd, if_true]

/-- Settles O17: each write is computed on its register; PWR is no part of the backup domain, a write of LSION alone leaves the
domain reset as it is, and a gated write is the whole step unless it raises that reset. -/
theorem powerGates : Obligations.PowerGates := by
  intro s v hr
  have hp := hr.params
  have places := csrPlaces hp
  have write (r : Reg) := memWrite_regAddr hp r v
  refine ⟨fun hg => ?closed, fun hg => ?power, fun hd => ?lsion, fun hd => ⟨_, write .csr, fun n hn => ?bits, fun hv => ?gated⟩⟩
  case closed =>
    have kept : writeReg .pwrCr v s = s := if_neg (by simp [hg])
    rw [write, kept, hr.settle]
  case power =>
    have opened : writeReg .pwrCr v s = _ := if_pos hg
    rw [write, opened]
    exact congrArg some (settle_of_domainReset (fun held => { hr.domainReset held with }) hr.levels)
  case lsion =>
    have written : writeReg .csr v s = { s with rccCsr := blend (bit 0) s.rccCsr v } := by
      simp only [writeReg, writeCsr, hd, Bool.false_eq_true, if_false, BitVec.or_zero]
    rw [write, written]
    refine congrArg some (settle_of_domainReset (fun held => ?_) hr.levels)
    have heldBefore : domainHeld s = true :=
      (blend_getLsbD_outside _ _ places.domrst (bit_domrst 0 (by decide) places.domrst_ne.1)).symm.trans held
    have reset := hr.domainReset heldBefore
    refine { reset with csr := ?_ }
    have lsion := bit_and_eq_zero (by decide) (csrBackupMask_lsion hp)
    rw [← BitVec.not_not (b := csrBackupMask s.par)] at lsion
    have backup := reset.csr
    rw [← BitVec.not_not (b := csrBackupMask s.par)] at backup
    rw [← BitVec.not_not (b := csrBackupMask s.par)]
    exact blend_inside backup lsion
  case bits =>
    have hn32 : n < 32 := by rcases hn with rfl | rfl; exacts [by decide, places.domrst]
    have outside : (csrBackupMask s.par).getLsbD n = false := by
      rcases hn with rfl | rfl; exacts [csrBackupMask_lsion hp, csrBackup_domrst hp]
    rw [settle_rccCsr_getLsbD _ hn32 (by rw [writeReg_par]; exact outside), writeReg_csr_dbp hd, blend_getLsbD _ _ _ hn32,
      csrOpen_getLsbD hp hn, if_pos rfl]
  case gated =>
    rw [writeReg_csr_dbp hd]
    refine settle_of_calm ?_ hr.levels
    exact (blend_getLsbD _ _ _ places.domrst).trans (by rw [csrOpen_getLsbD hp (.inr rfl), if_pos rfl, hv])

/-! ### The domain reset (R107) -/

/-- What a write of RCC_CSR that raises the domain reset leaves: the backup domain at its reset values, then the edges. -/
theorem settle_writeCsr_held {s : State} {v : Word} (hp : paramsOk s.par = true) (hd : dbp s = true)
    (hv : v.getLsbD s.par.domrstBit = true) :
    settle (writeReg .csr v s) =
      detectEdges (backupDomainReset { s with rccCsr := blend (bit 0 ||| csrGatedMask s.par) s.rccCsr v }) := by
  have raised : domainHeld { s with rccCsr := blend (bit 0 ||| csrGatedMask s.par) s.rccCsr v } = true :=
    (blend_getLsbD _ _ _ (csrPlaces hp).domrst).trans (by rw [csrOpen_getLsbD hp (.inr rfl), if_pos rfl, hv])
  rw [writeReg_csr_dbp hd, settle, holdDomain, if_pos raised]

theorem getLsbD_of_and_eq_zero {x m : Word} (h : x &&& m = 0#32) {n : Nat} (hn : m.getLsbD n = true) : x.getLsbD n = false := by
  have at_n := congrArg (fun w => w.getLsbD n) h
  simpa [BitVec.getLsbD_and, hn] using at_n

/-- A backup domain at its reset values has its bits of RCC_CSR 0. -/
theorem DomainReset.csrBit {s : State} (h : DomainReset s) (hp : paramsOk s.par = true) {n : Nat}
    (hn : n = 8 ∨ n = 9 ∨ n = 10 ∨ n = s.par.rtcselLsb ∨ n = s.par.rtcselLsb + 1 ∨ n = 22) : s.rccCsr.getLsbD n = false :=
  getLsbD_of_and_eq_zero h.csr (by rw [csrBackupMask_getLsbD hp, decide_eq_true hn])

/-- Settles O18: the write raises the reset in its own step; from then on each tick ends in a sound state, whose held domain is at
its reset values. -/
theorem backupDomainReset_resetsAndHolds : Obligations.BackupDomainReset := by
  refine ⟨fun s v hr hd hv => ?raised, fun s t hok hheld ht hheld' => ?ticked⟩
  case raised =>
    have hp := hr.params
    have reset := domainReset_backup { s with rccCsr := blend (bit 0 ||| csrGatedMask s.par) s.rccCsr v }
    have backup {n : Nat} := reset.csrBit hp (n := n)
    refine ⟨_, (memWrite_regAddr hp .csr v).trans (congrArg some (settle_writeCsr_held hp hd hv)), reset.tr, reset.dr, reset.cr,
      reset.isr, reset.prer, reset.wutr, reset.wp, reset.lock, backup (.inl rfl), backup (by omega), backup (by omega),
      backup (.inr (.inr (.inr (.inl rfl)))), backup (.inr (.inr (.inr (.inr (.inl rfl))))), backup (by omega), rfl, rfl, rfl⟩
  case ticked =>
    obtain ⟨tr, dr, cr, isr, prer, wutr, wp, lock, csr⟩ := (tick_regs ht hok.regs).domainReset hheld'
    rw [tick_par ht] at prer csr
    exact ⟨tr, dr, cr, isr, prer, wutr, wp, lock, csr⟩

end Sys2Proof.Machine
end

section
/-! SUPPORT. The resets (R51 to R53, R190 to R192) and the reset state. -/

namespace Sys2Proof.Machine

/-- A reset at the head of the schedule is taken at once. -/
theorem step_of_enabled {s : State} {m : Move} {rest : List Move} (hp : paramsOk s.par = true) (hw : s.port.word = none)
    (hm : s.moves = m :: rest) (he : moveEnabled m s = true) : step s = takeMove m { s with moves := rest } := by
  have ready : readyMove s = some (m, rest) := by simp only [readyMove, hm, he, if_true]
  rw [step_eq_tick hp hw, tick, ready]

/-- Settles O23: the block reset is the next move. -/
theorem blockReset_resetsTheBlock : Obligations.BlockReset :=
  fun _ _ hp hw hm => step_of_enabled hp hw hm rfl

/-! ### System reset (R53, R190 (2)) -/

theorem csrAfterSystemReset_getLsbD {p : Params} (h : paramsOk p = true) (old drawn : Word) {n : Nat} (hn : n < 32) :
    (csrAfterSystemReset p old drawn).getLsbD n =
      if (csrBackupMask p).getLsbD n then old.getLsbD n
      else if n = p.domrstBit then old.getLsbD n && drawn.getLsbD n
      else if n = 0 ∨ n = 1 then false else drawn.getLsbD n := by
  have backup := csrBackup_domrst h
  have places := csrPlaces h
  simp only [csrAfterSystemReset, BitVec.getLsbD_or, BitVec.getLsbD_and, BitVec.getLsbD_not, hn, decide_true, Bool.true_and,
    bit_getLsbD _ n places.domrst, bit_getLsbD 0 n (by decide), bit_getLsbD 1 n (by decide)]
  by_cases isDomrst : n = p.domrstBit
  · rw [isDomrst, backup]; simp
  · by_cases isLsi : n = 0 ∨ n = 1 <;> cases (csrBackupMask p).getLsbD n <;> simp [isDomrst, isLsi]
    all_goals omega

/-- A system reset keeps the backup domain's fields of RCC_CSR. -/
theorem csrAfterSystemReset_backup {p : Params} (h : paramsOk p = true) (old drawn : Word) :
    csrAfterSystemReset p old drawn &&& csrBackupMask p = old &&& csrBackupMask p := by
  refine BitVec.eq_of_getLsbD_eq fun n hn => ?_
  rw [BitVec.getLsbD_and, BitVec.getLsbD_and, csrAfterSystemReset_getLsbD h _ _ hn]
  cases (csrBackupMask p).getLsbD n <;> simp

/-- A system reset never raises the domain reset (R52). -/
theorem csrAfterSystemReset_domrst {p : Params} (h : paramsOk p = true) {old drawn : Word}
    (hd : (csrAfterSystemReset p old drawn).getLsbD p.domrstBit = true) : old.getLsbD p.domrstBit = true := by
  rw [csrAfterSystemReset_getLsbD h _ _ (csrPlaces h).domrst, csrBackup_domrst h, if_neg Bool.false_ne_true, if_pos rfl,
    Bool.and_eq_true] at hd
  exact hd.1

theorem csrAfterSystemReset_lsi {p : Params} (h : paramsOk p = true) (old drawn : Word) {n : Nat} (hn : n = 0 ∨ n = 1) :
    (csrAfterSystemReset p old drawn).getLsbD n = false := by
  have places := csrPlaces h
  have outside : (csrBackupMask p).getLsbD n = false :=
    csrBackupMask_lsi h (by omega) (fun e => by have := places.rtcsel_ne n; omega) (fun e => by have := places.rtcsel_ne n; omega)
  rw [csrAfterSystemReset_getLsbD h _ _ (by omega), outside, if_neg Bool.false_ne_true,
    if_neg (by have := places.domrst_ne; omega), if_pos hn]

/-- From sound registers a system reset makes no edge, and a domain it leaves held was held before. -/
theorem systemReset_eq {s : State} (h : RegsOk s) (d : ResetDraw) : systemReset d s = { blockReset s with
    extiImr := 0#32, extiEmr := d.extiEmr &&& lineMask s.par, extiRtsr := 0#32, extiFtsr := 0#32, extiSwier := 0#32
    extiPr := d.extiPr &&& lineMask s.par, pwrCr := d.pwrCr &&& ~~~(bit 8 ||| bit 2), pwrCsr := d.pwrCsr
    apb1enr := d.apb1enr &&& ~~~bit 28, rccCsr := csrAfterSystemReset s.par s.rccCsr d.rccCsr } := by
  refine settle_of_domainReset (fun held => ?_) h.levels
  have reset := h.domainReset (csrAfterSystemReset_domrst h.params held)
  exact { reset with csr := (csrAfterSystemReset_backup h.params _ _).trans reset.csr }

/-- Settles O24: `systemReset_eq` gives the state; the bits are those of the masks. -/
theorem systemReset_clearsAndKeeps : Obligations.SystemReset := by
  intro s d rest hr hw hm
  have hr' : RegsOk { s with moves := rest } := hr.congr rfl
  have next : step s = .next _ := (step_of_enabled hr.params hw hm rfl).trans (congrArg Host.Outcome.next (systemReset_eq hr' d))
  have dbpOff : (d.pwrCr &&& ~~~(bit 8 ||| bit 2)).getLsbD 8 = false := by simp [bit]
  have pwrenOff : (d.apb1enr &&& ~~~bit 28).getLsbD 28 = false := by simp [bit]
  have lsi {n : Nat} (hn : n = 0 ∨ n = 1) := csrAfterSystemReset_lsi hr.params s.rccCsr d.rccCsr hn
  exact ⟨_, next, seqReset_resetSeq _, seqReset_resetSeq _, rfl, rfl, rfl, rfl, rfl, rfl, rfl, rfl, dbpOff, pwrenOff,
    lsi (.inl rfl), lsi (.inr rfl), rfl, rfl, csrAfterSystemReset_backup hr.params _ _, rfl, rfl, rfl, rfl, rfl, rfl, rfl, rfl, rfl⟩

/-! ### Power-on (R190 (4)) -/

/-- With neither trigger set no edge sets a pending bit. -/
theorem edgePending_of_no_triggers {s : State} (hr : s.extiRtsr = 0#32) (hf : s.extiFtsr = 0#32) : edgePending s = 0#32 := by
  simp [edgePending, edgeSets, hr, hf]

/-- A power-on leaves a live domain, and makes no edge. -/
theorem powerOnReset_eq (d : ResetDraw) (s : State) : powerOnReset d s = { backupDomainReset (blockReset s) with
    extiImr := 0#32, extiEmr := d.extiEmr &&& lineMask s.par, extiRtsr := 0#32, extiFtsr := 0#32, extiSwier := 0#32
    extiPr := d.extiPr &&& lineMask s.par, pwrCr := 0#32, pwrCsr := d.pwrCsr, apb1enr := 0#32, rccCsr := 0#32
    lvl := levelsOf (backupDomainReset s) } := by
  rw [powerOnReset, settle_of_live (by exact BitVec.getLsbD_zero), detectEdges, edgePending_of_no_triggers rfl rfl, BitVec.or_zero]
  rfl

/-- Settles O25: sound registers by `regsOk_powerOn`, the values by `powerOnReset_eq`. -/
theorem powerOnReset_leavesResetValues : Obligations.PowerOnReset := by
  intro s d rest hp hw hm
  have regs := regsOk_powerOn (s := { s with moves := rest }) hp d
  have eq := powerOnReset_eq d { s with moves := rest }
  rw [eq] at regs
  have next : step s = .next _ := (step_of_enabled hp hw hm rfl).trans (congrArg Host.Outcome.next eq)
  have low (n : Nat) : (0#32).getLsbD n = false := BitVec.getLsbD_zero
  exact ⟨_, next, regs, seqReset_resetSeq _, seqReset_resetSeq _, rfl, rfl, rfl, rfl, rfl, rfl, rfl, rfl, rfl, rfl, rfl, rfl, rfl,
    rfl, rfl, rfl, rfl, rfl, low _, low _, low _, low _, low _, low _, low _, low _, low _, low _, rfl⟩

/-! ### The reset state -/

theorem regsOk_reset : RegsOk State.reset where
  params := by decide
  tr := by decide
  dr := by decide
  lock := fun _ e => nomatch e
  cr := by decide
  isr := by decide
  prer := by decide
  wutr := by decide
  imr := by decide
  emr := by decide
  rtsr := by decide
  ftsr := by decide
  swier := by decide
  pr := by decide
  cwuf := by decide
  held := rfl
  levels := rfl

theorem seqReset_reset : SeqReset Seq.reset := ⟨rfl, rfl, rfl, rfl, rfl⟩

/-- Settles O55: the reset state is sound by `machineOk_of_reset`; its values are the definition's. -/
theorem resetIsSound : Obligations.ResetIsSound :=
  ⟨machineOk_of_reset regsOk_reset seqReset_reset seqReset_reset rfl rfl rfl rfl, seqReset_reset, seqReset_reset, rfl, rfl, rfl,
    rfl, rfl, rfl, rfl, rfl, rfl, rfl, rfl, rfl, rfl, rfl, rfl, rfl, rfl, rfl, rfl, rfl, rfl, rfl, rfl, rfl, rfl, rfl⟩

end Sys2Proof.Machine
end

section
/-! SUPPORT. The line commands on a line that exists (R152 to R154), the edge of UNPEND_EVENT (R150) and the run of LISTEN (R149). -/

namespace Sys2Proof.Machine

/-! ### The line commands (R152 to R154) -/

theorem bit_and_eq_ite (x : Word) {n : Nat} (hn : n < 32) : bit n &&& x = if x.getLsbD n then bit n else 0#32 := by
  rw [BitVec.and_comm]
  split
  case isTrue h => exact (and_bit_eq_bit hn).mpr h
  case isFalse h => exact (and_bit_eq_zero hn).mpr (Bool.eq_false_iff.mpr h)

/-- Pending one line that exists (R182). -/
theorem writeReg_swier_bit {s : State} {n : Nat} (hn : n < 32) (hl : n < s.par.nLines) : writeReg .swier (bit n) s = { s with
    extiSwier := s.extiSwier ||| bit n
    extiPr := if s.extiSwier.getLsbD n = false ∧ (s.extiImr.getLsbD n = true ∨ s.par.swierNeedsImr = false)
      then s.extiPr ||| bit n else s.extiPr } := by
  have swier : (writeSwier (bit n) s).extiSwier = s.extiSwier ||| bit n := by
    refine BitVec.eq_of_getLsbD_eq fun i hi => ?_
    rw [writeSwier_extiSwier_getLsbD _ _ hi, BitVec.getLsbD_or, bit_getLsbD n i hn]
    by_cases e : i = n
    · subst e; rw [decide_eq_true hl, Bool.and_true]
    · rw [decide_eq_false e, Bool.false_and]
  have pr : (writeSwier (bit n) s).extiPr =
      if s.extiSwier.getLsbD n = false ∧ (s.extiImr.getLsbD n = true ∨ s.par.swierNeedsImr = false)
        then s.extiPr ||| bit n else s.extiPr := by
    refine BitVec.eq_of_getLsbD_eq fun i hi => ?_
    rw [writeSwier_extiPr_getLsbD _ _ hi, bit_getLsbD n i hn]
    by_cases e : i = n
    · subst e
      cases hs : s.extiSwier.getLsbD i <;> cases hm : s.extiImr.getLsbD i <;> cases s.par.swierNeedsImr <;>
        simp [hl, bit_getLsbD i i hn]
    · rw [decide_eq_false e, Bool.false_and, Bool.false_and, Bool.false_and, Bool.or_false]
      split
      · exact (getLsbD_or_bit_ne hn e).symm
      · rfl
  rw [← swier, ← pr]
  rfl

/-- Clearing one line's pending bit (R45). -/
theorem writeReg_pr_bit (s : State) {n : Nat} (hn : n < 32) : writeReg .pr (bit n) s = { s with
    extiPr := s.extiPr &&& ~~~bit n
    extiSwier := if s.extiPr.getLsbD n then s.extiSwier &&& ~~~bit n else s.extiSwier } := by
  have swier : s.extiSwier &&& ~~~(bit n &&& s.extiPr) =
      if s.extiPr.getLsbD n then s.extiSwier &&& ~~~bit n else s.extiSwier := by
    rw [bit_and_eq_ite _ hn]
    split
    · rfl
    · exact BitVec.and_allOnes
  rw [← swier]
  rfl

section
variable {q : SeqId} {s : State} {i : Instr} {l : BitVec 8} (hl : l.toNat < s.par.nLines)
  (hx : (loadedLatches i).x0 = some (l.setWidth 32))
include hl hx

/-- The line check of an existing line holds no fault. -/
theorem lineCheck_passes {prog : List MicroOp} (h0 : prog[0]? = some (lineFault s.par))
    (hR : Running q (setSeq s q (loadedSeq (seqOf s q) i)) prog) (hs : Silent q (setSeq s q (loadedSeq (seqOf s q) i))) :
    Leads q 1 (atPc q (setSeq s q (loadedSeq (seqOf s q) i)) 0) (atPc q (setSeq s q (loadedSeq (seqOf s q) i)) 1) := by
  have inRange := lx0_toNat hx (zext8 l) fun n => decide (s.par.nLines ≤ n)
  rw [decide_eq_false (Nat.not_le.mpr hl)] at inRange
  exact hR.faultIfNot (k := 0) hs h0 (by rw [seqOf_setSeq_self]; exact inRange)

variable (hr : ContextReady q s) (hw : Waits q s.moves)
include hr hw

/-- A command that writes the bit of an existing line to a register, whose write leaves `t`. -/
theorem exec_lineWrite {r : Reg} {t : State} (hv : verdict q (some i) s = .accept)
    (hg : progOf s.par (opcode i) = some [lineFault s.par, .wr r (lx0 fun l => bit l.toNat), .done])
    (ht : settle (writeReg r (bit l.toNat) s) = t) :
    ∃ c, Finished c i 0x00#8 (seqOf s q).res ∧ exec i s = .next (setSeq t q c) := by
  refine ⟨{ loadedSeq (seqOf s q) i with pc := 3, status := 0x00#8, busy := false }, ⟨rfl, rfl, rfl, rfl, rfl⟩, ?_⟩
  rw [exec_eq_issue]
  refine issue_of_run (n := 3) hr hw hv hg (by decide) (fun hR hs => ?_) (.inl (by simp))
  have check := lineCheck_passes hl hx rfl hR hs
  have write := hR.wr (k := 1) (t := setSeq t q (loadedSeq (seqOf s q) i)) hs rfl
    (by rw [seqOf_setSeq_self]; exact lx0_toNat hx (zext8 l) fun n => bit n)
    (by rw [writeReg_setSeq, settle_setSeq, ht])
  have hR' := hR.congr (t := setSeq t q (loadedSeq (seqOf s q) i)) (by simp [← ht]) (by simp [← ht]) (by simp) (by simp)
    fun e => by subst e; simp [← ht]
  have finish := hR'.done (k := 2) (.of_waits (by simpa [← ht] using hw) hR'.busy) rfl
  simpa [complete, atPc] using (check.then write).then finish

/-- A command that answers from EXTI_PR whether an existing line is pending. -/
theorem exec_linePending (hv : verdict q (some i) s = .accept)
    (hg : progOf s.par (opcode i) = some [lineFault s.par, .rd 6 .pr,
      .res (lx06 fun l v => if v.getLsbD l.toNat then 1#64 else 0#64), .done]) :
    ∃ c, Finished c i 0x00#8 (if s.extiPr.getLsbD l.toNat then 1#64 else 0#64) ∧ exec i s = .next (setSeq s q c) := by
  let c6 : Seq := { loadedSeq (seqOf s q) i with x := { loadedLatches i with x6 := some s.extiPr } }
  let answer : BitVec 64 := if s.extiPr.getLsbD l.toNat then 1#64 else 0#64
  refine ⟨{ c6 with res := answer, pc := 4, status := 0x00#8, busy := false }, ⟨rfl, rfl, rfl, rfl, rfl⟩, ?_⟩
  rw [exec_eq_issue]
  refine issue_of_run (n := 4) hr hw hv hg (by decide) (fun hR hs => ?_) (.inl (by simp))
  have check := lineCheck_passes hl hx rfl hR hs
  have read := hR.rd (k := 1) hs rfl (readReg_pure (r := .pr) (by decide) (by decide) _)
  rw [seqOf_setSeq_self, readReg_fst_setSeq, setSeq_setSeq] at read
  have hR' := hR.congr (t := setSeq s q c6) (by simp) (by simp) (by simp [c6]) (by simp [c6]) fun e => by subst e; rfl
  have result := hR'.resThenDone (k := 2) (r := answer) (.of_waits (by simpa using hw) hR'.busy) rfl rfl
    (by simp only [seqOf_setSeq_self, c6, lx06, hx, zext8, answer])
  simpa [complete, atPc] using (check.then read).then result

end

/-- Settles O43: either context may issue the three commands; what the write of each leaves is its register's rule on one bit. -/
theorem lineCommandsComplete : Obligations.LineCommandsComplete := by
  intro q s l hr hw hl
  have hn : l.toNat < 32 := hl.trans_le (paramsFacts hr.regs.params).linesMax
  have accepted {i : Instr} (hwf : i.wellFormed = true) (hc : contextAllows .irq i = true) (hn : needOf i = .any) :
      verdict q (some i) s = .accept := hr.accepts hwf (by cases q; exacts [rfl, hc]) hn
  refine ⟨?pend, ?unpend, exec_linePending hl rfl hr hw (accepted rfl rfl rfl) rfl⟩
  case pend =>
    refine exec_lineWrite hl rfl hr hw (accepted rfl rfl rfl) rfl ?_
    rw [writeReg_swier_bit hn hl]
    exact hr.regs.settle_router _ _ s.pwrCsr
  case unpend =>
    refine exec_lineWrite hl rfl hr hw (accepted rfl rfl rfl) rfl ?_
    rw [writeReg_pr_bit s hn]
    exact hr.regs.settle_router _ _ s.pwrCsr

end Sys2Proof.Machine
end

section
/-! SUPPORT. The edge that UNPEND_EVENT makes (R150, R170), the run of LISTEN (R149), and GET_DATETIME on a snapshot that is no
date (R133). -/

namespace Sys2Proof.Machine

/-! ### UNPEND_EVENT (R150) -/

theorem edgeSets_same (s : State) (n : Nat) (l : Bool) : edgeSets s n l l = false := by
  cases l <;> rfl

/-- Clearing one event's flag makes an edge on that event's line only. -/
theorem edgePending_clearFlag {s u : State} (e : Event) (hl : u.lvl = levelsOf s) (hc : u.rtcCr = s.rtcCr)
    (hi : u.rtcIsr = s.rtcIsr &&& ~~~bit (eventFlagBit e)) {n : Nat} (hn : n ≠ eventLine e) : (edgePending u).getLsbD n = false := by
  have flag {k : Nat} (hk : k < 32) (ne : k ≠ eventFlagBit e) : u.rtcIsr.getLsbD k = s.rtcIsr.getLsbD k := by
    rw [hi]
    exact getLsbD_andNot_bit_ne (by cases e <;> decide) hk ne
  have l17 (h : eventLine e ≠ 17) : (levelsOf u).l17 = (levelsOf s).l17 := by
    simp only [levelsOf, alraf, alrbf, alraie, alrbie, hc, flag (k := 8) (by decide) (by revert h; cases e <;> decide),
      flag (k := 9) (by decide) (by revert h; cases e <;> decide)]
  have l19 (h : eventLine e ≠ 19) : (levelsOf u).l19 = (levelsOf s).l19 := by
    simp only [levelsOf, tsf, tsie, hc, flag (k := 11) (by decide) (by revert h; cases e <;> decide)]
  have l20 (h : eventLine e ≠ 20) : (levelsOf u).l20 = (levelsOf s).l20 := by
    simp only [levelsOf, wutf, wutie, hc, flag (k := 10) (by decide) (by revert h; cases e <;> decide)]
  have unmoved {k : Nat} {old new : Bool} (h : eventLine e ≠ k → new = old) : (decide (n = k) && edgeSets u k old new) = false := by
    by_cases hk : n = k
    · rw [h (hk ▸ hn.symm), edgeSets_same, Bool.and_false]
    · rw [decide_eq_false hk, Bool.false_and]
  rw [edgePending_getLsbD, hl, unmoved l17, unmoved l19, unmoved l20]
  rfl

/-- Settles O41: the run of `exec_unpendEvent`; its edge is on the event's own line, whose pending bit it then clears. -/
theorem unpendEventCompletes : Obligations.UnpendEventCompletes := by
  intro q s u e hr hw hu
  subst hu
  obtain ⟨c, hc, hex⟩ := exec_unpendEvent e hr hw
  let u : State := { wufCleared s with rtcIsr := s.rtcIsr &&& ~~~bit (eventFlagBit e) }
  have pr : (s.extiPr ||| edgePending u) &&& ~~~bit (eventLine e) = s.extiPr &&& ~~~bit (eventLine e) := by
    refine BitVec.eq_of_getLsbD_eq fun n hn => ?_
    by_cases h : n = eventLine e
    · rw [h, getLsbD_andNot_bit_self _ (h ▸ hn), getLsbD_andNot_bit_self _ (h ▸ hn)]
    · have noEdge := edgePending_clearFlag (s := s) (u := u) e hr.regs.levels rfl rfl h
      rw [BitVec.getLsbD_and, BitVec.getLsbD_and, BitVec.getLsbD_or, noEdge, Bool.or_false]
  refine ⟨c, hc, hex.trans ?_⟩
  rw [← pr]
  rfl

/-! ### LISTEN (R149) -/

/-- The RMW that sets bits of EXTI_RTSR on lines that exist. -/
theorem settle_setRtsr {s : State} (h : Calm s) {m : Word} (hm : m &&& ~~~lineMask s.par = 0#32)
    (hs : s.extiRtsr &&& ~~~lineMask s.par = 0#32) :
    settle (writeReg .rtsr (blend m (readReg .rtsr s).1 m) (readReg .rtsr s).2) = { s with extiRtsr := s.extiRtsr ||| m } := by
  show settle { s with extiRtsr := blend m s.extiRtsr m &&& lineMask s.par } = _
  rw [blend_self, and_mask_id (inside_or hs hm)]
  exact Calm.settle (h.congr rfl rfl rfl rfl)

/-- The same of EXTI_IMR. -/
theorem settle_setImr {s : State} (h : Calm s) {m : Word} (hm : m &&& ~~~lineMask s.par = 0#32)
    (hs : s.extiImr &&& ~~~lineMask s.par = 0#32) :
    settle (writeReg .imr (blend m (readReg .imr s).1 m) (readReg .imr s).2) = { s with extiImr := s.extiImr ||| m } := by
  show settle { s with extiImr := blend m s.extiImr m &&& lineMask s.par } = _
  rw [blend_self, and_mask_id (inside_or hs hm)]
  exact Calm.settle (h.congr rfl rfl rfl rfl)

theorem lx0_listenCode {α : Type} {x : Latches} {e : Event} (hx : x = loadedLatches (.listen e)) (f : Event → α) :
    lx0 (fun v => f (latchEvent v)) x = some (f e) := by
  subst hx; cases e <;> rfl

/-- The state of LISTEN before its LOCK: the bracket open, the event's triple set, with the edge this makes. -/
def listening (s : State) (e : Event) : State :=
  detectEdges { s with
    wp := .unlocked, extiRtsr := s.extiRtsr ||| bit (eventLine e), extiImr := s.extiImr ||| bit (eventLine e)
    rtcCr := s.rtcCr ||| bit (eventEnableBit e) }

/-- LISTEN up to its LOCK (R149). -/
theorem Running.listen {s : State} {e : Event} (h : Running .owner s progListen) (hr : RegsOk s) (hc : Calm s)
    (hw : Waits .owner s.moves) (hx : s.owner.x = loadedLatches (.listen e)) :
    Leads .owner 5 (atPc .owner s 0) (atPc .owner (listening s e) 5) := by
  have hline : bit (eventLine e) &&& ~~~lineMask s.par = 0#32 := bit_inside_lines (by
    have few := (paramsFacts hr.params).linesMin
    cases e <;> simp only [eventLine] <;> omega)
  have line := lx0_listenCode hx fun e => bit (eventLine e)
  have enable := lx0_listenCode hx fun e => bit (eventEnableBit e)
  have unlock := h.unlock (k := 0) hc (.of_waits hw h.busy) rfl rfl
  let s1 : State := { s with wp := .unlocked }
  have h1 : Running .owner s1 progListen := h.congr rfl rfl rfl rfl fun _ => rfl
  have c1 : Calm s1 := hc.congr rfl rfl rfl rfl
  have setRtsr := h1.rmw (k := 2) (.of_waits hw h1.busy) rfl line line (settle_setRtsr c1 hline hr.rtsr)
  let s2 : State := { s1 with extiRtsr := s.extiRtsr ||| bit (eventLine e) }
  have h2 : Running .owner s2 progListen := h1.congr rfl rfl rfl rfl fun _ => rfl
  have c2 : Calm s2 := c1.congr rfl rfl rfl rfl
  have setImr := h2.rmw (k := 3) (.of_waits hw h2.busy) rfl line line (settle_setImr c2 hline hr.imr)
  let s3 : State := { s2 with extiImr := s.extiImr ||| bit (eventLine e) }
  have h3 : Running .owner s3 progListen := h2.congr rfl rfl rfl rfl fun _ => rfl
  have writable := crWritable_unguarded s3 (m := bit (eventEnableBit e)) (by cases e <;> decide)
  have setEnable := h3.rmw (k := 4) (t := listening s e) (.of_waits hw h3.busy) rfl enable enable (by
    rw [writeReg_cr_field rfl writable, blend_self]
    exact settle_of_live hc.live)
  exact ((unlock.then setRtsr).then setImr).then setEnable

/-- Settles O40: the edge is that of the enable, under the new trigger; LOCK and END come after it and move no level. -/
theorem listenCompletes : Obligations.ListenCompletes := by
  intro s e hr hc hw
  let s0 : State := { s with owner := loadedSeq s.owner (.listen e) }
  have h : Running .owner s0 progListen := running_loaded hr.regs.params hr.noFault hr.irqIdle rfl
  have run := h.listen (hr.regs.congr rfl) ((hr.regs.calm hr.live).setSeq .owner _) hw rfl
  have hex := exec_endLocked hr (hr.accepts hc rfl rfl) (by decide) run (h.congr rfl rfl rfl rfl fun _ => rfl)
    (Calm.detectEdges hr.live) hw rfl rfl
  exact ⟨(endLocked (listening s0 e) 6).owner, ⟨rfl, rfl, rfl, rfl, rfl⟩, hex⟩

/-! ### GET_DATETIME (R132, R133) -/

/-- RSF after a snapshot: cleared where it is writable (R42). -/
theorem rsf_afterSnapshot (s : State) : (s.rtcIsr ||| bit 5) &&& ~~~(bit 5 &&& isrClearable s) =
    if s.wp = .unlocked ∨ s.par.rsfProtected = false then s.rtcIsr &&& ~~~bit 5 else s.rtcIsr ||| bit 5 := by
  have cleared : (s.rtcIsr ||| bit 5) &&& ~~~bit 5 = s.rtcIsr &&& ~~~bit 5 := by
    refine BitVec.eq_of_getLsbD_eq fun n hn => ?_
    simp only [BitVec.getLsbD_and, BitVec.getLsbD_or, BitVec.getLsbD_not]
    cases (bit 5).getLsbD n <;> simp
  rw [isrClearable_eq]
  by_cases unlocked : s.wp = .unlocked
  · rw [if_pos unlocked, if_pos (.inl unlocked), show bit 5 &&& isrKeep = bit 5 by decide, cleared]
  · rw [if_neg unlocked]
    cases writable : s.par.rsfProtected with
    | false =>
      rw [if_neg Bool.false_ne_true, if_pos (.inr rfl), show bit 5 &&& (0x00003F00#32 ||| 0x00000020#32) = bit 5 by decide, cleared]
    | true =>
      rw [if_pos rfl, if_neg (by simp [unlocked]), show bit 5 &&& (0x00003F00#32 ||| 0#32) = 0#32 by decide]
      exact BitVec.and_allOnes

/-- GET_DATETIME with RSF served and a snapshot that is no date faults at its `FAULTIF` (R133, R157). -/
theorem exec_getDatetime_faults {s : State} {rest : List Move} {y mo d h mi sec : Nat} (hr : OwnerReady s)
    (hc : s.constructed = true) (hm : SnapServed s rest) (hd : Decodes s.calTr s.calDr y mo d h mi sec)
    (invalid : snapOk y mo d h mi sec = false) :
    ∃ c, FaultedAt c s.owner .getDatetime 10 ∧ exec .getDatetime s = .next { s with
      owner := c, drLock := none, moves := rest
      faultCode := 0x02#8, faultSeq := .owner, faultWord := encode .getDatetime
      rtcIsr := (s.rtcIsr ||| bit 5) &&& ~~~(bit 5 &&& isrClearable s) } := by
  let s0 : State := { s with owner := loadedSeq s.owner .getDatetime }
  let v : State := snapshotTaken s0 rest (snapshotLatches s.calTr s.calDr y mo d h mi sec)
  have hR : Running .owner s0 progGetDatetime := running_loaded hr.regs.params hr.noFault hr.irqIdle rfl
  have Rv : Running .owner v progGetDatetime := hR.congr rfl rfl rfl rfl fun _ => rfl
  have snapshot := hR.snapshot ((hr.regs.calm hr.live).setSeq .owner _) ⟨hm.moves, hm.quiet, hm.runs⟩ hd
  have fault := Rv.faultIf (k := 10) (.of_waits hm.quiet hR.busy) rfl
    ((lx05_snapshotLatches hd fun y mo d h mi s => !snapOk y mo d h mi s).trans (by rw [invalid]; rfl))
  refine ⟨(atPc .owner v 10).owner, ⟨rfl, rfl, rfl, rfl, rfl, rfl⟩, ?_⟩
  rw [exec_eq_issue]
  refine issue_of_leads (n := 12) (by rw [hr.port]; exact hr.accepts hc rfl rfl) ?_ (by decide) ?_
  · rw [hr.port, loadCommand_eq]
    exact snapshot.then fault
  · rw [hr.port]
    exact drain_faulted rfl

theorem snapOk_iff {y mo d h mi sec : Nat} : snapOk y mo d h mi sec = true ↔
    1 ≤ mo ∧ mo ≤ 12 ∧ 1 ≤ d ∧ d ≤ daysIn y mo ∧ h ≤ 23 ∧ mi ≤ 59 ∧ sec ≤ 59 := by
  simp only [snapOk, Bool.and_eq_true, decide_eq_true_eq, and_assoc]

/-- Settles O31: the snapshot's fields are those of `Decodes`; its check decides between the two runs. -/
theorem getDatetimeReturnsOrFaults : Obligations.GetDatetimeReturnsOrFaults := by
  intro s rest y mo d h mi sec hr hc hm ey emo ed eh emi esec
  have decodes : Decodes s.calTr s.calDr y mo d h mi sec := ⟨ey, emo, ed, eh, emi, esec⟩
  rw [← snapOk_iff, ← rsf_afterSnapshot]
  exact ⟨exec_getDatetime hr hc hm decodes, fun bad => exec_getDatetime_faults hr hc hm decodes (Bool.eq_false_iff.mpr bad)⟩

end Sys2Proof.Machine
end
